-- ==== Sys2Proof/Word.lean ====
section
/-! DEFINITION. The word types of QRENC: a window byte (10_state R124), a bus and command word (20_memory R202,
30_encoding R300) and a bus address of the 2^20-byte host space (20_memory R201). -/

namespace Sys2Proof

/-- One element of a RAM window (8 bits; a cell uses its low 3). -/
abbrev Byte := BitVec 8

/-- One bus word or command word. -/
abbrev Word := BitVec 32

/-- One byte address of the host bus space. -/
abbrev Addr := BitVec 20

end Sys2Proof
end

