-- ==== Sys2Proof/Config.lean ====
section
/-! DEFINITION. What one implementation fixes (00_scope R6, R7) and the model's one free value (20_memory R211). -/

namespace Sys2Proof.Config

/-- `VER_MAX` (R6). -/
abbrev verMax : Nat := 40
/-- `SIDE_MAX` (R6): modules a side at version 40. -/
abbrev sideMax : Nat := 177
/-- Elements of `MAT` and of `WM` (10_state R124): 177 x 177. -/
abbrev cellCap : Nat := 31329
/-- `BS_CAP` (R6). -/
abbrev bsCap : Nat := 2956
/-- `ILV_CAP` (R6). -/
abbrev ilvCap : Nat := 3706
/-- `ECB_CAP` (R6). -/
abbrev ecbCap : Nat := 2430
/-- `DIGIT_CAP` (R6). -/
abbrev digitCap : Nat := 7089
/-- `EC_MAX` (R6): the largest generator degree. -/
abbrev ecMax : Nat := 68
/-- Elements of `GEN` (10_state R124). -/
abbrev genCap : Nat := 69
/-- Elements of `RSR` (10_state R124). -/
abbrev rsrCap : Nat := 68

/-- `N1` (R6), the base penalty of rule 1. -/
abbrev n1 : Nat := 3
/-- `N2` (R6), the penalty of rule 2. -/
abbrev n2 : Nat := 3
/-- `N3` (R6), the penalty of rule 3. -/
abbrev n3 : Nat := 40
/-- `N4` (R6, R7, 90_conflicts C2), the weight of rule 4: 40 for this hardware. -/
abbrev n4 : Nat := 40

/-- FREE VALUE (20_memory R211, 93 U2; log entry 5): what the host reads from a never-written element, one fresh
value for each such read. It has no body: no proof can see its value. -/
opaque freeElem : Nat → Byte

end Sys2Proof.Config
end

