-- ==== Sys2Proof/Syntax.lean ====
section
/-! DEFINITION. The commands of QRENC: one constructor per row of spec/opcode_table.json, each operand at the width
30_encoding R301 gives its field. -/

namespace Sys2Proof

/-- A command (30_encoding R304). The arguments are the operand fields of R302, in the order of the table. -/
inductive Instr where
  | nop
  | clear
  | gfInit
  | gfMul (a b : BitVec 8)
  | capLookup (v : BitVec 6) (e : BitVec 2)
  | select
  | compose
  | bsReset
  | bsAppend (w : BitVec 5) (x : BitVec 16)
  | bsTerminate
  | bsPad
  | genPoly (n : BitVec 8)
  | rsEncode (o : BitVec 12) (l : BitVec 8)
  | rsAll
  | interleave
  | build
  | verCalc (v : BitVec 6)
  | fmtCalc (e : BitVec 2) (m : BitVec 3)
  | zzReset
  | zzNext
  | place (m : BitVec 3)
  | score
  | maskSelect
  | encode
  deriving DecidableEq, Repr

end Sys2Proof
end

