-- ==== Sys2Proof/WellFormed.lean ====
section
/-! DEFINITION. Which commands have every operand in the legal range of their rule. The operand WIDTHS are in the
types of `Instr`; an ill-formed command still has a word and a meaning: it raises the error its rule names
(60_exceptions R1201, codes 2 and 3). -/

namespace Sys2Proof

/-- Every operand is in the range its command's rule calls legal: `CAP_LOOKUP` and `VER_CALC` take versions 1..40
(R510, R931), `BS_APPEND` widths 1..16 (R611), `GEN_POLY` degrees 1..68 (R710), and `RS_ENCODE` ranges inside
`BS` (R711). Every other command has no illegal operand value (60_exceptions R1201). -/
def Instr.wellFormed : Instr → Bool
  | .nop => true
  | .clear => true
  | .gfInit => true
  | .gfMul _ _ => true
  | .capLookup v _ => decide (1 ≤ v.toNat) && decide (v.toNat ≤ Config.verMax)
  | .select => true
  | .compose => true
  | .bsReset => true
  | .bsAppend w _ => decide (1 ≤ w.toNat) && decide (w.toNat ≤ 16)
  | .bsTerminate => true
  | .bsPad => true
  | .genPoly n => decide (1 ≤ n.toNat) && decide (n.toNat ≤ Config.ecMax)
  | .rsEncode o l => decide (o.toNat + l.toNat ≤ Config.bsCap)
  | .rsAll => true
  | .interleave => true
  | .build => true
  | .verCalc v => decide (1 ≤ v.toNat) && decide (v.toNat ≤ Config.verMax)
  | .fmtCalc _ _ => true
  | .zzReset => true
  | .zzNext => true
  | .place _ => true
  | .score => true
  | .maskSelect => true
  | .encode => true

end Sys2Proof
end

