-- ==== Sys2Proof/Decode.lean ====
section
/-! DEFINITION. Decoding command words (30_encoding R300 to R305, R310), total on all 2^32 words, and the encoder
written from the same format table (R301). -/

namespace Sys2Proof

/-- The nine operand formats of R301. -/
inductive Format where
  | n | ab | ve | n8 | ol | wv | m | em | v
  deriving DecidableEq, Repr

/-- Why a word is illegal (R305): its opcode is not in the table, or a reserved bit of its format is 1. -/
inductive DecodeError where
  | reservedOpcode (op : BitVec 8)
  | reservedBit (f : Format)
  deriving DecidableEq, Repr

/-- The mask of R305 for each format: the opcode byte and every reserved bit. -/
def Format.mask : Format → Word
  | .n  => 0xFFFFFFFF#32
  | .ab => 0xFF0000FF#32
  | .ve => 0xFFFCC0FF#32
  | .n8 => 0xFFFF00FF#32
  | .ol => 0xF00000FF#32
  | .wv => 0x0000E0FF#32
  | .m  => 0xFFFFF8FF#32
  | .em => 0xFFFFE0FF#32
  | .v  => 0xFFFFC0FF#32

/-- The opcode `OP`, bits 7:0 of a word (R300). -/
def opcodeOf (w : Word) : BitVec 8 := w.extractLsb' 0 8

/-- The command `i` of a word whose opcode selects format `f`, unless a reserved bit of `f` is 1 (R305): every bit
of the mask but the opcode's eight must be 0. -/
def inFormat (w : Word) (f : Format) (i : Instr) : Except DecodeError Instr :=
  if w &&& f.mask &&& 0xFFFFFF00#32 = 0#32 then .ok i else .error (.reservedBit f)

/-- Decoding (R304, R305), with the operands of R302. -/
def decode (w : Word) : Except DecodeError Instr :=
  match (opcodeOf w).toNat with
  | 0x00 => inFormat w .n .nop
  | 0x01 => inFormat w .n .clear
  | 0x02 => inFormat w .n .gfInit
  | 0x03 => inFormat w .ab (.gfMul (w.extractLsb' 8 8) (w.extractLsb' 16 8))
  | 0x10 => inFormat w .ve (.capLookup (w.extractLsb' 8 6) (w.extractLsb' 16 2))
  | 0x11 => inFormat w .n .select
  | 0x20 => inFormat w .n .compose
  | 0x21 => inFormat w .n .bsReset
  | 0x22 => inFormat w .wv (.bsAppend (w.extractLsb' 8 5) (w.extractLsb' 16 16))
  | 0x23 => inFormat w .n .bsTerminate
  | 0x24 => inFormat w .n .bsPad
  | 0x30 => inFormat w .n8 (.genPoly (w.extractLsb' 8 8))
  | 0x31 => inFormat w .ol (.rsEncode (w.extractLsb' 8 12) (w.extractLsb' 20 8))
  | 0x32 => inFormat w .n .rsAll
  | 0x40 => inFormat w .n .interleave
  | 0x50 => inFormat w .n .build
  | 0x51 => inFormat w .v (.verCalc (w.extractLsb' 8 6))
  | 0x52 => inFormat w .em (.fmtCalc (w.extractLsb' 8 2) (w.extractLsb' 10 3))
  | 0x53 => inFormat w .n .zzReset
  | 0x54 => inFormat w .n .zzNext
  | 0x60 => inFormat w .m (.place (w.extractLsb' 8 3))
  | 0x61 => inFormat w .n .score
  | 0x62 => inFormat w .n .maskSelect
  | 0x70 => inFormat w .n .encode
  | _    => .error (.reservedOpcode (opcodeOf w))

/-- The word of a command, its fields from bit 31 down as R301's table lists them (`++` puts its left side in the
more significant bits, `#` fields are reserved zeros or the opcode). -/
def encode : Instr → Word
  | .nop           => 0#24 ++ 0x00#8
  | .clear         => 0#24 ++ 0x01#8
  | .gfInit        => 0#24 ++ 0x02#8
  | .gfMul a b     => 0#8 ++ b ++ a ++ 0x03#8
  | .capLookup v e => 0#14 ++ e ++ 0#2 ++ v ++ 0x10#8
  | .select        => 0#24 ++ 0x11#8
  | .compose       => 0#24 ++ 0x20#8
  | .bsReset       => 0#24 ++ 0x21#8
  | .bsAppend w x  => x ++ 0#3 ++ w ++ 0x22#8
  | .bsTerminate   => 0#24 ++ 0x23#8
  | .bsPad         => 0#24 ++ 0x24#8
  | .genPoly n     => 0#16 ++ n ++ 0x30#8
  | .rsEncode o l  => 0#4 ++ l ++ o ++ 0x31#8
  | .rsAll         => 0#24 ++ 0x32#8
  | .interleave    => 0#24 ++ 0x40#8
  | .build         => 0#24 ++ 0x50#8
  | .verCalc v     => 0#18 ++ v ++ 0x51#8
  | .fmtCalc e m   => 0#19 ++ m ++ e ++ 0x52#8
  | .zzReset       => 0#24 ++ 0x53#8
  | .zzNext        => 0#24 ++ 0x54#8
  | .place m       => 0#21 ++ m ++ 0x60#8
  | .score         => 0#24 ++ 0x61#8
  | .maskSelect    => 0#24 ++ 0x62#8
  | .encode        => 0#24 ++ 0x70#8

/-- The word the first `nbits` bits of `w` make, every bit above them 0. -/
def tableWord (nbits w : Nat) : Word := BitVec.ofNat 32 (w % 2 ^ nbits)

/-- What the decoder reads from a word given as opcode_table.json numbers its bits: a command is ONE bus word and
no stored value spans two, so there is no byte order to apply (20_memory R205). -/
def decodeTableWord (nbits w : Nat) : Option Instr :=
  match decode (tableWord nbits w) with
  | .ok i => some i
  | .error _ => none

end Sys2Proof
end

