-- ==== Sys2Proof/Machine/State.lean ====
section
/-! DEFINITION. The state of QRENC as plain data: the fields of its registers (10_state R104 to R122), its eight RAM
windows (R124), the model-only fault log (60_exceptions R1209) and the model's own bus fields (log entries 1, 2, 5);
the machine after reset (R139); and the reasons a step can stop. -/

namespace Sys2Proof.Machine

/-- The RAM windows (R124). -/
inductive Window where
  | digits | bs | gen | rsr | ecb | ilv | mat | wm
  deriving DecidableEq, Repr

/-- The value of a cell of `MAT` or `WM` (R132). -/
inductive CellValue where
  | light | dark | unset
  deriving DecidableEq, Repr

/-- One RAM window: its WRITTEN elements as (index, element), indices strictly rising. An index that is not listed has
`written = 0` (R135) and holds no value a command may read. -/
abbrev Ram := List Host.Cell

/-- The eight RAM windows (R124). -/
structure Memory where
  digits : Ram
  bs     : Ram
  gen    : Ram
  rsr    : Ram
  ecb    : Ram
  ilv    : Ram
  mat    : Ram
  wm     : Ram
  deriving DecidableEq, Repr

/-- The `STATUS` register (R107). -/
structure Status where
  err    : BitVec 4
  selV   : Bool
  bsV    : Bool
  genV   : Bool
  ecV    : Bool
  ilvV   : Bool
  matV   : Bool
  zzV    : Bool
  zzDone : Bool
  wmV    : Bool
  scV    : Bool
  bestV  : Bool
  penv   : BitVec 8
  deriving DecidableEq, Repr

/-- The registers `VERSION`, `GROUP1`, `GROUP2`, `ECINFO` (R110, R111, R112): the selected capacity entry. -/
structure Entry where
  ver     : BitVec 6
  secl    : BitVec 2
  cci     : BitVec 4
  dataCw  : BitVec 12
  blk1    : BitVec 7
  c1      : BitVec 8
  k1      : BitVec 8
  blk2    : BitVec 7
  c2      : BitVec 8
  k2      : BitVec 8
  ecLen   : BitVec 8
  totalCw : BitVec 12
  nblk    : BitVec 7
  deriving DecidableEq, Repr

/-- The registers `P1`..`P4`, `PTOTAL`, `DARK` (R120): the last score. -/
structure Score where
  p1     : Word
  p2     : Word
  p3     : Word
  p4     : Word
  ptotal : Word
  dark   : BitVec 15
  deriving DecidableEq, Repr

/-- What comes from outside the block (20_memory R202, R220; 70_reset R1300): one bus access of `width` bits, or the
platform's reset (log entry 1). -/
inductive HostMove where
  | read  (addr : Addr) (width : Nat)
  | write (addr : Addr) (width : Nat) (data : Word)
  | reset
  deriving DecidableEq, Repr

/-- What the bus gives back for one access (20_memory R207, R208, R211; log entry 2). -/
inductive Response where
  | done
  | data     (w : Word)
  | busError (addr : Addr)
  deriving DecidableEq, Repr

/-- A read the model faults on (20_memory R213): element `index` of `window`, whose `written` bit is 0. -/
structure Unwritten where
  window : Window
  index  : Nat
  deriving DecidableEq, Repr

/-- An entry of the model-only fault log (60_exceptions R1209): the code by which `ERR` left 0, or an `Unwritten` fault. -/
inductive LogEntry where
  | error     (code : BitVec 4)
  | unwritten (u : Unwritten)
  deriving DecidableEq, Repr

/-- The whole state. -/
structure State where
  /-- `LASTCMD` (R106). -/
  lastcmd  : Word
  /-- `STATUS` (R107). -/
  status   : Status
  /-- `CFG.ECL` (R108): 0 = L, 1 = M, 2 = Q, 3 = H. -/
  ecl      : BitVec 2
  /-- `LEN` (R109). -/
  len      : BitVec 13
  /-- `VERSION`, `GROUP1`, `GROUP2`, `ECINFO` (R110 to R112). -/
  entry    : Entry
  /-- `BSCUR.CUR` (R113). -/
  cur      : BitVec 15
  /-- `GFR.P` (R114). -/
  gfP      : BitVec 8
  /-- `GENLEN.GEN_LEN` (R115). -/
  genLen   : BitVec 7
  /-- `ZZPOS.ZZ_ROW` (R116). -/
  zzRow    : BitVec 8
  /-- `ZZPOS.ZZ_COL` (R116). -/
  zzCol    : BitVec 8
  /-- `ZZIDX.ZZ_IDX` (R116). -/
  zzIdx    : BitVec 15
  /-- `WMASK.WM_MASK` (R117). -/
  wmMask   : BitVec 3
  /-- `FMT.FMT_WORD` (R118). -/
  fmtWord  : BitVec 15
  /-- `VERINFO.VI_WORD` (R119). -/
  viWord   : BitVec 18
  /-- `P1`..`P4`, `PTOTAL`, `DARK` (R120). -/
  score    : Score
  /-- `BEST.BEST_ID` (R121). -/
  bestId   : BitVec 3
  /-- `BESTPEN` (R121). -/
  bestPen  : Word
  /-- `PEN0`..`PEN7` (R122). -/
  pen      : Vector Word 8
  /-- The RAM windows (R124). -/
  mem      : Memory
  /-- The model-only fault log (60_exceptions R1209), oldest first; no step clears it (log entry 4). -/
  faultLog : List LogEntry
  /-- The MODEL's own: host moves not yet made, next first (log entry 1). -/
  inbox    : List HostMove
  /-- The MODEL's own: the bus response to the last access (log entry 2). -/
  response : Option Response
  /-- The MODEL's own: how many free values host reads have used (log entry 5). -/
  draws    : Nat
  deriving DecidableEq, Repr

/-- Why the machine stops with a fault. -/
inductive Fault where
  /-- Raised by a command that reads an element whose `written` bit is 0: `COMPOSE` and `ENCODE` (`DIGITS`), `RS_ENCODE`
  (`BS`), and in states no run reaches any other command that reads a window (20_memory R213). `log` is the fault log the
  machine stops with: the state's, with this fault appended (60_exceptions R1209). SAFE: the machine stops where the
  hardware goes on with an unspecified value (log entry 6). -/
  | unwritten (u : Unwritten) (log : List LogEntry)
  deriving DecidableEq, Repr

/-- Why the model gives an instruction no meaning. -/
inductive Refusal where
  /-- Raised by an arm of `exec` whose instruction has no meaning yet. SAFE: the model stops. No arm raises it. -/
  | notModelled (mnemonic : String)
  deriving DecidableEq, Repr

/-- What a command answers. -/
abbrev Result := Host.Outcome State Fault Refusal

/-- `STATUS` = 0 (R139). -/
def Status.zero : Status :=
  { err := 0, selV := false, bsV := false, genV := false, ecV := false, ilvV := false, matV := false, zzV := false,
    zzDone := false, wmV := false, scV := false, bestV := false, penv := 0 }

/-- `VERSION`, `GROUP1`, `GROUP2`, `ECINFO` all 0 (R139). -/
def Entry.zero : Entry :=
  { ver := 0, secl := 0, cci := 0, dataCw := 0, blk1 := 0, c1 := 0, k1 := 0, blk2 := 0, c2 := 0, k2 := 0,
    ecLen := 0, totalCw := 0, nblk := 0 }

/-- `P1`..`P4`, `PTOTAL`, `DARK` all 0 (R139). -/
def Score.zero : Score := { p1 := 0, p2 := 0, p3 := 0, p4 := 0, ptotal := 0, dark := 0 }

/-- Every window with no element written (R139, R135). -/
def Memory.empty : Memory :=
  { digits := [], bs := [], gen := [], rsr := [], ecb := [], ilv := [], mat := [], wm := [] }

/-- The machine right after reset (R139, 70_reset R1300): every register 0, no element written; the model's own fields
empty (log entries 1, 2, 4, 5). -/
def State.reset : State :=
  { lastcmd := 0, status := Status.zero, ecl := 0, len := 0, entry := Entry.zero, cur := 0, gfP := 0, genLen := 0,
    zzRow := 0, zzCol := 0, zzIdx := 0, wmMask := 0, fmtWord := 0, viWord := 0, score := Score.zero, bestId := 0,
    bestPen := 0, pen := Vector.replicate 8 0, mem := Memory.empty, faultLog := [], inbox := [], response := none,
    draws := 0 }

end Sys2Proof.Machine
end

