-- ==== Sys2Proof/Machine/Flags.lean ====
section
/-! DEFINITION. The `STATUS` flags: the error codes (60_exceptions R1201), the invalidation sets (10_state R138) and the
updates by which a command sets or clears a flag (R134). -/

namespace Sys2Proof.Machine

/-- `ILLEGAL_CMD` (R1201). -/
abbrev errIllegalCmd : BitVec 4 := 1#4
/-- `ILLEGAL_OPERAND` (R1201). -/
abbrev errIllegalOperand : BitVec 4 := 2#4
/-- `NOT_FOUND` (R1201). -/
abbrev errNotFound : BitVec 4 := 3#4
/-- `CAPACITY_EXCEEDED` (R1201). -/
abbrev errCapacityExceeded : BitVec 4 := 4#4
/-- `INVALID_DIGIT` (R1201). -/
abbrev errInvalidDigit : BitVec 4 := 5#4
/-- `SEQUENCE` (R1201). -/
abbrev errSequence : BitVec 4 := 6#4
/-- `BS_OVERFLOW` (R1201). -/
abbrev errBsOverflow : BitVec 4 := 7#4

/-- `INV_WM` = `WM_V`, `SC_V`, `BEST_V`, `PENV[7:0]` (R138). -/
def Status.invWm (t : Status) : Status := { t with wmV := false, scV := false, bestV := false, penv := 0#8 }

/-- `INV_MAT` = `MAT_V`, `ZZ_V`, `ZZ_DONE` and `INV_WM` (R138). -/
def Status.invMat (t : Status) : Status := { t.invWm with matV := false, zzV := false, zzDone := false }

/-- `INV_ILV` = `ILV_V` and `INV_WM` (R138). -/
def Status.invIlv (t : Status) : Status := { t.invWm with ilvV := false }

/-- `INV_EC` = `EC_V` and `INV_ILV` (R138). -/
def Status.invEc (t : Status) : Status := { t.invIlv with ecV := false }

/-- `INV_BS` = `BS_V` and `INV_EC` (R138). -/
def Status.invBs (t : Status) : Status := { t.invEc with bsV := false }

/-- `INV_SEL` = `SEL_V` and `INV_BS` and `INV_MAT` (R138). -/
def Status.invSel (t : Status) : Status := { t.invBs.invMat with selV := false }

/-- `SEL_V <- 1`. -/
def Status.setSel (t : Status) : Status := { t with selV := true }

/-- `BS_V <- 1`. -/
def Status.setBs (t : Status) : Status := { t with bsV := true }

/-- `GEN_V <- 1`. -/
def Status.setGen (t : Status) : Status := { t with genV := true }

/-- `EC_V <- 1`. -/
def Status.setEc (t : Status) : Status := { t with ecV := true }

/-- `ILV_V <- 1`. -/
def Status.setIlv (t : Status) : Status := { t with ilvV := true }

/-- `MAT_V <- 1`. -/
def Status.setMat (t : Status) : Status := { t with matV := true }

/-- `ZZ_DONE <- 0`, `ZZ_V <- 1` (R941). -/
def Status.setZz (t : Status) : Status := { t with zzDone := false, zzV := true }

/-- `ZZ_DONE <- 1` (R942). -/
def Status.setZzDone (t : Status) : Status := { t with zzDone := true }

/-- `SC_V <- 0`, `WM_V <- 1` (R1005). -/
def Status.setPlaced (t : Status) : Status := { t with scV := false, wmV := true }

/-- `PENV[m] <- 1`, `SC_V <- 1` (R1015). -/
def Status.setScored (t : Status) (m : BitVec 3) : Status :=
  { t with penv := t.penv ||| (1#8 <<< m.toNat), scV := true }

/-- `BEST_V <- 1` (R1020). -/
def Status.setBest (t : Status) : Status := { t with bestV := true }

/-- `ERR <- c` (R1204). -/
def Status.setErr (t : Status) (c : BitVec 4) : Status := { t with err := c }

/-- One flag as the bit it is in `STATUS`. -/
def flagBit (b : Bool) : BitVec 1 := BitVec.ofBool b

/-- The `STATUS` word, its fields from bit 31 down as R107 lists them; reserved bits are 0 (R105). -/
def Status.word (t : Status) : Word :=
  0#8 ++ t.penv ++ 0#1 ++ flagBit t.bestV ++ flagBit t.scV ++ flagBit t.wmV ++ flagBit t.zzDone ++ flagBit t.zzV ++
    flagBit t.matV ++ flagBit t.ilvV ++ flagBit t.ecV ++ flagBit t.genV ++ flagBit t.bsV ++ flagBit t.selV ++ t.err

end Sys2Proof.Machine
end

