-- ==== Sys2Proof/Machine/Ops.lean ====
section
/-! DEFINITION. The named operations over memory and registers: element reads and writes of the RAM windows
(20_memory R213), the register updates the meanings use, raising an error (60_exceptions R1204, the block's one trap
entry), the recovery from it (`CLEAR`, R1207, 47_control R1101) and the stickiness of `ERR` (R1203). -/

namespace Sys2Proof.Machine

/-! ### One window -/

/-- The element at index `i`, if it has been written (R135). -/
def Ram.read? : Ram → Nat → Option Byte
  | [], _ => none
  | (j, c) :: r, i => if j = i then some c else Ram.read? r i

/-- Write element `i`, keeping the indices strictly rising. -/
def Ram.write : Ram → Nat → Byte → Ram
  | [], i, b => [(i, b)]
  | (j, c) :: r, i, b =>
    if i < j then (i, b) :: (j, c) :: r
    else if i = j then (i, b) :: r
    else (j, c) :: Ram.write r i b

/-- The cells `(i, v₀), (i+1, v₁), ...`. -/
def Ram.cellsFrom : Nat → List Byte → Ram
  | _, [] => []
  | i, b :: vs => (i, b) :: Ram.cellsFrom (i + 1) vs

/-- Write the elements `vals` at indices `i`, `i+1`, ... in one pass. -/
def Ram.writeList (r : Ram) (i : Nat) (vals : List Byte) : Ram :=
  r.filter (fun c => decide (c.1 < i)) ++ Ram.cellsFrom i vals ++
    r.filter (fun c => decide (i + vals.length ≤ c.1))

/-- The `n` elements from index `i` on, each `none` where never written, read in one pass over rising indices. -/
def Ram.view (r : Ram) (i : Nat) : Nat → List (Option Byte)
  | 0 => []
  | n + 1 =>
    match r.dropWhile (fun c => decide (c.1 < i)) with
    | [] => none :: Ram.view [] (i + 1) n
    | (j, c) :: r' =>
      if j = i then some c :: Ram.view r' (i + 1) n else none :: Ram.view ((j, c) :: r') (i + 1) n

/-- Every index is at least `lo` and they rise strictly. -/
def Ram.risingFrom : Nat → Ram → Bool
  | _, [] => true
  | lo, (j, _) :: r => decide (lo ≤ j) && Ram.risingFrom (j + 1) r

/-! ### The eight windows -/

/-- How many elements a window has (10_state R124). -/
def Window.size : Window → Nat
  | .digits => Config.digitCap
  | .bs     => Config.bsCap
  | .gen    => Config.genCap
  | .rsr    => Config.rsrCap
  | .ecb    => Config.ecbCap
  | .ilv    => Config.ilvCap
  | .mat    => Config.cellCap
  | .wm     => Config.cellCap

/-- The base address of a window (10_state R124, 20_memory R201). -/
def Window.base : Window → Nat
  | .digits => 0x10000
  | .bs     => 0x20000
  | .gen    => 0x30000
  | .rsr    => 0x31000
  | .ecb    => 0x40000
  | .ilv    => 0x50000
  | .mat    => 0x60000
  | .wm     => 0x80000

/-- The contents of a window. -/
def Memory.window (m : Memory) : Window → Ram
  | .digits => m.digits
  | .bs     => m.bs
  | .gen    => m.gen
  | .rsr    => m.rsr
  | .ecb    => m.ecb
  | .ilv    => m.ilv
  | .mat    => m.mat
  | .wm     => m.wm

/-- Replace the contents of a window. -/
def Memory.setWindow (m : Memory) (w : Window) (r : Ram) : Memory :=
  match w with
  | .digits => { m with digits := r }
  | .bs     => { m with bs := r }
  | .gen    => { m with gen := r }
  | .rsr    => { m with rsr := r }
  | .ecb    => { m with ecb := r }
  | .ilv    => { m with ilv := r }
  | .mat    => { m with mat := r }
  | .wm     => { m with wm := r }

/-- Element `i` of window `w`: `none` when never written (R135) or when the window has no such element. -/
def Memory.read? (m : Memory) (w : Window) (i : Nat) : Option Byte :=
  if i < w.size then (m.window w).read? i else none

/-- Write one element; an index outside the window, which no rule forms (20_memory R213), writes nothing
(log entry 10). -/
def Memory.write (m : Memory) (w : Window) (i : Nat) (b : Byte) : Memory :=
  if i < w.size then m.setWindow w ((m.window w).write i b) else m

/-- Write consecutive elements from index `i` on; what would pass the window's end, which no rule forms (R213), is
dropped (log entry 10). -/
def Memory.writeList (m : Memory) (w : Window) (i : Nat) (vals : List Byte) : Memory :=
  m.setWindow w ((m.window w).writeList i (vals.take (w.size - i)))

/-- The index of the first `none`, counting from `i`. -/
def firstMissing : Nat → List (Option Byte) → Option Nat
  | _, [] => none
  | i, none :: _ => some i
  | i, some _ :: vs => firstMissing (i + 1) vs

/-- A command's read of one element (R213). -/
def Memory.readElem (m : Memory) (w : Window) (i : Nat) : Except Unwritten Byte :=
  match m.read? w i with
  | some b => .ok b
  | none => .error ⟨w, i⟩

/-- A command's read of the `n` elements from index `i` on (R213): the fault names the first one never written. -/
def Memory.readList (m : Memory) (w : Window) (i n : Nat) : Except Unwritten (List Byte) :=
  let vs := Ram.view (m.window w) i n
  match firstMissing i vs with
  | some k => .error ⟨w, k⟩
  | none => .ok (vs.filterMap id)

/-- A command's read of the elements at the listed indices, in that order (R213). -/
def Memory.readAt (m : Memory) (w : Window) (is : List Nat) : Except Unwritten (List Byte) :=
  match is.find? (fun i => (m.read? w i).isNone) with
  | some i => .error ⟨w, i⟩
  | none => .ok (is.filterMap (m.read? w))

/-- The canonical form: in every window the listed indices rise strictly and lie inside the window. (An unlisted element
reads as no value, so no listed element equals it.) -/
def Memory.wf (m : Memory) : Bool :=
  [Window.digits, .bs, .gen, .rsr, .ecb, .ilv, .mat, .wm].all fun w =>
    Ram.risingFrom 0 (m.window w) && (m.window w).all (fun c => decide (c.1 < w.size))

/-! ### Register updates -/

/-- Write `STATUS`. -/
def State.setStatus (s : State) (t : Status) : State := { s with status := t }

/-- Write `CFG.ECL`. -/
def State.setEcl (s : State) (e : BitVec 2) : State := { s with ecl := e }

/-- Write `LEN`. -/
def State.setLen (s : State) (n : BitVec 13) : State := { s with len := n }

/-- Write `VERSION`, `GROUP1`, `GROUP2`, `ECINFO`. -/
def State.setEntry (s : State) (e : Entry) : State := { s with entry := e }

/-- `BSCUR.CUR <- n`. -/
def State.setCur (s : State) (n : Nat) : State := { s with cur := BitVec.ofNat 15 n }

/-- `GFR.P <- p`. -/
def State.setGfP (s : State) (p : Byte) : State := { s with gfP := p }

/-- `GENLEN.GEN_LEN <- n`. -/
def State.setGenLen (s : State) (n : Nat) : State := { s with genLen := BitVec.ofNat 7 n }

/-- Write the zigzag cursor `ZZ_ROW`, `ZZ_COL`, `ZZ_IDX`. -/
def State.setZz (s : State) (row col idx : Nat) : State :=
  { s with zzRow := BitVec.ofNat 8 row, zzCol := BitVec.ofNat 8 col, zzIdx := BitVec.ofNat 15 idx }

/-- `WMASK.WM_MASK <- m`. -/
def State.setWmMask (s : State) (m : BitVec 3) : State := { s with wmMask := m }

/-- `FMT.FMT_WORD <- f`. -/
def State.setFmt (s : State) (f : BitVec 15) : State := { s with fmtWord := f }

/-- `VERINFO.VI_WORD <- v`. -/
def State.setVi (s : State) (v : BitVec 18) : State := { s with viWord := v }

/-- Write `P1`..`P4`, `PTOTAL`, `DARK`. -/
def State.setScore (s : State) (c : Score) : State := { s with score := c }

/-- `BEST.BEST_ID <- m`, `BESTPEN <- p`. -/
def State.setBest (s : State) (m : BitVec 3) (p : Word) : State := { s with bestId := m, bestPen := p }

/-- `PEN<m> <- p`. -/
def State.setPen (s : State) (m : BitVec 3) (p : Word) : State := { s with pen := s.pen.set m.toNat p }

/-- Write the RAM windows. -/
def State.setMem (s : State) (m : Memory) : State := { s with mem := m }

/-- The bus gives back `r`. -/
def State.respond (s : State) (r : Response) : State := { s with response := some r }

/-- `LASTCMD <- w` (10_state R106). -/
def State.setLastcmd (s : State) (w : Word) : State := { s with lastcmd := w }

/-! ### Errors: the block's one trap (60_exceptions R1200 to R1207), and the model fault `Unwritten` (R1209) -/

/-- What `raise Error(c)` leaves (R1204): `ERR` is `c`, and the model-only fault log has `c` appended (R1209). Nothing
else changes; there is no vector, no saved state and no mode to change (R1205). -/
def State.withError (s : State) (c : BitVec 4) : State :=
  { s with status := s.status.setErr c, faultLog := s.faultLog ++ [.error c] }

/-- `raise Error(c)` (R1204). -/
def raiseError (c : BitVec 4) (s : State) : Result := .next (s.withError c)

/-- The recovery from an error and the end of a request: `CLEAR`'s effect (47_control R1101, 60_exceptions R1207). `CFG`,
`LEN`, `LASTCMD`, the windows with their written bits, and the fault log are kept. -/
def State.clearRequest (s : State) : State :=
  { s with status := Status.zero, entry := Entry.zero, cur := 0, gfP := 0, genLen := 0, zzRow := 0, zzCol := 0,
           zzIdx := 0, wmMask := 0, fmtWord := 0, viWord := 0, score := Score.zero, bestId := 0, bestPen := 0,
           pen := Vector.replicate 8 0 }

/-- Stickiness (R1203): while `ERR` is not 0 the command is ignored. -/
def unlessError (s : State) (body : State → Result) : Result :=
  if s.status.err = 0#4 then body s else .next s

/-- A precondition: `SEQUENCE` unless it holds (10_state R134). -/
def require (ok : Bool) (s : State) (k : Result) : Result :=
  if ok then k else raiseError errSequence s

/-- Raise the model fault `Unwritten` (20_memory R213), appended to the fault log (60_exceptions R1209). -/
def raiseUnwritten (u : Unwritten) (s : State) : Result := .fault (.unwritten u (s.faultLog ++ [.unwritten u]))

/-- Go on with what a command run in `s` read, or stop with the model fault `Unwritten` (20_memory R213). -/
def orFault {α : Type} (s : State) (r : Except Unwritten α) (k : α → Result) : Result :=
  match r with
  | .ok a => k a
  | .error u => raiseUnwritten u s

/-- Run `k` on the state `r` ends in, if `r` did not stop. -/
def andThen (r : Result) (k : State → Result) : Result :=
  match r with
  | .next s => k s
  | .fault f => .fault f
  | .refused f => .refused f

end Sys2Proof.Machine
end

