-- ==== Sys2Proof/Machine/Rom.lean ====
section
/-! DEFINITION. The constant tables of 10_state R133: the GF(256) antilog and log ROMs (40_galois_field R401, R402, R406),
the capacity ROM (41_capacity_select R504) and the alignment coordinate ROM (45_matrix R906). No command writes them
and the bus does not reach them (20_memory R200), so they are constants and not State. -/

namespace Sys2Proof.Machine

/-! ### GF(256) -/

/-- `EXP` (R406), part 0 of 4. -/
def expRom0 : List Byte :=
  [1, 2, 4, 8, 16, 32, 64, 128, 29, 58, 116, 232, 205, 135, 19, 38,
   76, 152, 45, 90, 180, 117, 234, 201, 143, 3, 6, 12, 24, 48, 96, 192,
   157, 39, 78, 156, 37, 74, 148, 53, 106, 212, 181, 119, 238, 193, 159, 35,
   70, 140, 5, 10, 20, 40, 80, 160, 93, 186, 105, 210, 185, 111, 222, 161]

/-- `EXP` (R406), part 1 of 4. -/
def expRom1 : List Byte :=
  [95, 190, 97, 194, 153, 47, 94, 188, 101, 202, 137, 15, 30, 60, 120, 240,
   253, 231, 211, 187, 107, 214, 177, 127, 254, 225, 223, 163, 91, 182, 113, 226,
   217, 175, 67, 134, 17, 34, 68, 136, 13, 26, 52, 104, 208, 189, 103, 206,
   129, 31, 62, 124, 248, 237, 199, 147, 59, 118, 236, 197, 151, 51, 102, 204]

/-- `EXP` (R406), part 2 of 4. -/
def expRom2 : List Byte :=
  [133, 23, 46, 92, 184, 109, 218, 169, 79, 158, 33, 66, 132, 21, 42, 84,
   168, 77, 154, 41, 82, 164, 85, 170, 73, 146, 57, 114, 228, 213, 183, 115,
   230, 209, 191, 99, 198, 145, 63, 126, 252, 229, 215, 179, 123, 246, 241, 255,
   227, 219, 171, 75, 150, 49, 98, 196, 149, 55, 110, 220, 165, 87, 174, 65]

/-- `EXP` (R406), part 3 of 4. -/
def expRom3 : List Byte :=
  [130, 25, 50, 100, 200, 141, 7, 14, 28, 56, 112, 224, 221, 167, 83, 166,
   81, 162, 89, 178, 121, 242, 249, 239, 195, 155, 43, 86, 172, 69, 138, 9,
   18, 36, 72, 144, 61, 122, 244, 245, 247, 243, 251, 235, 203, 139, 11, 22,
   44, 88, 176, 125, 250, 233, 207, 131, 27, 54, 108, 216, 173, 71, 142]

/-- `EXP[0..255)` as R406 lists it. -/
def expRow : List Byte := expRom0 ++ expRom1 ++ expRom2 ++ expRom3

/-- `EXP[i]` for `i < 512`: `EXP[255..512)` repeats `EXP[0..257)` (R401, R406). -/
def expRom (i : Nat) : Byte :=
  if i < 255 then expRow.getD i 0 else if i < 510 then expRow.getD (i - 255) 0 else expRow.getD (i - 510) 0

/-- `LOG` (R402), part 0 of 4. -/
def logRom0 : List Nat :=
  [0, 0, 1, 25, 2, 50, 26, 198, 3, 223, 51, 238, 27, 104, 199, 75,
   4, 100, 224, 14, 52, 141, 239, 129, 28, 193, 105, 248, 200, 8, 76, 113,
   5, 138, 101, 47, 225, 36, 15, 33, 53, 147, 142, 218, 240, 18, 130, 69,
   29, 181, 194, 125, 106, 39, 249, 185, 201, 154, 9, 120, 77, 228, 114, 166]

/-- `LOG` (R402), part 1 of 4. -/
def logRom1 : List Nat :=
  [6, 191, 139, 98, 102, 221, 48, 253, 226, 152, 37, 179, 16, 145, 34, 136,
   54, 208, 148, 206, 143, 150, 219, 189, 241, 210, 19, 92, 131, 56, 70, 64,
   30, 66, 182, 163, 195, 72, 126, 110, 107, 58, 40, 84, 250, 133, 186, 61,
   202, 94, 155, 159, 10, 21, 121, 43, 78, 212, 229, 172, 115, 243, 167, 87]

/-- `LOG` (R402), part 2 of 4. -/
def logRom2 : List Nat :=
  [7, 112, 192, 247, 140, 128, 99, 13, 103, 74, 222, 237, 49, 197, 254, 24,
   227, 165, 153, 119, 38, 184, 180, 124, 17, 68, 146, 217, 35, 32, 137, 46,
   55, 63, 209, 91, 149, 188, 207, 205, 144, 135, 151, 178, 220, 252, 190, 97,
   242, 86, 211, 171, 20, 42, 93, 158, 132, 60, 57, 83, 71, 109, 65, 162]

/-- `LOG` (R402), part 3 of 4. -/
def logRom3 : List Nat :=
  [31, 45, 67, 216, 183, 123, 164, 118, 196, 23, 73, 236, 127, 12, 111, 246,
   108, 161, 59, 82, 41, 157, 85, 170, 251, 96, 134, 177, 187, 204, 62, 90,
   203, 89, 95, 176, 156, 169, 160, 81, 11, 245, 22, 235, 122, 117, 44, 215,
   79, 174, 213, 233, 230, 231, 173, 232, 116, 214, 244, 234, 168, 80, 88, 175]

/-- `LOG[0..256)` (R402), `LOG[0]` holding 0. -/
def logRow : List Nat := logRom0 ++ logRom1 ++ logRom2 ++ logRom3

/-- `LOG[x]` (R402). -/
def logRom (x : Byte) : Nat := logRow.getD x.toNat 0

/-! ### Capacity -/

/-- The stored figures of one row of R504: `DATA_CW`, `ECLEN`, then (`BLK`, `C`, `K`) of groups 1 and 2. -/
abbrev CapRow := Nat × Nat × (Nat × Nat × Nat) × (Nat × Nat × Nat)

/-- R504, versions 1 to 8, each at L, M, Q, H. -/
def capRows0 : List CapRow :=
  [(19, 7, (1, 26, 19), (0, 0, 0)), (16, 10, (1, 26, 16), (0, 0, 0)),
   (13, 13, (1, 26, 13), (0, 0, 0)), (9, 17, (1, 26, 9), (0, 0, 0)),
   (34, 10, (1, 44, 34), (0, 0, 0)), (28, 16, (1, 44, 28), (0, 0, 0)),
   (22, 22, (1, 44, 22), (0, 0, 0)), (16, 28, (1, 44, 16), (0, 0, 0)),
   (55, 15, (1, 70, 55), (0, 0, 0)), (44, 26, (1, 70, 44), (0, 0, 0)),
   (34, 18, (2, 35, 17), (0, 0, 0)), (26, 22, (2, 35, 13), (0, 0, 0)),
   (80, 20, (1, 100, 80), (0, 0, 0)), (64, 18, (2, 50, 32), (0, 0, 0)),
   (48, 26, (2, 50, 24), (0, 0, 0)), (36, 16, (4, 25, 9), (0, 0, 0)),
   (108, 26, (1, 134, 108), (0, 0, 0)), (86, 24, (2, 67, 43), (0, 0, 0)),
   (62, 18, (2, 33, 15), (2, 34, 16)), (46, 22, (2, 33, 11), (2, 34, 12)),
   (136, 18, (2, 86, 68), (0, 0, 0)), (108, 16, (4, 43, 27), (0, 0, 0)),
   (76, 24, (4, 43, 19), (0, 0, 0)), (60, 28, (4, 43, 15), (0, 0, 0)),
   (156, 20, (2, 98, 78), (0, 0, 0)), (124, 18, (4, 49, 31), (0, 0, 0)),
   (88, 18, (2, 32, 14), (4, 33, 15)), (66, 26, (4, 39, 13), (1, 40, 14)),
   (194, 24, (2, 121, 97), (0, 0, 0)), (154, 22, (2, 60, 38), (2, 61, 39)),
   (110, 22, (4, 40, 18), (2, 41, 19)), (86, 26, (4, 40, 14), (2, 41, 15))]

/-- R504, versions 9 to 16, each at L, M, Q, H. -/
def capRows1 : List CapRow :=
  [(232, 30, (2, 146, 116), (0, 0, 0)), (182, 22, (3, 58, 36), (2, 59, 37)),
   (132, 20, (4, 36, 16), (4, 37, 17)), (100, 24, (4, 36, 12), (4, 37, 13)),
   (274, 18, (2, 86, 68), (2, 87, 69)), (216, 26, (4, 69, 43), (1, 70, 44)),
   (154, 24, (6, 43, 19), (2, 44, 20)), (122, 28, (6, 43, 15), (2, 44, 16)),
   (324, 20, (4, 101, 81), (0, 0, 0)), (254, 30, (1, 80, 50), (4, 81, 51)),
   (180, 28, (4, 50, 22), (4, 51, 23)), (140, 24, (3, 36, 12), (8, 37, 13)),
   (370, 24, (2, 116, 92), (2, 117, 93)), (290, 22, (6, 58, 36), (2, 59, 37)),
   (206, 26, (4, 46, 20), (6, 47, 21)), (158, 28, (7, 42, 14), (4, 43, 15)),
   (428, 26, (4, 133, 107), (0, 0, 0)), (334, 22, (8, 59, 37), (1, 60, 38)),
   (244, 24, (8, 44, 20), (4, 45, 21)), (180, 22, (12, 33, 11), (4, 34, 12)),
   (461, 30, (3, 145, 115), (1, 146, 116)), (365, 24, (4, 64, 40), (5, 65, 41)),
   (261, 20, (11, 36, 16), (5, 37, 17)), (197, 24, (11, 36, 12), (5, 37, 13)),
   (523, 22, (5, 109, 87), (1, 110, 88)), (415, 24, (5, 65, 41), (5, 66, 42)),
   (295, 30, (5, 54, 24), (7, 55, 25)), (223, 24, (11, 36, 12), (7, 37, 13)),
   (589, 24, (5, 122, 98), (1, 123, 99)), (453, 28, (7, 73, 45), (3, 74, 46)),
   (325, 24, (15, 43, 19), (2, 44, 20)), (253, 30, (3, 45, 15), (13, 46, 16))]

/-- R504, versions 17 to 24, each at L, M, Q, H. -/
def capRows2 : List CapRow :=
  [(647, 28, (1, 135, 107), (5, 136, 108)), (507, 28, (10, 74, 46), (1, 75, 47)),
   (367, 28, (1, 50, 22), (15, 51, 23)), (283, 28, (2, 42, 14), (17, 43, 15)),
   (721, 30, (5, 150, 120), (1, 151, 121)), (563, 26, (9, 69, 43), (4, 70, 44)),
   (397, 28, (17, 50, 22), (1, 51, 23)), (313, 28, (2, 42, 14), (19, 43, 15)),
   (795, 28, (3, 141, 113), (4, 142, 114)), (627, 26, (3, 70, 44), (11, 71, 45)),
   (445, 26, (17, 47, 21), (4, 48, 22)), (341, 26, (9, 39, 13), (16, 40, 14)),
   (861, 28, (3, 135, 107), (5, 136, 108)), (669, 26, (3, 67, 41), (13, 68, 42)),
   (485, 30, (15, 54, 24), (5, 55, 25)), (385, 28, (15, 43, 15), (10, 44, 16)),
   (932, 28, (4, 144, 116), (4, 145, 117)), (714, 26, (17, 68, 42), (0, 0, 0)),
   (512, 28, (17, 50, 22), (6, 51, 23)), (406, 30, (19, 46, 16), (6, 47, 17)),
   (1006, 28, (2, 139, 111), (7, 140, 112)), (782, 28, (17, 74, 46), (0, 0, 0)),
   (568, 30, (7, 54, 24), (16, 55, 25)), (442, 24, (34, 37, 13), (0, 0, 0)),
   (1094, 30, (4, 151, 121), (5, 152, 122)), (860, 28, (4, 75, 47), (14, 76, 48)),
   (614, 30, (11, 54, 24), (14, 55, 25)), (464, 30, (16, 45, 15), (14, 46, 16)),
   (1174, 30, (6, 147, 117), (4, 148, 118)), (914, 28, (6, 73, 45), (14, 74, 46)),
   (664, 30, (11, 54, 24), (16, 55, 25)), (514, 30, (30, 46, 16), (2, 47, 17))]

/-- R504, versions 25 to 32, each at L, M, Q, H. -/
def capRows3 : List CapRow :=
  [(1276, 26, (8, 132, 106), (4, 133, 107)), (1000, 28, (8, 75, 47), (13, 76, 48)),
   (718, 30, (7, 54, 24), (22, 55, 25)), (538, 30, (22, 45, 15), (13, 46, 16)),
   (1370, 28, (10, 142, 114), (2, 143, 115)), (1062, 28, (19, 74, 46), (4, 75, 47)),
   (754, 28, (28, 50, 22), (6, 51, 23)), (596, 30, (33, 46, 16), (4, 47, 17)),
   (1468, 30, (8, 152, 122), (4, 153, 123)), (1128, 28, (22, 73, 45), (3, 74, 46)),
   (808, 30, (8, 53, 23), (26, 54, 24)), (628, 30, (12, 45, 15), (28, 46, 16)),
   (1531, 30, (3, 147, 117), (10, 148, 118)), (1193, 28, (3, 73, 45), (23, 74, 46)),
   (871, 30, (4, 54, 24), (31, 55, 25)), (661, 30, (11, 45, 15), (31, 46, 16)),
   (1631, 30, (7, 146, 116), (7, 147, 117)), (1267, 28, (21, 73, 45), (7, 74, 46)),
   (911, 30, (1, 53, 23), (37, 54, 24)), (701, 30, (19, 45, 15), (26, 46, 16)),
   (1735, 30, (5, 145, 115), (10, 146, 116)), (1373, 28, (19, 75, 47), (10, 76, 48)),
   (985, 30, (15, 54, 24), (25, 55, 25)), (745, 30, (23, 45, 15), (25, 46, 16)),
   (1843, 30, (13, 145, 115), (3, 146, 116)), (1455, 28, (2, 74, 46), (29, 75, 47)),
   (1033, 30, (42, 54, 24), (1, 55, 25)), (793, 30, (23, 45, 15), (28, 46, 16)),
   (1955, 30, (17, 145, 115), (0, 0, 0)), (1541, 28, (10, 74, 46), (23, 75, 47)),
   (1115, 30, (10, 54, 24), (35, 55, 25)), (845, 30, (19, 45, 15), (35, 46, 16))]

/-- R504, versions 33 to 40, each at L, M, Q, H. -/
def capRows4 : List CapRow :=
  [(2071, 30, (17, 145, 115), (1, 146, 116)), (1631, 28, (14, 74, 46), (21, 75, 47)),
   (1171, 30, (29, 54, 24), (19, 55, 25)), (901, 30, (11, 45, 15), (46, 46, 16)),
   (2191, 30, (13, 145, 115), (6, 146, 116)), (1725, 28, (14, 74, 46), (23, 75, 47)),
   (1231, 30, (44, 54, 24), (7, 55, 25)), (961, 30, (59, 46, 16), (1, 47, 17)),
   (2306, 30, (12, 151, 121), (7, 152, 122)), (1812, 28, (12, 75, 47), (26, 76, 48)),
   (1286, 30, (39, 54, 24), (14, 55, 25)), (986, 30, (22, 45, 15), (41, 46, 16)),
   (2434, 30, (6, 151, 121), (14, 152, 122)), (1914, 28, (6, 75, 47), (34, 76, 48)),
   (1354, 30, (46, 54, 24), (10, 55, 25)), (1054, 30, (2, 45, 15), (64, 46, 16)),
   (2566, 30, (17, 152, 122), (4, 153, 123)), (1992, 28, (29, 74, 46), (14, 75, 47)),
   (1426, 30, (49, 54, 24), (10, 55, 25)), (1096, 30, (24, 45, 15), (46, 46, 16)),
   (2702, 30, (4, 152, 122), (18, 153, 123)), (2102, 28, (13, 74, 46), (32, 75, 47)),
   (1502, 30, (48, 54, 24), (14, 55, 25)), (1142, 30, (42, 45, 15), (32, 46, 16)),
   (2812, 30, (20, 147, 117), (4, 148, 118)), (2216, 28, (40, 75, 47), (7, 76, 48)),
   (1582, 30, (43, 54, 24), (22, 55, 25)), (1222, 30, (10, 45, 15), (67, 46, 16)),
   (2956, 30, (19, 148, 118), (6, 149, 119)), (2334, 28, (18, 75, 47), (31, 76, 48)),
   (1666, 30, (34, 54, 24), (34, 55, 25)), (1276, 30, (20, 45, 15), (61, 46, 16))]

/-- The 160 rows of R504, in its order. -/
def capRows : List CapRow := capRows0 ++ capRows1 ++ capRows2 ++ capRows3 ++ capRows4

/-- One group of blocks of a capacity entry (R500): how many, codewords a block, data codewords a block. -/
abbrev Group := Nat × Nat × Nat

/-- The row `CAP[v][e]`, for `v` in 1..40 and an EC-level code `e` (R501). -/
def capRow? (v : Nat) (e : BitVec 2) : Option CapRow :=
  if 1 ≤ v ∧ v ≤ Config.verMax then capRows[4 * (v - 1) + e.toNat]? else none

/-- Group 2 of a row as an option, `none` exactly when `BLK2 = 0` (R500). -/
def CapRow.group2 (row : CapRow) : Option Group :=
  if row.2.2.2.1 = 0 then none else some row.2.2.2

/-! ### Alignment -/

/-- R906, versions 1 to 20. -/
def alignRows0 : List (List Nat) :=
  [[], [6, 18], [6, 22], [6, 26],
   [6, 30], [6, 34], [6, 22, 38], [6, 24, 42],
   [6, 26, 46], [6, 28, 50], [6, 30, 54], [6, 32, 58],
   [6, 34, 62], [6, 26, 46, 66], [6, 26, 48, 70], [6, 26, 50, 74],
   [6, 30, 54, 78], [6, 30, 56, 82], [6, 30, 58, 86], [6, 34, 62, 90]]

/-- R906, versions 21 to 40. -/
def alignRows1 : List (List Nat) :=
  [[6, 28, 50, 72, 94], [6, 26, 50, 74, 98], [6, 30, 54, 78, 102], [6, 28, 54, 80, 106],
   [6, 32, 58, 84, 110], [6, 30, 58, 86, 114], [6, 34, 62, 90, 118], [6, 26, 50, 74, 98, 122],
   [6, 30, 54, 78, 102, 126], [6, 26, 52, 78, 104, 130], [6, 30, 56, 82, 108, 134], [6, 34, 60, 86, 112, 138],
   [6, 30, 58, 86, 114, 142], [6, 34, 62, 90, 118, 146], [6, 30, 54, 78, 102, 126, 150], [6, 24, 50, 76, 102, 128, 154],
   [6, 28, 54, 80, 106, 132, 158], [6, 32, 58, 84, 110, 136, 162], [6, 26, 54, 82, 110, 138, 166], [6, 30, 58, 86, 114, 142, 170]]

/-- `ALIGN[v]` (R906); a version outside 1..40 has none. -/
def alignRom (v : Nat) : List Nat :=
  if 1 ≤ v then (alignRows0 ++ alignRows1).getD (v - 1) [] else []

end Sys2Proof.Machine
end

