-- ==== Sys2Proof/Machine/Operands.lean ====
section
/-! DEFINITION. What a command's operands are beyond the fields of its word: the quantities it derives from fixed
registers (30_encoding R303), that is from the selected capacity entry (10_state R110 to R112) and from `LEN`. -/

namespace Sys2Proof.Machine

/-- `SIDE(v)`, the modules a side of version `v` (00_scope R6, 45_matrix R900). -/
def side (v : Nat) : Nat := 17 + 4 * v

/-- `cci(v)`, the width of the character-count indicator (41_capacity_select R505); 0 outside 1..40. -/
def cci (v : Nat) : Nat :=
  if 1 ≤ v ∧ v ≤ 9 then 10 else if 10 ≤ v ∧ v ≤ 26 then 12 else if 27 ≤ v ∧ v ≤ 40 then 14 else 0

/-- `content_bits(n)`, the bits of `n` digits (41_capacity_select R506). -/
def contentBits (n : Nat) : Nat := 10 * (n / 3) + [0, 4, 7].getD (n % 3) 0

/-- `CAPBITS`, the stream's capacity in bits (42_bitstream R600). -/
def Entry.capBits (e : Entry) : Nat := 8 * e.dataCw.toNat

/-- `blk_len(b)`, the data codewords of block `b` (43_reed_solomon R721). -/
def Entry.blkLen (e : Entry) (b : Nat) : Nat := if b < e.blk1.toNat then e.k1.toNat else e.k2.toNat

/-- `blk_start(b)`, where block `b` starts in `BS` (43_reed_solomon R721). -/
def Entry.blkStart (e : Entry) (b : Nat) : Nat :=
  if b < e.blk1.toNat then b * e.k1.toNat
  else e.blk1.toNat * e.k1.toNat + (b - e.blk1.toNat) * e.k2.toNat

/-- `KMAX`, the longest block's data codewords (44_interleave R801). -/
def Entry.kMax (e : Entry) : Nat := if 0 < e.blk2.toNat then e.k2.toNat else e.k1.toNat

/-- The registers that `load_entry(v, e)` writes from the ROM row `row` (41_capacity_select R509); group 2 reads
(0, 0, 0) when absent. -/
def entryOf (v : Nat) (e : BitVec 2) (row : CapRow) : Entry :=
  let g1 : Group := row.2.2.1
  let g2 : Group := row.group2.getD (0, 0, 0)
  { ver := BitVec.ofNat 6 v, secl := e, cci := BitVec.ofNat 4 (Machine.cci v), dataCw := BitVec.ofNat 12 row.1,
    blk1 := BitVec.ofNat 7 g1.1, c1 := BitVec.ofNat 8 g1.2.1, k1 := BitVec.ofNat 8 g1.2.2,
    blk2 := BitVec.ofNat 7 g2.1, c2 := BitVec.ofNat 8 g2.2.1, k2 := BitVec.ofNat 8 g2.2.2,
    ecLen := BitVec.ofNat 8 row.2.1, totalCw := BitVec.ofNat 12 (g1.1 * g1.2.1 + g2.1 * g2.2.1),
    nblk := BitVec.ofNat 7 (g1.1 + g2.1) }

/-- Bits `n-1` down to 0 of a value, most significant first (20_memory R206). -/
def bitsOf (x : Nat) : Nat → List Bool
  | 0 => []
  | n + 1 => x.testBit n :: bitsOf x n

/-- Bit `k` of a byte set to `b`. -/
def setBit (old : Byte) (k : Nat) (b : Bool) : Byte :=
  (old &&& ~~~(1#8 <<< k)) ||| (if b then 1#8 <<< k else 0#8)

end Sys2Proof.Machine
end

