-- ==== Sys2Proof/Machine/Bitstream.lean ====
section
/-! DEFINITION. The bitstream composer (42_bitstream): BS_RESET, BS_APPEND, BS_TERMINATE, BS_PAD, COMPOSE. -/

namespace Sys2Proof.Machine

/-- The stream a command is appending to: the windows and the bit cursor (R600). -/
structure Stream where
  mem : Memory
  cur : Nat
  deriving DecidableEq, Repr

/-- Append one bit (R602): the byte is cleared when its first bit is appended, else read back. -/
def appendBit (b : Bool) (st : Stream) : Except Unwritten Stream :=
  match (if st.cur % 8 = 0 then .ok 0#8 else st.mem.readElem .bs (st.cur / 8)) with
  | .error f => .error f
  | .ok old =>
    .ok { mem := st.mem.write .bs (st.cur / 8) (setBit old (7 - st.cur % 8) b), cur := st.cur + 1 }

/-- Append bits, the first first. -/
def appendBits : List Bool → Stream → Except Unwritten Stream
  | [], st => .ok st
  | b :: bs, st =>
    match appendBit b st with
    | .error f => .error f
    | .ok st' => appendBits bs st'

/-- `bs_append(w, x)` (R602): bits `w-1` down to 0 of `x`. -/
def appendField (w x : Nat) (st : Stream) : Except Unwritten Stream := appendBits (bitsOf x w) st

/-- Append fields (width, value), the first first. -/
def appendFields : List (Nat × Nat) → Stream → Except Unwritten Stream
  | [], st => .ok st
  | (w, x) :: fs, st =>
    match appendField w x st with
    | .error f => .error f
    | .ok st' => appendFields fs st'

/-- The terminator and the zero padding to a byte boundary (R612): `t = min(4, CAPBITS - CUR)` zero bits (none when
`CUR` is past `CAPBITS`, log entry 9), then `z` zero bits. -/
def terminate (cap : Nat) (st : Stream) : Except Unwritten Stream :=
  match appendField (min 4 (cap - st.cur)) 0 st with
  | .error f => .error f
  | .ok st' => appendField ((8 - st'.cur % 8) % 8) 0 st'

/-- The pad codewords `0xEC`, `0x11`, ... as fields: `k` of them, starting with `0xEC` when `even` (R613). -/
def padFields : (k : Nat) → (even : Bool) → List (Nat × Nat)
  | 0, _ => []
  | k + 1, even => (8, if even then 0xEC else 0x11) :: padFields k (!even)

/-- The loop of R613, `while CUR < CAPBITS`: `CUR` and `CAPBITS` are multiples of 8 there. -/
def padStream (cap : Nat) (st : Stream) : Except Unwritten Stream :=
  appendFields (padFields ((cap - st.cur) / 8) true) st

/-- The state's stream. -/
def State.stream (s : State) : Stream := { mem := s.mem, cur := s.cur.toNat }

/-- Take a stream back into the state. -/
def State.setStream (s : State) (st : Stream) : State := (s.setMem st.mem).setCur st.cur

/-- Every byte of `BS` zero and the cursor 0 (R610). -/
def Stream.zeroed (m : Memory) : Stream :=
  { mem := m.writeList .bs 0 (List.replicate Config.bsCap 0#8), cur := 0 }

/-- BS_RESET (R610). -/
def execBsReset (s : State) : Result :=
  unlessError s fun s => .next ((s.setStatus s.status.invBs).setStream (Stream.zeroed s.mem))

/-- BS_APPEND (R611). -/
def execBsAppend (w : BitVec 5) (x : BitVec 16) (s : State) : Result :=
  unlessError s fun s =>
    if w.toNat = 0 ∨ 16 < w.toNat then raiseError errIllegalOperand s
    else require s.status.selV s <|
      if s.entry.capBits < s.cur.toNat + w.toNat then raiseError errBsOverflow s
      else orFault s (appendField w.toNat x.toNat s.stream) fun st =>
        .next ((s.setStatus s.status.invBs).setStream st)

/-- BS_TERMINATE (R612). -/
def execBsTerminate (s : State) : Result :=
  unlessError s fun s =>
    require s.status.selV s <|
      orFault s (terminate s.entry.capBits s.stream) fun st =>
        .next ((s.setStatus s.status.invBs).setStream st)

/-- BS_PAD (R613). -/
def execBsPad (s : State) : Result :=
  unlessError s fun s =>
    require (s.status.selV && decide (s.cur.toNat % 8 = 0)) s <|
      orFault s (padStream s.entry.capBits s.stream) fun st =>
        .next ((s.setStatus s.status.invBs.setBs).setStream st)

/-- What the scan of the digits finds (R620): all digits with their values, or the first index that stops it. -/
inductive Scan where
  | digits (ds : List Nat)
  | invalid
  | stopped (i : Nat)
  deriving DecidableEq, Repr

/-- The scan of R620 over the elements from index `i` on, in index order: an element never written is the model fault,
a byte outside 0x30..0x39 is no digit (log entry 11). `seen` holds the digits so far, last first. -/
def scanDigits : Nat → List Nat → List (Option Byte) → Scan
  | _, seen, [] => .digits seen.reverse
  | i, _, none :: _ => .stopped i
  | i, seen, some c :: cs =>
    if c.toNat < 0x30 ∨ 0x39 < c.toNat then .invalid else scanDigits (i + 1) ((c.toNat - 0x30) :: seen) cs

/-- The digit groups as fields: threes from the left take 10 bits, a trailing pair 7, a trailing digit 4 (R622). -/
def digitFields : List Nat → List (Nat × Nat)
  | a :: b :: c :: ds => (10, 100 * a + 10 * b + c) :: digitFields ds
  | [a, b] => [(7, 10 * a + b)]
  | [a] => [(4, a)]
  | [] => []

/-- The stream of R620 from the digits: header (R621), digit groups (R622), terminator, padding. -/
def composeStream (e : Entry) (n : Nat) (ds : List Nat) (m : Memory) : Except Unwritten Stream :=
  match appendFields ((4, 1) :: (e.cci.toNat, n) :: digitFields ds) (Stream.zeroed m) with
  | .error f => .error f
  | .ok st =>
    match terminate e.capBits st with
    | .error f => .error f
    | .ok st' => padStream e.capBits st'

/-- COMPOSE (R620): every check comes before the first write. -/
def execCompose (s : State) : Result :=
  unlessError s fun s =>
    require s.status.selV s <|
      if s.entry.capBits < 4 + s.entry.cci.toNat + contentBits s.len.toNat then raiseError errBsOverflow s
      else
        match scanDigits 0 [] (Ram.view s.mem.digits 0 s.len.toNat) with
        | .stopped i => raiseUnwritten ⟨.digits, i⟩ s
        | .invalid => raiseError errInvalidDigit s
        | .digits ds =>
          orFault s (composeStream s.entry s.len.toNat ds s.mem) fun st =>
            .next ((s.setStatus s.status.invBs.setBs).setStream st)

end Sys2Proof.Machine
end

