-- ==== Sys2Proof/Machine/Capacity.lean ====
section
/-! DEFINITION. The version selector (41_capacity_select): CAP_LOOKUP and SELECT. -/

namespace Sys2Proof.Machine

/-- Load an entry: `INV_SEL`, the registers of `load_entry`, `SEL_V <- 1` (R509, R510, R520). -/
def State.selectEntry (s : State) (e : Entry) : State :=
  (s.setStatus s.status.invSel.setSel).setEntry e

/-- `required_bits(v, n)` (R507). -/
def requiredBits (v n : Nat) : Nat := 4 + cci v + contentBits n

/-- `fits(v, ecl, n)` (R507). -/
def fits (v : Nat) (e : BitVec 2) (n : Nat) : Bool :=
  match capRow? v e with
  | some row => decide (requiredBits v n ≤ 8 * row.1)
  | none => false

/-- The first version from `v` on, of `k` in turn, that fits. -/
def firstFit (e : BitVec 2) (n : Nat) : (k : Nat) → (v : Nat) → Option Nat
  | 0, _ => none
  | k + 1, v => if fits v e n then some v else firstFit e n k (v + 1)

/-- CAP_LOOKUP (R510). -/
def execCapLookup (v : BitVec 6) (e : BitVec 2) (s : State) : Result :=
  unlessError s fun s =>
    match capRow? v.toNat e with
    | none => raiseError errNotFound s
    | some row => .next (s.selectEntry (entryOf v.toNat e row))

/-- SELECT (R520): the first version 1..40 that fits, in ascending order. -/
def execSelect (s : State) : Result :=
  unlessError s fun s =>
    match firstFit s.ecl s.len.toNat Config.verMax 1 with
    | none => raiseError errCapacityExceeded s
    | some v =>
      match capRow? v s.ecl with
      | none => raiseError errCapacityExceeded s
      | some row => .next (s.selectEntry (entryOf v s.ecl row))

end Sys2Proof.Machine
end

