-- ==== Sys2Proof/Machine/Interleave.lean ====
section
/-! DEFINITION. The interleaver (44_interleave): INTERLEAVE. -/

namespace Sys2Proof.Machine

/-- The indices into `BS` in the order R801 emits them: by column, then by block, a block skipped once exhausted. -/
def Entry.dataOrder (e : Entry) : List Nat :=
  (List.range e.kMax).flatMap fun col =>
    ((List.range e.nblk.toNat).filter fun b => decide (col < e.blkLen b)).map fun b => e.blkStart b + col

/-- The indices into `ECB` in the order R801 emits them: by column, then by block. -/
def Entry.ecOrder (e : Entry) : List Nat :=
  (List.range e.ecLen.toNat).flatMap fun col =>
    (List.range e.nblk.toNat).map fun b => b * e.ecLen.toNat + col

/-- INTERLEAVE (R810): `ILV[TOTAL_CW..3706)` are not written. -/
def execInterleave (s : State) : Result :=
  unlessError s fun s =>
    require (s.status.selV && s.status.bsV && s.status.ecV) s <|
      orFault s (s.mem.readAt .bs s.entry.dataOrder) fun ds =>
        orFault s (s.mem.readAt .ecb s.entry.ecOrder) fun es =>
          .next ((s.setStatus s.status.invIlv.setIlv).setMem (s.mem.writeList .ilv 0 (ds ++ es)))

end Sys2Proof.Machine
end

