-- ==== Sys2Proof/Machine/Matrix.lean ====
section
/-! DEFINITION. The matrix builder (45_matrix): BUILD, VER_CALC, FMT_CALC, ZZ_RESET, ZZ_NEXT. -/

namespace Sys2Proof.Machine

/-! ### Cells (10_state R132) -/

/-- The value code of a cell, bits 1:0 (R132). -/
def CellValue.code : CellValue → Byte
  | .light => 0#8
  | .dark  => 1#8
  | .unset => 2#8

/-- A cell: value code, and bit 2 the reserved mark `RSV` (R132). -/
def cell (v : CellValue) (rsv : Bool) : Byte := v.code ||| (if rsv then 4#8 else 0#8)

/-- `DARK` when the bit is 1, else `LIGHT` (00_scope R11). -/
def shade (b : Bool) : CellValue := if b then .dark else .light

/-! ### BCH words (R915 to R920) -/

/-- The division of R915: for `k` from `m + i - 1` down to `m`, clear bit `k` of `r` with the generator. -/
def bchReduce (g m : Nat) : (i : Nat) → (r : Nat) → Nat
  | 0, r => r
  | i + 1, r => bchReduce g m i (if r.testBit (m + i) then r ^^^ (g <<< i) else r)

/-- `bch(d, n, g)` with `m` the degree of `g` (R915). -/
def bch (d n g m : Nat) : Nat := (d <<< m) ||| bchReduce g m n (d <<< m)

/-- The version word `vi(v)` (R915). -/
def versionWord (v : Nat) : BitVec 18 := BitVec.ofNat 18 (bch v 6 0x1F25 12)

/-- `ecbits(e) = e ^ 1`: L→1, M→0, Q→3, H→2 (R917). -/
def ecBits (e : BitVec 2) : BitVec 2 := e ^^^ 1#2

/-- The format word `fmt_word(e, m)` (R920). -/
def formatWord (e : BitVec 2) (m : BitVec 3) : BitVec 15 :=
  BitVec.ofNat 15 (bch ((ecBits e ++ m).toNat) 5 0x537 10) ^^^ 0x5412#15

/-! ### Positions (R902 to R911). `S` is `side v`; rows and columns count from 0 (00_scope R11) -/

/-- The distance between two coordinates. -/
def gap (a b : Nat) : Nat := (a - b) + (b - a)

/-- The top-left corners of the three finders (R902). -/
def finderCorners (v : Nat) : List (Nat × Nat) := [(0, 0), (0, side v - 7), (side v - 7, 0)]

/-- A finder's module (R902): a light ring at distance 2 from its centre, dark elsewhere. `none` outside its 7 x 7. -/
def finderAt (r0 c0 r c : Nat) : Option CellValue :=
  if r0 ≤ r ∧ r ≤ r0 + 6 ∧ c0 ≤ c ∧ c ≤ c0 + 6 then
    some (if max (gap r (r0 + 3)) (gap c (c0 + 3)) = 2 then .light else .dark)
  else none

/-- The separators (R903). -/
def isSeparator (v r c : Nat) : Bool :=
  let S := side v
  decide ((r = 7 ∧ c ≤ 7) ∨ (c = 7 ∧ r ≤ 7) ∨
    (r = 7 ∧ S - 8 ≤ c) ∨ (c = S - 8 ∧ r ≤ 7) ∨
    (r = S - 8 ∧ c ≤ 7) ∨ (c = 7 ∧ S - 8 ≤ r))

/-- The timing patterns (R904): row 6 and column 6, from 8 to `S-9`. -/
def timingAt (v r c : Nat) : Option CellValue :=
  if r = 6 ∧ 8 ≤ c ∧ c ≤ side v - 9 then some (shade (c % 2 == 0))
  else if c = 6 ∧ 8 ≤ r ∧ r ≤ side v - 9 then some (shade (r % 2 == 0))
  else none

/-- The 5 x 5 box centred at `(x, y)` meets one of the three 8 x 8 finder areas (R907). -/
def meetsFinder (v x y : Nat) : Bool :=
  let S := side v
  decide ((x - 2 ≤ 7 ∧ y - 2 ≤ 7) ∨ (x - 2 ≤ 7 ∧ S - 8 ≤ y + 2) ∨ (S - 8 ≤ x + 2 ∧ y - 2 ≤ 7))

/-- `centres(v)` (R907): the pairs of `ALIGN[v]` whose box meets no finder area. -/
def centres (v : Nat) : List (Nat × Nat) :=
  ((alignRom v).flatMap fun x => (alignRom v).map fun y => (x, y)).filter fun p => !meetsFinder v p.1 p.2

/-- Module `(r, c)` is in the 5 x 5 box centred at `p`. -/
def inBox (p : Nat × Nat) (r c : Nat) : Bool := decide (gap r p.1 ≤ 2) && decide (gap c p.2 ≤ 2)

/-- An alignment pattern's module (R905): a light ring at distance 1 from its centre, dark elsewhere. -/
def alignmentAt (cs : List (Nat × Nat)) (r c : Nat) : Option CellValue :=
  (cs.find? fun p => inBox p r c).map fun p => if max (gap r p.1) (gap c p.2) = 1 then .light else .dark

/-- Which bit of the version word module `(r, c)` shows (R908), for `v ≥ 7`: bit `i` is at `(i/3, S-11+i%3)` and at the
transposed place. -/
def versionBitAt (v r c : Nat) : Option Nat :=
  let S := side v
  if v < 7 then none
  else if r ≤ 5 ∧ S - 11 ≤ c ∧ c ≤ S - 9 then some (3 * r + (c - (S - 11)))
  else if c ≤ 5 ∧ S - 11 ≤ r ∧ r ≤ S - 9 then some (3 * c + (r - (S - 11)))
  else none

/-- `FA(i)`: bit `i` of the format word around the top-left finder (R909). -/
def formatA (i : Nat) : Nat × Nat :=
  if i ≤ 5 then (i, 8) else if i = 6 then (7, 8) else if i = 7 then (8, 8) else if i = 8 then (8, 7) else (8, 14 - i)

/-- `FB(i)`: bit `i` of the format word by the other two finders (R909). -/
def formatB (v i : Nat) : Nat × Nat :=
  if i ≤ 7 then (8, side v - 1 - i) else (side v - 15 + i, 8)

/-- Module `(r, c)` holds a format bit (R909). -/
def isFormat (v r c : Nat) : Bool :=
  (List.range 15).any fun i => decide (formatA i = (r, c)) || decide (formatB v i = (r, c))

/-- The dark module (R910). -/
def isDarkModule (v r c : Nat) : Bool := decide (r = side v - 8 ∧ c = 8)

/-- The value a fixed pattern gives module `(r, c)` of the symbol, if any. R930 writes the patterns in the order
finders and separators, timing, alignment, version, format, dark module: the last one written is asked first. -/
def patternAt (v : Nat) (cs : List (Nat × Nat)) (r c : Nat) : Option CellValue :=
  if isDarkModule v r c then some .dark
  else if isFormat v r c then some .unset
  else match versionBitAt v r c with
    | some i => some (shade ((versionWord v).getLsbD i))
    | none =>
      match alignmentAt cs r c with
      | some x => some x
      | none =>
        match timingAt v r c with
        | some x => some x
        | none =>
          if isSeparator v r c then some .light
          else (finderCorners v).findSome? fun p => finderAt p.1 p.2 r c

/-- The cell `BUILD` leaves at `(r, c)` (R901, R930): fixed and format modules with `RSV = 1`, data modules and cells
outside the symbol `UNSET` with `RSV = 0`. -/
def builtCell (v : Nat) (cs : List (Nat × Nat)) (r c : Nat) : Byte :=
  if r < side v ∧ c < side v then
    match patternAt v cs r c with
    | some x => cell x true
    | none => cell .unset false
  else cell .unset false

/-- All 177 x 177 cells `BUILD` writes, element `r*177 + c` the cell at `(r, c)` (R900, R901). -/
def builtCells (v : Nat) : List Byte :=
  let cs := centres v
  (List.range Config.cellCap).map fun k => builtCell v cs (k / Config.sideMax) (k % Config.sideMax)

/-- The reserved predicate (R911), for a module of the symbol. -/
def reserved (v : Nat) (cs : List (Nat × Nat)) (r c : Nat) : Bool :=
  let S := side v
  decide ((r ≤ 8 ∧ c ≤ 8) ∨ (r ≤ 8 ∧ S - 8 ≤ c) ∨ (S - 8 ≤ r ∧ c ≤ 8) ∨ r = 6 ∨ c = 6 ∨
    (7 ≤ v ∧ ((r ≤ 5 ∧ S - 11 ≤ c ∧ c ≤ S - 9) ∨ (c ≤ 5 ∧ S - 11 ≤ r ∧ r ≤ S - 9)))) ||
  cs.any fun p => inBox p r c

/-! ### The zigzag order (R940) -/

/-- The right columns of the column pairs: `S-1`, then two less each time, 6 replaced by 5, while at least 1. -/
def rightColumns : (fuel : Nat) → (right : Nat) → List Nat
  | 0, _ => []
  | fuel + 1, right =>
    if right = 0 then []
    else
      let c := if right = 6 then 5 else right
      c :: rightColumns fuel (c - 2)

/-- The coordinates of one column pair, upward or downward, right column first, reserved ones left out. -/
def sweep (v : Nat) (cs : List (Nat × Nat)) (right : Nat) : List (Nat × Nat) :=
  let S := side v
  let up := ((right + 1) &&& 2) == 0
  ((List.range S).flatMap fun vert =>
    let r := if up then S - 1 - vert else vert
    [(r, right), (r, right - 1)]).filter fun p => !reserved v cs p.1 p.2

/-- `Z(v)` (R940). -/
def zigzag (v : Nat) : List (Nat × Nat) :=
  let cs := centres v
  (rightColumns (side v) (side v - 1)).flatMap fun right => sweep v cs right

/-! ### Commands -/

/-- BUILD (R930): writes the version word too, or 0 below version 7. -/
def execBuild (s : State) : Result :=
  unlessError s fun s =>
    require s.status.selV s <|
      let v := s.entry.ver.toNat
      .next (((s.setStatus s.status.invMat.setMat).setVi (if 7 ≤ v then versionWord v else 0#18)).setMem
        (s.mem.writeList .mat 0 (builtCells v)))

/-- VER_CALC (R931). -/
def execVerCalc (v : BitVec 6) (s : State) : Result :=
  unlessError s fun s =>
    if v.toNat < 1 ∨ Config.verMax < v.toNat then raiseError errIllegalOperand s
    else .next (s.setVi (versionWord v.toNat))

/-- FMT_CALC (R932). -/
def execFmtCalc (e : BitVec 2) (m : BitVec 3) (s : State) : Result :=
  unlessError s fun s => .next (s.setFmt (formatWord e m))

/-- ZZ_RESET (R941). -/
def execZzReset (s : State) : Result :=
  unlessError s fun s =>
    require s.status.matV s <| .next ((s.setZz 0 0 0).setStatus s.status.setZz)

/-- ZZ_NEXT (R942): past the last coordinate only `ZZ_DONE` is set. -/
def execZzNext (s : State) : Result :=
  unlessError s fun s =>
    require s.status.zzV s <|
      match (zigzag s.entry.ver.toNat)[s.zzIdx.toNat]? with
      | none => .next (s.setStatus s.status.setZzDone)
      | some (r, c) => .next (s.setZz r c (s.zzIdx.toNat + 1))

end Sys2Proof.Machine
end

