-- ==== Sys2Proof/Machine/Mask.lean ====
section
/-! DEFINITION. The mask evaluator and selector (46_mask): PLACE, SCORE, MASK_SELECT. -/

namespace Sys2Proof.Machine

/-! ### Placement (R1001 to R1005) -/

/-- `mask(m, i, j)`, `i` the row and `j` the column (R1004). -/
def maskBit (m : BitVec 3) (i j : Nat) : Bool :=
  match m.toNat with
  | 0 => (i + j) % 2 == 0
  | 1 => i % 2 == 0
  | 2 => j % 3 == 0
  | 3 => (i + j) % 3 == 0
  | 4 => (i / 2 + j / 3) % 2 == 0
  | 5 => (i * j) % 2 + (i * j) % 3 == 0
  | 6 => ((i * j) % 2 + (i * j) % 3) % 2 == 0
  | _ => ((i + j) % 2 + (i * j) % 3) % 2 == 0

/-- `ilv_bit(t)` of the codewords `ilv` (R1002): each codeword most significant bit first. Past the last codeword the
bit is 0 (R1003). -/
def ilvBit (ilv : Array Byte) (t : Nat) : Bool := (ilv.getD (t / 8) 0#8).getLsbD (7 - t % 8)

/-- Writes (index, element) made one after another over a window's elements. -/
def overlay (cells : List Byte) (writes : List (Nat × Byte)) : List Byte :=
  writes.foldl (fun a w => a.set w.1 w.2) cells

/-- The element of `MAT` or `WM` at `(r, c)` (10_state R131). -/
def cellIndex (p : Nat × Nat) : Nat := p.1 * Config.sideMax + p.2

/-- The data modules' writes, in zigzag order from coordinate number `t` on (R1002, R1003, R1004). -/
def dataWrites (m : BitVec 3) (ilv : Array Byte) : Nat → List (Nat × Nat) → List (Nat × Byte)
  | _, [] => []
  | t, p :: ps =>
    (cellIndex p, cell (shade (ilvBit ilv t ^^ maskBit m p.1 p.2)) false) :: dataWrites m ilv (t + 1) ps

/-- The format modules' writes, both copies (R1005). -/
def formatWrites (v : Nat) (f : BitVec 15) : List (Nat × Byte) :=
  (List.range 15).flatMap fun i =>
    [(cellIndex (formatA i), cell (shade (f.getLsbD i)) true),
     (cellIndex (formatB v i), cell (shade (f.getLsbD i)) true)]

/-- The cells of candidate `m`: those of `MAT`, then the data modules, then the format modules (R1005). -/
def placedCells (v : Nat) (f : BitVec 15) (m : BitVec 3) (ilv mat : List Byte) : List Byte :=
  overlay mat (dataWrites m ilv.toArray 0 (zigzag v) ++ formatWrites v f)

/-- The actions of `PLACE m` once its preconditions hold (R1005). The EC level is the entry's `SECL`. -/
def placeMask (m : BitVec 3) (s : State) : Except Unwritten State :=
  match s.mem.readList .mat 0 Config.cellCap with
  | .error f => .error f
  | .ok mat =>
    match s.mem.readList .ilv 0 s.entry.totalCw.toNat with
    | .error f => .error f
    | .ok ilv =>
      let f := formatWord s.entry.secl m
      .ok ((((s.setMem (s.mem.writeList .wm 0 (placedCells s.entry.ver.toNat f m ilv mat))).setFmt f).setWmMask
        m).setStatus s.status.setPlaced)

/-- PLACE (R1005). -/
def execPlace (m : BitVec 3) (s : State) : Result :=
  unlessError s fun s =>
    require (s.status.matV && s.status.ilvV) s <| orFault s (placeMask m s) fun s' => .next s'

/-! ### Penalties (R1010 to R1014). A line is a list of modules, true for dark -/

/-- The penalty of one maximal run (R1011). -/
def runPenalty (run : Nat) : Nat := if 5 ≤ run then Config.n1 + (run - 5) else 0

/-- The runs of the rest of a line whose last module was `prev`, in a run of `run` so far (R1011). -/
def runsFrom (prev : Bool) (run : Nat) : List Bool → Nat
  | [] => runPenalty run
  | a :: as => if a = prev then runsFrom prev (run + 1) as else runPenalty run + runsFrom a 1 as

/-- `rule1_line` (R1011). -/
def rule1Line : List Bool → Nat
  | [] => 0
  | a :: as => runsFrom a 1 as

/-- `p2` (R1012) over the rows of the symbol: the 2 x 2 blocks of one value. -/
def rule2 (rows : List (List Bool)) : Nat :=
  let val := fun r c => (rows.getD r []).getD c false
  let n := rows.length - 1
  Config.n2 * ((List.range n).map fun r =>
    (List.range n).countP fun c =>
      val r c == val r (c + 1) && val r c == val (r + 1) c && val r c == val (r + 1) (c + 1)).sum

/-- The 7-module pattern `1011101` (R1013). -/
def finderLike : List Bool := [true, false, true, true, true, false, true]

/-- The four modules before position `s` are light, out of bounds counting as light (R1013). -/
def lightBefore (a : List Bool) (s : Nat) : Bool :=
  [1, 2, 3, 4].all fun d => decide (s < d) || !(a.getD (s - d) false)

/-- The four modules from position `s` on are light, out of bounds counting as light (R1013). -/
def lightFrom (a : List Bool) (s : Nat) : Bool :=
  [0, 1, 2, 3].all fun d => !(a.getD (s + d) false)

/-- `rule3_line` (R1013): each occurrence once, though both sides be light. -/
def rule3Line (a : List Bool) : Nat :=
  Config.n3 * (List.range (a.length - 6)).countP fun s =>
    (a.drop s).take 7 == finderLike && (lightBefore a s || lightFrom a (s + 7))

/-- `p4` (R1014) for `dark` dark modules of a symbol of side `S`. -/
def rule4 (dark S : Nat) : Nat :=
  let k := 20 * dark / (S * S)
  Config.n4 * min (gap k 10) (gap k 9)

/-- The columns of the symbol as lines (R1010). -/
def columnsOf (rows : List (List Bool)) : List (List Bool) :=
  (List.range rows.length).map fun c => rows.map fun row => row.getD c false

/-- A cell is dark (R132, R1010). -/
def isDark (c : Byte) : Bool := c.extractLsb' 0 2 == 1#2

/-- Rows `r`, `r+1`, ... of the symbol in `WM`, `n` of them, `S` modules each (R1010). -/
def readRows (m : Memory) (S : Nat) : (n : Nat) → (r : Nat) → Except Unwritten (List (List Bool))
  | 0, _ => .ok []
  | n + 1, r =>
    match m.readList .wm (r * Config.sideMax) S with
    | .error f => .error f
    | .ok cells =>
      match readRows m S n (r + 1) with
      | .error f => .error f
      | .ok rows => .ok (cells.map isDark :: rows)

/-- The score of a symbol (R1010). -/
def scoreOf (rows : List (List Bool)) : Score :=
  let lines := rows ++ columnsOf rows
  let p1 := (lines.map rule1Line).sum
  let p2 := rule2 rows
  let p3 := (lines.map rule3Line).sum
  let dark := (rows.map fun row => row.countP id).sum
  let p4 := rule4 dark rows.length
  { p1 := BitVec.ofNat 32 p1, p2 := BitVec.ofNat 32 p2, p3 := BitVec.ofNat 32 p3, p4 := BitVec.ofNat 32 p4,
    ptotal := BitVec.ofNat 32 (p1 + p2 + p3 + p4), dark := BitVec.ofNat 15 dark }

/-- The actions of `SCORE` once its precondition holds (R1015). -/
def scoreMask (s : State) : Except Unwritten State :=
  match readRows s.mem (side s.entry.ver.toNat) (side s.entry.ver.toNat) 0 with
  | .error f => .error f
  | .ok rows =>
    let c := scoreOf rows
    .ok (((s.setScore c).setPen s.wmMask c.ptotal).setStatus (s.status.setScored s.wmMask))

/-- SCORE (R1015). -/
def execScore (s : State) : Result :=
  unlessError s fun s =>
    require s.status.wmV s <| orFault s (scoreMask s) fun s' => .next s'

/-! ### Selection (R1020) -/

/-- The actions of `PLACE m`, then of `SCORE`. -/
def tryMask (m : BitVec 3) (s : State) : Except Unwritten State :=
  match placeMask m s with
  | .error f => .error f
  | .ok s' => scoreMask s'

/-- The ascending loop of R1020 over the listed masks, with the best so far: a later mask replaces it only when its
total is strictly lower. -/
def tryMasks : List (BitVec 3) → Option (BitVec 3 × Word) → State → Except Unwritten (State × Option (BitVec 3 × Word))
  | [], best, s => .ok (s, best)
  | m :: ms, best, s =>
    match tryMask m s with
    | .error f => .error f
    | .ok s' =>
      let better := match best with
        | none => true
        | some (_, p) => decide (s'.score.ptotal.toNat < p.toNat)
      tryMasks ms (if better then some (m, s'.score.ptotal) else best) s'

/-- The eight masks in evaluation order. -/
def allMasks : List (BitVec 3) := [0#3, 1#3, 2#3, 3#3, 4#3, 5#3, 6#3, 7#3]

/-- The actions of `MASK_SELECT` once its preconditions hold (R1020). -/
def selectMask (s : State) : Except Unwritten State :=
  match tryMasks allMasks none s with
  | .error f => .error f
  | .ok (s₁, best) =>
    let w := best.getD (0#3, 0#32)
    match tryMask w.1 (s₁.setBest w.1 w.2) with
    | .error f => .error f
    | .ok s₂ => .ok (s₂.setStatus s₂.status.setBest)

/-- MASK_SELECT (R1020). -/
def execMaskSelect (s : State) : Result :=
  unlessError s fun s =>
    require (s.status.matV && s.status.ilvV) s <| orFault s (selectMask s) fun s' => .next s'

end Sys2Proof.Machine
end

