-- ==== Sys2Proof/Machine/Galois.lean ====
section
/-! DEFINITION. The Galois field engine (40_galois_field): the field product and the commands GF_INIT and GF_MUL. -/

namespace Sys2Proof.Machine

/-- `gf_mul(a, b)` (R403). -/
def gfMul (a b : Byte) : Byte :=
  if a = 0#8 ∨ b = 0#8 then 0#8 else expRom (logRom a + logRom b)

/-- GF_INIT (R405): the tables are a ROM, so nothing changes. -/
def execGfInit (s : State) : Result := unlessError s fun s => .next s

/-- GF_MUL (R410): `GFR.P <- gf_mul(A, B)`. -/
def execGfMul (a b : BitVec 8) (s : State) : Result :=
  unlessError s fun s => .next (s.setGfP (gfMul a b))

end Sys2Proof.Machine
end

