-- ==== Sys2Proof/Machine/ReedSolomon.lean ====
section
/-! DEFINITION. The Reed-Solomon encoder (43_reed_solomon): GEN_POLY, RS_ENCODE, RS_ALL. Polynomials are lists of
coefficients, highest degree first (00_scope R13). -/

namespace Sys2Proof.Machine

/-- One round of R701: `g * (x - EXP[i])`. Working from high to low, each `g[j]` takes the old `g[j-1]`. -/
def genStep (g : List Byte) (i : Nat) : List Byte :=
  List.zipWith (fun x y => x ^^^ y) (g ++ [0#8]) (0#8 :: g.map fun c => gfMul c (expRom i))

/-- `generator(n)` (R701). -/
def generator (n : Nat) : List Byte := (List.range n).foldl genStep [1#8]

/-- One data byte through the division register `r` (R703): feedback, shift left, and when the feedback is not 0 the
exclusive or of its multiples of `g[1..]`. -/
def rsStep (g r : List Byte) (d : Byte) : List Byte :=
  let fb := d ^^^ r.headD 0#8
  let shifted := r.tail ++ [0#8]
  if fb = 0#8 then shifted
  else List.zipWith (fun x c => x ^^^ gfMul fb c) shifted g.tail

/-- `rs_encode(d, g)` with `g` of degree `n` (R703). -/
def rsEncode (n : Nat) (g ds : List Byte) : List Byte := ds.foldl (rsStep g) (List.replicate n 0#8)

/-- Store a generator of degree `n` in `GEN`, `GENLEN` and `GEN_V` (R710, R720). -/
def State.storeGenerator (s : State) (n : Nat) : State :=
  ((s.setMem (s.mem.writeList .gen 0 (generator n))).setGenLen n).setStatus s.status.setGen

/-- GEN_POLY (R710). -/
def execGenPoly (n : BitVec 8) (s : State) : Result :=
  unlessError s fun s =>
    if n.toNat = 0 ∨ Config.ecMax < n.toNat then raiseError errIllegalOperand s
    else .next (s.storeGenerator n.toNat)

/-- RS_ENCODE (R711): `RSR[n..68)` keep their values. -/
def execRsEncode (o : BitVec 12) (l : BitVec 8) (s : State) : Result :=
  unlessError s fun s =>
    if Config.bsCap < o.toNat + l.toNat then raiseError errIllegalOperand s
    else require s.status.genV s <|
      orFault s (s.mem.readList .bs o.toNat l.toNat) fun ds =>
        orFault s (s.mem.readList .gen 0 (s.genLen.toNat + 1)) fun g =>
          .next (s.setMem (s.mem.writeList .rsr 0 (rsEncode s.genLen.toNat g ds)))

/-- The loop of R720 over the listed blocks: the EC bytes of block `b` go to `ECB[b*n ..]` and to `RSR`. -/
def rsBlocks (e : Entry) (g : List Byte) : List Nat → Memory → Except Unwritten Memory
  | [], m => .ok m
  | b :: bs, m =>
    match m.readList .bs (e.blkStart b) (e.blkLen b) with
    | .error f => .error f
    | .ok ds =>
      let r := rsEncode e.ecLen.toNat g ds
      rsBlocks e g bs ((m.writeList .ecb (b * e.ecLen.toNat) r).writeList .rsr 0 r)

/-- RS_ALL (R720). -/
def execRsAll (s : State) : Result :=
  unlessError s fun s =>
    require (s.status.selV && s.status.bsV) s <|
      let n := s.entry.ecLen.toNat
      let s₁ := (s.setStatus s.status.invEc).storeGenerator n
      orFault s (rsBlocks s.entry (generator n) (List.range s.entry.nblk.toNat) s₁.mem) fun m =>
        .next ((s₁.setMem m).setStatus s₁.status.setEc)

end Sys2Proof.Machine
end

