-- ==== Sys2Proof/Machine/Control.lean ====
section
/-! DEFINITION. The control commands (47_control): NOP, CLEAR, ENCODE. -/

namespace Sys2Proof.Machine

/-- NOP (R1100). -/
def execNop (s : State) : Result := unlessError s fun s => .next s

/-- CLEAR (R1101): the one command that runs while `ERR` is not 0. -/
def execClear (s : State) : Result := .next s.clearRequest

/-- ENCODE (R1110): the six commands in order. A sub-command that raises an error leaves `ERR` not 0, and every later one
is then ignored (60_exceptions R1203), so `ENCODE` stops there with that error. -/
def execEncode (s : State) : Result :=
  unlessError s fun s =>
    andThen (execSelect s) fun s =>
    andThen (execCompose s) fun s =>
    andThen (execRsAll s) fun s =>
    andThen (execInterleave s) fun s =>
    andThen (execBuild s) fun s =>
    execMaskSelect s

end Sys2Proof.Machine
end

