-- ==== Sys2Proof/Machine/Dispatch.lean ====
section
/-! DEFINITION. One arm per command: the meaning it calls. -/

namespace Sys2Proof.Machine

def exec (i : Instr) (s : State) : Host.Outcome State Fault Refusal :=
  match i with
  | .nop => Sys2Proof.Machine.execNop s
  | .clear => Sys2Proof.Machine.execClear s
  | .gfInit => Sys2Proof.Machine.execGfInit s
  | .gfMul a b => Sys2Proof.Machine.execGfMul a b s
  | .capLookup v e => Sys2Proof.Machine.execCapLookup v e s
  | .select => Sys2Proof.Machine.execSelect s
  | .compose => Sys2Proof.Machine.execCompose s
  | .bsReset => Sys2Proof.Machine.execBsReset s
  | .bsAppend w x => Sys2Proof.Machine.execBsAppend w x s
  | .bsTerminate => Sys2Proof.Machine.execBsTerminate s
  | .bsPad => Sys2Proof.Machine.execBsPad s
  | .genPoly n => Sys2Proof.Machine.execGenPoly n s
  | .rsEncode o l => Sys2Proof.Machine.execRsEncode o l s
  | .rsAll => Sys2Proof.Machine.execRsAll s
  | .interleave => Sys2Proof.Machine.execInterleave s
  | .build => Sys2Proof.Machine.execBuild s
  | .verCalc v => Sys2Proof.Machine.execVerCalc v s
  | .fmtCalc e m => Sys2Proof.Machine.execFmtCalc e m s
  | .zzReset => Sys2Proof.Machine.execZzReset s
  | .zzNext => Sys2Proof.Machine.execZzNext s
  | .place m => Sys2Proof.Machine.execPlace m s
  | .score => Sys2Proof.Machine.execScore s
  | .maskSelect => Sys2Proof.Machine.execMaskSelect s
  | .encode => Sys2Proof.Machine.execEncode s

end Sys2Proof.Machine
end

