-- ==== Sys2Proof/Machine/Bus.lean ====
section
/-! DEFINITION. The host bus (20_memory): what an address names, what a read gives back, what a write does, and the
command word a write to `CMD` carries (30_encoding R300, R310, R311; 60_exceptions R1203). -/

namespace Sys2Proof.Machine

/-- The registers of 10_state R104. -/
inductive Reg where
  | cmd | status | cfg | len | version | group1 | group2 | ecinfo | bscur | gfr | genlen | zzpos | zzidx | wmask
  | fmt | verinfo | p1 | p2 | p3 | p4 | ptotal | dark | best | bestpen
  | pen (m : Fin 8)
  deriving DecidableEq, Repr

/-- What an address names. -/
inductive Target where
  | reg (r : Reg)
  | elem (w : Window) (i : Nat)
  deriving DecidableEq, Repr

/-- The registers below `PEN0`, in the order of their offsets 0x000, 0x004, ... (R104). -/
def regsInOrder : List Reg :=
  [.cmd, .status, .cfg, .len, .version, .group1, .group2, .ecinfo, .bscur, .gfr, .genlen, .zzpos, .zzidx, .wmask,
   .fmt, .verinfo, .p1, .p2, .p3, .p4, .ptotal, .dark, .best, .bestpen]

/-- The windows in the order of their bases (20_memory R201). -/
def windowsInOrder : List Window := [.digits, .bs, .gen, .rsr, .ecb, .ilv, .mat, .wm]

/-- The register at a byte address that is a multiple of 4 (R104). -/
def regAt (a : Nat) : Option Reg :=
  if a < 0x060 then regsInOrder[a / 4]?
  else if a < 0x080 then some (.pen (Fin.ofNat 8 ((a - 0x060) / 4)))
  else none

/-- The address is that of an element of the window (20_memory R201, R204). -/
def Window.contains (w : Window) (a : Nat) : Bool := decide (w.base ≤ a ∧ a < w.base + 4 * w.size)

/-- What a byte address that is a multiple of 4 names; `none` is unmapped (R201). -/
def targetAt (a : Nat) : Option Target :=
  match regAt a with
  | some r => some (.reg r)
  | none => (windowsInOrder.find? fun w => w.contains a).map fun w => .elem w ((a - w.base) / 4)

/-- An access the bus accepts by its form: 32 bits wide at a multiple of 4 (R202, R203). -/
def formOk (a : Addr) (width : Nat) : Bool := decide (width = 32) && decide (a.toNat % 4 = 0)

/-- The value of a register as a word, reserved fields 0 (R208, 10_state R105 to R122). -/
def State.regWord (s : State) : Reg → Word
  | .cmd     => s.lastcmd
  | .status  => s.status.word
  | .cfg     => 0#30 ++ s.ecl
  | .len     => 0#19 ++ s.len
  | .version => 0#4 ++ s.entry.dataCw ++ 0#4 ++ s.entry.cci ++ s.entry.secl ++ s.entry.ver
  | .group1  => 0#8 ++ s.entry.k1 ++ s.entry.c1 ++ 0#1 ++ s.entry.blk1
  | .group2  => 0#8 ++ s.entry.k2 ++ s.entry.c2 ++ 0#1 ++ s.entry.blk2
  | .ecinfo  => 0#5 ++ s.entry.nblk ++ s.entry.totalCw ++ s.entry.ecLen
  | .bscur   => 0#17 ++ s.cur
  | .gfr     => 0#24 ++ s.gfP
  | .genlen  => 0#25 ++ s.genLen
  | .zzpos   => 0#16 ++ s.zzCol ++ s.zzRow
  | .zzidx   => 0#17 ++ s.zzIdx
  | .wmask   => 0#29 ++ s.wmMask
  | .fmt     => 0#17 ++ s.fmtWord
  | .verinfo => 0#14 ++ s.viWord
  | .p1      => s.score.p1
  | .p2      => s.score.p2
  | .p3      => s.score.p3
  | .p4      => s.score.p4
  | .ptotal  => s.score.ptotal
  | .dark    => 0#17 ++ s.score.dark
  | .best    => 0#29 ++ s.bestId
  | .bestpen => s.bestPen
  | .pen m   => s.pen[m]

/-- How many low bits of a word an element of the window is: 3 for a cell, 8 for a byte (R204). -/
def Window.elemMask : Window → Byte
  | .digits => 0xFF#8
  | .bs     => 0xFF#8
  | .gen    => 0xFF#8
  | .rsr    => 0xFF#8
  | .ecb    => 0xFF#8
  | .ilv    => 0xFF#8
  | .mat    => 0x07#8
  | .wm     => 0x07#8

/-- A host read of an element (R211): the stored element, or a free value where never written (log entry 5). -/
def State.readElement (s : State) (w : Window) (i : Nat) : State :=
  match s.mem.read? w i with
  | some b => s.respond (.data (0#24 ++ (b &&& w.elemMask)))
  | none =>
    { s.respond (.data (0#24 ++ (Config.freeElem s.draws &&& w.elemMask))) with draws := s.draws + 1 }

/-- A host read (R207, R208, R211). -/
def busRead (a : Addr) (width : Nat) (s : State) : State :=
  if formOk a width then
    match targetAt a.toNat with
    | some (.reg r) => s.respond (.data (s.regWord r))
    | some (.elem w i) => s.readElement w i
    | none => s.respond (.busError a)
  else s.respond (.busError a)

/-- An illegal word (30_encoding R310): `ILLEGAL_CMD`, or nothing while `ERR` is not 0 (R311). -/
def illegalWord (s : State) : Result := unlessError s fun s => raiseError errIllegalCmd s

/-- The command word of a `CMD` write, `LASTCMD` and the bus response already in the state: decode it and run it
(10_state R106, 60_exceptions R1203). -/
def runWord (w : Word) (s : State) : Result :=
  match decode w with
  | .ok i => exec i s
  | .error _ => illegalWord s

/-- The state in which a command written to `CMD` runs: `LASTCMD` holds its word (R106, R209), and the write completes. -/
def State.accept (s : State) (w : Word) : State := (s.setLastcmd w).respond .done

/-- A host write of one element of a read-write window (R210). -/
def State.writeElement (s : State) (w : Window) (i : Nat) (d : Word) : State :=
  ((s.setMem (s.mem.write w i (d.extractLsb' 0 8))).setStatus s.status.invBs).respond .done

/-- A host write (R207, R209, R210). -/
def busWrite (a : Addr) (width : Nat) (d : Word) (s : State) : Result :=
  if formOk a width then
    match targetAt a.toNat with
    | some (.reg .cmd) => runWord d (s.accept d)
    | some (.reg .cfg) => .next (((s.setEcl (d.extractLsb' 0 2)).setStatus s.status.invSel).respond .done)
    | some (.reg .len) => .next (((s.setLen (d.extractLsb' 0 13)).setStatus s.status.invSel).respond .done)
    | some (.elem .digits i) => .next (s.writeElement .digits i d)
    | some (.elem .bs i) => .next (s.writeElement .bs i d)
    | _ => .next (s.respond (.busError a))
  else .next (s.respond (.busError a))

/-- The platform's reset (70_reset R1300): every register and every window as after reset; the fault log, which no step
clears, and the model's own fields stay (log entries 1, 4). -/
def State.platformReset (s : State) : State :=
  { State.reset with faultLog := s.faultLog, inbox := s.inbox, response := none, draws := s.draws }

/-- One move of the host, already taken off the inbox. -/
def hostMove (h : HostMove) (s : State) : Result :=
  match h with
  | .read a width => .next (busRead a width s)
  | .write a width d => busWrite a width d s
  | .reset => .next s.platformReset

/-- One step: the next move of the host (20_memory R220); with none to make, the block waits (70_reset R1301). -/
def nextMove (s : State) : Result :=
  match s.inbox with
  | [] => .next s
  | h :: rest => hostMove h { s with inbox := rest }

end Sys2Proof.Machine
end

