-- ==== Sys2Proof/Machine/Step.lean ====
section
/-! DEFINITION. One step of the machine, and the placing of a command word where the next step takes it. -/

namespace Sys2Proof.Machine

/-- One step: the host's next bus access or the platform's reset, run to completion (20_memory R220). -/
def step (s : State) : Host.Outcome State Fault Refusal := nextMove s

/-- `s` with the command word of `w` as the host's next move, a 32-bit write to `CMD` (10_state R106): the block fetches
nothing, so this is where a command comes from (log entry 1). -/
def State.withFetchWord (s : State) (nbits w : Nat) : State :=
  { s with inbox := .write 0#20 32 (tableWord nbits w) :: s.inbox }

end Sys2Proof.Machine
end

