-- ==== Sys2Proof/Safety.lean ====
section
/-! DEFINITION. What counts as a safe run and the terms the statements are made in: a request and its end (47_control
R1120, R1123), the invariant every step keeps, what the validity flags promise (10_state R107, R134), and the spec's
tables of errors (60_exceptions R1201, R1202), of writers (10_state R124) and of encodings (30_encoding R304, R305). -/

namespace Sys2Proof.Machine

/-! ### Requests -/

/-- An ASCII decimal digit (10_state R125). -/
def isDigit (b : Byte) : Prop := 0x30 ≤ b.toNat ∧ b.toNat ≤ 0x39

/-- The elements `0 .. n` of window `w` have all been written. -/
def Memory.Written (m : Memory) (w : Window) (n : Nat) : Prop := ∀ i < n, (m.read? w i).isSome = true

/-- `launch_ok` (R1123): items 4 and 5 always hold, item 2 is the host's intent. -/
def State.LaunchOk (s : State) : Prop :=
  s.status = Status.zero ∧ ∀ i < s.len.toNat, ∃ b, s.mem.read? .digits i = some b ∧ isDigit b

/-- The request has succeeded (R1120). -/
def State.Succeeded (s : State) : Prop := s.status.err = 0#4 ∧ s.status.bestV = true

/-- The request has failed (R1120). -/
def State.Failed (s : State) : Prop := s.status.err ≠ 0#4

/-- Some version 1..40 at level `CFG.ECL` holds `LEN` digits (41_capacity_select R520). -/
def State.Fits (s : State) : Prop := ∃ v, 1 ≤ v ∧ v ≤ Config.verMax ∧ fits v s.ecl s.len.toNat = true

/-! ### The invariant -/

/-- `VERSION`, `GROUP1`, `GROUP2`, `ECINFO` hold one row of the capacity ROM (41_capacity_select R509). -/
def State.EntrySelected (s : State) : Prop := ∃ v e row, capRow? v e = some row ∧ s.entry = entryOf v e row

/-- The flags that imply another one (10_state R134, R138). -/
def Status.Chained (t : Status) : Prop :=
  (t.bsV = true → t.selV = true) ∧ (t.ecV = true → t.bsV = true) ∧ (t.ilvV = true → t.ecV = true) ∧
  (t.matV = true → t.selV = true) ∧ (t.zzV = true → t.matV = true) ∧ (t.zzDone = true → t.zzV = true) ∧
  (t.wmV = true → t.matV = true ∧ t.ilvV = true) ∧ (t.scV = true → t.wmV = true) ∧
  (t.bestV = true → t.wmV = true) ∧ (t.penv ≠ 0#8 → t.wmV = true)

/-- A stored cell has 3 bits and a value code other than 3 (10_state R132). -/
def cellLegal (b : Byte) : Prop := b.toNat < 8 ∧ b.toNat % 4 ≠ 3

/-- The cells of `MAT` and `WM` are legal. -/
def Memory.CellsLegal (m : Memory) : Prop :=
  ∀ i b, (m.read? .mat i = some b ∨ m.read? .wm i = some b) → cellLegal b

/-- The bit cursor is inside the buffer and every byte with a bit below it has been written (42_bitstream R600, R602). -/
def State.CursorOk (s : State) : Prop :=
  s.cur.toNat ≤ 8 * Config.bsCap ∧ ∀ i, 8 * i < s.cur.toNat → (s.mem.read? .bs i).isSome = true

/-- What holds in every state a run reaches. -/
structure State.Inv (s : State) : Prop where
  canonical : s.mem.wf = true
  code      : s.status.err.toNat ≤ 7
  chained   : s.status.Chained
  entry     : s.entry = Entry.zero ∨ s.EntrySelected
  selected  : s.status.selV = true → s.EntrySelected
  cursor    : s.CursorOk
  bs        : s.status.bsV = true → s.entry.capBits ≤ s.cur.toNat
  gen       : s.status.genV = true →
    1 ≤ s.genLen.toNat ∧ s.genLen.toNat ≤ Config.ecMax ∧ s.mem.Written .gen (s.genLen.toNat + 1)
  ecb       : s.status.ecV = true → s.mem.Written .ecb (s.entry.nblk.toNat * s.entry.ecLen.toNat)
  ilv       : s.status.ilvV = true → s.mem.Written .ilv s.entry.totalCw.toNat
  mat       : s.status.matV = true → s.mem.Written .mat Config.cellCap
  wm        : s.status.wmV = true → s.mem.Written .wm Config.cellCap
  zz        : s.status.zzV = true → s.zzIdx.toNat ≤ (zigzag s.entry.ver.toNat).length
  cells     : s.mem.CellsLegal

/-! ### What the validity flags promise (10_state R107, R134) -/

/-- The symbol of side `S` in the cells of a matrix window, rows of modules, true for dark (46_mask R1010). -/
def symbolRows (S : Nat) (cells : List Byte) : List (List Bool) :=
  (List.range S).map fun r => ((cells.drop (r * Config.sideMax)).take S).map isDark

/-- The cells of candidate `m` for the current `MAT`, `ILV` and entry (46_mask R1005). -/
def State.candidate (s : State) (m : BitVec 3) : Except Unwritten (List Byte) :=
  match s.mem.readList .mat 0 Config.cellCap with
  | .error f => .error f
  | .ok mat =>
    match s.mem.readList .ilv 0 s.entry.totalCw.toNat with
    | .error f => .error f
    | .ok ilv => .ok (placedCells s.entry.ver.toNat (formatWord s.entry.secl m) m ilv mat)

/-- The total penalty of candidate `m`. -/
def State.candidateTotal (s : State) (m : BitVec 3) : Option Word :=
  match s.candidate m with
  | .ok cells => some (scoreOf (symbolRows (side s.entry.ver.toNat) cells)).ptotal
  | .error _ => none

/-- Every set flag tells the truth about the window or the registers it vouches for. -/
structure State.Truthful (s : State) : Prop where
  gen  : s.status.genV = true → s.mem.readList .gen 0 (s.genLen.toNat + 1) = .ok (generator s.genLen.toNat)
  ecb  : s.status.ecV = true → ∀ b < s.entry.nblk.toNat, ∃ ds,
    s.mem.readList .bs (s.entry.blkStart b) (s.entry.blkLen b) = .ok ds ∧
    s.mem.readList .ecb (b * s.entry.ecLen.toNat) s.entry.ecLen.toNat =
      .ok (rsEncode s.entry.ecLen.toNat (generator s.entry.ecLen.toNat) ds)
  ilv  : s.status.ilvV = true → ∃ ds es,
    s.mem.readAt .bs s.entry.dataOrder = .ok ds ∧ s.mem.readAt .ecb s.entry.ecOrder = .ok es ∧
    s.mem.readList .ilv 0 s.entry.totalCw.toNat = .ok (ds ++ es)
  mat  : s.status.matV = true → s.mem.readList .mat 0 Config.cellCap = .ok (builtCells s.entry.ver.toNat)
  zz   : s.status.zzV = true →
    (s.status.zzDone = true → s.zzIdx.toNat = (zigzag s.entry.ver.toNat).length) ∧
    ∀ k, s.zzIdx.toNat = k + 1 → (zigzag s.entry.ver.toNat)[k]? = some (s.zzRow.toNat, s.zzCol.toNat)
  wm   : s.status.wmV = true → ∃ cells,
    s.candidate s.wmMask = .ok cells ∧ s.mem.readList .wm 0 Config.cellCap = .ok cells
  sc   : s.status.scV = true → ∃ rows,
    readRows s.mem (side s.entry.ver.toNat) (side s.entry.ver.toNat) 0 = .ok rows ∧ s.score = scoreOf rows
  pen  : ∀ m : Fin 8, s.status.penv.getLsbD m = true → s.candidateTotal (BitVec.ofFin m) = some s.pen[m]
  best : s.status.bestV = true → s.status.penv = 0xFF#8 ∧ s.bestPen = s.pen[s.bestId.toFin] ∧
    ∀ m : Fin 8, s.bestPen.toNat ≤ s.pen[m].toNat ∧ (m < s.bestId.toFin → s.bestPen.toNat < s.pen[m].toNat)

/-! ### Errors (60_exceptions R1201, R1202) -/

/-- A byte that was written and is no digit (42_bitstream R620). -/
def isBadDigit : Option Byte → Bool
  | some b => decide (b.toNat < 0x30) || decide (0x39 < b.toNat)
  | none => false

/-- `COMPOSE`'s scan ends at a non-digit: one is found, and every element before the first one is written (log
entry 11). -/
def State.MeetsBadDigit (s : State) : Prop :=
  ∃ k < s.len.toNat, isBadDigit (s.mem.read? .digits k) = true ∧
    ∀ i < k, ∃ b, s.mem.read? .digits i = some b ∧ isDigit b

/-- The code a command other than `ENCODE` raises when `ERR` is 0 (R1201), the first cause in the order of R1202, each
cause as R1201's table words it. -/
inductive Raises : Instr → State → BitVec 4 → Prop
  | appendOperand {w x s} (h : w.toNat = 0 ∨ 16 < w.toNat) : Raises (.bsAppend w x) s 2
  | genOperand {n s} (h : n.toNat = 0 ∨ 68 < n.toNat) : Raises (.genPoly n) s 2
  | rsOperand {o l s} (h : 2956 < o.toNat + l.toNat) : Raises (.rsEncode o l) s 2
  | verOperand {v s} (h : v.toNat < 1 ∨ 40 < v.toNat) : Raises (.verCalc v) s 2
  | appendSequence {w x s} (h₁ : 1 ≤ w.toNat ∧ w.toNat ≤ 16) (h : s.status.selV = false) : Raises (.bsAppend w x) s 6
  | terminateSequence {s} (h : s.status.selV = false) : Raises .bsTerminate s 6
  | padSequence {s} (h : s.status.selV = false ∨ s.cur.toNat % 8 ≠ 0) : Raises .bsPad s 6
  | composeSequence {s} (h : s.status.selV = false) : Raises .compose s 6
  | rsSequence {o l s} (h₁ : o.toNat + l.toNat ≤ 2956) (h : s.status.genV = false) : Raises (.rsEncode o l) s 6
  | rsAllSequence {s} (h : s.status.selV = false ∨ s.status.bsV = false) : Raises .rsAll s 6
  | interleaveSequence {s} (h : s.status.selV = false ∨ s.status.bsV = false ∨ s.status.ecV = false) :
      Raises .interleave s 6
  | buildSequence {s} (h : s.status.selV = false) : Raises .build s 6
  | zzResetSequence {s} (h : s.status.matV = false) : Raises .zzReset s 6
  | zzNextSequence {s} (h : s.status.zzV = false) : Raises .zzNext s 6
  | placeSequence {m s} (h : s.status.matV = false ∨ s.status.ilvV = false) : Raises (.place m) s 6
  | scoreSequence {s} (h : s.status.wmV = false) : Raises .score s 6
  | maskSequence {s} (h : s.status.matV = false ∨ s.status.ilvV = false) : Raises .maskSelect s 6
  | notFound {v e s} (h : v.toNat < 1 ∨ 40 < v.toNat) : Raises (.capLookup v e) s 3
  | capacity {s} (h : ¬ s.Fits) : Raises .select s 4
  | appendOverflow {w x s} (h₁ : 1 ≤ w.toNat ∧ w.toNat ≤ 16) (h₂ : s.status.selV = true)
      (h : s.entry.capBits < s.cur.toNat + w.toNat) : Raises (.bsAppend w x) s 7
  | composeOverflow {s} (h₂ : s.status.selV = true)
      (h : s.entry.capBits < 4 + s.entry.cci.toNat + contentBits s.len.toNat) : Raises .compose s 7
  | invalidDigit {s} (h₂ : s.status.selV = true)
      (h₃ : 4 + s.entry.cci.toNat + contentBits s.len.toNat ≤ s.entry.capBits) (h : s.MeetsBadDigit) :
      Raises .compose s 5

/-! ### Writers (10_state R124 and the "written by" of R110 to R122) -/

/-- The windows a command writes (R124). -/
def windowsWritten : Instr → List Window
  | .compose | .bsReset | .bsAppend _ _ | .bsTerminate | .bsPad => [.bs]
  | .genPoly _ => [.gen]
  | .rsEncode _ _ => [.rsr]
  | .rsAll => [.gen, .rsr, .ecb]
  | .interleave => [.ilv]
  | .build => [.mat]
  | .place _ | .maskSelect => [.wm]
  | .encode => [.bs, .gen, .rsr, .ecb, .ilv, .mat, .wm]
  | .nop | .clear | .gfInit | .gfMul _ _ | .capLookup _ _ | .select | .verCalc _ | .fmtCalc _ _ | .zzReset
  | .zzNext | .score => []

/-- The eight registers `PEN0`..`PEN7`. -/
def penRegs : List Reg := (List.finRange 8).map .pen

/-- The registers written with a selected entry (R110 to R112). -/
def entryRegs : List Reg := [.version, .group1, .group2, .ecinfo]

/-- The registers `SCORE` writes but for `PEN<m>` (R120). -/
def scoreRegs : List Reg := [.p1, .p2, .p3, .p4, .ptotal, .dark]

/-- The registers other than `STATUS` a command writes (R110 to R122, 47_control R1101). -/
def regsWritten : Instr → List Reg
  | .nop | .gfInit => []
  | .clear => entryRegs ++ [.bscur, .gfr, .genlen, .zzpos, .zzidx, .wmask, .fmt, .verinfo] ++ scoreRegs ++
      [.best, .bestpen] ++ penRegs
  | .gfMul _ _ => [.gfr]
  | .capLookup _ _ | .select => entryRegs
  | .compose | .bsReset | .bsAppend _ _ | .bsTerminate | .bsPad => [.bscur]
  | .genPoly _ | .rsAll => [.genlen]
  | .rsEncode _ _ | .interleave => []
  | .build | .verCalc _ => [.verinfo]
  | .fmtCalc _ _ => [.fmt]
  | .zzReset | .zzNext => [.zzpos, .zzidx]
  | .place _ => [.wmask, .fmt]
  | .score => scoreRegs ++ penRegs
  | .maskSelect => [.wmask, .fmt] ++ scoreRegs ++ [.best, .bestpen] ++ penRegs
  | .encode => entryRegs ++ [.bscur, .genlen, .verinfo, .wmask, .fmt] ++ scoreRegs ++ [.best, .bestpen] ++ penRegs

/-! ### The base table of the capacity ROM -/

/-- R503's three numbers of versions 1..40 in order: `TOT(v)`, `ECLEN` at L, M, Q, H, `NBLK` at L, M, Q, H. -/
def baseRows : List (Nat × List Nat × List Nat) :=
  [(26, [7, 10, 13, 17], [1, 1, 1, 1]),
   (44, [10, 16, 22, 28], [1, 1, 1, 1]),
   (70, [15, 26, 18, 22], [1, 1, 2, 2]),
   (100, [20, 18, 26, 16], [1, 2, 2, 4]),
   (134, [26, 24, 18, 22], [1, 2, 4, 4]),
   (172, [18, 16, 24, 28], [2, 4, 4, 4]),
   (196, [20, 18, 18, 26], [2, 4, 6, 5]),
   (242, [24, 22, 22, 26], [2, 4, 6, 6]),
   (292, [30, 22, 20, 24], [2, 5, 8, 8]),
   (346, [18, 26, 24, 28], [4, 5, 8, 8]),
   (404, [20, 30, 28, 24], [4, 5, 8, 11]),
   (466, [24, 22, 26, 28], [4, 8, 10, 11]),
   (532, [26, 22, 24, 22], [4, 9, 12, 16]),
   (581, [30, 24, 20, 24], [4, 9, 16, 16]),
   (655, [22, 24, 30, 24], [6, 10, 12, 18]),
   (733, [24, 28, 24, 30], [6, 10, 17, 16]),
   (815, [28, 28, 28, 28], [6, 11, 16, 19]),
   (901, [30, 26, 28, 28], [6, 13, 18, 21]),
   (991, [28, 26, 26, 26], [7, 14, 21, 25]),
   (1085, [28, 26, 30, 28], [8, 16, 20, 25])] ++
  [(1156, [28, 26, 28, 30], [8, 17, 23, 25]),
   (1258, [28, 28, 30, 24], [9, 17, 23, 34]),
   (1364, [30, 28, 30, 30], [9, 18, 25, 30]),
   (1474, [30, 28, 30, 30], [10, 20, 27, 32]),
   (1588, [26, 28, 30, 30], [12, 21, 29, 35]),
   (1706, [28, 28, 28, 30], [12, 23, 34, 37]),
   (1828, [30, 28, 30, 30], [12, 25, 34, 40]),
   (1921, [30, 28, 30, 30], [13, 26, 35, 42]),
   (2051, [30, 28, 30, 30], [14, 28, 38, 45]),
   (2185, [30, 28, 30, 30], [15, 29, 40, 48]),
   (2323, [30, 28, 30, 30], [16, 31, 43, 51]),
   (2465, [30, 28, 30, 30], [17, 33, 45, 54]),
   (2611, [30, 28, 30, 30], [18, 35, 48, 57]),
   (2761, [30, 28, 30, 30], [19, 37, 51, 60]),
   (2876, [30, 28, 30, 30], [19, 38, 53, 63]),
   (3034, [30, 28, 30, 30], [20, 40, 56, 66]),
   (3196, [30, 28, 30, 30], [21, 43, 59, 70]),
   (3362, [30, 28, 30, 30], [22, 45, 62, 74]),
   (3532, [30, 28, 30, 30], [24, 47, 65, 77]),
   (3706, [30, 28, 30, 30], [25, 49, 68, 81])]

/-- The row that R503's equations give from `TOT`, `ECLEN` and `NBLK`. -/
def rowFromBase (tot ecLen nblk : Nat) : CapRow :=
  let q := tot / nblk
  let rm := tot % nblk
  (tot - nblk * ecLen, ecLen, (nblk - rm, q, q - ecLen),
    if rm = 0 then (0, 0, 0) else (rm, q + 1, q + 1 - ecLen))

/-! ### Addresses (10_state R104, 20_memory R201) -/

/-- The address of a register (R104). -/
def regAddr : Reg → Nat
  | .cmd => 0x000
  | .status => 0x004
  | .cfg => 0x008
  | .len => 0x00C
  | .version => 0x010
  | .group1 => 0x014
  | .group2 => 0x018
  | .ecinfo => 0x01C
  | .bscur => 0x020
  | .gfr => 0x024
  | .genlen => 0x028
  | .zzpos => 0x02C
  | .zzidx => 0x030
  | .wmask => 0x034
  | .fmt => 0x038
  | .verinfo => 0x03C
  | .p1 => 0x040
  | .p2 => 0x044
  | .p3 => 0x048
  | .p4 => 0x04C
  | .ptotal => 0x050
  | .dark => 0x054
  | .best => 0x058
  | .bestpen => 0x05C
  | .pen m => 0x060 + 4 * m.val

/-- The address of an element (R201, R204). -/
def elemAddr (w : Window) (i : Nat) : Nat := w.base + 4 * i

/-- A multiple of 4 at which something stands (R201). -/
def Mapped (a : Nat) : Prop := (∃ r, a = regAddr r) ∨ ∃ w i, i < Window.size w ∧ a = elemAddr w i

/-- A multiple of 4 the host may write: `CMD`, `CFG`, `LEN`, an element of `DIGITS` or of `BS` (R104, 10_state R124). -/
def Writable (a : Nat) : Prop :=
  a = 0x000 ∨ a = 0x008 ∨ a = 0x00C ∨ (∃ i < 7089, a = 0x10000 + 4 * i) ∨ ∃ i < 2956, a = 0x20000 + 4 * i

/-! ### The composed stream (42_bitstream R601, R620 to R622) -/

/-- Bit `p` of the stream as `BS` holds it (42_bitstream R601). -/
def Memory.bsBit (m : Memory) (p : Nat) : Option Bool :=
  (m.read? .bs (p / 8)).map fun b => b.getLsbD (7 - p % 8)

/-- The bits of fields (width, value), each most significant bit first (20_memory R206). -/
def fieldBits (fs : List (Nat × Nat)) : List Bool := fs.flatMap fun f => bitsOf f.2 f.1

/-- The field of digit group `k` (R620): width `[0, 4, 7, 10][n]` and the base-10 value of its `n` digits. -/
def groupField (ds : List Nat) (k : Nat) : Nat × Nat :=
  let n := min 3 (ds.length - 3 * k)
  ([0, 4, 7, 10].getD n 0, ((List.range n).map fun t => ds.getD (3 * k + t) 0 * 10 ^ (n - 1 - t)).sum)

/-- The bits of the stream before terminator and padding: mode `0001`, count, digit groups (R621, R622). -/
def headBits (cciWidth : Nat) (ds : List Nat) : List Bool :=
  fieldBits ((4, 1) :: (cciWidth, ds.length) :: (List.range ((ds.length + 2) / 3)).map (groupField ds))

/-- The whole stream of `cap` bits (R620, R623): the head, `t` and `z` zero bits, then bytes 0xEC, 0x11, ... -/
def composedBits (cap cciWidth : Nat) (ds : List Nat) : List Bool :=
  let h := headBits cciWidth ds
  let t := min 4 (cap - h.length)
  let z := (8 - (h.length + t) % 8) % 8
  h ++ List.replicate (t + z) false ++
    (List.range (cap / 8 - (h.length + t + z) / 8)).flatMap fun j => bitsOf (if j % 2 = 0 then 0xEC else 0x11) 8

/-! ### Polynomials and command words -/

/-- The value of a polynomial, highest-degree coefficient first, at `x` (00_scope R13). -/
def evalPoly (p : List Byte) (x : Byte) : Byte := p.foldl (fun acc c => gfMul acc x ^^^ c) 0#8

/-- One step of `rs_remainder` (43_reed_solomon R704) on `q[i..]`: the leading coefficient `c` is dropped and `c` times
`g[1..]` is added to what follows. (`g[0]` = 1, so `q[i]` itself becomes 0.) -/
def remainderStep (g : List Byte) : List Byte → List Byte
  | [] => []
  | c :: q => if c = 0#8 then q else
      List.zipWith (fun x y => x ^^^ y) q ((g.tail.map fun y => gfMul c y) ++ List.replicate q.length 0#8)

/-- `rs_remainder(p, g)` (43_reed_solomon R704): one step for each of the first `k` = m - n coefficients. -/
def rsRemainder (g : List Byte) : (k : Nat) → (p : List Byte) → List Byte
  | 0, p => p
  | k + 1, p => rsRemainder g k (remainderStep g p)

/-- One row of the opcode map (30_encoding R304): opcode, mask (R305), and the command of a word's operands (R302). -/
structure OpcodeRow where
  op   : Nat
  mask : Nat
  make : Nat → Instr

/-- Bits `hi` down to `lo` of a word (00_scope R9). -/
def bitField (w hi lo : Nat) : Nat := w / 2 ^ lo % 2 ^ (hi + 1 - lo)

/-- R304 with the masks of R305 and the operands of R302, as the spec's tables list them. -/
def opcodeRows : List OpcodeRow :=
  [⟨0x00, 0xFFFFFFFF, fun _ => .nop⟩,
   ⟨0x01, 0xFFFFFFFF, fun _ => .clear⟩,
   ⟨0x02, 0xFFFFFFFF, fun _ => .gfInit⟩,
   ⟨0x03, 0xFF0000FF, fun w => .gfMul (BitVec.ofNat 8 (bitField w 15 8)) (BitVec.ofNat 8 (bitField w 23 16))⟩,
   ⟨0x10, 0xFFFCC0FF, fun w => .capLookup (BitVec.ofNat 6 (bitField w 13 8)) (BitVec.ofNat 2 (bitField w 17 16))⟩,
   ⟨0x11, 0xFFFFFFFF, fun _ => .select⟩,
   ⟨0x20, 0xFFFFFFFF, fun _ => .compose⟩,
   ⟨0x21, 0xFFFFFFFF, fun _ => .bsReset⟩,
   ⟨0x22, 0x0000E0FF, fun w => .bsAppend (BitVec.ofNat 5 (bitField w 12 8)) (BitVec.ofNat 16 (bitField w 31 16))⟩,
   ⟨0x23, 0xFFFFFFFF, fun _ => .bsTerminate⟩,
   ⟨0x24, 0xFFFFFFFF, fun _ => .bsPad⟩,
   ⟨0x30, 0xFFFF00FF, fun w => .genPoly (BitVec.ofNat 8 (bitField w 15 8))⟩] ++
  [⟨0x31, 0xF00000FF, fun w => .rsEncode (BitVec.ofNat 12 (bitField w 19 8)) (BitVec.ofNat 8 (bitField w 27 20))⟩,
   ⟨0x32, 0xFFFFFFFF, fun _ => .rsAll⟩,
   ⟨0x40, 0xFFFFFFFF, fun _ => .interleave⟩,
   ⟨0x50, 0xFFFFFFFF, fun _ => .build⟩,
   ⟨0x51, 0xFFFFC0FF, fun w => .verCalc (BitVec.ofNat 6 (bitField w 13 8))⟩,
   ⟨0x52, 0xFFFFE0FF, fun w => .fmtCalc (BitVec.ofNat 2 (bitField w 9 8)) (BitVec.ofNat 3 (bitField w 12 10))⟩,
   ⟨0x53, 0xFFFFFFFF, fun _ => .zzReset⟩,
   ⟨0x54, 0xFFFFFFFF, fun _ => .zzNext⟩,
   ⟨0x60, 0xFFFFF8FF, fun w => .place (BitVec.ofNat 3 (bitField w 10 8))⟩,
   ⟨0x61, 0xFFFFFFFF, fun _ => .score⟩,
   ⟨0x62, 0xFFFFFFFF, fun _ => .maskSelect⟩,
   ⟨0x70, 0xFFFFFFFF, fun _ => .encode⟩]

end Sys2Proof.Machine
end

