-- ==== Sys2Proof/Certificates/Slice0/Obligations.lean ====
section
/-! DEFINITION. The statements for the provers. Each docstring names the rules of spec/ it formalises and, where it rests
on a choice of the model, the log entry. -/

open Sys2Proof Sys2Proof.Machine

/-! ## Command words -/

/-- 10_state R106, 20_memory R209, R220, 70_reset R1301; the inbox is the model's (log entry 1). The host's next 32-bit
write to `CMD` runs the command its word decodes to, `LASTCMD` holding the word; an illegal word runs `illegalWord`; with
no host move the block waits; and a placed word is the one that runs. -/
def Obligations.StepRunsTheDecodedCommand : Prop :=
  (∀ (s : State) (w : Word) (i : Instr) (rest : List HostMove), s.inbox = .write 0#20 32 w :: rest → decode w = .ok i →
    step s = exec i { s with inbox := rest, lastcmd := w, response := some .done }) ∧
  (∀ (s : State) (w : Word) (e : DecodeError) (rest : List HostMove),
    s.inbox = .write 0#20 32 w :: rest → decode w = .error e →
    step s = illegalWord { s with inbox := rest, lastcmd := w, response := some .done }) ∧
  (∀ s : State, s.inbox = [] → step s = .next s) ∧
  (∀ (s : State) (nbits w : Nat), (s.withFetchWord nbits w).inbox = .write 0#20 32 (tableWord nbits w) :: s.inbox)

/-- 30_encoding R310, R311. An illegal word raises `ILLEGAL_CMD` and changes nothing else; while `ERR` is not 0 it, and
every command but `CLEAR`, is ignored. Every word that matches no row of the opcode map is illegal. -/
def Obligations.IllegalWordsRaiseIllegalCmd : Prop :=
  (∀ (w : Word), (∀ row ∈ opcodeRows, w.toNat &&& row.mask ≠ row.op) → ∃ e, decode w = .error e) ∧
  (∀ (w : Word) (e : DecodeError) (s : State), decode w = .error e → s.status.err = 0#4 →
    runWord w s = .next { s with status := { s.status with err := 1#4 }, faultLog := s.faultLog ++ [.error 1#4] }) ∧
  (∀ (w : Word) (e : DecodeError) (s : State), decode w = .error e → s.status.err ≠ 0#4 → runWord w s = .next s) ∧
  (∀ (i : Instr) (s : State), i ≠ .clear → s.status.err ≠ 0#4 → exec i s = .next s)

/-- 30_encoding R302, R305. A word decodes to the command of the row whose mask and match it meets, with the operands
of R302, and to nothing when it meets no row. -/
def Obligations.DecodeIsTheOpcodeMap : Prop :=
  ∀ w : Word,
    (∀ row ∈ opcodeRows, w.toNat &&& row.mask = row.op → decode w = .ok (row.make w.toNat)) ∧
    ((∀ row ∈ opcodeRows, w.toNat &&& row.mask ≠ row.op) → ∃ e, decode w = .error e)

/-- 30_encoding R301, R302, R305. Decoding the word of a command gives the command back, for every command and every operand
value, and a word that decodes is the word of its command: no bit of it is dropped. -/
def Obligations.DecodeAndEncodeAgree : Prop :=
  (∀ i : Instr, decode (encode i) = .ok i) ∧ ∀ (w : Word) (i : Instr), decode w = .ok i → encode i = w

/-- The words the rules' own examples write out (41 R510, 42 R611, 43 R710, R711, 45 R931, R932, 46 R1005, 47 R1101,
R1110, 40 R410), and two illegal ones (30_encoding R305). -/
def Obligations.ExampleWordsDecode : Prop :=
  decode 0x00020510#32 = .ok (.capLookup 5#6 2#2) ∧ decode 0x00010422#32 = .ok (.bsAppend 4#5 1#16) ∧
  decode 0x00000A30#32 = .ok (.genPoly 10#8) ∧ decode 0x01000031#32 = .ok (.rsEncode 0#12 16#8) ∧
  decode 0x00000751#32 = .ok (.verCalc 7#6) ∧ decode 0x00000952#32 = .ok (.fmtCalc 1#2 2#3) ∧
  decode 0x00000260#32 = .ok (.place 2#3) ∧ decode 0x00000001#32 = .ok .clear ∧ decode 0x00000070#32 = .ok .encode ∧
  decode 0x00800203#32 = .ok (.gfMul 0x02#8 0x80#8) ∧ decode 0x00000040#32 = .ok .interleave ∧
  decode 0x00000101#32 = .error (.reservedBit .n) ∧ decode 0x00000004#32 = .error (.reservedOpcode 4#8)

/-! ## Galois field -/

/-- 40_galois_field R401, R402. The antilog and log ROMs are what their construction loops give. -/
def Obligations.GaloisTables : Prop :=
  expRom 0 = 1#8 ∧
  (∀ i, 1 ≤ i → i < 255 → expRom i =
    (let t : BitVec 9 := (expRom (i - 1)).setWidth 9 <<< 1
     (if t.getLsbD 8 then t ^^^ 0x11D#9 else t).setWidth 8)) ∧
  (∀ i, 255 ≤ i → i < 512 → expRom i = expRom (i - 255)) ∧
  (∀ i, i < 512 → expRom i = expRom (i % 255)) ∧
  (∀ i, i < 255 → logRom (expRom i) = i) ∧ logRom 1#8 = 0 ∧ logRom 0#8 = 0 ∧
  (∀ x : Byte, x ≠ 0#8 → logRom x < 255 ∧ expRom (logRom x) = x)

/-- 40_galois_field R404. The laws of the field product. -/
def Obligations.GfMulLaws : Prop :=
  (∀ a b : Byte, gfMul a b = gfMul b a) ∧ (∀ a : Byte, gfMul a 1#8 = a) ∧ (∀ a : Byte, gfMul a 0#8 = 0#8) ∧
  (∀ a b c : Byte, gfMul a (gfMul b c) = gfMul (gfMul a b) c) ∧
  (∀ a b c : Byte, gfMul a (b ^^^ c) = gfMul a b ^^^ gfMul a c) ∧
  (∀ a : Byte, a ≠ 0#8 → gfMul a (expRom (255 - logRom a)) = 1#8)

/-- 40_galois_field R403, R405, R410, 45_matrix R931, R932, 47_control R1100. The commands that compute one word: what each
leaves, and that nothing else changes. -/
def Obligations.WordCommandsComplete : Prop :=
  (∀ s : State, exec .nop s = .next s) ∧ (∀ s : State, exec .gfInit s = .next s) ∧
  (∀ (s : State) (a b : BitVec 8), s.status.err = 0#4 → exec (.gfMul a b) s = .next { s with
    gfP := if a = 0#8 ∨ b = 0#8 then 0#8 else expRom (logRom a + logRom b) }) ∧
  (∀ (s : State) (v : BitVec 6), s.status.err = 0#4 → 1 ≤ v.toNat → v.toNat ≤ 40 →
    exec (.verCalc v) s = .next { s with viWord := BitVec.ofNat 18 (bch v.toNat 6 0x1F25 12) }) ∧
  (∀ (s : State) (e : BitVec 2) (m : BitVec 3), s.status.err = 0#4 → exec (.fmtCalc e m) s = .next { s with
    fmtWord := BitVec.ofNat 15 (bch (8 * (e ^^^ 1#2).toNat + m.toNat) 5 0x537 10) ^^^ 0x5412#15 })

/-- 45_matrix R916, R917, R921. The version words: their data bits are the version, they are multiples of the generator
polynomial, and they are the listed words; and the 32 format words. -/
def Obligations.VersionAndFormatWords : Prop :=
  (∀ v, v < 64 → (versionWord v).toNat / 2 ^ 12 = v ∧ bchReduce 0x1F25 12 6 (versionWord v).toNat = 0) ∧
  [1, 2, 3, 4, 5, 6].map (fun v => (versionWord v).toNat) = [0x01F25, 0x0216F, 0x03E4A, 0x042DE, 0x05DFB, 0x063B1] ∧
  ((List.range 17).map fun k => (versionWord (k + 7)).toNat) =
    [0x07C94, 0x085BC, 0x09A99, 0x0A4D3, 0x0BBF6, 0x0C762, 0x0D847, 0x0E60D, 0x0F928, 0x10B78, 0x1145D, 0x12A17,
     0x13532, 0x149A6, 0x15683, 0x168C9, 0x177EC] ∧
  ((List.range 17).map fun k => (versionWord (k + 24)).toNat) =
    [0x18EC4, 0x191E1, 0x1AFAB, 0x1B08E, 0x1CC1A, 0x1D33F, 0x1ED75, 0x1F250, 0x209D5, 0x216F0, 0x228BA, 0x2379F,
     0x24B0B, 0x2542E, 0x26A64, 0x27541, 0x28C69] ∧
  (allMasks.map fun m => (formatWord 0#2 m).toNat) = [0x77C4, 0x72F3, 0x7DAA, 0x789D, 0x662F, 0x6318, 0x6C41, 0x6976] ∧
  (allMasks.map fun m => (formatWord 1#2 m).toNat) = [0x5412, 0x5125, 0x5E7C, 0x5B4B, 0x45F9, 0x40CE, 0x4F97, 0x4AA0] ∧
  (allMasks.map fun m => (formatWord 2#2 m).toNat) = [0x355F, 0x3068, 0x3F31, 0x3A06, 0x24B4, 0x2183, 0x2EDA, 0x2BED] ∧
  (allMasks.map fun m => (formatWord 3#2 m).toNat) = [0x1689, 0x13BE, 0x1CE7, 0x19D0, 0x0762, 0x0255, 0x0D0C, 0x083B] ∧
  [0#2, 1#2, 2#2, 3#2].map ecBits = [1#2, 0#2, 3#2, 2#2]

/-! ## Capacity -/

/-- 41_capacity_select R503. Every row of the capacity ROM follows from its three base numbers; other versions have
none. (R503's last sentence, `TOT(v)` against the data modules, is in `DataModulesHoldTheCodewords`.) -/
def Obligations.CapacityRomFromBase : Prop :=
  baseRows.length = 40 ∧
  (∀ (v : Nat) (e : BitVec 2), 1 ≤ v → v ≤ 40 →
    ∃ tot ecLens nblks, baseRows[v - 1]? = some (tot, ecLens, nblks) ∧
      capRow? v e = some (rowFromBase tot (ecLens.getD e.toNat 0) (nblks.getD e.toNat 0))) ∧
  ∀ (v : Nat) (e : BitVec 2), v < 1 ∨ 40 < v → capRow? v e = none

/-- 41_capacity_select R508. The invariants of the ROM, of the registers an entry is loaded into. -/
def Obligations.CapacityRomInvariants : Prop :=
  (∀ (v : Nat) (e : BitVec 2) (row : CapRow), capRow? v e = some row →
    let x := entryOf v e row
    (x.blk2 ≠ 0#7 → x.k2.toNat = x.k1.toNat + 1 ∧ x.c2.toNat = x.c1.toNat + 1 ∧
      x.c2.toNat - x.k2.toNat = x.ecLen.toNat) ∧ x.c1.toNat - x.k1.toNat = x.ecLen.toNat ∧
    1 ≤ x.nblk.toNat ∧ x.nblk.toNat ≤ 81 ∧ 7 ≤ x.ecLen.toNat ∧ x.ecLen.toNat ≤ 30 ∧ x.c1.toNat ≤ 153 ∧
    x.kMax ≤ 123 ∧
    x.blk1.toNat * x.k1.toNat + x.blk2.toNat * x.k2.toNat = x.dataCw.toNat ∧ x.dataCw.toNat ≤ 2956 ∧
    x.nblk.toNat * x.ecLen.toNat ≤ 2430 ∧
    ∀ n, fits v e n = true → n < 2 ^ cci v) ∧
  (∀ (v w : Nat) (e : BitVec 2) (r r' : CapRow), capRow? v e = some r → capRow? w e = some r' → v < w → r.1 < r'.1) ∧
  (∀ (v w : Nat) (e : BitVec 2) (n : Nat), fits v e n = true → v ≤ w → w ≤ 40 → fits w e n = true)

/-- 41_capacity_select R509, R510, 10_state R110 to R112, R138. `CAP_LOOKUP` of a legal version loads that row into the four
registers, and leaves of the flags only `SEL_V` and `GEN_V`. -/
def Obligations.CapLookupLoadsTheRow : Prop :=
  ∀ (s : State) (v : BitVec 6) (e : BitVec 2), s.status.err = 0#4 → 1 ≤ v.toNat → v.toNat ≤ 40 →
    ∃ (row : CapRow) (x : Entry), capRow? v.toNat e = some row ∧
      exec (.capLookup v e) s =
        .next { s with entry := x, status := { Status.zero with selV := true, genV := s.status.genV } } ∧
      x.ver = v ∧ x.secl = e ∧ x.cci.toNat = cci v.toNat ∧ x.dataCw.toNat = row.1 ∧ x.ecLen.toNat = row.2.1 ∧
      (x.blk1.toNat, x.c1.toNat, x.k1.toNat) = row.2.2.1 ∧ (x.blk2.toNat, x.c2.toNat, x.k2.toNat) = row.2.2.2 ∧
      x.totalCw.toNat = x.blk1.toNat * x.c1.toNat + x.blk2.toNat * x.c2.toNat ∧
      x.nblk.toNat = x.blk1.toNat + x.blk2.toNat

/-- 41_capacity_select R505 to R507, R520, R521. `SELECT` loads the row of the least version that fits, and a shorter
input never selects a larger version. -/
def Obligations.SelectIsMinimal : Prop :=
  (∀ (v n : Nat) (e : BitVec 2) (row : CapRow), capRow? v e = some row →
    (fits v e n = true ↔
      4 + (if v ≤ 9 then 10 else if v ≤ 26 then 12 else 14) + (10 * (n / 3) + [0, 4, 7].getD (n % 3) 0) ≤ 8 * row.1)) ∧
  (∀ (s : State) (v : Nat), s.status.err = 0#4 → 1 ≤ v → v ≤ 40 → fits v s.ecl s.len.toNat = true →
    (∀ u, 1 ≤ u → u < v → fits u s.ecl s.len.toNat = false) →
    ∃ row, capRow? v s.ecl = some row ∧
      exec .select s = .next { s with
        entry := entryOf v s.ecl row, status := { Status.zero with selV := true, genV := s.status.genV } }) ∧
  (∀ s s' : State, s.status.err = 0#4 → s'.status.err = 0#4 → s'.ecl = s.ecl → s'.len.toNat ≤ s.len.toNat → s.Fits →
    ∃ t t', exec .select s = .next t ∧ exec .select s' = .next t' ∧ t'.entry.ver.toNat ≤ t.entry.ver.toNat)

/-! ## Bitstream -/

/-- 42_bitstream R610. `BS_RESET` zeroes all 2956 bytes and the cursor, clears `INV_BS`, and changes nothing else. -/
def Obligations.BsResetZeroes : Prop :=
  ∀ s : State, s.status.err = 0#4 → ∃ t, exec .bsReset s = .next t ∧
    t = { s with mem := t.mem, cur := 0#15, status := { s.status with
      bsV := false, ecV := false, ilvV := false, wmV := false, scV := false, bestV := false, penv := 0#8 } } ∧
    (∀ k < 2956, t.mem.read? .bs k = some 0#8) ∧ ∀ w, w ≠ .bs → t.mem.window w = s.mem.window w

/-- 42_bitstream R600 to R602, R611. `BS_APPEND` of a legal width that fits: the field's bits, most significant first, at
the cursor; the bits below are kept; past them a byte begun by this field is 0 and a byte begun before keeps its bits;
every other element, flag and register is kept. -/
def Obligations.BsAppendAppendsTheField : Prop :=
  ∀ (s : State) (w : BitVec 5) (x : BitVec 16), s.status.err = 0#4 → s.status.selV = true →
    1 ≤ w.toNat → w.toNat ≤ 16 → s.cur.toNat + w.toNat ≤ s.entry.capBits → s.entry.dataCw.toNat ≤ 2956 →
    s.CursorOk →
    ∃ t, exec (.bsAppend w x) s = .next t ∧ t.cur.toNat = s.cur.toNat + w.toNat ∧
      t = { s with mem := t.mem, cur := t.cur, status := { s.status with
        bsV := false, ecV := false, ilvV := false, wmV := false, scV := false, bestV := false, penv := 0#8 } } ∧
      (∀ k < w.toNat, t.mem.bsBit (s.cur.toNat + k) = some (x.getLsbD (w.toNat - 1 - k))) ∧
      (∀ p < s.cur.toNat, t.mem.bsBit p = s.mem.bsBit p) ∧
      (∀ p, s.cur.toNat + w.toNat ≤ p → p / 8 ≤ (s.cur.toNat + w.toNat - 1) / 8 →
        t.mem.bsBit p = if s.cur.toNat ≤ 8 * (p / 8) then some false else s.mem.bsBit p) ∧
      ∀ z k, z ≠ .bs ∨ k < s.cur.toNat / 8 ∨ (s.cur.toNat + w.toNat - 1) / 8 < k → t.mem.read? z k = s.mem.read? z k

/-- 42_bitstream R612. `BS_TERMINATE`, the cursor not past the capacity: `t = min(4, CAPBITS - CUR)` zero bits, then zero bits
to the next byte boundary; every other bit, element, flag and register is kept. -/
def Obligations.BsTerminateAppendsZeros : Prop :=
  ∀ s : State, s.status.err = 0#4 → s.status.selV = true → s.cur.toNat ≤ s.entry.capBits →
    s.entry.dataCw.toNat ≤ 2956 → s.CursorOk →
    ∃ t, exec .bsTerminate s = .next t ∧
      t.cur.toNat = 8 * ((s.cur.toNat + min 4 (s.entry.capBits - s.cur.toNat) + 7) / 8) ∧
      t.cur.toNat ≤ s.entry.capBits ∧
      t = { s with mem := t.mem, cur := t.cur, status := { s.status with
        bsV := false, ecV := false, ilvV := false, wmV := false, scV := false, bestV := false, penv := 0#8 } } ∧
      (∀ p, s.cur.toNat ≤ p → p < t.cur.toNat → t.mem.bsBit p = some false) ∧
      (∀ p < s.cur.toNat, t.mem.bsBit p = s.mem.bsBit p) ∧
      ∀ z k, z ≠ .bs ∨ k < s.cur.toNat / 8 ∨ t.cur.toNat / 8 ≤ k → t.mem.read? z k = s.mem.read? z k

/-- 42_bitstream R613, R624. `BS_PAD` on a byte boundary inside the capacity: the bytes from the cursor on are 0xEC, 0x11, ...
up to the capacity, `BS_V` is set; every other element, flag and register is kept. -/
def Obligations.BsPadFillsTheCapacity : Prop :=
  ∀ s : State, s.status.err = 0#4 → s.status.selV = true → s.cur.toNat % 8 = 0 → s.cur.toNat ≤ s.entry.capBits →
    s.entry.dataCw.toNat ≤ 2956 →
    ∃ t, exec .bsPad s = .next t ∧ t.cur.toNat = s.entry.capBits ∧
      t = { s with mem := t.mem, cur := t.cur, status := { s.status with
        bsV := true, ecV := false, ilvV := false, wmV := false, scV := false, bestV := false, penv := 0#8 } } ∧
      (∀ j, s.cur.toNat / 8 + j < s.entry.dataCw.toNat →
        t.mem.read? .bs (s.cur.toNat / 8 + j) = some (if j % 2 = 0 then 0xEC#8 else 0x11#8)) ∧
      ∀ z k, z ≠ .bs ∨ k < s.cur.toNat / 8 ∨ s.entry.dataCw.toNat ≤ k → t.mem.read? z k = s.mem.read? z k

/-- 42_bitstream R620 to R624. `COMPOSE` of written digits that fit the selected entry: the stream is the header, the digit
groups, the terminator and the padding, bit for bit; the cursor is at the capacity, the rest of `BS` is 0, `BS_V` is set;
every other window, flag and register is kept. -/
def Obligations.ComposeWritesTheStream : Prop :=
  ∀ (s : State) (ds : List Nat), s.status.err = 0#4 → s.status.selV = true → s.mem.wf = true →
    s.entry.dataCw.toNat ≤ 2956 → 4 + s.entry.cci.toNat + contentBits s.len.toNat ≤ s.entry.capBits →
    ds.length = s.len.toNat →
    (∀ i < s.len.toNat, ∃ b, s.mem.read? .digits i = some b ∧ isDigit b ∧ ds[i]? = some (b.toNat - 0x30)) →
    ∃ t, exec .compose s = .next t ∧ t.cur.toNat = s.entry.capBits ∧
      t = { s with mem := t.mem, cur := t.cur, status := { s.status with
        bsV := true, ecV := false, ilvV := false, wmV := false, scV := false, bestV := false, penv := 0#8 } } ∧
      (∀ p < s.entry.capBits,
        t.mem.bsBit p = (composedBits s.entry.capBits s.entry.cci.toNat ds)[p]?) ∧
      (∀ k, s.entry.dataCw.toNat ≤ k → k < 2956 → t.mem.read? .bs k = some 0#8) ∧
      ∀ w, w ≠ .bs → t.mem.window w = s.mem.window w

/-! ## Reed-Solomon and interleaving -/

/-- 43_reed_solomon R702, R706. A generator of degree `n` has `n + 1` coefficients, the first 1, and the roots `α^0 .. α^(n-1)`;
for `n` in 1..68 no coefficient is 0; the one of degree 68 is the listed vector, in the log domain and in the value form. -/
def Obligations.GeneratorPolynomials : Prop :=
  (∀ n, (generator n).length = n + 1 ∧ (generator n).head? = some 1#8) ∧
  (∀ n i, i < n → evalPoly (generator n) (expRom i) = 0#8) ∧
  (∀ n, 1 ≤ n → n ≤ 68 → ∀ c ∈ generator n, c ≠ 0#8) ∧
  generator 1 = [1#8, 1#8] ∧ generator 2 = [1#8, 3#8, 2#8] ∧
  (generator 68).map logRom =
    [0, 247, 159, 223, 33, 224, 93, 77, 70, 90, 160, 32, 254, 43, 150, 84, 101, 190,
     205, 133, 52, 60, 202, 165, 220, 203, 151, 93, 84, 15, 84, 253, 173, 160, 89] ++
    [227, 52, 199, 97, 95, 231, 52, 177, 41, 125, 137, 241, 166, 225, 118, 2, 54, 32,
     82, 215, 175, 198, 43, 238, 235, 27, 101, 184, 127, 3, 5, 8, 163, 238] ∧
  (generator 68).map BitVec.toNat =
    [1, 131, 115, 9, 39, 18, 182, 60, 94, 223, 230, 157, 142, 119, 85, 107, 34, 174,
     167, 109, 20, 185, 112, 145, 172, 224, 170, 182, 107, 38, 107, 71, 246, 230] ++
    [225, 144, 20, 14, 175, 226, 245, 20, 219, 212, 51, 158, 88, 63, 36, 199, 4, 80,
     157, 211, 239, 255, 7, 119, 11, 235, 12, 34, 149, 204, 8, 32, 29, 99, 11]

/-- 43_reed_solomon R704. For every block and every generator of degree `n`, dividing the block followed by its EC
codewords by the generator leaves the zero remainder. -/
def Obligations.RsEncodeIsSystematic : Prop :=
  ∀ (n : Nat) (g d : List Byte), 1 ≤ n → g.length = n + 1 → g.head? = some 1#8 →
    rsRemainder g d.length (d ++ rsEncode n g d) = List.replicate n 0#8

/-- 43_reed_solomon R707. The block encoder is linear over XOR, is 0 on zeros, ignores a leading zero byte, and gives
`g[1..]` for the block `[1]`. -/
def Obligations.RsEncodeIsLinear : Prop :=
  ∀ (n : Nat) (g : List Byte), 1 ≤ n → g.length = n + 1 →
    (∀ a b : List Byte, a.length = b.length →
      rsEncode n g (List.zipWith (fun x y => x ^^^ y) a b) =
        List.zipWith (fun x y => x ^^^ y) (rsEncode n g a) (rsEncode n g b)) ∧
    (∀ k, rsEncode n g (List.replicate k 0#8) = List.replicate n 0#8) ∧
    (∀ d : List Byte, rsEncode n g (0#8 :: d) = rsEncode n g d) ∧
    rsEncode n g [1#8] = g.tail

/-- 43_reed_solomon R710, 10_state R127. `GEN_POLY` of a legal degree stores the generator and its degree and sets `GEN_V`;
the elements above and everything else are kept. -/
def Obligations.GenPolyStoresTheGenerator : Prop :=
  ∀ (s : State) (n : BitVec 8), s.status.err = 0#4 → 1 ≤ n.toNat → n.toNat ≤ 68 →
    ∃ t, exec (.genPoly n) s = .next t ∧ t.genLen.toNat = n.toNat ∧
      t = { s with mem := t.mem, genLen := t.genLen, status := { s.status with genV := true } } ∧
      (∀ j ≤ n.toNat, t.mem.read? .gen j = (generator n.toNat)[j]?) ∧
      ∀ w k, w ≠ .gen ∨ n.toNat < k → t.mem.read? w k = s.mem.read? w k

/-- 43_reed_solomon R711. `RS_ENCODE` of a range of written bytes inside `BS` divides them by the polynomial in `GEN` and
leaves the remainder in `RSR`; every other element and every register is kept. -/
def Obligations.RsEncodeFillsRsr : Prop :=
  ∀ (s : State) (o : BitVec 12) (l : BitVec 8) (ds g : List Byte), s.status.err = 0#4 → s.status.genV = true →
    s.mem.wf = true → o.toNat + l.toNat ≤ 2956 → 1 ≤ s.genLen.toNat → s.genLen.toNat ≤ 68 →
    ds.length = l.toNat → (∀ k < l.toNat, s.mem.read? .bs (o.toNat + k) = ds[k]?) →
    g.length = s.genLen.toNat + 1 → (∀ k ≤ s.genLen.toNat, s.mem.read? .gen k = g[k]?) →
    ∃ t, exec (.rsEncode o l) s = .next t ∧ t = { s with mem := t.mem } ∧
      (∀ j < s.genLen.toNat, t.mem.read? .rsr j = (rsEncode s.genLen.toNat g ds)[j]?) ∧
      ∀ w k, w ≠ .rsr ∨ s.genLen.toNat ≤ k → t.mem.read? w k = s.mem.read? w k

/-- 43_reed_solomon R720, R721, 10_state R128, R129. `RS_ALL` on a complete stream of a selected entry: `GEN` holds the
entry's generator, `ECB` the EC codewords of every block of the tiling, `RSR` those of the last; `EC_V` and `GEN_V` are
set; every other element, flag and register is kept. -/
def Obligations.RsAllEncodesEveryBlock : Prop :=
  ∀ s : State, s.status.err = 0#4 → s.status.selV = true → s.status.bsV = true → s.mem.wf = true → s.EntrySelected →
    s.mem.Written .bs s.entry.dataCw.toNat →
    ∃ t, exec .rsAll s = .next t ∧ t.genLen.toNat = s.entry.ecLen.toNat ∧
      t = { s with mem := t.mem, genLen := t.genLen, status := { s.status with
        genV := true, ecV := true, ilvV := false, wmV := false, scV := false, bestV := false, penv := 0#8 } } ∧
      (∀ j ≤ s.entry.ecLen.toNat, t.mem.read? .gen j = (generator s.entry.ecLen.toNat)[j]?) ∧
      (∀ b < s.entry.nblk.toNat, ∃ ds : List Byte, ds.length = s.entry.blkLen b ∧
        (∀ k < s.entry.blkLen b, s.mem.read? .bs (s.entry.blkStart b + k) = ds[k]?) ∧
        ∀ j < s.entry.ecLen.toNat,
          t.mem.read? .ecb (b * s.entry.ecLen.toNat + j) =
            (rsEncode s.entry.ecLen.toNat (generator s.entry.ecLen.toNat) ds)[j]? ∧
          (b + 1 = s.entry.nblk.toNat → t.mem.read? .rsr j = t.mem.read? .ecb (b * s.entry.ecLen.toNat + j))) ∧
      ∀ w k, (w = .gen → s.entry.ecLen.toNat < k) → (w = .rsr → s.entry.ecLen.toNat ≤ k) →
        (w = .ecb → s.entry.nblk.toNat * s.entry.ecLen.toNat ≤ k) → t.mem.read? w k = s.mem.read? w k

/-- 43_reed_solomon R721. The blocks of an entry tile `BS[0..DATA_CW)` in order, with no gap. -/
def Obligations.BlocksTileTheStream : Prop :=
  ∀ (v : Nat) (e : BitVec 2) (row : CapRow), capRow? v e = some row →
    let x := entryOf v e row
    x.blkStart 0 = 0 ∧
    (∀ b, b + 1 < x.nblk.toNat → x.blkStart (b + 1) = x.blkStart b + x.blkLen b) ∧
    x.blkStart (x.nblk.toNat - 1) + x.blkLen (x.nblk.toNat - 1) = x.dataCw.toNat ∧
    (∀ b, b < x.nblk.toNat → x.blkLen b = if b < x.blk1.toNat then x.k1.toNat else x.k2.toNat) ∧
    (∀ b, b < x.nblk.toNat → 1 ≤ x.blkLen b ∧ x.blkLen b ≤ 123)

/-- 44_interleave R801, R802, R810. `INTERLEAVE` puts every data and EC codeword at the place of the closed form, sets
`ILV_V`, and keeps every element past `TOTAL_CW`, every other window, flag and register. -/
def Obligations.InterleaveIsTheClosedForm : Prop :=
  ∀ s : State, s.status.err = 0#4 → s.status.selV = true → s.status.bsV = true → s.status.ecV = true →
    s.EntrySelected → s.mem.Written .bs s.entry.dataCw.toNat →
    s.mem.Written .ecb (s.entry.nblk.toNat * s.entry.ecLen.toNat) →
    ∃ t, exec .interleave s = .next t ∧
      t = { s with mem := t.mem, status := { s.status with
        ilvV := true, wmV := false, scV := false, bestV := false, penv := 0#8 } } ∧
      (∀ b col, b < s.entry.nblk.toNat → col < s.entry.blkLen b →
        t.mem.read? .ilv (if col < s.entry.k1.toNat then col * s.entry.nblk.toNat + b
          else s.entry.k1.toNat * s.entry.nblk.toNat + (b - s.entry.blk1.toNat)) =
          s.mem.read? .bs (s.entry.blkStart b + col)) ∧
      (∀ b col, b < s.entry.nblk.toNat → col < s.entry.ecLen.toNat →
        t.mem.read? .ilv (s.entry.dataCw.toNat + col * s.entry.nblk.toNat + b) =
          s.mem.read? .ecb (b * s.entry.ecLen.toNat + col)) ∧
      s.entry.dataCw.toNat + s.entry.nblk.toNat * s.entry.ecLen.toNat = s.entry.totalCw.toNat ∧
      ∀ w k, w ≠ .ilv ∨ s.entry.totalCw.toNat ≤ k → t.mem.read? w k = s.mem.read? w k

/-! ## Matrix -/

/-- 45_matrix R900, R901, R930. `BUILD` writes all 177 x 177 cells of `MAT`, the cells outside the symbol `(UNSET, 0)`, and
the version word, 0 below version 7; it sets `MAT_V` and clears the rest of `INV_MAT`; everything else is kept. -/
def Obligations.BuildWritesEveryCell : Prop :=
  (∀ s : State, s.status.err = 0#4 → s.status.selV = true → ∃ t, exec .build s = .next t ∧
    t = { s with
      mem := t.mem
      viWord := if 7 ≤ s.entry.ver.toNat then versionWord s.entry.ver.toNat else 0#18
      status := { s.status with matV := true, zzV := false, zzDone := false, wmV := false, scV := false,
                                bestV := false, penv := 0#8 } } ∧
    (∀ r c, r < 177 → c < 177 → t.mem.read? .mat (r * 177 + c) =
      some (builtCell s.entry.ver.toNat (centres s.entry.ver.toNat) r c)) ∧
    ∀ w, w ≠ .mat → t.mem.window w = s.mem.window w) ∧
  ∀ v r c, 17 + 4 * v ≤ r ∨ 17 + 4 * v ≤ c → builtCell v (centres v) r c = 2#8

/-- 45_matrix R902, R903, R904. Finder patterns, separators and timing patterns, for every version; a cell is its value code
plus 4 for the reserved mark (10_state R132). -/
def Obligations.FinderSeparatorTiming : Prop :=
  ∀ v, 1 ≤ v → v ≤ 40 →
    let S := 17 + 4 * v
    let built := builtCell v (centres v)
    (∀ p ∈ [(0, 0), (0, S - 7), (S - 7, 0)], ∀ dr dc, dr < 7 → dc < 7 → built (p.1 + dr) (p.2 + dc) =
      if max ((dr : Int) - 3).natAbs ((dc : Int) - 3).natAbs = 2 then 4#8 else 5#8) ∧
    (∀ i, i ≤ 7 → built 7 i = 4#8 ∧ built i 7 = 4#8 ∧ built 7 (S - 8 + i) = 4#8 ∧ built i (S - 8) = 4#8 ∧
      built (S - 8) i = 4#8 ∧ built (S - 8 + i) 7 = 4#8) ∧
    (∀ i, 8 ≤ i → i ≤ S - 9 → built 6 i = (if i % 2 = 0 then 5#8 else 4#8) ∧ built i 6 = built 6 i)

/-- 45_matrix R905, R906, R907, R908, R909 (what `BUILD` writes), R910. The alignment coordinates of every version, alignment
patterns at the coordinate pairs that are not one
of the three skipped ones, the version blocks, the 30 format modules `(UNSET, 1)` and the dark module. -/
def Obligations.AlignmentVersionFormatDark : Prop :=
  ((List.range 20).map fun k => alignRom (k + 1)) =
    [[], [6, 18], [6, 22], [6, 26], [6, 30],
     [6, 34], [6, 22, 38], [6, 24, 42], [6, 26, 46], [6, 28, 50],
     [6, 30, 54], [6, 32, 58], [6, 34, 62], [6, 26, 46, 66], [6, 26, 48, 70],
     [6, 26, 50, 74], [6, 30, 54, 78], [6, 30, 56, 82], [6, 30, 58, 86], [6, 34, 62, 90]] ∧
  ((List.range 20).map fun k => alignRom (k + 21)) =
    [[6, 28, 50, 72, 94], [6, 26, 50, 74, 98], [6, 30, 54, 78, 102], [6, 28, 54, 80, 106],
     [6, 32, 58, 84, 110], [6, 30, 58, 86, 114], [6, 34, 62, 90, 118], [6, 26, 50, 74, 98, 122],
     [6, 30, 54, 78, 102, 126], [6, 26, 52, 78, 104, 130], [6, 30, 56, 82, 108, 134], [6, 34, 60, 86, 112, 138],
     [6, 30, 58, 86, 114, 142], [6, 34, 62, 90, 118, 146], [6, 30, 54, 78, 102, 126, 150], [6, 24, 50, 76, 102, 128, 154],
     [6, 28, 54, 80, 106, 132, 158], [6, 32, 58, 84, 110, 136, 162], [6, 26, 54, 82, 110, 138, 166], [6, 30, 58, 86, 114, 142, 170]] ∧
  ∀ v, 1 ≤ v → v ≤ 40 →
    let S := 17 + 4 * v
    let built := builtCell v (centres v)
    let last := (alignRom v).getLastD 0
    (∀ x y, (x, y) ∈ centres v ↔
      x ∈ alignRom v ∧ y ∈ alignRom v ∧ (x, y) ≠ (6, 6) ∧ (x, y) ≠ (6, last) ∧ (x, y) ≠ (last, 6)) ∧
    (centres v).length = (alignRom v).length ^ 2 - 3 ∧
    (∀ x y dr dc, (x, y) ∈ centres v → dr ≤ 4 → dc ≤ 4 → built (x + dr - 2) (y + dc - 2) =
      if max ((dr : Int) - 2).natAbs ((dc : Int) - 2).natAbs = 1 then 4#8 else 5#8) ∧
    (7 ≤ v → ∀ i, i < 18 →
      built (i / 3) (S - 11 + i % 3) = (if (versionWord v).getLsbD i then 5#8 else 4#8) ∧
      built (S - 11 + i % 3) (i / 3) = built (i / 3) (S - 11 + i % 3)) ∧
    (∀ i, i ≤ 5 → formatA i = (i, 8)) ∧ formatA 6 = (7, 8) ∧ formatA 7 = (8, 8) ∧ formatA 8 = (8, 7) ∧
    (∀ i, 9 ≤ i → i ≤ 14 → formatA i = (8, 14 - i)) ∧
    (∀ i, i ≤ 7 → formatB v i = (8, S - 1 - i)) ∧ (∀ i, 8 ≤ i → i ≤ 14 → formatB v i = (S - 15 + i, 8)) ∧
    (∀ i, i < 15 → built (formatA i).1 (formatA i).2 = 6#8 ∧ built (formatB v i).1 (formatB v i).2 = 6#8) ∧
    built (S - 8) 8 = 5#8

/-- 45_matrix R901, R911. For every module of the symbol, `BUILD` sets the reserved mark exactly when the reserved
predicate holds, and a module that is not reserved is `(UNSET, 0)`. -/
def Obligations.ReservedMarksAreThePredicate : Prop :=
  ∀ v r c, 1 ≤ v → v ≤ 40 → r < 17 + 4 * v → c < 17 + 4 * v →
    let S := 17 + 4 * v
    ((builtCell v (centres v) r c).getLsbD 2 = true ↔
      (r ≤ 8 ∧ c ≤ 8) ∨ (r ≤ 8 ∧ S - 8 ≤ c) ∨ (S - 8 ≤ r ∧ c ≤ 8) ∨ r = 6 ∨ c = 6 ∨
      (7 ≤ v ∧ ((r ≤ 5 ∧ S - 11 ≤ c ∧ c ≤ S - 9) ∨ (c ≤ 5 ∧ S - 11 ≤ r ∧ r ≤ S - 9))) ∨
      ∃ p ∈ centres v, ((r : Int) - p.1).natAbs ≤ 2 ∧ ((c : Int) - p.2).natAbs ≤ 2) ∧
    ((builtCell v (centres v) r c).getLsbD 2 = reserved v (centres v) r c) ∧
    ((builtCell v (centres v) r c).getLsbD 2 = false → builtCell v (centres v) r c = 2#8)

/-- 45_matrix R912, 41_capacity_select R503 (its last sentence). For every version the alignment patterns placed, the number
of data modules, and the remainder; data modules, and so the zigzag order, fill exactly the total codewords of the capacity
ROM's base table. -/
def Obligations.DataModulesHoldTheCodewords : Prop :=
  ((List.range 40).map fun k => (centres (k + 1)).length) =
    [0, 1, 1, 1, 1, 1, 6, 6, 6, 6, 6, 6, 6, 13,
     13, 13, 13, 13, 13, 13, 22, 22, 22, 22, 22, 22, 22, 33,
     33, 33, 33, 33, 33, 33, 46, 46, 46, 46, 46, 46] ∧
  ((List.range 40).map fun k => ((List.range (21 + 4 * k)).map fun r =>
      (List.range (21 + 4 * k)).countP fun c => !reserved (k + 1) (centres (k + 1)) r c).sum) =
    [208, 359, 567, 807, 1079, 1383, 1568, 1936, 2336, 2768, 3232, 3728,
     4256, 4651, 5243, 5867, 6523, 7211, 7931, 8683, 9252, 10068, 10916, 11796,
     12708, 13652, 14628, 15371, 16411, 17483, 18587, 19723, 20891, 22091, 23008, 24272,
     25568, 26896, 28256, 29648] ∧
  ((List.range 40).map fun k => (zigzag (k + 1)).length % 8) =
    [0, 7, 7, 7, 7, 7, 0, 0, 0, 0, 0, 0, 0, 3,
     3, 3, 3, 3, 3, 3, 4, 4, 4, 4, 4, 4, 4, 3,
     3, 3, 3, 3, 3, 3, 0, 0, 0, 0, 0, 0] ∧
  ∀ v, 1 ≤ v → v ≤ 40 → ∃ tot ecLens nblks, baseRows[v - 1]? = some (tot, ecLens, nblks) ∧ (zigzag v).length / 8 = tot

/-- 45_matrix R940, R943. The zigzag order yields every non-reserved coordinate of the symbol exactly once; its first and
last coordinates and lengths for versions 1 and 7, and the first two passes of version 1. -/
def Obligations.ZigzagIsEveryDataModuleOnce : Prop :=
  (∀ v, 1 ≤ v → v ≤ 40 → (zigzag v).Nodup ∧
    ∀ r c, (r, c) ∈ zigzag v ↔ r < 17 + 4 * v ∧ c < 17 + 4 * v ∧ reserved v (centres v) r c = false) ∧
  (∀ v, 1 ≤ v → v ≤ 40 → (zigzag v).length =
    ((List.range (17 + 4 * v)).map fun r =>
      (List.range (17 + 4 * v)).countP fun c => !reserved v (centres v) r c).sum) ∧
  (zigzag 1).take 6 = [(20, 20), (20, 19), (19, 20), (19, 19), (18, 20), (18, 19)] ∧
  (zigzag 1).take 48 = ((List.range 12).flatMap fun k => [(20 - k, 20), (20 - k, 19)]) ++
    ((List.range 12).flatMap fun k => [(9 + k, 18), (9 + k, 17)]) ∧
  (zigzag 1).drop 202 = [(10, 1), (10, 0), (11, 1), (11, 0), (12, 1), (12, 0)] ∧ (zigzag 1).length = 208 ∧
  (zigzag 7).take 3 = [(44, 44), (44, 43), (43, 44)] ∧ (zigzag 7).drop 1566 = [(33, 1), (33, 0)] ∧
  (zigzag 7).length = 1568

/-- 45_matrix R941, R942, 10_state R116. `ZZ_RESET` starts the cursor; each `ZZ_NEXT` yields the next coordinate of the
order; past the last one it only sets `ZZ_DONE`. -/
def Obligations.ZigzagCursorWalksTheOrder : Prop :=
  (∀ s : State, s.status.err = 0#4 → s.status.matV = true → exec .zzReset s = .next { s with
    zzIdx := 0#15, zzRow := 0#8, zzCol := 0#8, status := { s.status with zzDone := false, zzV := true } }) ∧
  (∀ (s : State) (r c : Nat), s.status.err = 0#4 → s.status.zzV = true → 1 ≤ s.entry.ver.toNat →
    s.entry.ver.toNat ≤ 40 → (zigzag s.entry.ver.toNat)[s.zzIdx.toNat]? = some (r, c) →
    ∃ t, exec .zzNext s = .next t ∧ t.zzRow.toNat = r ∧ t.zzCol.toNat = c ∧ t.zzIdx.toNat = s.zzIdx.toNat + 1 ∧
      t = { s with zzRow := t.zzRow, zzCol := t.zzCol, zzIdx := t.zzIdx }) ∧
  (∀ s : State, s.status.err = 0#4 → s.status.zzV = true → s.zzIdx.toNat = (zigzag s.entry.ver.toNat).length →
    exec .zzNext s = .next { s with status := { s.status with zzDone := true } })

/-! ## Mask -/

/-- 46_mask R1001 to R1005. The eight mask formulas; and `PLACE` of a current `MAT` and `ILV`: data module number `t` of the
zigzag order holds bit `t` of the stream XOR the mask (0 past the stream), the format modules the bits of the format word in both copies, every other
cell the one of `MAT`; `FMT`, `WMASK`, `WM_V` and `SC_V` as the rule says; everything else is kept. -/
def Obligations.PlaceBuildsTheCandidate : Prop :=
  (∀ i j : Nat,
    (maskBit 0#3 i j = true ↔ (i + j) % 2 = 0) ∧
    (maskBit 1#3 i j = true ↔ i % 2 = 0) ∧
    (maskBit 2#3 i j = true ↔ j % 3 = 0) ∧
    (maskBit 3#3 i j = true ↔ (i + j) % 3 = 0) ∧
    (maskBit 4#3 i j = true ↔ (i / 2 + j / 3) % 2 = 0) ∧
    (maskBit 5#3 i j = true ↔ (i * j) % 2 + (i * j) % 3 = 0) ∧
    (maskBit 6#3 i j = true ↔ ((i * j) % 2 + (i * j) % 3) % 2 = 0) ∧
    (maskBit 7#3 i j = true ↔ ((i + j) % 2 + (i * j) % 3) % 2 = 0)) ∧
  ∀ (s : State) (m : BitVec 3), s.status.err = 0#4 → s.status.matV = true → s.status.ilvV = true → s.mem.wf = true →
    1 ≤ s.entry.ver.toNat → s.entry.ver.toNat ≤ 40 → s.entry.totalCw.toNat ≤ 3706 →
    s.mem.Written .mat 31329 → s.mem.Written .ilv s.entry.totalCw.toNat →
    ∃ t, exec (.place m) s = .next t ∧
      t = { s with mem := t.mem, fmtWord := formatWord s.entry.secl m, wmMask := m,
                   status := { s.status with scV := false, wmV := true } } ∧
      (∀ n r c, (zigzag s.entry.ver.toNat)[n]? = some (r, c) →
        ∃ data : Bool, (n < 8 * s.entry.totalCw.toNat →
            (s.mem.read? .ilv (n / 8)).map (fun b => b.getLsbD (7 - n % 8)) = some data) ∧
          (8 * s.entry.totalCw.toNat ≤ n → data = false) ∧
          t.mem.read? .wm (r * 177 + c) = some (if (data ^^ maskBit m r c) = true then 1#8 else 0#8)) ∧
      (∀ i, i < 15 → ∀ p ∈ [formatA i, formatB s.entry.ver.toNat i], t.mem.read? .wm (p.1 * 177 + p.2) =
        some (if (formatWord s.entry.secl m).getLsbD i then 5#8 else 4#8)) ∧
      (∀ r c, r < 177 → c < 177 → (r, c) ∉ zigzag s.entry.ver.toNat →
        (∀ i, i < 15 → (r, c) ≠ formatA i ∧ (r, c) ≠ formatB s.entry.ver.toNat i) →
        t.mem.read? .wm (r * 177 + c) = s.mem.read? .mat (r * 177 + c)) ∧
      ∀ w, w ≠ .wm → t.mem.window w = s.mem.window w

/-- 46_mask R1011. Rule 1 counts each maximal run of a line once, 5 or longer, with 3 plus its length above 5; `P1` sums
it over the rows and the columns (that `columnsOf` is the columns: `ScoreScoresTheSymbol`). -/
def Obligations.RuleOneCountsMaximalRuns : Prop :=
  (∀ a : List Bool, rule1Line a =
    ((a.splitBy (· == ·)).map fun run => if 5 ≤ run.length then 3 + (run.length - 5) else 0).sum) ∧
  ∀ rows : List (List Bool), (scoreOf rows).p1 = BitVec.ofNat 32 ((rows ++ columnsOf rows).map rule1Line).sum

/-- 46_mask R1012, R1013. Rule 2 counts the 2 x 2 blocks of one value, overlapping ones too; rule 3 counts each occurrence
of `1011101` with four light modules before or after it, out of bounds being light, once; `P3` sums it over the rows and the
columns. -/
def Obligations.RulesTwoAndThreeCount : Prop :=
  (∀ rows : List (List Bool), (∀ row ∈ rows, row.length = rows.length) →
    rule2 rows = 3 * (((Finset.range (rows.length - 1)) ×ˢ (Finset.range (rows.length - 1))).filter fun p =>
      ∃ b, (rows[p.1]?.bind fun row => row[p.2]?) = some b ∧ (rows[p.1]?.bind fun row => row[p.2 + 1]?) = some b ∧
        (rows[p.1 + 1]?.bind fun row => row[p.2]?) = some b ∧
        (rows[p.1 + 1]?.bind fun row => row[p.2 + 1]?) = some b).card) ∧
  (∀ a : List Bool, 7 ≤ a.length →
    let g : Int → Bool := fun k => if 0 ≤ k then a.getD k.toNat false else false
    rule3Line a = 40 * ((Finset.range (a.length - 6)).filter fun s : Nat =>
      (∀ k : Nat, k < 7 → a[s + k]? = [true, false, true, true, true, false, true][k]?) ∧
      ((g ((s : Int) - 4) = false ∧ g ((s : Int) - 3) = false ∧ g ((s : Int) - 2) = false ∧ g ((s : Int) - 1) = false) ∨
        (g ((s : Int) + 7) = false ∧ g ((s : Int) + 8) = false ∧ g ((s : Int) + 9) = false ∧
          g ((s : Int) + 10) = false))).card) ∧
  ∀ rows : List (List Bool), (scoreOf rows).p2 = BitVec.ofNat 32 (rule2 rows) ∧
    (scoreOf rows).p3 = BitVec.ofNat 32 ((rows ++ columnsOf rows).map rule3Line).sum

/-- 46_mask R1014. Rule 4 is 40 times the source's formula, with the exact percentage floored to a step of 5; it is 0
exactly from 45 percent up to below 55. -/
def Obligations.RuleFourIsTheBalance : Prop :=
  ∀ dark S : Nat, 1 ≤ S → dark ≤ S * S →
    (let k : Int := (20 * dark / (S * S) : Nat)
     (rule4 dark S : Int) = 40 * min |k - 10| |k - 9| ∧
     (rule4 dark S : Int) = 40 * (min |5 * k - 50| |5 * k + 5 - 50| / 5)) ∧
    20 * dark / (S * S) = 100 * dark / (S * S) / 5 ∧
    (rule4 dark S = 0 ↔ 45 * (S * S) ≤ 100 * dark ∧ 100 * dark < 55 * (S * S))

/-- 46_mask R1016, 10_state R120. The penalty bounds: no component of the score of a symbol wraps. -/
def Obligations.ScoreIsBounded : Prop :=
  ∀ rows : List (List Bool), 21 ≤ rows.length → rows.length ≤ 177 → (∀ row ∈ rows, row.length = rows.length) →
    let p1 := ((rows ++ columnsOf rows).map rule1Line).sum
    let p3 := ((rows ++ columnsOf rows).map rule3Line).sum
    let dark := (rows.map fun row => row.countP id).sum
    p1 ≤ 61950 ∧ rule2 rows ≤ 92928 ∧ p3 ≤ 2421360 ∧ rule4 dark rows.length ≤ 400 ∧ dark ≤ 31329 ∧
    (scoreOf rows).p1.toNat = p1 ∧ (scoreOf rows).p2.toNat = rule2 rows ∧ (scoreOf rows).p3.toNat = p3 ∧
    (scoreOf rows).p4.toNat = rule4 dark rows.length ∧ (scoreOf rows).dark.toNat = dark ∧
    (scoreOf rows).ptotal.toNat = p1 + rule2 rows + p3 + rule4 dark rows.length ∧
    (scoreOf rows).ptotal.toNat < 2 ^ 22

/-- 46_mask R1010, R1015. The column lines of a square symbol are its transpose; and `SCORE` of a written `WM`: the
registers hold the score of the symbol's rows and columns, `PEN` of the placed mask its total, `SC_V` and that bit of `PENV` are set; everything else is kept. -/
def Obligations.ScoreScoresTheSymbol : Prop :=
  (∀ rows : List (List Bool), (∀ row ∈ rows, row.length = rows.length) →
    (columnsOf rows).length = rows.length ∧
    (∀ l ∈ columnsOf rows, l.length = rows.length) ∧
    ∀ r c, r < rows.length → c < rows.length →
      ((columnsOf rows)[c]?.bind fun l => l[r]?) = (rows[r]?.bind fun row => row[c]?)) ∧
  ∀ (s : State) (cells : List Byte), s.status.err = 0#4 → s.status.wmV = true → s.mem.wf = true →
    s.entry.ver.toNat ≤ 40 → s.mem.readList .wm 0 31329 = .ok cells →
    let rows := symbolRows (17 + 4 * s.entry.ver.toNat) cells
    (∀ r c, r < 17 + 4 * s.entry.ver.toNat → c < 17 + 4 * s.entry.ver.toNat →
      (rows[r]?.bind fun row => row[c]?) = (s.mem.read? .wm (r * 177 + c)).map fun b => decide (b.toNat % 4 = 1)) ∧
    exec .score s = .next { s with
      score := scoreOf rows
      pen := s.pen.set s.wmMask.toNat (scoreOf rows).ptotal
      status := { s.status with scV := true, penv := s.status.penv ||| (1#8 <<< s.wmMask.toNat) } }

/-- 46_mask R1020, R1021. `MASK_SELECT` of a current `MAT` and `ILV`: every `PEN<m>` is candidate `m`'s total, `BEST` the
least total and of equal ones the least id, and `WM`, `WMASK`, `FMT` and the score are the winner's; everything else is
kept. -/
def Obligations.MaskSelectPicksTheLowest : Prop :=
  ∀ s : State, s.status.err = 0#4 → s.status.matV = true → s.status.ilvV = true → s.mem.wf = true →
    s.entry.ver.toNat ≤ 40 → s.entry.totalCw.toNat ≤ 3706 →
    s.mem.Written .mat 31329 → s.mem.Written .ilv s.entry.totalCw.toNat →
    ∃ t cells, exec .maskSelect s = .next t ∧
      (∀ m : Fin 8, s.candidateTotal (BitVec.ofFin m) = some t.pen[m]) ∧
      (∀ m : Fin 8, t.bestPen.toNat ≤ t.pen[m].toNat ∧ (m < t.bestId.toFin → t.bestPen.toNat < t.pen[m].toNat)) ∧
      t.bestPen = t.pen[t.bestId.toFin] ∧ t.score.ptotal = t.bestPen ∧
      s.candidate t.bestId = .ok cells ∧ t.mem.readList .wm 0 31329 = .ok cells ∧
      t.score = scoreOf (symbolRows (17 + 4 * s.entry.ver.toNat) cells) ∧
      t = { s with mem := t.mem, score := t.score, pen := t.pen, bestId := t.bestId, bestPen := t.bestPen,
                   wmMask := t.bestId, fmtWord := formatWord s.entry.secl t.bestId,
                   status := { s.status with wmV := true, scV := true, bestV := true, penv := 0xFF#8 } } ∧
      ∀ w, w ≠ .wm → t.mem.window w = s.mem.window w

/-! ## Control -/

/-- 47_control R1101, 60_exceptions R1207. `CLEAR` runs whatever `ERR` holds: every register but `CMD`, `CFG` and `LEN` is
0, and those, every window and the fault log are kept. -/
def Obligations.ClearStartsAFreshRequest : Prop :=
  ∀ s : State, ∃ t, exec .clear s = .next t ∧ t.status = Status.zero ∧
    (∀ r, r ≠ .cmd → r ≠ .cfg → r ≠ .len → t.regWord r = 0#32) ∧
    t.regWord .cmd = s.regWord .cmd ∧ t.regWord .cfg = s.regWord .cfg ∧ t.regWord .len = s.regWord .len ∧
    t.mem = s.mem ∧ t.faultLog = s.faultLog ∧ t.inbox = s.inbox ∧ t.response = s.response ∧ t.draws = s.draws

/-- 47_control R1110, R1120, R1123, 41_capacity_select R521. A request launched with digits that fit succeeds: the flags R1110
lists, the least version that fits, the requested level, a symbol of light and dark modules, written codewords, and the
winning mask. -/
def Obligations.EncodeSucceeds : Prop :=
  ∀ s : State, s.LaunchOk → s.mem.wf = true → s.Fits →
    ∃ t, exec .encode s = .next t ∧ t.Succeeded ∧
      t.status = { Status.zero with
        selV := true, bsV := true, genV := true, ecV := true, ilvV := true, matV := true, wmV := true, scV := true,
        bestV := true, penv := 0xFF#8 } ∧
      fits t.entry.ver.toNat s.ecl s.len.toNat = true ∧
      (∀ u, 1 ≤ u → u < t.entry.ver.toNat → fits u s.ecl s.len.toNat = false) ∧
      1 ≤ t.entry.ver.toNat ∧ t.entry.ver.toNat ≤ 40 ∧ t.entry.secl = s.ecl ∧
      (∀ r c, r < 17 + 4 * t.entry.ver.toNat → c < 17 + 4 * t.entry.ver.toNat →
        ∃ b, t.mem.read? .wm (r * 177 + c) = some b ∧ b.toNat % 4 ≤ 1) ∧
      t.mem.Written .ilv t.entry.totalCw.toNat ∧ t.wmMask = t.bestId ∧
      (∀ m : Fin 8, t.bestPen.toNat ≤ t.pen[m].toNat) ∧ t.ecl = s.ecl ∧ t.len = s.len ∧
      t.mem.window .digits = s.mem.window .digits

/-- 47_control R1121. Two launched requests with equal level, length and digits end alike, whatever else the two states
hold: the same error or the same entry, codewords, penalties, winner and symbol. -/
def Obligations.EncodeDependsOnTheRequestOnly : Prop :=
  ∀ s₁ s₂ t₁ : State, s₁.LaunchOk → s₂.LaunchOk → s₁.mem.wf = true → s₂.mem.wf = true → s₁.ecl = s₂.ecl →
    s₁.len = s₂.len → (∀ i < s₁.len.toNat, s₁.mem.read? .digits i = s₂.mem.read? .digits i) →
    exec .encode s₁ = .next t₁ →
    ∃ t₂, exec .encode s₂ = .next t₂ ∧ t₂.status = t₁.status ∧
      (t₁.status.err = 0#4 → t₂.entry = t₁.entry ∧ t₂.pen = t₁.pen ∧ t₂.bestId = t₁.bestId ∧ t₂.bestPen = t₁.bestPen ∧
        t₂.score = t₁.score ∧ t₂.fmtWord = t₁.fmtWord ∧ t₂.viWord = t₁.viWord ∧
        (∀ k < t₁.entry.totalCw.toNat, t₂.mem.read? .ilv k = t₁.mem.read? .ilv k) ∧
        ∀ k < 31329, t₂.mem.read? .wm k = t₁.mem.read? .wm k)

/-! ## Errors -/

/-- 60_exceptions R1201, R1202, R1209. A command other than `ENCODE` raises exactly the code R1201's table names, the first
cause in the order of R1202, and appends it to the fault log. `ENCODE` raises 4 exactly when no version fits, 5 exactly when
one does and the scan ends at a non-digit, and no other code. Which of a non-digit and a
digit never written ends `COMPOSE`'s scan (`State.MeetsBadDigit`) is DEDUCED from R620's loop (log entry 11). -/
def Obligations.CommandsRaiseTheirCodes : Prop :=
  (∀ (i : Instr) (s : State) (c : BitVec 4), i ≠ .encode → s.status.err = 0#4 → s.mem.wf = true →
    (exec i s = .next { s with status := { s.status with err := c }, faultLog := s.faultLog ++ [.error c] } ↔
      Raises i s c)) ∧
  (∀ s t : State, s.status.err = 0#4 → exec .encode s = .next t →
    t.status.err = 0#4 ∨ t.status.err = 4#4 ∨ t.status.err = 5#4) ∧
  ∀ s : State, s.status.err = 0#4 → s.mem.wf = true →
    ((∃ t, exec .encode s = .next t ∧ t.status.err = 4#4) ↔ ¬ s.Fits) ∧
    ((∃ t, exec .encode s = .next t ∧ t.status.err = 5#4) ↔ s.Fits ∧ s.MeetsBadDigit)

/-- 60_exceptions R1204. The failing command has changed nothing but `ERR` and, by the write that carried it, `LASTCMD` (and
the model's own fault log, inbox and response); `ENCODE`'s failing sub-command alike, `SELECT` before it keeping its
effects. -/
def Obligations.FailedCommandsChangeOnlyErr : Prop :=
  (∀ (s t : State) (w : Word) (rest : List HostMove), s.inbox = .write 0#20 32 w :: rest → decode w ≠ .ok .encode →
    s.status.err = 0#4 → step s = .next t → t.status.err ≠ 0#4 →
    t = { s with inbox := rest, response := some .done, lastcmd := w, status := { s.status with err := t.status.err },
                 faultLog := s.faultLog ++ [.error t.status.err] }) ∧
  (∀ s t : State, s.status.err = 0#4 → exec .encode s = .next t → t.status.err ≠ 0#4 →
    t = s.withError 4#4 ∨ ∃ u, exec .select s = .next u ∧ u.status.err = 0#4 ∧ t = u.withError 5#4)

/-- 60_exceptions R1203. While `ERR` is not 0: a word other than `CLEAR`'s is only stored in `LASTCMD`; the word 1 runs
`CLEAR`; writes to `CFG`, `LEN`, `DIGITS` and `BS` are stored and invalidate, `ERR` kept; register reads give the register (the
inbox and the response are the model's fields, log entries 1, 2). -/
def Obligations.ErrorsAreSticky : Prop :=
  ∀ (s : State) (rest : List HostMove), s.status.err ≠ 0#4 →
    (∀ w, s.inbox = .write 0#20 32 w :: rest → w ≠ 1#32 →
      step s = .next { s with inbox := rest, lastcmd := w, response := some .done }) ∧
    (s.inbox = .write 0#20 32 1#32 :: rest →
      ∃ t, step s = .next t ∧ t.status = Status.zero ∧ t.lastcmd = 1#32 ∧ t.mem = s.mem ∧ t.ecl = s.ecl ∧
        t.len = s.len) ∧
    (∀ d, s.inbox = .write 0x008#20 32 d :: rest → ∃ t, step s = .next t ∧ t.ecl = d.extractLsb' 0 2 ∧
      t.status = { Status.zero with err := s.status.err, genV := s.status.genV }) ∧
    (∀ d, s.inbox = .write 0x00C#20 32 d :: rest → ∃ t, step s = .next t ∧ t.len = d.extractLsb' 0 13 ∧
      t.status = { Status.zero with err := s.status.err, genV := s.status.genV }) ∧
    (∀ z i d, (z = .digits ∨ z = .bs) → i < Window.size z →
      s.inbox = .write (BitVec.ofNat 20 (elemAddr z i)) 32 d :: rest → ∃ t, step s = .next t ∧
      t = { s with inbox := rest, response := some .done, mem := t.mem, status := { s.status with
        bsV := false, ecV := false, ilvV := false, wmV := false, scV := false, bestV := false, penv := 0#8 } } ∧
      t.mem.read? z i = some (d.extractLsb' 0 8)) ∧
    (∀ r, s.inbox = .read (BitVec.ofNat 20 (regAddr r)) 32 :: rest →
      step s = .next { s with inbox := rest, response := some (.data (s.regWord r)) })

/-- 60_exceptions R1209, 47_control R1101; the log is the model's field (log entries 4, 6). A step to a next state leaves the
fault log alone or appends to it the one code by which `ERR` went from 0 to that code; a step that stops leaves the log with
its `Unwritten` fault appended. -/
def Obligations.FaultLogOnlyGrows : Prop :=
  (∀ s t : State, step s = .next t →
    t.faultLog = s.faultLog ∨
    ∃ c, c ≠ 0#4 ∧ s.status.err = 0#4 ∧ t.status.err = c ∧ t.faultLog = s.faultLog ++ [.error c]) ∧
  ∀ (s : State) (f : Fault), step s = .fault f → ∃ u, f = .unwritten u (s.faultLog ++ [.unwritten u])

/-- 20_memory R213, 47_control R1110, 60_exceptions R1209, 93 U3 (log entries 6, 11). `COMPOSE`, and `ENCODE` of a request
that fits, stop on the first digit never written that the scan meets, and `RS_ENCODE` on the first byte of its range never
written; the fault is appended to the fault log. -/
def Obligations.UnwrittenReadsStop : Prop :=
  (∀ (s : State) (k : Nat), s.status.err = 0#4 → s.status.selV = true → s.mem.wf = true →
    4 + s.entry.cci.toNat + contentBits s.len.toNat ≤ s.entry.capBits → s.len.toNat ≤ 7089 → k < s.len.toNat →
    s.mem.read? .digits k = none → (∀ i < k, ∃ b, s.mem.read? .digits i = some b ∧ isDigit b) →
    exec .compose s = .fault (.unwritten ⟨.digits, k⟩ (s.faultLog ++ [.unwritten ⟨.digits, k⟩]))) ∧
  (∀ (s : State) (k : Nat), s.status.err = 0#4 → s.mem.wf = true → s.Fits → k < s.len.toNat →
    s.mem.read? .digits k = none → (∀ i < k, ∃ b, s.mem.read? .digits i = some b ∧ isDigit b) →
    exec .encode s = .fault (.unwritten ⟨.digits, k⟩ (s.faultLog ++ [.unwritten ⟨.digits, k⟩]))) ∧
  (∀ (s : State) (o : BitVec 12) (l : BitVec 8) (k : Nat), s.status.err = 0#4 → s.status.genV = true → s.mem.wf = true →
    o.toNat + l.toNat ≤ 2956 → o.toNat ≤ k → k < o.toNat + l.toNat → s.mem.read? .bs k = none →
    (∀ i, o.toNat ≤ i → i < k → (s.mem.read? .bs i).isSome = true) →
    exec (.rsEncode o l) s = .fault (.unwritten ⟨.bs, k⟩ (s.faultLog ++ [.unwritten ⟨.bs, k⟩])))

/-! ## Whole-machine rules -/

/-- 60_exceptions R1209, 20_memory R213, 93 U3. In a state that meets the invariant, only `COMPOSE`, `ENCODE` and `RS_ENCODE`
can stop, on a digit below `LEN` or a byte of their range that was never written; and no command is ever refused. -/
def Obligations.OnlyThreeCommandsCanStop : Prop :=
  (∀ (s : State) (i : Instr) (f : Fault), s.Inv → exec i s = .fault f →
    (∃ k, f = .unwritten ⟨.digits, k⟩ (s.faultLog ++ [.unwritten ⟨.digits, k⟩]) ∧ k < s.len.toNat ∧
      s.mem.read? .digits k = none ∧ (i = .compose ∨ i = .encode)) ∨
    (∃ o l k, i = .rsEncode o l ∧ f = .unwritten ⟨.bs, k⟩ (s.faultLog ++ [.unwritten ⟨.bs, k⟩]) ∧ o.toNat ≤ k ∧ k < o.toNat + l.toNat ∧
      s.mem.read? .bs k = none)) ∧
  (∀ (s : State) (i : Instr) (r : Refusal), exec i s ≠ .refused r)

/-- 10_state R124 and the "written by" of R110 to R122. A command that answers a next state has changed no register but
`STATUS` and those it writes, no window but those it writes, and neither `CMD`, `CFG`, `LEN` nor the model's bus fields. -/
def Obligations.CommandsKeepWhatTheyDoNotWrite : Prop :=
  ∀ (i : Instr) (s t : State), exec i s = .next t →
    (∀ r, r ≠ .status → r ∉ regsWritten i → t.regWord r = s.regWord r) ∧
    (∀ w, w ∉ windowsWritten i → t.mem.window w = s.mem.window w) ∧
    t.lastcmd = s.lastcmd ∧ t.ecl = s.ecl ∧ t.len = s.len ∧ t.inbox = s.inbox ∧ t.response = s.response ∧
    t.draws = s.draws

/-- 42_bitstream R625, 40_galois_field R405, 46_mask R1015, 45_matrix R941, 47_control R1121. Running a command again at
once changes nothing more, for every command but the three that advance a cursor by design. (The canonical form of the
windows is an invariant, `MemoryStaysCanonical`.) -/
def Obligations.RepeatingACommandChangesNothing : Prop :=
  ∀ (i : Instr) (s t : State), (∀ w x, i ≠ .bsAppend w x) → i ≠ .bsTerminate → i ≠ .zzNext → s.mem.wf = true →
    exec i s = .next t → exec i t = .next t

/-! ## Host bus and reset -/

/-- 20_memory R202, R203, R207, 10_state R105; the response is the model's field (log entry 2). A refused access changes
nothing but takes the move and answers a bus error; it is refused for its width, its alignment, its address, or as a write
to what the host may only read. -/
def Obligations.BusErrorsChangeNothing : Prop :=
  ∀ (s : State) (rest : List HostMove) (a : Addr) (width : Nat) (d : Word),
    (s.inbox = .read a width :: rest → (width ≠ 32 ∨ a.toNat % 4 ≠ 0 ∨ ¬ Mapped a.toNat) →
      step s = .next { s with inbox := rest, response := some (.busError a) }) ∧
    (s.inbox = .write a width d :: rest → (width ≠ 32 ∨ a.toNat % 4 ≠ 0 ∨ ¬ Writable a.toNat) →
      step s = .next { s with inbox := rest, response := some (.busError a) })

/-- 10_state R104, R105, 20_memory R204, R208, R211, R212; the response is the model's field (log entry 2) and the value of
an element never written is free (log entry 5). Reads of every register and element give its value in the low bits, and
change nothing else; every field of every register stands at its bits (R107 to R122) and every reserved field reads 0. -/
def Obligations.BusReadsHaveNoEffect : Prop :=
  (∀ (s : State) (rest : List HostMove),
    (∀ r, s.inbox = .read (BitVec.ofNat 20 (regAddr r)) 32 :: rest →
      step s = .next { s with inbox := rest, response := some (.data (s.regWord r)) }) ∧
    (∀ w i b, i < Window.size w → s.mem.read? w i = some b →
      s.inbox = .read (BitVec.ofNat 20 (elemAddr w i)) 32 :: rest →
      step s = .next { s with inbox := rest, response := some (.data (BitVec.ofNat 32
        (if w = .mat ∨ w = .wm then b.toNat % 8 else b.toNat))) }) ∧
    (∀ w i, i < Window.size w → s.mem.read? w i = none →
      s.inbox = .read (BitVec.ofNat 20 (elemAddr w i)) 32 :: rest →
      step s = .next { s with inbox := rest, draws := s.draws + 1, response := some (.data (BitVec.ofNat 32
        (if w = .mat ∨ w = .wm then (Config.freeElem s.draws).toNat % 8 else (Config.freeElem s.draws).toNat))) })) ∧
  ∀ s : State,
    (s.regWord .status &&& 0xFF008000#32 = 0#32) ∧ (s.regWord .cfg &&& 0xFFFFFFFC#32 = 0#32) ∧
    (s.regWord .len &&& 0xFFFFE000#32 = 0#32) ∧ (s.regWord .version &&& 0xF000F000#32 = 0#32) ∧
    (s.regWord .group1 &&& 0xFF000080#32 = 0#32) ∧ (s.regWord .group2 &&& 0xFF000080#32 = 0#32) ∧
    (s.regWord .ecinfo &&& 0xF8000000#32 = 0#32) ∧ (s.regWord .bscur &&& 0xFFFF8000#32 = 0#32) ∧
    (s.regWord .gfr &&& 0xFFFFFF00#32 = 0#32) ∧ (s.regWord .genlen &&& 0xFFFFFF80#32 = 0#32) ∧
    (s.regWord .zzpos &&& 0xFFFF0000#32 = 0#32) ∧ (s.regWord .zzidx &&& 0xFFFF8000#32 = 0#32) ∧
    (s.regWord .wmask &&& 0xFFFFFFF8#32 = 0#32) ∧ (s.regWord .fmt &&& 0xFFFF8000#32 = 0#32) ∧
    (s.regWord .verinfo &&& 0xFFFC0000#32 = 0#32) ∧ (s.regWord .dark &&& 0xFFFF8000#32 = 0#32) ∧
    (s.regWord .best &&& 0xFFFFFFF8#32 = 0#32) ∧
    (let w := s.regWord .status
     w.extractLsb' 0 4 = s.status.err ∧ w.getLsbD 4 = s.status.selV ∧ w.getLsbD 5 = s.status.bsV ∧
     w.getLsbD 6 = s.status.genV ∧ w.getLsbD 7 = s.status.ecV ∧ w.getLsbD 8 = s.status.ilvV ∧
     w.getLsbD 9 = s.status.matV ∧ w.getLsbD 10 = s.status.zzV ∧ w.getLsbD 11 = s.status.zzDone ∧
     w.getLsbD 12 = s.status.wmV ∧ w.getLsbD 13 = s.status.scV ∧ w.getLsbD 14 = s.status.bestV ∧
     w.extractLsb' 16 8 = s.status.penv) ∧
    (let w := s.regWord .version
     w.extractLsb' 0 6 = s.entry.ver ∧ w.extractLsb' 6 2 = s.entry.secl ∧ w.extractLsb' 8 4 = s.entry.cci ∧
     w.extractLsb' 16 12 = s.entry.dataCw) ∧
    (let w := s.regWord .group1
     w.extractLsb' 0 7 = s.entry.blk1 ∧ w.extractLsb' 8 8 = s.entry.c1 ∧ w.extractLsb' 16 8 = s.entry.k1) ∧
    (let w := s.regWord .group2
     w.extractLsb' 0 7 = s.entry.blk2 ∧ w.extractLsb' 8 8 = s.entry.c2 ∧ w.extractLsb' 16 8 = s.entry.k2) ∧
    (let w := s.regWord .ecinfo
     w.extractLsb' 0 8 = s.entry.ecLen ∧ w.extractLsb' 8 12 = s.entry.totalCw ∧ w.extractLsb' 20 7 = s.entry.nblk) ∧
    (s.regWord .zzpos).extractLsb' 0 8 = s.zzRow ∧ (s.regWord .zzpos).extractLsb' 8 8 = s.zzCol ∧
    (s.regWord .zzidx).extractLsb' 0 15 = s.zzIdx ∧ (s.regWord .cfg).extractLsb' 0 2 = s.ecl ∧
    (s.regWord .len).extractLsb' 0 13 = s.len ∧ (s.regWord .bscur).extractLsb' 0 15 = s.cur ∧
    (s.regWord .gfr).extractLsb' 0 8 = s.gfP ∧ (s.regWord .genlen).extractLsb' 0 7 = s.genLen ∧
    (s.regWord .wmask).extractLsb' 0 3 = s.wmMask ∧ (s.regWord .fmt).extractLsb' 0 15 = s.fmtWord ∧
    (s.regWord .verinfo).extractLsb' 0 18 = s.viWord ∧ (s.regWord .dark).extractLsb' 0 15 = s.score.dark ∧
    (s.regWord .best).extractLsb' 0 3 = s.bestId ∧ s.regWord .cmd = s.lastcmd ∧ s.regWord .p1 = s.score.p1 ∧
    s.regWord .p2 = s.score.p2 ∧ s.regWord .p3 = s.score.p3 ∧ s.regWord .p4 = s.score.p4 ∧
    s.regWord .ptotal = s.score.ptotal ∧ s.regWord .bestpen = s.bestPen ∧ ∀ m : Fin 8, s.regWord (.pen m) = s.pen[m]

/-- 10_state R108, R109, R138, 20_memory R209, R210; the response is the model's field (log entry 2). Host writes of `CFG`
and `LEN` store the field and leave of the flags only `GEN_V`; a write of a `DIGITS` or `BS` element stores its low byte and
clears `INV_BS`; nothing else changes. -/
def Obligations.HostWritesStoreAndInvalidate : Prop :=
  ∀ (s : State) (rest : List HostMove) (d : Word),
    (s.inbox = .write 0x008#20 32 d :: rest → step s = .next { s with
      inbox := rest, response := some .done, ecl := BitVec.ofNat 2 (d.toNat % 4),
      status := { Status.zero with err := s.status.err, genV := s.status.genV } }) ∧
    (s.inbox = .write 0x00C#20 32 d :: rest → step s = .next { s with
      inbox := rest, response := some .done, len := BitVec.ofNat 13 (d.toNat % 2 ^ 13),
      status := { Status.zero with err := s.status.err, genV := s.status.genV } }) ∧
    (∀ z i, (z = .digits ∨ z = .bs) → i < Window.size z →
      s.inbox = .write (BitVec.ofNat 20 (elemAddr z i)) 32 d :: rest → ∃ t, step s = .next t ∧
        t = { s with inbox := rest, response := some .done, mem := t.mem, status := { s.status with
          bsV := false, ecV := false, ilvV := false, wmV := false, scV := false, bestV := false, penv := 0#8 } } ∧
        t.mem.read? z i = some (BitVec.ofNat 8 (d.toNat % 256)) ∧
        ∀ w k, w ≠ z ∨ k ≠ i → t.mem.read? w k = s.mem.read? w k)

/-- 70_reset R1300, 60_exceptions R1209; the reset is a host move of the model, which keeps the fault log, the inbox and the
count of free values (log entries 1, 4, 5). The platform's reset brings every register and window to its reset value. -/
def Obligations.PlatformResetResets : Prop :=
  ∀ (s : State) (rest : List HostMove), s.inbox = .reset :: rest →
    ∃ t, step s = .next t ∧ (∀ r, t.regWord r = 0#32) ∧ (∀ w i, t.mem.read? w i = none) ∧
      t = { State.reset with faultLog := s.faultLog, inbox := rest, draws := s.draws }

/-! ## Invariants -/

/-- 10_state R135, 20_memory R213 (log entry 3). Every step keeps the canonical form of the eight windows. -/
def Obligations.MemoryStaysCanonical : Prop :=
  ∀ s t : State, s.mem.wf = true → step s = .next t → t.mem.wf = true

/-- 60_exceptions R1201, 10_state R134, R138. Every step keeps `ERR` at most 7 and every flag with the flags it implies. -/
def Obligations.StatusStaysLegal : Prop :=
  ∀ s t : State, s.status.err.toNat ≤ 7 → s.status.Chained → step s = .next t →
    t.status.err.toNat ≤ 7 ∧ t.status.Chained

/-- 10_state R134 to R139, 42_bitstream R600, R602, 93 U3. Every step keeps the machine's invariant. -/
def Obligations.InvariantIsKept : Prop :=
  ∀ s t : State, s.Inv → step s = .next t → t.Inv

/-- 10_state R139, 70_reset R1300. After reset every register reads 0 and no element of any window has been written; the
state meets the invariant, and its flags promise nothing false. -/
def Obligations.ResetStateMeetsTheInvariant : Prop :=
  (∀ r, State.reset.regWord r = 0#32) ∧ (∀ w i, State.reset.mem.read? w i = none) ∧
  State.reset.Inv ∧ State.reset.Truthful

/-- 10_state R107, R127 to R131, R134. Every step keeps every set flag true of the window or the registers it vouches
for. -/
def Obligations.FlagsTellTheTruth : Prop :=
  ∀ s t : State, s.Inv → s.Truthful → step s = .next t → t.Truthful
end

