-- ==== Sys2Proof/Laws/Memory.lean ====
section
/-! SUPPORT. The laws of the RAM windows: a read after a write, a write leaves every other element alone, and every
memory operation keeps the canonical form. -/

-- One theorem at a time: each proof in flight holds a thread's whole stack.
set_option Elab.async false

namespace Sys2Proof.Machine

/-! ### One window -/

@[simp] theorem Ram.read?_nil (i : Nat) : Ram.read? [] i = none := rfl

theorem Ram.read?_cons (j : Nat) (c : Byte) (r : Ram) (i : Nat) :
    Ram.read? ((j, c) :: r) i = if j = i then some c else Ram.read? r i := rfl

theorem Ram.read?_append (r r' : Ram) (i : Nat) :
    Ram.read? (r ++ r') i = (Ram.read? r i).or (Ram.read? r' i) := by
  induction r with
  | nil => simp
  | cons c r ih =>
    obtain ⟨j, b⟩ := c
    simp only [List.cons_append, Ram.read?_cons, ih]
    split <;> simp

theorem Ram.read?_write (r : Ram) (i : Nat) (b : Byte) (k : Nat) :
    (r.write i b).read? k = if k = i then some b else r.read? k := by
  induction r with
  | nil => simp only [Ram.write, Ram.read?_cons, Ram.read?_nil, eq_comm]
  | cons c r ih =>
    obtain ⟨j, x⟩ := c
    simp only [Ram.write]
    by_cases h₁ : i < j
    · by_cases h₂ : k = i
      · simp [Ram.read?_cons, h₁, h₂]
      · simp [Ram.read?_cons, h₁, h₂, Ne.symm h₂]
    · by_cases h₂ : i = j
      · subst h₂
        by_cases h₃ : k = i
        · simp [Ram.read?_cons, h₃]
        · simp [Ram.read?_cons, h₃, Ne.symm h₃]
      · by_cases h₃ : k = i
        · subst h₃; simp [Ram.read?_cons, h₁, h₂, ih, Ne.symm h₂]
        · simp [Ram.read?_cons, h₁, h₂, ih, h₃]

theorem Ram.read?_filter (r : Ram) (p : Nat → Bool) (k : Nat) :
    Ram.read? (r.filter fun c => p c.1) k = if p k then r.read? k else none := by
  induction r with
  | nil => simp
  | cons c r ih =>
    obtain ⟨j, b⟩ := c
    simp only [List.filter_cons]
    by_cases hj : p j
    · simp only [hj, if_true, Ram.read?_cons, ih]
      by_cases h : j = k
      · subst h; simp [hj]
      · simp [h]
    · simp only [hj, if_false, ih, Ram.read?_cons, Bool.false_eq_true]
      by_cases h : j = k
      · subst h; simp [hj]
      · simp [h]

theorem Ram.read?_cellsFrom (vals : List Byte) (i k : Nat) :
    (Ram.cellsFrom i vals).read? k = if i ≤ k then vals[k - i]? else none := by
  induction vals generalizing i with
  | nil => simp [Ram.cellsFrom]
  | cons b vs ih =>
    simp only [Ram.cellsFrom, Ram.read?_cons, ih]
    by_cases h : i = k
    · subst h; simp
    · by_cases h' : i ≤ k
      · have : k - i = (k - (i + 1)) + 1 := by omega
        simp [h, h', show i + 1 ≤ k by omega, this]
      · simp [h, h', show ¬ i + 1 ≤ k by omega]

/-- A list write sets the elements it covers and leaves every other one alone. -/
theorem Ram.read?_writeList (r : Ram) (i : Nat) (vals : List Byte) (k : Nat) :
    (r.writeList i vals).read? k =
      if i ≤ k ∧ k < i + vals.length then vals[k - i]? else r.read? k := by
  simp only [Ram.writeList, Ram.read?_append, Ram.read?_cellsFrom,
    Ram.read?_filter r (fun j => decide (j < i)), Ram.read?_filter r (fun j => decide (i + vals.length ≤ j))]
  by_cases h₁ : k < i
  · simp [h₁, show ¬ i ≤ k by omega, show ¬ i + vals.length ≤ k by omega]
  · by_cases h₂ : k < i + vals.length
    · have hlt : k - i < vals.length := by omega
      simp [h₁, h₂, show i ≤ k by omega, show ¬ i + vals.length ≤ k by omega, List.getElem?_eq_getElem hlt]
    · have hge : vals.length ≤ k - i := by omega
      simp [h₁, h₂, show i + vals.length ≤ k by omega, List.getElem?_eq_none hge]

theorem Ram.risingFrom_mono {lo lo' : Nat} {r : Ram} (h : lo' ≤ lo) (hr : Ram.risingFrom lo r = true) :
    Ram.risingFrom lo' r = true := by
  cases r with
  | nil => rfl
  | cons c r =>
    obtain ⟨j, b⟩ := c
    simp only [Ram.risingFrom, Bool.and_eq_true, decide_eq_true_eq] at *
    exact ⟨by omega, hr.2⟩

/-- Rising indices are never below the first bound. -/
theorem Ram.read?_eq_none_of_lt {lo k : Nat} {r : Ram} (hr : Ram.risingFrom lo r = true) (h : k < lo) :
    r.read? k = none := by
  induction r generalizing lo with
  | nil => rfl
  | cons c r ih =>
    obtain ⟨j, b⟩ := c
    simp only [Ram.risingFrom, Bool.and_eq_true, decide_eq_true_eq] at hr
    rw [Ram.read?_cons, if_neg (by omega)]
    exact ih hr.2 (by omega)

theorem Ram.risingFrom_write {lo : Nat} {r : Ram} (i : Nat) (b : Byte) (hr : Ram.risingFrom lo r = true) (h : lo ≤ i) :
    Ram.risingFrom lo (r.write i b) = true := by
  induction r generalizing lo with
  | nil => simp [Ram.write, Ram.risingFrom, h]
  | cons c r ih =>
    obtain ⟨j, x⟩ := c
    simp only [Ram.risingFrom, Bool.and_eq_true, decide_eq_true_eq] at hr
    simp only [Ram.write]
    split_ifs with h₁ h₂
    · simp only [Ram.risingFrom, Bool.and_eq_true, decide_eq_true_eq]
      exact ⟨h, by omega, hr.2⟩
    · subst h₂
      simp only [Ram.risingFrom, Bool.and_eq_true, decide_eq_true_eq]
      exact ⟨h, hr.2⟩
    · simp only [Ram.risingFrom, Bool.and_eq_true, decide_eq_true_eq]
      exact ⟨hr.1, ih hr.2 (by omega)⟩

theorem Ram.risingFrom_append {lo mid : Nat} {r r' : Ram} (hr : Ram.risingFrom lo r = true)
    (hb : ∀ c ∈ r, c.1 < mid) (hm : lo ≤ mid) (hr' : Ram.risingFrom mid r' = true) :
    Ram.risingFrom lo (r ++ r') = true := by
  induction r generalizing lo with
  | nil => exact Ram.risingFrom_mono hm hr'
  | cons c r ih =>
    obtain ⟨j, b⟩ := c
    simp only [Ram.risingFrom, Bool.and_eq_true, decide_eq_true_eq, List.cons_append] at *
    have hj : j < mid := hb (j, b) (by simp)
    exact ⟨hr.1, ih hr.2 (fun c hc => hb c (by simp [hc])) (by omega)⟩

theorem Ram.risingFrom_filter {lo : Nat} {r : Ram} (p : Host.Cell → Bool) (hr : Ram.risingFrom lo r = true) :
    Ram.risingFrom lo (r.filter p) = true := by
  induction r generalizing lo with
  | nil => rfl
  | cons c r ih =>
    obtain ⟨j, b⟩ := c
    simp only [Ram.risingFrom, Bool.and_eq_true, decide_eq_true_eq] at hr
    simp only [List.filter_cons]
    split_ifs
    · simp only [Ram.risingFrom, Bool.and_eq_true, decide_eq_true_eq]
      exact ⟨hr.1, ih hr.2⟩
    · exact Ram.risingFrom_mono (by omega) (ih hr.2)

theorem Ram.risingFrom_filter_ge {lo mid : Nat} {r : Ram} (hr : Ram.risingFrom lo r = true) :
    Ram.risingFrom mid (r.filter fun c => decide (mid ≤ c.1)) = true := by
  induction r generalizing lo with
  | nil => rfl
  | cons c r ih =>
    obtain ⟨j, b⟩ := c
    simp only [Ram.risingFrom, Bool.and_eq_true, decide_eq_true_eq] at hr
    by_cases h : mid ≤ j
    · simp only [List.filter_cons, h, decide_true, if_true, Ram.risingFrom, Bool.and_eq_true]
      exact ⟨trivial, Ram.risingFrom_filter _ hr.2⟩
    · simp only [List.filter_cons, h, decide_false, Bool.false_eq_true, if_false]
      exact ih hr.2

theorem Ram.risingFrom_cellsFrom (i : Nat) (vals : List Byte) : Ram.risingFrom i (Ram.cellsFrom i vals) = true := by
  induction vals generalizing i with
  | nil => rfl
  | cons b vs ih => simp [Ram.cellsFrom, Ram.risingFrom, ih]

theorem Ram.lt_of_mem_cellsFrom {i : Nat} {vals : List Byte} {c : Host.Cell} (h : c ∈ Ram.cellsFrom i vals) :
    c.1 < i + vals.length := by
  induction vals generalizing i with
  | nil => simp [Ram.cellsFrom] at h
  | cons b vs ih =>
    simp only [Ram.cellsFrom, List.mem_cons] at h
    rcases h with rfl | h
    · simp
    · have := ih h; simp only [List.length_cons]; omega

theorem Ram.risingFrom_writeList {r : Ram} (i : Nat) (vals : List Byte) (hr : Ram.risingFrom 0 r = true) :
    Ram.risingFrom 0 (r.writeList i vals) = true := by
  rw [Ram.writeList, List.append_assoc]
  refine Ram.risingFrom_append (mid := i) (Ram.risingFrom_filter _ hr) (by simp) (Nat.zero_le _) ?_
  exact Ram.risingFrom_append (mid := i + vals.length) (Ram.risingFrom_cellsFrom i vals)
    (fun c hc => Ram.lt_of_mem_cellsFrom hc) (by omega) (Ram.risingFrom_filter_ge hr)

theorem Ram.dropWhile_rising {lo i : Nat} {r : Ram} (hr : Ram.risingFrom lo r = true) :
    Ram.risingFrom i (r.dropWhile fun c => decide (c.1 < i)) = true ∧
      ∀ k, i ≤ k → Ram.read? (r.dropWhile fun c => decide (c.1 < i)) k = r.read? k := by
  induction r generalizing lo with
  | nil => exact ⟨rfl, fun _ _ => rfl⟩
  | cons c r ih =>
    obtain ⟨j, b⟩ := c
    simp only [Ram.risingFrom, Bool.and_eq_true, decide_eq_true_eq] at hr
    by_cases h : j < i
    · simp only [List.dropWhile_cons, h, decide_true, if_true]
      refine ⟨(ih hr.2).1, fun k hk => ?_⟩
      rw [(ih hr.2).2 k hk, Ram.read?_cons, if_neg (by omega)]
    · simp only [List.dropWhile_cons, h, decide_false, Bool.false_eq_true, if_false]
      refine ⟨?_, fun _ _ => trivial⟩
      simp only [Ram.risingFrom, Bool.and_eq_true, decide_eq_true_eq]
      exact ⟨by omega, hr.2⟩

theorem Ram.view_length (r : Ram) (i n : Nat) : (r.view i n).length = n := by
  induction n generalizing r i with
  | zero => rfl
  | succ n ih =>
    simp only [Ram.view]
    split
    · simp [ih]
    · split <;> simp [ih]

/-- The one-pass view reads what the element reads read, over rising indices. -/
theorem Ram.view_eq {lo : Nat} {r : Ram} (hr : Ram.risingFrom lo r = true) (i n : Nat) :
    r.view i n = (List.range' i n).map r.read? := by
  induction n generalizing r lo i with
  | zero => rfl
  | succ n ih =>
    obtain ⟨hd, hread⟩ := Ram.dropWhile_rising (i := i) hr
    have htail : ∀ (r' : Ram), (∀ k, i + 1 ≤ k → r'.read? k = r.read? k) →
        (List.range' (i + 1) n).map r'.read? = (List.range' (i + 1) n).map r.read? := by
      intro r' h
      refine List.map_congr_left fun k hk => h k ?_
      simp only [List.mem_range'_1] at hk; omega
    simp only [Ram.view, List.range'_succ, List.map_cons]
    cases hd' : r.dropWhile fun c => decide (c.1 < i) with
    | nil =>
      rw [hd'] at hread
      simp only [← hread i (le_refl i), Ram.read?_nil]
      rw [ih (r := []) (lo := 0) rfl, htail [] fun k hk => hread k (by omega)]
    | cons c r' =>
      obtain ⟨j, b⟩ := c
      rw [hd'] at hread hd
      simp only [Ram.risingFrom, Bool.and_eq_true, decide_eq_true_eq] at hd
      by_cases h : j = i
      · subst h
        simp only [if_true]
        have h0 : r.read? j = some b := by rw [← hread j (le_refl j), Ram.read?_cons, if_pos rfl]
        rw [h0, ih hd.2, htail r']
        intro k hk
        rw [← hread k (by omega), Ram.read?_cons, if_neg (by omega)]
      · simp only [h, if_false]
        have h0 : r.read? i = none := by
          rw [← hread i (le_refl i), Ram.read?_cons, if_neg h]
          exact Ram.read?_eq_none_of_lt hd.2 (by omega)
        rw [h0, ih (r := (j, b) :: r') (lo := i) (by simp [Ram.risingFrom, hd.1, hd.2]),
          htail _ fun k hk => hread k (by omega)]

/-! ### The eight windows -/

@[simp] theorem Memory.window_setWindow (m : Memory) (w w' : Window) (r : Ram) :
    (m.setWindow w r).window w' = if w' = w then r else m.window w' := by
  cases w <;> cases w' <;> rfl

theorem Memory.wf_iff (m : Memory) :
    m.wf = true ↔ ∀ w, Ram.risingFrom 0 (m.window w) = true ∧ ∀ c ∈ m.window w, c.1 < w.size := by
  simp only [Memory.wf, List.all_eq_true, Bool.and_eq_true, decide_eq_true_eq]
  constructor
  · intro h w
    exact h w (by cases w <;> simp)
  · intro h w _
    exact h w

/-- Replacing one window by a rising list inside its bounds keeps the canonical form. -/
theorem Memory.wf_setWindow {m : Memory} {w : Window} {r : Ram} (hm : m.wf = true) (hr : Ram.risingFrom 0 r = true)
    (hb : ∀ c ∈ r, c.1 < w.size) : (m.setWindow w r).wf = true := by
  rw [Memory.wf_iff] at *
  intro w'
  rw [Memory.window_setWindow]
  split
  · next h => subst h; exact ⟨hr, hb⟩
  · exact hm w'

theorem Ram.fst_mem_write {r : Ram} {i : Nat} {b : Byte} {c : Host.Cell} (h : c ∈ r.write i b) : c.1 = i ∨ c ∈ r := by
  induction r with
  | nil => simp only [Ram.write, List.mem_singleton] at h; exact .inl (by rw [h])
  | cons d r ih =>
    obtain ⟨j, x⟩ := d
    simp only [Ram.write] at h
    split_ifs at h with h₁ h₂
    · rcases List.mem_cons.1 h with rfl | h
      · exact .inl rfl
      · exact .inr h
    · rcases List.mem_cons.1 h with rfl | h
      · exact .inl rfl
      · exact .inr (by simp [h])
    · rcases List.mem_cons.1 h with rfl | h
      · exact .inr (by simp)
      · rcases ih h with h | h
        · exact .inl h
        · exact .inr (by simp [h])

theorem Memory.wf_write {m : Memory} (w : Window) (i : Nat) (b : Byte) (hm : m.wf = true) : (m.write w i b).wf = true := by
  rw [Memory.write]
  split_ifs with h
  · have hw := (Memory.wf_iff m).1 hm w
    refine Memory.wf_setWindow hm (Ram.risingFrom_write i b hw.1 (Nat.zero_le _)) fun c hc => ?_
    rcases Ram.fst_mem_write hc with hc | hc
    · omega
    · exact hw.2 c hc
  · exact hm

theorem Memory.wf_writeList {m : Memory} (w : Window) (i : Nat) (vals : List Byte) (hm : m.wf = true) :
    (m.writeList w i vals).wf = true := by
  have hw := (Memory.wf_iff m).1 hm w
  refine Memory.wf_setWindow hm (Ram.risingFrom_writeList _ _ hw.1) fun c hc => ?_
  simp only [Ram.writeList, List.mem_append, List.mem_filter] at hc
  rcases hc with (hc | hc) | hc
  · exact hw.2 c hc.1
  · by_cases hi : i ≤ w.size
    · have := Ram.lt_of_mem_cellsFrom hc
      simp only [List.length_take] at this
      omega
    · rw [show w.size - i = 0 by omega] at hc
      simp [Ram.cellsFrom] at hc
  · exact hw.2 c hc.1

theorem Memory.wf_empty : Memory.empty.wf = true := rfl

@[simp] theorem Memory.read?_empty (w : Window) (i : Nat) : Memory.empty.read? w i = none := by
  cases w <;> simp [Memory.read?, Memory.window, Memory.empty]

/-- A write sets the element it names, if the window has it, and leaves every other element of memory alone. -/
theorem Memory.read?_write (m : Memory) (w : Window) (i : Nat) (b : Byte) (w' : Window) (k : Nat) :
    (m.write w i b).read? w' k = if w' = w ∧ k = i ∧ i < w.size then some b else m.read? w' k := by
  simp only [Memory.write, Memory.read?]
  by_cases h : i < w.size
  · simp only [h, if_true, Memory.window_setWindow]
    by_cases hw : w' = w
    · subst hw
      simp only [if_true, Ram.read?_write]
      by_cases hk : k = i
      · subst hk; simp [h]
      · simp [hk]
    · simp [hw]
  · simp [h]

/-- A list write sets the elements it covers inside its window and leaves every other element of memory alone. -/
theorem Memory.read?_writeList (m : Memory) (w : Window) (i : Nat) (vals : List Byte) (w' : Window) (k : Nat) :
    (m.writeList w i vals).read? w' k =
      if w' = w ∧ i ≤ k ∧ k < i + vals.length ∧ k < w.size then vals[k - i]? else m.read? w' k := by
  simp only [Memory.writeList, Memory.read?, Memory.window_setWindow]
  by_cases hw : w' = w
  · subst hw
    simp only [if_true, Ram.read?_writeList, List.length_take, true_and]
    by_cases hk : k < w'.size
    · by_cases hin : i ≤ k ∧ k < i + vals.length
      · have h₁ : k - i < w'.size - i := by omega
        simp [hk, hin, show i ≤ k ∧ k < i + min (w'.size - i) vals.length by omega, h₁]
      · simp only [hk, if_true, and_true, if_neg hin]
        rw [if_neg (by omega)]
    · simp [hk]
  · simp [hw]

/-! ### Command reads -/

theorem Memory.readElem_eq (m : Memory) (w : Window) (i : Nat) :
    m.readElem w i = match m.read? w i with
      | some b => .ok b
      | none => .error ⟨w, i⟩ := rfl

theorem firstMissing_eq_none {i : Nat} {vs : List (Option Byte)} :
    firstMissing i vs = none ↔ ∀ v ∈ vs, v.isSome := by
  induction vs generalizing i with
  | nil => simp [firstMissing]
  | cons v vs ih => cases v <;> simp [firstMissing, ih]

theorem firstMissing_eq_some {i k : Nat} {vs : List (Option Byte)} (h : firstMissing i vs = some k) :
    i ≤ k ∧ k < i + vs.length ∧ vs[k - i]? = some none := by
  induction vs generalizing i with
  | nil => simp [firstMissing] at h
  | cons v vs ih =>
    cases v with
    | none => simp only [firstMissing, Option.some.injEq] at h; subst h; simp
    | some b =>
      obtain ⟨h₁, h₂, h₃⟩ := ih h
      have : k - i = (k - (i + 1)) + 1 := by omega
      simp only [List.length_cons, this, List.getElem?_cons_succ, h₃, and_true]
      omega

/-- A list read answers exactly when every element of the range is written, and then with their values. -/
theorem Memory.readList_eq_ok {m : Memory} (hm : m.wf = true) {w : Window} {i n : Nat} (hn : i + n ≤ w.size)
    {vals : List Byte} :
    m.readList w i n = .ok vals ↔ vals.length = n ∧ ∀ k < n, m.read? w (i + k) = vals[k]? := by
  have hview := Ram.view_eq ((Memory.wf_iff m).1 hm w).1 i n
  have hread : ∀ k < n, m.read? w (i + k) = (m.window w).read? (i + k) := fun k hk => by
    rw [Memory.read?, if_pos (by omega)]
  have key : ∀ (vs : List (Option Byte)) (bs : List Byte), (∀ v ∈ vs, v.isSome) →
      (vs.filterMap id = bs ↔ vs = bs.map some) := by
    intro vs
    induction vs with
    | nil => intro bs _; cases bs <;> simp
    | cons v vs ih =>
      intro bs hv
      obtain ⟨b, rfl⟩ := Option.isSome_iff_exists.1 (hv v (by simp))
      cases bs with
      | nil => simp
      | cons c cs => simp [← ih cs fun v h => hv v (by simp [h])]
  simp only [Memory.readList, hview]
  constructor
  · intro h
    split at h
    · exact absurd h (by simp)
    · next hf =>
      rw [firstMissing_eq_none] at hf
      have := (key _ vals hf).1 (by simpa using h)
      have hlen : vals.length = n := by simpa using (congrArg List.length this).symm
      refine ⟨hlen, fun k hk => ?_⟩
      have hk' := congrArg (fun l => l[k]?) this
      simp only [List.getElem?_map, List.getElem?_range' hk, Option.map_some] at hk'
      rw [hread k hk]
      simp only [Nat.one_mul] at hk'
      rw [List.getElem?_eq_getElem (by omega)] at hk' ⊢
      simpa using hk'
  · rintro ⟨hlen, h⟩
    have hmap : (List.range' i n).map (m.window w).read? = vals.map some := by
      refine List.ext_getElem? fun k => ?_
      by_cases hk : k < n
      · simp only [List.getElem?_map, List.getElem?_range' hk, Option.map_some, Nat.one_mul]
        rw [← hread k hk, h k hk, List.getElem?_eq_getElem (by omega)]
        simp
      · rw [List.getElem?_eq_none (by simp; omega), List.getElem?_eq_none (by simp; omega)]
    have hsome : ∀ v ∈ (List.range' i n).map (m.window w).read?, v.isSome := by
      rw [hmap]; simp
    rw [firstMissing_eq_none.2 hsome]
    simpa using (key _ vals hsome).2 hmap

/-- A list read of written elements answers. -/
theorem Memory.readList_ok {m : Memory} (hm : m.wf = true) {w : Window} {i n : Nat} (hn : i + n ≤ w.size)
    (h : ∀ k < n, (m.read? w (i + k)).isSome) : ∃ vals, m.readList w i n = .ok vals := by
  refine ⟨(List.range n).map fun k => (m.read? w (i + k)).getD 0#8, (Memory.readList_eq_ok hm hn).2 ⟨by simp, ?_⟩⟩
  intro k hk
  obtain ⟨b, hb⟩ := Option.isSome_iff_exists.1 (h k hk)
  simp [hk, hb]

/-- The fault of a list read names an element of its range that has not been written. -/
theorem Memory.readList_eq_error {m : Memory} (hm : m.wf = true) {w : Window} {i n : Nat} {u : Unwritten}
    (h : m.readList w i n = .error u) :
    ∃ k, i ≤ k ∧ k < i + n ∧ u = ⟨w, k⟩ ∧ m.read? w k = none := by
  simp only [Memory.readList] at h
  split at h
  · next k hk =>
    obtain ⟨h₁, h₂, h₃⟩ := firstMissing_eq_some hk
    rw [Ram.view_length] at h₂
    refine ⟨k, h₁, h₂, by simpa using h.symm, ?_⟩
    rw [Ram.view_eq ((Memory.wf_iff m).1 hm w).1, List.getElem?_map, List.getElem?_range' (by omega)] at h₃
    simp only [Nat.one_mul, Option.map_some, Option.some.injEq, show i + (k - i) = k by omega] at h₃
    simp [Memory.read?, h₃]
  · exact absurd h (by simp)

/-- Reads at listed indices answer exactly when every one is written, and then with their values. -/
theorem Memory.readAt_eq_ok {m : Memory} {w : Window} {is : List Nat} {vals : List Byte} :
    m.readAt w is = .ok vals ↔ is.map (m.read? w) = vals.map some := by
  simp only [Memory.readAt]
  split
  · next i hi =>
    simp only [reduceCtorEq, false_iff]
    intro h
    have hmem := List.mem_of_find?_eq_some hi
    have hnone := List.find?_some hi
    have : m.read? w i ∈ vals.map some := by rw [← h]; exact List.mem_map_of_mem hmem
    obtain ⟨b, _, hb⟩ := List.mem_map.1 this
    rw [← hb] at hnone
    simp at hnone
  · next hf =>
    simp only [Except.ok.injEq]
    have hsome : ∀ i ∈ is, (m.read? w i).isSome := by
      intro i hi
      have := List.find?_eq_none.1 hf i hi
      simpa [Option.isSome_iff_ne_none] using this
    clear hf
    induction is generalizing vals with
    | nil => cases vals <;> simp
    | cons i is ih =>
      obtain ⟨b, hb⟩ := Option.isSome_iff_exists.1 (hsome i (by simp))
      cases vals with
      | nil => simp [hb]
      | cons c cs => simp [hb, ih (vals := cs) fun j hj => hsome j (by simp [hj])]

/-- The fault of reads at listed indices names one of them that has not been written. -/
theorem Memory.readAt_eq_error {m : Memory} {w : Window} {is : List Nat} {u : Unwritten} (h : m.readAt w is = .error u) :
    ∃ i ∈ is, u = ⟨w, i⟩ ∧ m.read? w i = none := by
  simp only [Memory.readAt] at h
  split at h
  · next i hi =>
    refine ⟨i, List.mem_of_find?_eq_some hi, by simpa using h.symm, ?_⟩
    simpa using List.find?_some hi
  · exact absurd h (by simp)

end Sys2Proof.Machine
end

