-- ==== Sys2Proof/Laws/State.lean ====
section
/-! SUPPORT. One lemma per field per named update of `State` and of `Status`, each true by `rfl`: no later proof unfolds a
record update. -/

-- One theorem at a time: each proof in flight holds a thread's whole stack.
set_option Elab.async false

namespace Sys2Proof.Machine

/-! ### The flags -/

@[simp] theorem Status.invWm_err (t : Status) : t.invWm.err = t.err := rfl
@[simp] theorem Status.invWm_selV (t : Status) : t.invWm.selV = t.selV := rfl
@[simp] theorem Status.invWm_bsV (t : Status) : t.invWm.bsV = t.bsV := rfl
@[simp] theorem Status.invWm_genV (t : Status) : t.invWm.genV = t.genV := rfl
@[simp] theorem Status.invWm_ecV (t : Status) : t.invWm.ecV = t.ecV := rfl
@[simp] theorem Status.invWm_ilvV (t : Status) : t.invWm.ilvV = t.ilvV := rfl
@[simp] theorem Status.invWm_matV (t : Status) : t.invWm.matV = t.matV := rfl
@[simp] theorem Status.invWm_zzV (t : Status) : t.invWm.zzV = t.zzV := rfl
@[simp] theorem Status.invWm_zzDone (t : Status) : t.invWm.zzDone = t.zzDone := rfl
@[simp] theorem Status.invWm_wmV (t : Status) : t.invWm.wmV = false := rfl
@[simp] theorem Status.invWm_scV (t : Status) : t.invWm.scV = false := rfl
@[simp] theorem Status.invWm_bestV (t : Status) : t.invWm.bestV = false := rfl
@[simp] theorem Status.invWm_penv (t : Status) : t.invWm.penv = 0#8 := rfl

@[simp] theorem Status.invMat_err (t : Status) : t.invMat.err = t.err := rfl
@[simp] theorem Status.invMat_selV (t : Status) : t.invMat.selV = t.selV := rfl
@[simp] theorem Status.invMat_bsV (t : Status) : t.invMat.bsV = t.bsV := rfl
@[simp] theorem Status.invMat_genV (t : Status) : t.invMat.genV = t.genV := rfl
@[simp] theorem Status.invMat_ecV (t : Status) : t.invMat.ecV = t.ecV := rfl
@[simp] theorem Status.invMat_ilvV (t : Status) : t.invMat.ilvV = t.ilvV := rfl
@[simp] theorem Status.invMat_matV (t : Status) : t.invMat.matV = false := rfl
@[simp] theorem Status.invMat_zzV (t : Status) : t.invMat.zzV = false := rfl
@[simp] theorem Status.invMat_zzDone (t : Status) : t.invMat.zzDone = false := rfl
@[simp] theorem Status.invMat_wmV (t : Status) : t.invMat.wmV = false := rfl
@[simp] theorem Status.invMat_scV (t : Status) : t.invMat.scV = false := rfl
@[simp] theorem Status.invMat_bestV (t : Status) : t.invMat.bestV = false := rfl
@[simp] theorem Status.invMat_penv (t : Status) : t.invMat.penv = 0#8 := rfl

@[simp] theorem Status.invIlv_err (t : Status) : t.invIlv.err = t.err := rfl
@[simp] theorem Status.invIlv_selV (t : Status) : t.invIlv.selV = t.selV := rfl
@[simp] theorem Status.invIlv_bsV (t : Status) : t.invIlv.bsV = t.bsV := rfl
@[simp] theorem Status.invIlv_genV (t : Status) : t.invIlv.genV = t.genV := rfl
@[simp] theorem Status.invIlv_ecV (t : Status) : t.invIlv.ecV = t.ecV := rfl
@[simp] theorem Status.invIlv_ilvV (t : Status) : t.invIlv.ilvV = false := rfl
@[simp] theorem Status.invIlv_matV (t : Status) : t.invIlv.matV = t.matV := rfl
@[simp] theorem Status.invIlv_zzV (t : Status) : t.invIlv.zzV = t.zzV := rfl
@[simp] theorem Status.invIlv_zzDone (t : Status) : t.invIlv.zzDone = t.zzDone := rfl
@[simp] theorem Status.invIlv_wmV (t : Status) : t.invIlv.wmV = false := rfl
@[simp] theorem Status.invIlv_scV (t : Status) : t.invIlv.scV = false := rfl
@[simp] theorem Status.invIlv_bestV (t : Status) : t.invIlv.bestV = false := rfl
@[simp] theorem Status.invIlv_penv (t : Status) : t.invIlv.penv = 0#8 := rfl

@[simp] theorem Status.invEc_err (t : Status) : t.invEc.err = t.err := rfl
@[simp] theorem Status.invEc_selV (t : Status) : t.invEc.selV = t.selV := rfl
@[simp] theorem Status.invEc_bsV (t : Status) : t.invEc.bsV = t.bsV := rfl
@[simp] theorem Status.invEc_genV (t : Status) : t.invEc.genV = t.genV := rfl
@[simp] theorem Status.invEc_ecV (t : Status) : t.invEc.ecV = false := rfl
@[simp] theorem Status.invEc_ilvV (t : Status) : t.invEc.ilvV = false := rfl
@[simp] theorem Status.invEc_matV (t : Status) : t.invEc.matV = t.matV := rfl
@[simp] theorem Status.invEc_zzV (t : Status) : t.invEc.zzV = t.zzV := rfl
@[simp] theorem Status.invEc_zzDone (t : Status) : t.invEc.zzDone = t.zzDone := rfl
@[simp] theorem Status.invEc_wmV (t : Status) : t.invEc.wmV = false := rfl
@[simp] theorem Status.invEc_scV (t : Status) : t.invEc.scV = false := rfl
@[simp] theorem Status.invEc_bestV (t : Status) : t.invEc.bestV = false := rfl
@[simp] theorem Status.invEc_penv (t : Status) : t.invEc.penv = 0#8 := rfl

@[simp] theorem Status.invBs_err (t : Status) : t.invBs.err = t.err := rfl
@[simp] theorem Status.invBs_selV (t : Status) : t.invBs.selV = t.selV := rfl
@[simp] theorem Status.invBs_bsV (t : Status) : t.invBs.bsV = false := rfl
@[simp] theorem Status.invBs_genV (t : Status) : t.invBs.genV = t.genV := rfl
@[simp] theorem Status.invBs_ecV (t : Status) : t.invBs.ecV = false := rfl
@[simp] theorem Status.invBs_ilvV (t : Status) : t.invBs.ilvV = false := rfl
@[simp] theorem Status.invBs_matV (t : Status) : t.invBs.matV = t.matV := rfl
@[simp] theorem Status.invBs_zzV (t : Status) : t.invBs.zzV = t.zzV := rfl
@[simp] theorem Status.invBs_zzDone (t : Status) : t.invBs.zzDone = t.zzDone := rfl
@[simp] theorem Status.invBs_wmV (t : Status) : t.invBs.wmV = false := rfl
@[simp] theorem Status.invBs_scV (t : Status) : t.invBs.scV = false := rfl
@[simp] theorem Status.invBs_bestV (t : Status) : t.invBs.bestV = false := rfl
@[simp] theorem Status.invBs_penv (t : Status) : t.invBs.penv = 0#8 := rfl

@[simp] theorem Status.invSel_err (t : Status) : t.invSel.err = t.err := rfl
@[simp] theorem Status.invSel_selV (t : Status) : t.invSel.selV = false := rfl
@[simp] theorem Status.invSel_bsV (t : Status) : t.invSel.bsV = false := rfl
@[simp] theorem Status.invSel_genV (t : Status) : t.invSel.genV = t.genV := rfl
@[simp] theorem Status.invSel_ecV (t : Status) : t.invSel.ecV = false := rfl
@[simp] theorem Status.invSel_ilvV (t : Status) : t.invSel.ilvV = false := rfl
@[simp] theorem Status.invSel_matV (t : Status) : t.invSel.matV = false := rfl
@[simp] theorem Status.invSel_zzV (t : Status) : t.invSel.zzV = false := rfl
@[simp] theorem Status.invSel_zzDone (t : Status) : t.invSel.zzDone = false := rfl
@[simp] theorem Status.invSel_wmV (t : Status) : t.invSel.wmV = false := rfl
@[simp] theorem Status.invSel_scV (t : Status) : t.invSel.scV = false := rfl
@[simp] theorem Status.invSel_bestV (t : Status) : t.invSel.bestV = false := rfl
@[simp] theorem Status.invSel_penv (t : Status) : t.invSel.penv = 0#8 := rfl

@[simp] theorem Status.setSel_err (t : Status) : t.setSel.err = t.err := rfl
@[simp] theorem Status.setSel_selV (t : Status) : t.setSel.selV = true := rfl
@[simp] theorem Status.setSel_bsV (t : Status) : t.setSel.bsV = t.bsV := rfl
@[simp] theorem Status.setSel_genV (t : Status) : t.setSel.genV = t.genV := rfl
@[simp] theorem Status.setSel_ecV (t : Status) : t.setSel.ecV = t.ecV := rfl
@[simp] theorem Status.setSel_ilvV (t : Status) : t.setSel.ilvV = t.ilvV := rfl
@[simp] theorem Status.setSel_matV (t : Status) : t.setSel.matV = t.matV := rfl
@[simp] theorem Status.setSel_zzV (t : Status) : t.setSel.zzV = t.zzV := rfl
@[simp] theorem Status.setSel_zzDone (t : Status) : t.setSel.zzDone = t.zzDone := rfl
@[simp] theorem Status.setSel_wmV (t : Status) : t.setSel.wmV = t.wmV := rfl
@[simp] theorem Status.setSel_scV (t : Status) : t.setSel.scV = t.scV := rfl
@[simp] theorem Status.setSel_bestV (t : Status) : t.setSel.bestV = t.bestV := rfl
@[simp] theorem Status.setSel_penv (t : Status) : t.setSel.penv = t.penv := rfl

@[simp] theorem Status.setBs_err (t : Status) : t.setBs.err = t.err := rfl
@[simp] theorem Status.setBs_selV (t : Status) : t.setBs.selV = t.selV := rfl
@[simp] theorem Status.setBs_bsV (t : Status) : t.setBs.bsV = true := rfl
@[simp] theorem Status.setBs_genV (t : Status) : t.setBs.genV = t.genV := rfl
@[simp] theorem Status.setBs_ecV (t : Status) : t.setBs.ecV = t.ecV := rfl
@[simp] theorem Status.setBs_ilvV (t : Status) : t.setBs.ilvV = t.ilvV := rfl
@[simp] theorem Status.setBs_matV (t : Status) : t.setBs.matV = t.matV := rfl
@[simp] theorem Status.setBs_zzV (t : Status) : t.setBs.zzV = t.zzV := rfl
@[simp] theorem Status.setBs_zzDone (t : Status) : t.setBs.zzDone = t.zzDone := rfl
@[simp] theorem Status.setBs_wmV (t : Status) : t.setBs.wmV = t.wmV := rfl
@[simp] theorem Status.setBs_scV (t : Status) : t.setBs.scV = t.scV := rfl
@[simp] theorem Status.setBs_bestV (t : Status) : t.setBs.bestV = t.bestV := rfl
@[simp] theorem Status.setBs_penv (t : Status) : t.setBs.penv = t.penv := rfl

@[simp] theorem Status.setGen_err (t : Status) : t.setGen.err = t.err := rfl
@[simp] theorem Status.setGen_selV (t : Status) : t.setGen.selV = t.selV := rfl
@[simp] theorem Status.setGen_bsV (t : Status) : t.setGen.bsV = t.bsV := rfl
@[simp] theorem Status.setGen_genV (t : Status) : t.setGen.genV = true := rfl
@[simp] theorem Status.setGen_ecV (t : Status) : t.setGen.ecV = t.ecV := rfl
@[simp] theorem Status.setGen_ilvV (t : Status) : t.setGen.ilvV = t.ilvV := rfl
@[simp] theorem Status.setGen_matV (t : Status) : t.setGen.matV = t.matV := rfl
@[simp] theorem Status.setGen_zzV (t : Status) : t.setGen.zzV = t.zzV := rfl
@[simp] theorem Status.setGen_zzDone (t : Status) : t.setGen.zzDone = t.zzDone := rfl
@[simp] theorem Status.setGen_wmV (t : Status) : t.setGen.wmV = t.wmV := rfl
@[simp] theorem Status.setGen_scV (t : Status) : t.setGen.scV = t.scV := rfl
@[simp] theorem Status.setGen_bestV (t : Status) : t.setGen.bestV = t.bestV := rfl
@[simp] theorem Status.setGen_penv (t : Status) : t.setGen.penv = t.penv := rfl

@[simp] theorem Status.setEc_err (t : Status) : t.setEc.err = t.err := rfl
@[simp] theorem Status.setEc_selV (t : Status) : t.setEc.selV = t.selV := rfl
@[simp] theorem Status.setEc_bsV (t : Status) : t.setEc.bsV = t.bsV := rfl
@[simp] theorem Status.setEc_genV (t : Status) : t.setEc.genV = t.genV := rfl
@[simp] theorem Status.setEc_ecV (t : Status) : t.setEc.ecV = true := rfl
@[simp] theorem Status.setEc_ilvV (t : Status) : t.setEc.ilvV = t.ilvV := rfl
@[simp] theorem Status.setEc_matV (t : Status) : t.setEc.matV = t.matV := rfl
@[simp] theorem Status.setEc_zzV (t : Status) : t.setEc.zzV = t.zzV := rfl
@[simp] theorem Status.setEc_zzDone (t : Status) : t.setEc.zzDone = t.zzDone := rfl
@[simp] theorem Status.setEc_wmV (t : Status) : t.setEc.wmV = t.wmV := rfl
@[simp] theorem Status.setEc_scV (t : Status) : t.setEc.scV = t.scV := rfl
@[simp] theorem Status.setEc_bestV (t : Status) : t.setEc.bestV = t.bestV := rfl
@[simp] theorem Status.setEc_penv (t : Status) : t.setEc.penv = t.penv := rfl

@[simp] theorem Status.setIlv_err (t : Status) : t.setIlv.err = t.err := rfl
@[simp] theorem Status.setIlv_selV (t : Status) : t.setIlv.selV = t.selV := rfl
@[simp] theorem Status.setIlv_bsV (t : Status) : t.setIlv.bsV = t.bsV := rfl
@[simp] theorem Status.setIlv_genV (t : Status) : t.setIlv.genV = t.genV := rfl
@[simp] theorem Status.setIlv_ecV (t : Status) : t.setIlv.ecV = t.ecV := rfl
@[simp] theorem Status.setIlv_ilvV (t : Status) : t.setIlv.ilvV = true := rfl
@[simp] theorem Status.setIlv_matV (t : Status) : t.setIlv.matV = t.matV := rfl
@[simp] theorem Status.setIlv_zzV (t : Status) : t.setIlv.zzV = t.zzV := rfl
@[simp] theorem Status.setIlv_zzDone (t : Status) : t.setIlv.zzDone = t.zzDone := rfl
@[simp] theorem Status.setIlv_wmV (t : Status) : t.setIlv.wmV = t.wmV := rfl
@[simp] theorem Status.setIlv_scV (t : Status) : t.setIlv.scV = t.scV := rfl
@[simp] theorem Status.setIlv_bestV (t : Status) : t.setIlv.bestV = t.bestV := rfl
@[simp] theorem Status.setIlv_penv (t : Status) : t.setIlv.penv = t.penv := rfl

@[simp] theorem Status.setMat_err (t : Status) : t.setMat.err = t.err := rfl
@[simp] theorem Status.setMat_selV (t : Status) : t.setMat.selV = t.selV := rfl
@[simp] theorem Status.setMat_bsV (t : Status) : t.setMat.bsV = t.bsV := rfl
@[simp] theorem Status.setMat_genV (t : Status) : t.setMat.genV = t.genV := rfl
@[simp] theorem Status.setMat_ecV (t : Status) : t.setMat.ecV = t.ecV := rfl
@[simp] theorem Status.setMat_ilvV (t : Status) : t.setMat.ilvV = t.ilvV := rfl
@[simp] theorem Status.setMat_matV (t : Status) : t.setMat.matV = true := rfl
@[simp] theorem Status.setMat_zzV (t : Status) : t.setMat.zzV = t.zzV := rfl
@[simp] theorem Status.setMat_zzDone (t : Status) : t.setMat.zzDone = t.zzDone := rfl
@[simp] theorem Status.setMat_wmV (t : Status) : t.setMat.wmV = t.wmV := rfl
@[simp] theorem Status.setMat_scV (t : Status) : t.setMat.scV = t.scV := rfl
@[simp] theorem Status.setMat_bestV (t : Status) : t.setMat.bestV = t.bestV := rfl
@[simp] theorem Status.setMat_penv (t : Status) : t.setMat.penv = t.penv := rfl

@[simp] theorem Status.setZz_err (t : Status) : t.setZz.err = t.err := rfl
@[simp] theorem Status.setZz_selV (t : Status) : t.setZz.selV = t.selV := rfl
@[simp] theorem Status.setZz_bsV (t : Status) : t.setZz.bsV = t.bsV := rfl
@[simp] theorem Status.setZz_genV (t : Status) : t.setZz.genV = t.genV := rfl
@[simp] theorem Status.setZz_ecV (t : Status) : t.setZz.ecV = t.ecV := rfl
@[simp] theorem Status.setZz_ilvV (t : Status) : t.setZz.ilvV = t.ilvV := rfl
@[simp] theorem Status.setZz_matV (t : Status) : t.setZz.matV = t.matV := rfl
@[simp] theorem Status.setZz_zzV (t : Status) : t.setZz.zzV = true := rfl
@[simp] theorem Status.setZz_zzDone (t : Status) : t.setZz.zzDone = false := rfl
@[simp] theorem Status.setZz_wmV (t : Status) : t.setZz.wmV = t.wmV := rfl
@[simp] theorem Status.setZz_scV (t : Status) : t.setZz.scV = t.scV := rfl
@[simp] theorem Status.setZz_bestV (t : Status) : t.setZz.bestV = t.bestV := rfl
@[simp] theorem Status.setZz_penv (t : Status) : t.setZz.penv = t.penv := rfl

@[simp] theorem Status.setZzDone_err (t : Status) : t.setZzDone.err = t.err := rfl
@[simp] theorem Status.setZzDone_selV (t : Status) : t.setZzDone.selV = t.selV := rfl
@[simp] theorem Status.setZzDone_bsV (t : Status) : t.setZzDone.bsV = t.bsV := rfl
@[simp] theorem Status.setZzDone_genV (t : Status) : t.setZzDone.genV = t.genV := rfl
@[simp] theorem Status.setZzDone_ecV (t : Status) : t.setZzDone.ecV = t.ecV := rfl
@[simp] theorem Status.setZzDone_ilvV (t : Status) : t.setZzDone.ilvV = t.ilvV := rfl
@[simp] theorem Status.setZzDone_matV (t : Status) : t.setZzDone.matV = t.matV := rfl
@[simp] theorem Status.setZzDone_zzV (t : Status) : t.setZzDone.zzV = t.zzV := rfl
@[simp] theorem Status.setZzDone_zzDone (t : Status) : t.setZzDone.zzDone = true := rfl
@[simp] theorem Status.setZzDone_wmV (t : Status) : t.setZzDone.wmV = t.wmV := rfl
@[simp] theorem Status.setZzDone_scV (t : Status) : t.setZzDone.scV = t.scV := rfl
@[simp] theorem Status.setZzDone_bestV (t : Status) : t.setZzDone.bestV = t.bestV := rfl
@[simp] theorem Status.setZzDone_penv (t : Status) : t.setZzDone.penv = t.penv := rfl

@[simp] theorem Status.setPlaced_err (t : Status) : t.setPlaced.err = t.err := rfl
@[simp] theorem Status.setPlaced_selV (t : Status) : t.setPlaced.selV = t.selV := rfl
@[simp] theorem Status.setPlaced_bsV (t : Status) : t.setPlaced.bsV = t.bsV := rfl
@[simp] theorem Status.setPlaced_genV (t : Status) : t.setPlaced.genV = t.genV := rfl
@[simp] theorem Status.setPlaced_ecV (t : Status) : t.setPlaced.ecV = t.ecV := rfl
@[simp] theorem Status.setPlaced_ilvV (t : Status) : t.setPlaced.ilvV = t.ilvV := rfl
@[simp] theorem Status.setPlaced_matV (t : Status) : t.setPlaced.matV = t.matV := rfl
@[simp] theorem Status.setPlaced_zzV (t : Status) : t.setPlaced.zzV = t.zzV := rfl
@[simp] theorem Status.setPlaced_zzDone (t : Status) : t.setPlaced.zzDone = t.zzDone := rfl
@[simp] theorem Status.setPlaced_wmV (t : Status) : t.setPlaced.wmV = true := rfl
@[simp] theorem Status.setPlaced_scV (t : Status) : t.setPlaced.scV = false := rfl
@[simp] theorem Status.setPlaced_bestV (t : Status) : t.setPlaced.bestV = t.bestV := rfl
@[simp] theorem Status.setPlaced_penv (t : Status) : t.setPlaced.penv = t.penv := rfl

@[simp] theorem Status.setScored_err (t : Status) (m : BitVec 3) : (t.setScored m).err = t.err := rfl
@[simp] theorem Status.setScored_selV (t : Status) (m : BitVec 3) : (t.setScored m).selV = t.selV := rfl
@[simp] theorem Status.setScored_bsV (t : Status) (m : BitVec 3) : (t.setScored m).bsV = t.bsV := rfl
@[simp] theorem Status.setScored_genV (t : Status) (m : BitVec 3) : (t.setScored m).genV = t.genV := rfl
@[simp] theorem Status.setScored_ecV (t : Status) (m : BitVec 3) : (t.setScored m).ecV = t.ecV := rfl
@[simp] theorem Status.setScored_ilvV (t : Status) (m : BitVec 3) : (t.setScored m).ilvV = t.ilvV := rfl
@[simp] theorem Status.setScored_matV (t : Status) (m : BitVec 3) : (t.setScored m).matV = t.matV := rfl
@[simp] theorem Status.setScored_zzV (t : Status) (m : BitVec 3) : (t.setScored m).zzV = t.zzV := rfl
@[simp] theorem Status.setScored_zzDone (t : Status) (m : BitVec 3) : (t.setScored m).zzDone = t.zzDone := rfl
@[simp] theorem Status.setScored_wmV (t : Status) (m : BitVec 3) : (t.setScored m).wmV = t.wmV := rfl
@[simp] theorem Status.setScored_scV (t : Status) (m : BitVec 3) : (t.setScored m).scV = true := rfl
@[simp] theorem Status.setScored_bestV (t : Status) (m : BitVec 3) : (t.setScored m).bestV = t.bestV := rfl
@[simp] theorem Status.setScored_penv (t : Status) (m : BitVec 3) : (t.setScored m).penv = t.penv ||| (1#8 <<< m.toNat) := rfl

@[simp] theorem Status.setBest_err (t : Status) : t.setBest.err = t.err := rfl
@[simp] theorem Status.setBest_selV (t : Status) : t.setBest.selV = t.selV := rfl
@[simp] theorem Status.setBest_bsV (t : Status) : t.setBest.bsV = t.bsV := rfl
@[simp] theorem Status.setBest_genV (t : Status) : t.setBest.genV = t.genV := rfl
@[simp] theorem Status.setBest_ecV (t : Status) : t.setBest.ecV = t.ecV := rfl
@[simp] theorem Status.setBest_ilvV (t : Status) : t.setBest.ilvV = t.ilvV := rfl
@[simp] theorem Status.setBest_matV (t : Status) : t.setBest.matV = t.matV := rfl
@[simp] theorem Status.setBest_zzV (t : Status) : t.setBest.zzV = t.zzV := rfl
@[simp] theorem Status.setBest_zzDone (t : Status) : t.setBest.zzDone = t.zzDone := rfl
@[simp] theorem Status.setBest_wmV (t : Status) : t.setBest.wmV = t.wmV := rfl
@[simp] theorem Status.setBest_scV (t : Status) : t.setBest.scV = t.scV := rfl
@[simp] theorem Status.setBest_bestV (t : Status) : t.setBest.bestV = true := rfl
@[simp] theorem Status.setBest_penv (t : Status) : t.setBest.penv = t.penv := rfl

@[simp] theorem Status.setErr_err (t : Status) (c : BitVec 4) : (t.setErr c).err = c := rfl
@[simp] theorem Status.setErr_selV (t : Status) (c : BitVec 4) : (t.setErr c).selV = t.selV := rfl
@[simp] theorem Status.setErr_bsV (t : Status) (c : BitVec 4) : (t.setErr c).bsV = t.bsV := rfl
@[simp] theorem Status.setErr_genV (t : Status) (c : BitVec 4) : (t.setErr c).genV = t.genV := rfl
@[simp] theorem Status.setErr_ecV (t : Status) (c : BitVec 4) : (t.setErr c).ecV = t.ecV := rfl
@[simp] theorem Status.setErr_ilvV (t : Status) (c : BitVec 4) : (t.setErr c).ilvV = t.ilvV := rfl
@[simp] theorem Status.setErr_matV (t : Status) (c : BitVec 4) : (t.setErr c).matV = t.matV := rfl
@[simp] theorem Status.setErr_zzV (t : Status) (c : BitVec 4) : (t.setErr c).zzV = t.zzV := rfl
@[simp] theorem Status.setErr_zzDone (t : Status) (c : BitVec 4) : (t.setErr c).zzDone = t.zzDone := rfl
@[simp] theorem Status.setErr_wmV (t : Status) (c : BitVec 4) : (t.setErr c).wmV = t.wmV := rfl
@[simp] theorem Status.setErr_scV (t : Status) (c : BitVec 4) : (t.setErr c).scV = t.scV := rfl
@[simp] theorem Status.setErr_bestV (t : Status) (c : BitVec 4) : (t.setErr c).bestV = t.bestV := rfl
@[simp] theorem Status.setErr_penv (t : Status) (c : BitVec 4) : (t.setErr c).penv = t.penv := rfl

/-! ### The state -/

@[simp] theorem State.setStatus_lastcmd (s : State) (t : Status) : (s.setStatus t).lastcmd = s.lastcmd := rfl
@[simp] theorem State.setStatus_status (s : State) (t : Status) : (s.setStatus t).status = t := rfl
@[simp] theorem State.setStatus_ecl (s : State) (t : Status) : (s.setStatus t).ecl = s.ecl := rfl
@[simp] theorem State.setStatus_len (s : State) (t : Status) : (s.setStatus t).len = s.len := rfl
@[simp] theorem State.setStatus_entry (s : State) (t : Status) : (s.setStatus t).entry = s.entry := rfl
@[simp] theorem State.setStatus_cur (s : State) (t : Status) : (s.setStatus t).cur = s.cur := rfl
@[simp] theorem State.setStatus_gfP (s : State) (t : Status) : (s.setStatus t).gfP = s.gfP := rfl
@[simp] theorem State.setStatus_genLen (s : State) (t : Status) : (s.setStatus t).genLen = s.genLen := rfl
@[simp] theorem State.setStatus_zzRow (s : State) (t : Status) : (s.setStatus t).zzRow = s.zzRow := rfl
@[simp] theorem State.setStatus_zzCol (s : State) (t : Status) : (s.setStatus t).zzCol = s.zzCol := rfl
@[simp] theorem State.setStatus_zzIdx (s : State) (t : Status) : (s.setStatus t).zzIdx = s.zzIdx := rfl
@[simp] theorem State.setStatus_wmMask (s : State) (t : Status) : (s.setStatus t).wmMask = s.wmMask := rfl
@[simp] theorem State.setStatus_fmtWord (s : State) (t : Status) : (s.setStatus t).fmtWord = s.fmtWord := rfl
@[simp] theorem State.setStatus_viWord (s : State) (t : Status) : (s.setStatus t).viWord = s.viWord := rfl
@[simp] theorem State.setStatus_score (s : State) (t : Status) : (s.setStatus t).score = s.score := rfl
@[simp] theorem State.setStatus_bestId (s : State) (t : Status) : (s.setStatus t).bestId = s.bestId := rfl
@[simp] theorem State.setStatus_bestPen (s : State) (t : Status) : (s.setStatus t).bestPen = s.bestPen := rfl
@[simp] theorem State.setStatus_pen (s : State) (t : Status) : (s.setStatus t).pen = s.pen := rfl
@[simp] theorem State.setStatus_mem (s : State) (t : Status) : (s.setStatus t).mem = s.mem := rfl
@[simp] theorem State.setStatus_faultLog (s : State) (t : Status) : (s.setStatus t).faultLog = s.faultLog := rfl
@[simp] theorem State.setStatus_inbox (s : State) (t : Status) : (s.setStatus t).inbox = s.inbox := rfl
@[simp] theorem State.setStatus_response (s : State) (t : Status) : (s.setStatus t).response = s.response := rfl
@[simp] theorem State.setStatus_draws (s : State) (t : Status) : (s.setStatus t).draws = s.draws := rfl

@[simp] theorem State.setEcl_lastcmd (s : State) (e : BitVec 2) : (s.setEcl e).lastcmd = s.lastcmd := rfl
@[simp] theorem State.setEcl_status (s : State) (e : BitVec 2) : (s.setEcl e).status = s.status := rfl
@[simp] theorem State.setEcl_ecl (s : State) (e : BitVec 2) : (s.setEcl e).ecl = e := rfl
@[simp] theorem State.setEcl_len (s : State) (e : BitVec 2) : (s.setEcl e).len = s.len := rfl
@[simp] theorem State.setEcl_entry (s : State) (e : BitVec 2) : (s.setEcl e).entry = s.entry := rfl
@[simp] theorem State.setEcl_cur (s : State) (e : BitVec 2) : (s.setEcl e).cur = s.cur := rfl
@[simp] theorem State.setEcl_gfP (s : State) (e : BitVec 2) : (s.setEcl e).gfP = s.gfP := rfl
@[simp] theorem State.setEcl_genLen (s : State) (e : BitVec 2) : (s.setEcl e).genLen = s.genLen := rfl
@[simp] theorem State.setEcl_zzRow (s : State) (e : BitVec 2) : (s.setEcl e).zzRow = s.zzRow := rfl
@[simp] theorem State.setEcl_zzCol (s : State) (e : BitVec 2) : (s.setEcl e).zzCol = s.zzCol := rfl
@[simp] theorem State.setEcl_zzIdx (s : State) (e : BitVec 2) : (s.setEcl e).zzIdx = s.zzIdx := rfl
@[simp] theorem State.setEcl_wmMask (s : State) (e : BitVec 2) : (s.setEcl e).wmMask = s.wmMask := rfl
@[simp] theorem State.setEcl_fmtWord (s : State) (e : BitVec 2) : (s.setEcl e).fmtWord = s.fmtWord := rfl
@[simp] theorem State.setEcl_viWord (s : State) (e : BitVec 2) : (s.setEcl e).viWord = s.viWord := rfl
@[simp] theorem State.setEcl_score (s : State) (e : BitVec 2) : (s.setEcl e).score = s.score := rfl
@[simp] theorem State.setEcl_bestId (s : State) (e : BitVec 2) : (s.setEcl e).bestId = s.bestId := rfl
@[simp] theorem State.setEcl_bestPen (s : State) (e : BitVec 2) : (s.setEcl e).bestPen = s.bestPen := rfl
@[simp] theorem State.setEcl_pen (s : State) (e : BitVec 2) : (s.setEcl e).pen = s.pen := rfl
@[simp] theorem State.setEcl_mem (s : State) (e : BitVec 2) : (s.setEcl e).mem = s.mem := rfl
@[simp] theorem State.setEcl_faultLog (s : State) (e : BitVec 2) : (s.setEcl e).faultLog = s.faultLog := rfl
@[simp] theorem State.setEcl_inbox (s : State) (e : BitVec 2) : (s.setEcl e).inbox = s.inbox := rfl
@[simp] theorem State.setEcl_response (s : State) (e : BitVec 2) : (s.setEcl e).response = s.response := rfl
@[simp] theorem State.setEcl_draws (s : State) (e : BitVec 2) : (s.setEcl e).draws = s.draws := rfl

@[simp] theorem State.setLen_lastcmd (s : State) (n : BitVec 13) : (s.setLen n).lastcmd = s.lastcmd := rfl
@[simp] theorem State.setLen_status (s : State) (n : BitVec 13) : (s.setLen n).status = s.status := rfl
@[simp] theorem State.setLen_ecl (s : State) (n : BitVec 13) : (s.setLen n).ecl = s.ecl := rfl
@[simp] theorem State.setLen_len (s : State) (n : BitVec 13) : (s.setLen n).len = n := rfl
@[simp] theorem State.setLen_entry (s : State) (n : BitVec 13) : (s.setLen n).entry = s.entry := rfl
@[simp] theorem State.setLen_cur (s : State) (n : BitVec 13) : (s.setLen n).cur = s.cur := rfl
@[simp] theorem State.setLen_gfP (s : State) (n : BitVec 13) : (s.setLen n).gfP = s.gfP := rfl
@[simp] theorem State.setLen_genLen (s : State) (n : BitVec 13) : (s.setLen n).genLen = s.genLen := rfl
@[simp] theorem State.setLen_zzRow (s : State) (n : BitVec 13) : (s.setLen n).zzRow = s.zzRow := rfl
@[simp] theorem State.setLen_zzCol (s : State) (n : BitVec 13) : (s.setLen n).zzCol = s.zzCol := rfl
@[simp] theorem State.setLen_zzIdx (s : State) (n : BitVec 13) : (s.setLen n).zzIdx = s.zzIdx := rfl
@[simp] theorem State.setLen_wmMask (s : State) (n : BitVec 13) : (s.setLen n).wmMask = s.wmMask := rfl
@[simp] theorem State.setLen_fmtWord (s : State) (n : BitVec 13) : (s.setLen n).fmtWord = s.fmtWord := rfl
@[simp] theorem State.setLen_viWord (s : State) (n : BitVec 13) : (s.setLen n).viWord = s.viWord := rfl
@[simp] theorem State.setLen_score (s : State) (n : BitVec 13) : (s.setLen n).score = s.score := rfl
@[simp] theorem State.setLen_bestId (s : State) (n : BitVec 13) : (s.setLen n).bestId = s.bestId := rfl
@[simp] theorem State.setLen_bestPen (s : State) (n : BitVec 13) : (s.setLen n).bestPen = s.bestPen := rfl
@[simp] theorem State.setLen_pen (s : State) (n : BitVec 13) : (s.setLen n).pen = s.pen := rfl
@[simp] theorem State.setLen_mem (s : State) (n : BitVec 13) : (s.setLen n).mem = s.mem := rfl
@[simp] theorem State.setLen_faultLog (s : State) (n : BitVec 13) : (s.setLen n).faultLog = s.faultLog := rfl
@[simp] theorem State.setLen_inbox (s : State) (n : BitVec 13) : (s.setLen n).inbox = s.inbox := rfl
@[simp] theorem State.setLen_response (s : State) (n : BitVec 13) : (s.setLen n).response = s.response := rfl
@[simp] theorem State.setLen_draws (s : State) (n : BitVec 13) : (s.setLen n).draws = s.draws := rfl

@[simp] theorem State.setEntry_lastcmd (s : State) (e : Entry) : (s.setEntry e).lastcmd = s.lastcmd := rfl
@[simp] theorem State.setEntry_status (s : State) (e : Entry) : (s.setEntry e).status = s.status := rfl
@[simp] theorem State.setEntry_ecl (s : State) (e : Entry) : (s.setEntry e).ecl = s.ecl := rfl
@[simp] theorem State.setEntry_len (s : State) (e : Entry) : (s.setEntry e).len = s.len := rfl
@[simp] theorem State.setEntry_entry (s : State) (e : Entry) : (s.setEntry e).entry = e := rfl
@[simp] theorem State.setEntry_cur (s : State) (e : Entry) : (s.setEntry e).cur = s.cur := rfl
@[simp] theorem State.setEntry_gfP (s : State) (e : Entry) : (s.setEntry e).gfP = s.gfP := rfl
@[simp] theorem State.setEntry_genLen (s : State) (e : Entry) : (s.setEntry e).genLen = s.genLen := rfl
@[simp] theorem State.setEntry_zzRow (s : State) (e : Entry) : (s.setEntry e).zzRow = s.zzRow := rfl
@[simp] theorem State.setEntry_zzCol (s : State) (e : Entry) : (s.setEntry e).zzCol = s.zzCol := rfl
@[simp] theorem State.setEntry_zzIdx (s : State) (e : Entry) : (s.setEntry e).zzIdx = s.zzIdx := rfl
@[simp] theorem State.setEntry_wmMask (s : State) (e : Entry) : (s.setEntry e).wmMask = s.wmMask := rfl
@[simp] theorem State.setEntry_fmtWord (s : State) (e : Entry) : (s.setEntry e).fmtWord = s.fmtWord := rfl
@[simp] theorem State.setEntry_viWord (s : State) (e : Entry) : (s.setEntry e).viWord = s.viWord := rfl
@[simp] theorem State.setEntry_score (s : State) (e : Entry) : (s.setEntry e).score = s.score := rfl
@[simp] theorem State.setEntry_bestId (s : State) (e : Entry) : (s.setEntry e).bestId = s.bestId := rfl
@[simp] theorem State.setEntry_bestPen (s : State) (e : Entry) : (s.setEntry e).bestPen = s.bestPen := rfl
@[simp] theorem State.setEntry_pen (s : State) (e : Entry) : (s.setEntry e).pen = s.pen := rfl
@[simp] theorem State.setEntry_mem (s : State) (e : Entry) : (s.setEntry e).mem = s.mem := rfl
@[simp] theorem State.setEntry_faultLog (s : State) (e : Entry) : (s.setEntry e).faultLog = s.faultLog := rfl
@[simp] theorem State.setEntry_inbox (s : State) (e : Entry) : (s.setEntry e).inbox = s.inbox := rfl
@[simp] theorem State.setEntry_response (s : State) (e : Entry) : (s.setEntry e).response = s.response := rfl
@[simp] theorem State.setEntry_draws (s : State) (e : Entry) : (s.setEntry e).draws = s.draws := rfl

@[simp] theorem State.setCur_lastcmd (s : State) (n : Nat) : (s.setCur n).lastcmd = s.lastcmd := rfl
@[simp] theorem State.setCur_status (s : State) (n : Nat) : (s.setCur n).status = s.status := rfl
@[simp] theorem State.setCur_ecl (s : State) (n : Nat) : (s.setCur n).ecl = s.ecl := rfl
@[simp] theorem State.setCur_len (s : State) (n : Nat) : (s.setCur n).len = s.len := rfl
@[simp] theorem State.setCur_entry (s : State) (n : Nat) : (s.setCur n).entry = s.entry := rfl
@[simp] theorem State.setCur_cur (s : State) (n : Nat) : (s.setCur n).cur = BitVec.ofNat 15 n := rfl
@[simp] theorem State.setCur_gfP (s : State) (n : Nat) : (s.setCur n).gfP = s.gfP := rfl
@[simp] theorem State.setCur_genLen (s : State) (n : Nat) : (s.setCur n).genLen = s.genLen := rfl
@[simp] theorem State.setCur_zzRow (s : State) (n : Nat) : (s.setCur n).zzRow = s.zzRow := rfl
@[simp] theorem State.setCur_zzCol (s : State) (n : Nat) : (s.setCur n).zzCol = s.zzCol := rfl
@[simp] theorem State.setCur_zzIdx (s : State) (n : Nat) : (s.setCur n).zzIdx = s.zzIdx := rfl
@[simp] theorem State.setCur_wmMask (s : State) (n : Nat) : (s.setCur n).wmMask = s.wmMask := rfl
@[simp] theorem State.setCur_fmtWord (s : State) (n : Nat) : (s.setCur n).fmtWord = s.fmtWord := rfl
@[simp] theorem State.setCur_viWord (s : State) (n : Nat) : (s.setCur n).viWord = s.viWord := rfl
@[simp] theorem State.setCur_score (s : State) (n : Nat) : (s.setCur n).score = s.score := rfl
@[simp] theorem State.setCur_bestId (s : State) (n : Nat) : (s.setCur n).bestId = s.bestId := rfl
@[simp] theorem State.setCur_bestPen (s : State) (n : Nat) : (s.setCur n).bestPen = s.bestPen := rfl
@[simp] theorem State.setCur_pen (s : State) (n : Nat) : (s.setCur n).pen = s.pen := rfl
@[simp] theorem State.setCur_mem (s : State) (n : Nat) : (s.setCur n).mem = s.mem := rfl
@[simp] theorem State.setCur_faultLog (s : State) (n : Nat) : (s.setCur n).faultLog = s.faultLog := rfl
@[simp] theorem State.setCur_inbox (s : State) (n : Nat) : (s.setCur n).inbox = s.inbox := rfl
@[simp] theorem State.setCur_response (s : State) (n : Nat) : (s.setCur n).response = s.response := rfl
@[simp] theorem State.setCur_draws (s : State) (n : Nat) : (s.setCur n).draws = s.draws := rfl

@[simp] theorem State.setGfP_lastcmd (s : State) (p : Byte) : (s.setGfP p).lastcmd = s.lastcmd := rfl
@[simp] theorem State.setGfP_status (s : State) (p : Byte) : (s.setGfP p).status = s.status := rfl
@[simp] theorem State.setGfP_ecl (s : State) (p : Byte) : (s.setGfP p).ecl = s.ecl := rfl
@[simp] theorem State.setGfP_len (s : State) (p : Byte) : (s.setGfP p).len = s.len := rfl
@[simp] theorem State.setGfP_entry (s : State) (p : Byte) : (s.setGfP p).entry = s.entry := rfl
@[simp] theorem State.setGfP_cur (s : State) (p : Byte) : (s.setGfP p).cur = s.cur := rfl
@[simp] theorem State.setGfP_gfP (s : State) (p : Byte) : (s.setGfP p).gfP = p := rfl
@[simp] theorem State.setGfP_genLen (s : State) (p : Byte) : (s.setGfP p).genLen = s.genLen := rfl
@[simp] theorem State.setGfP_zzRow (s : State) (p : Byte) : (s.setGfP p).zzRow = s.zzRow := rfl
@[simp] theorem State.setGfP_zzCol (s : State) (p : Byte) : (s.setGfP p).zzCol = s.zzCol := rfl
@[simp] theorem State.setGfP_zzIdx (s : State) (p : Byte) : (s.setGfP p).zzIdx = s.zzIdx := rfl
@[simp] theorem State.setGfP_wmMask (s : State) (p : Byte) : (s.setGfP p).wmMask = s.wmMask := rfl
@[simp] theorem State.setGfP_fmtWord (s : State) (p : Byte) : (s.setGfP p).fmtWord = s.fmtWord := rfl
@[simp] theorem State.setGfP_viWord (s : State) (p : Byte) : (s.setGfP p).viWord = s.viWord := rfl
@[simp] theorem State.setGfP_score (s : State) (p : Byte) : (s.setGfP p).score = s.score := rfl
@[simp] theorem State.setGfP_bestId (s : State) (p : Byte) : (s.setGfP p).bestId = s.bestId := rfl
@[simp] theorem State.setGfP_bestPen (s : State) (p : Byte) : (s.setGfP p).bestPen = s.bestPen := rfl
@[simp] theorem State.setGfP_pen (s : State) (p : Byte) : (s.setGfP p).pen = s.pen := rfl
@[simp] theorem State.setGfP_mem (s : State) (p : Byte) : (s.setGfP p).mem = s.mem := rfl
@[simp] theorem State.setGfP_faultLog (s : State) (p : Byte) : (s.setGfP p).faultLog = s.faultLog := rfl
@[simp] theorem State.setGfP_inbox (s : State) (p : Byte) : (s.setGfP p).inbox = s.inbox := rfl
@[simp] theorem State.setGfP_response (s : State) (p : Byte) : (s.setGfP p).response = s.response := rfl
@[simp] theorem State.setGfP_draws (s : State) (p : Byte) : (s.setGfP p).draws = s.draws := rfl

@[simp] theorem State.setGenLen_lastcmd (s : State) (n : Nat) : (s.setGenLen n).lastcmd = s.lastcmd := rfl
@[simp] theorem State.setGenLen_status (s : State) (n : Nat) : (s.setGenLen n).status = s.status := rfl
@[simp] theorem State.setGenLen_ecl (s : State) (n : Nat) : (s.setGenLen n).ecl = s.ecl := rfl
@[simp] theorem State.setGenLen_len (s : State) (n : Nat) : (s.setGenLen n).len = s.len := rfl
@[simp] theorem State.setGenLen_entry (s : State) (n : Nat) : (s.setGenLen n).entry = s.entry := rfl
@[simp] theorem State.setGenLen_cur (s : State) (n : Nat) : (s.setGenLen n).cur = s.cur := rfl
@[simp] theorem State.setGenLen_gfP (s : State) (n : Nat) : (s.setGenLen n).gfP = s.gfP := rfl
@[simp] theorem State.setGenLen_genLen (s : State) (n : Nat) : (s.setGenLen n).genLen = BitVec.ofNat 7 n := rfl
@[simp] theorem State.setGenLen_zzRow (s : State) (n : Nat) : (s.setGenLen n).zzRow = s.zzRow := rfl
@[simp] theorem State.setGenLen_zzCol (s : State) (n : Nat) : (s.setGenLen n).zzCol = s.zzCol := rfl
@[simp] theorem State.setGenLen_zzIdx (s : State) (n : Nat) : (s.setGenLen n).zzIdx = s.zzIdx := rfl
@[simp] theorem State.setGenLen_wmMask (s : State) (n : Nat) : (s.setGenLen n).wmMask = s.wmMask := rfl
@[simp] theorem State.setGenLen_fmtWord (s : State) (n : Nat) : (s.setGenLen n).fmtWord = s.fmtWord := rfl
@[simp] theorem State.setGenLen_viWord (s : State) (n : Nat) : (s.setGenLen n).viWord = s.viWord := rfl
@[simp] theorem State.setGenLen_score (s : State) (n : Nat) : (s.setGenLen n).score = s.score := rfl
@[simp] theorem State.setGenLen_bestId (s : State) (n : Nat) : (s.setGenLen n).bestId = s.bestId := rfl
@[simp] theorem State.setGenLen_bestPen (s : State) (n : Nat) : (s.setGenLen n).bestPen = s.bestPen := rfl
@[simp] theorem State.setGenLen_pen (s : State) (n : Nat) : (s.setGenLen n).pen = s.pen := rfl
@[simp] theorem State.setGenLen_mem (s : State) (n : Nat) : (s.setGenLen n).mem = s.mem := rfl
@[simp] theorem State.setGenLen_faultLog (s : State) (n : Nat) : (s.setGenLen n).faultLog = s.faultLog := rfl
@[simp] theorem State.setGenLen_inbox (s : State) (n : Nat) : (s.setGenLen n).inbox = s.inbox := rfl
@[simp] theorem State.setGenLen_response (s : State) (n : Nat) : (s.setGenLen n).response = s.response := rfl
@[simp] theorem State.setGenLen_draws (s : State) (n : Nat) : (s.setGenLen n).draws = s.draws := rfl

@[simp] theorem State.setZz_lastcmd (s : State) (row : Nat) (col : Nat) (idx : Nat) : (s.setZz row col idx).lastcmd = s.lastcmd := rfl
@[simp] theorem State.setZz_status (s : State) (row : Nat) (col : Nat) (idx : Nat) : (s.setZz row col idx).status = s.status := rfl
@[simp] theorem State.setZz_ecl (s : State) (row : Nat) (col : Nat) (idx : Nat) : (s.setZz row col idx).ecl = s.ecl := rfl
@[simp] theorem State.setZz_len (s : State) (row : Nat) (col : Nat) (idx : Nat) : (s.setZz row col idx).len = s.len := rfl
@[simp] theorem State.setZz_entry (s : State) (row : Nat) (col : Nat) (idx : Nat) : (s.setZz row col idx).entry = s.entry := rfl
@[simp] theorem State.setZz_cur (s : State) (row : Nat) (col : Nat) (idx : Nat) : (s.setZz row col idx).cur = s.cur := rfl
@[simp] theorem State.setZz_gfP (s : State) (row : Nat) (col : Nat) (idx : Nat) : (s.setZz row col idx).gfP = s.gfP := rfl
@[simp] theorem State.setZz_genLen (s : State) (row : Nat) (col : Nat) (idx : Nat) : (s.setZz row col idx).genLen = s.genLen := rfl
@[simp] theorem State.setZz_zzRow (s : State) (row : Nat) (col : Nat) (idx : Nat) : (s.setZz row col idx).zzRow = BitVec.ofNat 8 row := rfl
@[simp] theorem State.setZz_zzCol (s : State) (row : Nat) (col : Nat) (idx : Nat) : (s.setZz row col idx).zzCol = BitVec.ofNat 8 col := rfl
@[simp] theorem State.setZz_zzIdx (s : State) (row : Nat) (col : Nat) (idx : Nat) : (s.setZz row col idx).zzIdx = BitVec.ofNat 15 idx := rfl
@[simp] theorem State.setZz_wmMask (s : State) (row : Nat) (col : Nat) (idx : Nat) : (s.setZz row col idx).wmMask = s.wmMask := rfl
@[simp] theorem State.setZz_fmtWord (s : State) (row : Nat) (col : Nat) (idx : Nat) : (s.setZz row col idx).fmtWord = s.fmtWord := rfl
@[simp] theorem State.setZz_viWord (s : State) (row : Nat) (col : Nat) (idx : Nat) : (s.setZz row col idx).viWord = s.viWord := rfl
@[simp] theorem State.setZz_score (s : State) (row : Nat) (col : Nat) (idx : Nat) : (s.setZz row col idx).score = s.score := rfl
@[simp] theorem State.setZz_bestId (s : State) (row : Nat) (col : Nat) (idx : Nat) : (s.setZz row col idx).bestId = s.bestId := rfl
@[simp] theorem State.setZz_bestPen (s : State) (row : Nat) (col : Nat) (idx : Nat) : (s.setZz row col idx).bestPen = s.bestPen := rfl
@[simp] theorem State.setZz_pen (s : State) (row : Nat) (col : Nat) (idx : Nat) : (s.setZz row col idx).pen = s.pen := rfl
@[simp] theorem State.setZz_mem (s : State) (row : Nat) (col : Nat) (idx : Nat) : (s.setZz row col idx).mem = s.mem := rfl
@[simp] theorem State.setZz_faultLog (s : State) (row : Nat) (col : Nat) (idx : Nat) : (s.setZz row col idx).faultLog = s.faultLog := rfl
@[simp] theorem State.setZz_inbox (s : State) (row : Nat) (col : Nat) (idx : Nat) : (s.setZz row col idx).inbox = s.inbox := rfl
@[simp] theorem State.setZz_response (s : State) (row : Nat) (col : Nat) (idx : Nat) : (s.setZz row col idx).response = s.response := rfl
@[simp] theorem State.setZz_draws (s : State) (row : Nat) (col : Nat) (idx : Nat) : (s.setZz row col idx).draws = s.draws := rfl

@[simp] theorem State.setWmMask_lastcmd (s : State) (m : BitVec 3) : (s.setWmMask m).lastcmd = s.lastcmd := rfl
@[simp] theorem State.setWmMask_status (s : State) (m : BitVec 3) : (s.setWmMask m).status = s.status := rfl
@[simp] theorem State.setWmMask_ecl (s : State) (m : BitVec 3) : (s.setWmMask m).ecl = s.ecl := rfl
@[simp] theorem State.setWmMask_len (s : State) (m : BitVec 3) : (s.setWmMask m).len = s.len := rfl
@[simp] theorem State.setWmMask_entry (s : State) (m : BitVec 3) : (s.setWmMask m).entry = s.entry := rfl
@[simp] theorem State.setWmMask_cur (s : State) (m : BitVec 3) : (s.setWmMask m).cur = s.cur := rfl
@[simp] theorem State.setWmMask_gfP (s : State) (m : BitVec 3) : (s.setWmMask m).gfP = s.gfP := rfl
@[simp] theorem State.setWmMask_genLen (s : State) (m : BitVec 3) : (s.setWmMask m).genLen = s.genLen := rfl
@[simp] theorem State.setWmMask_zzRow (s : State) (m : BitVec 3) : (s.setWmMask m).zzRow = s.zzRow := rfl
@[simp] theorem State.setWmMask_zzCol (s : State) (m : BitVec 3) : (s.setWmMask m).zzCol = s.zzCol := rfl
@[simp] theorem State.setWmMask_zzIdx (s : State) (m : BitVec 3) : (s.setWmMask m).zzIdx = s.zzIdx := rfl
@[simp] theorem State.setWmMask_wmMask (s : State) (m : BitVec 3) : (s.setWmMask m).wmMask = m := rfl
@[simp] theorem State.setWmMask_fmtWord (s : State) (m : BitVec 3) : (s.setWmMask m).fmtWord = s.fmtWord := rfl
@[simp] theorem State.setWmMask_viWord (s : State) (m : BitVec 3) : (s.setWmMask m).viWord = s.viWord := rfl
@[simp] theorem State.setWmMask_score (s : State) (m : BitVec 3) : (s.setWmMask m).score = s.score := rfl
@[simp] theorem State.setWmMask_bestId (s : State) (m : BitVec 3) : (s.setWmMask m).bestId = s.bestId := rfl
@[simp] theorem State.setWmMask_bestPen (s : State) (m : BitVec 3) : (s.setWmMask m).bestPen = s.bestPen := rfl
@[simp] theorem State.setWmMask_pen (s : State) (m : BitVec 3) : (s.setWmMask m).pen = s.pen := rfl
@[simp] theorem State.setWmMask_mem (s : State) (m : BitVec 3) : (s.setWmMask m).mem = s.mem := rfl
@[simp] theorem State.setWmMask_faultLog (s : State) (m : BitVec 3) : (s.setWmMask m).faultLog = s.faultLog := rfl
@[simp] theorem State.setWmMask_inbox (s : State) (m : BitVec 3) : (s.setWmMask m).inbox = s.inbox := rfl
@[simp] theorem State.setWmMask_response (s : State) (m : BitVec 3) : (s.setWmMask m).response = s.response := rfl
@[simp] theorem State.setWmMask_draws (s : State) (m : BitVec 3) : (s.setWmMask m).draws = s.draws := rfl

@[simp] theorem State.setFmt_lastcmd (s : State) (f : BitVec 15) : (s.setFmt f).lastcmd = s.lastcmd := rfl
@[simp] theorem State.setFmt_status (s : State) (f : BitVec 15) : (s.setFmt f).status = s.status := rfl
@[simp] theorem State.setFmt_ecl (s : State) (f : BitVec 15) : (s.setFmt f).ecl = s.ecl := rfl
@[simp] theorem State.setFmt_len (s : State) (f : BitVec 15) : (s.setFmt f).len = s.len := rfl
@[simp] theorem State.setFmt_entry (s : State) (f : BitVec 15) : (s.setFmt f).entry = s.entry := rfl
@[simp] theorem State.setFmt_cur (s : State) (f : BitVec 15) : (s.setFmt f).cur = s.cur := rfl
@[simp] theorem State.setFmt_gfP (s : State) (f : BitVec 15) : (s.setFmt f).gfP = s.gfP := rfl
@[simp] theorem State.setFmt_genLen (s : State) (f : BitVec 15) : (s.setFmt f).genLen = s.genLen := rfl
@[simp] theorem State.setFmt_zzRow (s : State) (f : BitVec 15) : (s.setFmt f).zzRow = s.zzRow := rfl
@[simp] theorem State.setFmt_zzCol (s : State) (f : BitVec 15) : (s.setFmt f).zzCol = s.zzCol := rfl
@[simp] theorem State.setFmt_zzIdx (s : State) (f : BitVec 15) : (s.setFmt f).zzIdx = s.zzIdx := rfl
@[simp] theorem State.setFmt_wmMask (s : State) (f : BitVec 15) : (s.setFmt f).wmMask = s.wmMask := rfl
@[simp] theorem State.setFmt_fmtWord (s : State) (f : BitVec 15) : (s.setFmt f).fmtWord = f := rfl
@[simp] theorem State.setFmt_viWord (s : State) (f : BitVec 15) : (s.setFmt f).viWord = s.viWord := rfl
@[simp] theorem State.setFmt_score (s : State) (f : BitVec 15) : (s.setFmt f).score = s.score := rfl
@[simp] theorem State.setFmt_bestId (s : State) (f : BitVec 15) : (s.setFmt f).bestId = s.bestId := rfl
@[simp] theorem State.setFmt_bestPen (s : State) (f : BitVec 15) : (s.setFmt f).bestPen = s.bestPen := rfl
@[simp] theorem State.setFmt_pen (s : State) (f : BitVec 15) : (s.setFmt f).pen = s.pen := rfl
@[simp] theorem State.setFmt_mem (s : State) (f : BitVec 15) : (s.setFmt f).mem = s.mem := rfl
@[simp] theorem State.setFmt_faultLog (s : State) (f : BitVec 15) : (s.setFmt f).faultLog = s.faultLog := rfl
@[simp] theorem State.setFmt_inbox (s : State) (f : BitVec 15) : (s.setFmt f).inbox = s.inbox := rfl
@[simp] theorem State.setFmt_response (s : State) (f : BitVec 15) : (s.setFmt f).response = s.response := rfl
@[simp] theorem State.setFmt_draws (s : State) (f : BitVec 15) : (s.setFmt f).draws = s.draws := rfl

@[simp] theorem State.setVi_lastcmd (s : State) (v : BitVec 18) : (s.setVi v).lastcmd = s.lastcmd := rfl
@[simp] theorem State.setVi_status (s : State) (v : BitVec 18) : (s.setVi v).status = s.status := rfl
@[simp] theorem State.setVi_ecl (s : State) (v : BitVec 18) : (s.setVi v).ecl = s.ecl := rfl
@[simp] theorem State.setVi_len (s : State) (v : BitVec 18) : (s.setVi v).len = s.len := rfl
@[simp] theorem State.setVi_entry (s : State) (v : BitVec 18) : (s.setVi v).entry = s.entry := rfl
@[simp] theorem State.setVi_cur (s : State) (v : BitVec 18) : (s.setVi v).cur = s.cur := rfl
@[simp] theorem State.setVi_gfP (s : State) (v : BitVec 18) : (s.setVi v).gfP = s.gfP := rfl
@[simp] theorem State.setVi_genLen (s : State) (v : BitVec 18) : (s.setVi v).genLen = s.genLen := rfl
@[simp] theorem State.setVi_zzRow (s : State) (v : BitVec 18) : (s.setVi v).zzRow = s.zzRow := rfl
@[simp] theorem State.setVi_zzCol (s : State) (v : BitVec 18) : (s.setVi v).zzCol = s.zzCol := rfl
@[simp] theorem State.setVi_zzIdx (s : State) (v : BitVec 18) : (s.setVi v).zzIdx = s.zzIdx := rfl
@[simp] theorem State.setVi_wmMask (s : State) (v : BitVec 18) : (s.setVi v).wmMask = s.wmMask := rfl
@[simp] theorem State.setVi_fmtWord (s : State) (v : BitVec 18) : (s.setVi v).fmtWord = s.fmtWord := rfl
@[simp] theorem State.setVi_viWord (s : State) (v : BitVec 18) : (s.setVi v).viWord = v := rfl
@[simp] theorem State.setVi_score (s : State) (v : BitVec 18) : (s.setVi v).score = s.score := rfl
@[simp] theorem State.setVi_bestId (s : State) (v : BitVec 18) : (s.setVi v).bestId = s.bestId := rfl
@[simp] theorem State.setVi_bestPen (s : State) (v : BitVec 18) : (s.setVi v).bestPen = s.bestPen := rfl
@[simp] theorem State.setVi_pen (s : State) (v : BitVec 18) : (s.setVi v).pen = s.pen := rfl
@[simp] theorem State.setVi_mem (s : State) (v : BitVec 18) : (s.setVi v).mem = s.mem := rfl
@[simp] theorem State.setVi_faultLog (s : State) (v : BitVec 18) : (s.setVi v).faultLog = s.faultLog := rfl
@[simp] theorem State.setVi_inbox (s : State) (v : BitVec 18) : (s.setVi v).inbox = s.inbox := rfl
@[simp] theorem State.setVi_response (s : State) (v : BitVec 18) : (s.setVi v).response = s.response := rfl
@[simp] theorem State.setVi_draws (s : State) (v : BitVec 18) : (s.setVi v).draws = s.draws := rfl

@[simp] theorem State.setScore_lastcmd (s : State) (c : Score) : (s.setScore c).lastcmd = s.lastcmd := rfl
@[simp] theorem State.setScore_status (s : State) (c : Score) : (s.setScore c).status = s.status := rfl
@[simp] theorem State.setScore_ecl (s : State) (c : Score) : (s.setScore c).ecl = s.ecl := rfl
@[simp] theorem State.setScore_len (s : State) (c : Score) : (s.setScore c).len = s.len := rfl
@[simp] theorem State.setScore_entry (s : State) (c : Score) : (s.setScore c).entry = s.entry := rfl
@[simp] theorem State.setScore_cur (s : State) (c : Score) : (s.setScore c).cur = s.cur := rfl
@[simp] theorem State.setScore_gfP (s : State) (c : Score) : (s.setScore c).gfP = s.gfP := rfl
@[simp] theorem State.setScore_genLen (s : State) (c : Score) : (s.setScore c).genLen = s.genLen := rfl
@[simp] theorem State.setScore_zzRow (s : State) (c : Score) : (s.setScore c).zzRow = s.zzRow := rfl
@[simp] theorem State.setScore_zzCol (s : State) (c : Score) : (s.setScore c).zzCol = s.zzCol := rfl
@[simp] theorem State.setScore_zzIdx (s : State) (c : Score) : (s.setScore c).zzIdx = s.zzIdx := rfl
@[simp] theorem State.setScore_wmMask (s : State) (c : Score) : (s.setScore c).wmMask = s.wmMask := rfl
@[simp] theorem State.setScore_fmtWord (s : State) (c : Score) : (s.setScore c).fmtWord = s.fmtWord := rfl
@[simp] theorem State.setScore_viWord (s : State) (c : Score) : (s.setScore c).viWord = s.viWord := rfl
@[simp] theorem State.setScore_score (s : State) (c : Score) : (s.setScore c).score = c := rfl
@[simp] theorem State.setScore_bestId (s : State) (c : Score) : (s.setScore c).bestId = s.bestId := rfl
@[simp] theorem State.setScore_bestPen (s : State) (c : Score) : (s.setScore c).bestPen = s.bestPen := rfl
@[simp] theorem State.setScore_pen (s : State) (c : Score) : (s.setScore c).pen = s.pen := rfl
@[simp] theorem State.setScore_mem (s : State) (c : Score) : (s.setScore c).mem = s.mem := rfl
@[simp] theorem State.setScore_faultLog (s : State) (c : Score) : (s.setScore c).faultLog = s.faultLog := rfl
@[simp] theorem State.setScore_inbox (s : State) (c : Score) : (s.setScore c).inbox = s.inbox := rfl
@[simp] theorem State.setScore_response (s : State) (c : Score) : (s.setScore c).response = s.response := rfl
@[simp] theorem State.setScore_draws (s : State) (c : Score) : (s.setScore c).draws = s.draws := rfl

@[simp] theorem State.setBest_lastcmd (s : State) (m : BitVec 3) (p : Word) : (s.setBest m p).lastcmd = s.lastcmd := rfl
@[simp] theorem State.setBest_status (s : State) (m : BitVec 3) (p : Word) : (s.setBest m p).status = s.status := rfl
@[simp] theorem State.setBest_ecl (s : State) (m : BitVec 3) (p : Word) : (s.setBest m p).ecl = s.ecl := rfl
@[simp] theorem State.setBest_len (s : State) (m : BitVec 3) (p : Word) : (s.setBest m p).len = s.len := rfl
@[simp] theorem State.setBest_entry (s : State) (m : BitVec 3) (p : Word) : (s.setBest m p).entry = s.entry := rfl
@[simp] theorem State.setBest_cur (s : State) (m : BitVec 3) (p : Word) : (s.setBest m p).cur = s.cur := rfl
@[simp] theorem State.setBest_gfP (s : State) (m : BitVec 3) (p : Word) : (s.setBest m p).gfP = s.gfP := rfl
@[simp] theorem State.setBest_genLen (s : State) (m : BitVec 3) (p : Word) : (s.setBest m p).genLen = s.genLen := rfl
@[simp] theorem State.setBest_zzRow (s : State) (m : BitVec 3) (p : Word) : (s.setBest m p).zzRow = s.zzRow := rfl
@[simp] theorem State.setBest_zzCol (s : State) (m : BitVec 3) (p : Word) : (s.setBest m p).zzCol = s.zzCol := rfl
@[simp] theorem State.setBest_zzIdx (s : State) (m : BitVec 3) (p : Word) : (s.setBest m p).zzIdx = s.zzIdx := rfl
@[simp] theorem State.setBest_wmMask (s : State) (m : BitVec 3) (p : Word) : (s.setBest m p).wmMask = s.wmMask := rfl
@[simp] theorem State.setBest_fmtWord (s : State) (m : BitVec 3) (p : Word) : (s.setBest m p).fmtWord = s.fmtWord := rfl
@[simp] theorem State.setBest_viWord (s : State) (m : BitVec 3) (p : Word) : (s.setBest m p).viWord = s.viWord := rfl
@[simp] theorem State.setBest_score (s : State) (m : BitVec 3) (p : Word) : (s.setBest m p).score = s.score := rfl
@[simp] theorem State.setBest_bestId (s : State) (m : BitVec 3) (p : Word) : (s.setBest m p).bestId = m := rfl
@[simp] theorem State.setBest_bestPen (s : State) (m : BitVec 3) (p : Word) : (s.setBest m p).bestPen = p := rfl
@[simp] theorem State.setBest_pen (s : State) (m : BitVec 3) (p : Word) : (s.setBest m p).pen = s.pen := rfl
@[simp] theorem State.setBest_mem (s : State) (m : BitVec 3) (p : Word) : (s.setBest m p).mem = s.mem := rfl
@[simp] theorem State.setBest_faultLog (s : State) (m : BitVec 3) (p : Word) : (s.setBest m p).faultLog = s.faultLog := rfl
@[simp] theorem State.setBest_inbox (s : State) (m : BitVec 3) (p : Word) : (s.setBest m p).inbox = s.inbox := rfl
@[simp] theorem State.setBest_response (s : State) (m : BitVec 3) (p : Word) : (s.setBest m p).response = s.response := rfl
@[simp] theorem State.setBest_draws (s : State) (m : BitVec 3) (p : Word) : (s.setBest m p).draws = s.draws := rfl

@[simp] theorem State.setPen_lastcmd (s : State) (m : BitVec 3) (p : Word) : (s.setPen m p).lastcmd = s.lastcmd := rfl
@[simp] theorem State.setPen_status (s : State) (m : BitVec 3) (p : Word) : (s.setPen m p).status = s.status := rfl
@[simp] theorem State.setPen_ecl (s : State) (m : BitVec 3) (p : Word) : (s.setPen m p).ecl = s.ecl := rfl
@[simp] theorem State.setPen_len (s : State) (m : BitVec 3) (p : Word) : (s.setPen m p).len = s.len := rfl
@[simp] theorem State.setPen_entry (s : State) (m : BitVec 3) (p : Word) : (s.setPen m p).entry = s.entry := rfl
@[simp] theorem State.setPen_cur (s : State) (m : BitVec 3) (p : Word) : (s.setPen m p).cur = s.cur := rfl
@[simp] theorem State.setPen_gfP (s : State) (m : BitVec 3) (p : Word) : (s.setPen m p).gfP = s.gfP := rfl
@[simp] theorem State.setPen_genLen (s : State) (m : BitVec 3) (p : Word) : (s.setPen m p).genLen = s.genLen := rfl
@[simp] theorem State.setPen_zzRow (s : State) (m : BitVec 3) (p : Word) : (s.setPen m p).zzRow = s.zzRow := rfl
@[simp] theorem State.setPen_zzCol (s : State) (m : BitVec 3) (p : Word) : (s.setPen m p).zzCol = s.zzCol := rfl
@[simp] theorem State.setPen_zzIdx (s : State) (m : BitVec 3) (p : Word) : (s.setPen m p).zzIdx = s.zzIdx := rfl
@[simp] theorem State.setPen_wmMask (s : State) (m : BitVec 3) (p : Word) : (s.setPen m p).wmMask = s.wmMask := rfl
@[simp] theorem State.setPen_fmtWord (s : State) (m : BitVec 3) (p : Word) : (s.setPen m p).fmtWord = s.fmtWord := rfl
@[simp] theorem State.setPen_viWord (s : State) (m : BitVec 3) (p : Word) : (s.setPen m p).viWord = s.viWord := rfl
@[simp] theorem State.setPen_score (s : State) (m : BitVec 3) (p : Word) : (s.setPen m p).score = s.score := rfl
@[simp] theorem State.setPen_bestId (s : State) (m : BitVec 3) (p : Word) : (s.setPen m p).bestId = s.bestId := rfl
@[simp] theorem State.setPen_bestPen (s : State) (m : BitVec 3) (p : Word) : (s.setPen m p).bestPen = s.bestPen := rfl
@[simp] theorem State.setPen_pen (s : State) (m : BitVec 3) (p : Word) : (s.setPen m p).pen = s.pen.set m.toNat p := rfl
@[simp] theorem State.setPen_mem (s : State) (m : BitVec 3) (p : Word) : (s.setPen m p).mem = s.mem := rfl
@[simp] theorem State.setPen_faultLog (s : State) (m : BitVec 3) (p : Word) : (s.setPen m p).faultLog = s.faultLog := rfl
@[simp] theorem State.setPen_inbox (s : State) (m : BitVec 3) (p : Word) : (s.setPen m p).inbox = s.inbox := rfl
@[simp] theorem State.setPen_response (s : State) (m : BitVec 3) (p : Word) : (s.setPen m p).response = s.response := rfl
@[simp] theorem State.setPen_draws (s : State) (m : BitVec 3) (p : Word) : (s.setPen m p).draws = s.draws := rfl

@[simp] theorem State.setMem_lastcmd (s : State) (m : Memory) : (s.setMem m).lastcmd = s.lastcmd := rfl
@[simp] theorem State.setMem_status (s : State) (m : Memory) : (s.setMem m).status = s.status := rfl
@[simp] theorem State.setMem_ecl (s : State) (m : Memory) : (s.setMem m).ecl = s.ecl := rfl
@[simp] theorem State.setMem_len (s : State) (m : Memory) : (s.setMem m).len = s.len := rfl
@[simp] theorem State.setMem_entry (s : State) (m : Memory) : (s.setMem m).entry = s.entry := rfl
@[simp] theorem State.setMem_cur (s : State) (m : Memory) : (s.setMem m).cur = s.cur := rfl
@[simp] theorem State.setMem_gfP (s : State) (m : Memory) : (s.setMem m).gfP = s.gfP := rfl
@[simp] theorem State.setMem_genLen (s : State) (m : Memory) : (s.setMem m).genLen = s.genLen := rfl
@[simp] theorem State.setMem_zzRow (s : State) (m : Memory) : (s.setMem m).zzRow = s.zzRow := rfl
@[simp] theorem State.setMem_zzCol (s : State) (m : Memory) : (s.setMem m).zzCol = s.zzCol := rfl
@[simp] theorem State.setMem_zzIdx (s : State) (m : Memory) : (s.setMem m).zzIdx = s.zzIdx := rfl
@[simp] theorem State.setMem_wmMask (s : State) (m : Memory) : (s.setMem m).wmMask = s.wmMask := rfl
@[simp] theorem State.setMem_fmtWord (s : State) (m : Memory) : (s.setMem m).fmtWord = s.fmtWord := rfl
@[simp] theorem State.setMem_viWord (s : State) (m : Memory) : (s.setMem m).viWord = s.viWord := rfl
@[simp] theorem State.setMem_score (s : State) (m : Memory) : (s.setMem m).score = s.score := rfl
@[simp] theorem State.setMem_bestId (s : State) (m : Memory) : (s.setMem m).bestId = s.bestId := rfl
@[simp] theorem State.setMem_bestPen (s : State) (m : Memory) : (s.setMem m).bestPen = s.bestPen := rfl
@[simp] theorem State.setMem_pen (s : State) (m : Memory) : (s.setMem m).pen = s.pen := rfl
@[simp] theorem State.setMem_mem (s : State) (m : Memory) : (s.setMem m).mem = m := rfl
@[simp] theorem State.setMem_faultLog (s : State) (m : Memory) : (s.setMem m).faultLog = s.faultLog := rfl
@[simp] theorem State.setMem_inbox (s : State) (m : Memory) : (s.setMem m).inbox = s.inbox := rfl
@[simp] theorem State.setMem_response (s : State) (m : Memory) : (s.setMem m).response = s.response := rfl
@[simp] theorem State.setMem_draws (s : State) (m : Memory) : (s.setMem m).draws = s.draws := rfl

@[simp] theorem State.respond_lastcmd (s : State) (r : Response) : (s.respond r).lastcmd = s.lastcmd := rfl
@[simp] theorem State.respond_status (s : State) (r : Response) : (s.respond r).status = s.status := rfl
@[simp] theorem State.respond_ecl (s : State) (r : Response) : (s.respond r).ecl = s.ecl := rfl
@[simp] theorem State.respond_len (s : State) (r : Response) : (s.respond r).len = s.len := rfl
@[simp] theorem State.respond_entry (s : State) (r : Response) : (s.respond r).entry = s.entry := rfl
@[simp] theorem State.respond_cur (s : State) (r : Response) : (s.respond r).cur = s.cur := rfl
@[simp] theorem State.respond_gfP (s : State) (r : Response) : (s.respond r).gfP = s.gfP := rfl
@[simp] theorem State.respond_genLen (s : State) (r : Response) : (s.respond r).genLen = s.genLen := rfl
@[simp] theorem State.respond_zzRow (s : State) (r : Response) : (s.respond r).zzRow = s.zzRow := rfl
@[simp] theorem State.respond_zzCol (s : State) (r : Response) : (s.respond r).zzCol = s.zzCol := rfl
@[simp] theorem State.respond_zzIdx (s : State) (r : Response) : (s.respond r).zzIdx = s.zzIdx := rfl
@[simp] theorem State.respond_wmMask (s : State) (r : Response) : (s.respond r).wmMask = s.wmMask := rfl
@[simp] theorem State.respond_fmtWord (s : State) (r : Response) : (s.respond r).fmtWord = s.fmtWord := rfl
@[simp] theorem State.respond_viWord (s : State) (r : Response) : (s.respond r).viWord = s.viWord := rfl
@[simp] theorem State.respond_score (s : State) (r : Response) : (s.respond r).score = s.score := rfl
@[simp] theorem State.respond_bestId (s : State) (r : Response) : (s.respond r).bestId = s.bestId := rfl
@[simp] theorem State.respond_bestPen (s : State) (r : Response) : (s.respond r).bestPen = s.bestPen := rfl
@[simp] theorem State.respond_pen (s : State) (r : Response) : (s.respond r).pen = s.pen := rfl
@[simp] theorem State.respond_mem (s : State) (r : Response) : (s.respond r).mem = s.mem := rfl
@[simp] theorem State.respond_faultLog (s : State) (r : Response) : (s.respond r).faultLog = s.faultLog := rfl
@[simp] theorem State.respond_inbox (s : State) (r : Response) : (s.respond r).inbox = s.inbox := rfl
@[simp] theorem State.respond_response (s : State) (r : Response) : (s.respond r).response = some r := rfl
@[simp] theorem State.respond_draws (s : State) (r : Response) : (s.respond r).draws = s.draws := rfl

@[simp] theorem State.setLastcmd_lastcmd (s : State) (w : Word) : (s.setLastcmd w).lastcmd = w := rfl
@[simp] theorem State.setLastcmd_status (s : State) (w : Word) : (s.setLastcmd w).status = s.status := rfl
@[simp] theorem State.setLastcmd_ecl (s : State) (w : Word) : (s.setLastcmd w).ecl = s.ecl := rfl
@[simp] theorem State.setLastcmd_len (s : State) (w : Word) : (s.setLastcmd w).len = s.len := rfl
@[simp] theorem State.setLastcmd_entry (s : State) (w : Word) : (s.setLastcmd w).entry = s.entry := rfl
@[simp] theorem State.setLastcmd_cur (s : State) (w : Word) : (s.setLastcmd w).cur = s.cur := rfl
@[simp] theorem State.setLastcmd_gfP (s : State) (w : Word) : (s.setLastcmd w).gfP = s.gfP := rfl
@[simp] theorem State.setLastcmd_genLen (s : State) (w : Word) : (s.setLastcmd w).genLen = s.genLen := rfl
@[simp] theorem State.setLastcmd_zzRow (s : State) (w : Word) : (s.setLastcmd w).zzRow = s.zzRow := rfl
@[simp] theorem State.setLastcmd_zzCol (s : State) (w : Word) : (s.setLastcmd w).zzCol = s.zzCol := rfl
@[simp] theorem State.setLastcmd_zzIdx (s : State) (w : Word) : (s.setLastcmd w).zzIdx = s.zzIdx := rfl
@[simp] theorem State.setLastcmd_wmMask (s : State) (w : Word) : (s.setLastcmd w).wmMask = s.wmMask := rfl
@[simp] theorem State.setLastcmd_fmtWord (s : State) (w : Word) : (s.setLastcmd w).fmtWord = s.fmtWord := rfl
@[simp] theorem State.setLastcmd_viWord (s : State) (w : Word) : (s.setLastcmd w).viWord = s.viWord := rfl
@[simp] theorem State.setLastcmd_score (s : State) (w : Word) : (s.setLastcmd w).score = s.score := rfl
@[simp] theorem State.setLastcmd_bestId (s : State) (w : Word) : (s.setLastcmd w).bestId = s.bestId := rfl
@[simp] theorem State.setLastcmd_bestPen (s : State) (w : Word) : (s.setLastcmd w).bestPen = s.bestPen := rfl
@[simp] theorem State.setLastcmd_pen (s : State) (w : Word) : (s.setLastcmd w).pen = s.pen := rfl
@[simp] theorem State.setLastcmd_mem (s : State) (w : Word) : (s.setLastcmd w).mem = s.mem := rfl
@[simp] theorem State.setLastcmd_faultLog (s : State) (w : Word) : (s.setLastcmd w).faultLog = s.faultLog := rfl
@[simp] theorem State.setLastcmd_inbox (s : State) (w : Word) : (s.setLastcmd w).inbox = s.inbox := rfl
@[simp] theorem State.setLastcmd_response (s : State) (w : Word) : (s.setLastcmd w).response = s.response := rfl
@[simp] theorem State.setLastcmd_draws (s : State) (w : Word) : (s.setLastcmd w).draws = s.draws := rfl

@[simp] theorem State.withError_lastcmd (s : State) (c : BitVec 4) : (s.withError c).lastcmd = s.lastcmd := rfl
@[simp] theorem State.withError_status (s : State) (c : BitVec 4) : (s.withError c).status = s.status.setErr c := rfl
@[simp] theorem State.withError_ecl (s : State) (c : BitVec 4) : (s.withError c).ecl = s.ecl := rfl
@[simp] theorem State.withError_len (s : State) (c : BitVec 4) : (s.withError c).len = s.len := rfl
@[simp] theorem State.withError_entry (s : State) (c : BitVec 4) : (s.withError c).entry = s.entry := rfl
@[simp] theorem State.withError_cur (s : State) (c : BitVec 4) : (s.withError c).cur = s.cur := rfl
@[simp] theorem State.withError_gfP (s : State) (c : BitVec 4) : (s.withError c).gfP = s.gfP := rfl
@[simp] theorem State.withError_genLen (s : State) (c : BitVec 4) : (s.withError c).genLen = s.genLen := rfl
@[simp] theorem State.withError_zzRow (s : State) (c : BitVec 4) : (s.withError c).zzRow = s.zzRow := rfl
@[simp] theorem State.withError_zzCol (s : State) (c : BitVec 4) : (s.withError c).zzCol = s.zzCol := rfl
@[simp] theorem State.withError_zzIdx (s : State) (c : BitVec 4) : (s.withError c).zzIdx = s.zzIdx := rfl
@[simp] theorem State.withError_wmMask (s : State) (c : BitVec 4) : (s.withError c).wmMask = s.wmMask := rfl
@[simp] theorem State.withError_fmtWord (s : State) (c : BitVec 4) : (s.withError c).fmtWord = s.fmtWord := rfl
@[simp] theorem State.withError_viWord (s : State) (c : BitVec 4) : (s.withError c).viWord = s.viWord := rfl
@[simp] theorem State.withError_score (s : State) (c : BitVec 4) : (s.withError c).score = s.score := rfl
@[simp] theorem State.withError_bestId (s : State) (c : BitVec 4) : (s.withError c).bestId = s.bestId := rfl
@[simp] theorem State.withError_bestPen (s : State) (c : BitVec 4) : (s.withError c).bestPen = s.bestPen := rfl
@[simp] theorem State.withError_pen (s : State) (c : BitVec 4) : (s.withError c).pen = s.pen := rfl
@[simp] theorem State.withError_mem (s : State) (c : BitVec 4) : (s.withError c).mem = s.mem := rfl
@[simp] theorem State.withError_faultLog (s : State) (c : BitVec 4) : (s.withError c).faultLog = s.faultLog ++ [.error c] := rfl
@[simp] theorem State.withError_inbox (s : State) (c : BitVec 4) : (s.withError c).inbox = s.inbox := rfl
@[simp] theorem State.withError_response (s : State) (c : BitVec 4) : (s.withError c).response = s.response := rfl
@[simp] theorem State.withError_draws (s : State) (c : BitVec 4) : (s.withError c).draws = s.draws := rfl

@[simp] theorem State.clearRequest_lastcmd (s : State) : s.clearRequest.lastcmd = s.lastcmd := rfl
@[simp] theorem State.clearRequest_status (s : State) : s.clearRequest.status = Status.zero := rfl
@[simp] theorem State.clearRequest_ecl (s : State) : s.clearRequest.ecl = s.ecl := rfl
@[simp] theorem State.clearRequest_len (s : State) : s.clearRequest.len = s.len := rfl
@[simp] theorem State.clearRequest_entry (s : State) : s.clearRequest.entry = Entry.zero := rfl
@[simp] theorem State.clearRequest_cur (s : State) : s.clearRequest.cur = 0 := rfl
@[simp] theorem State.clearRequest_gfP (s : State) : s.clearRequest.gfP = 0 := rfl
@[simp] theorem State.clearRequest_genLen (s : State) : s.clearRequest.genLen = 0 := rfl
@[simp] theorem State.clearRequest_zzRow (s : State) : s.clearRequest.zzRow = 0 := rfl
@[simp] theorem State.clearRequest_zzCol (s : State) : s.clearRequest.zzCol = 0 := rfl
@[simp] theorem State.clearRequest_zzIdx (s : State) : s.clearRequest.zzIdx = 0 := rfl
@[simp] theorem State.clearRequest_wmMask (s : State) : s.clearRequest.wmMask = 0 := rfl
@[simp] theorem State.clearRequest_fmtWord (s : State) : s.clearRequest.fmtWord = 0 := rfl
@[simp] theorem State.clearRequest_viWord (s : State) : s.clearRequest.viWord = 0 := rfl
@[simp] theorem State.clearRequest_score (s : State) : s.clearRequest.score = Score.zero := rfl
@[simp] theorem State.clearRequest_bestId (s : State) : s.clearRequest.bestId = 0 := rfl
@[simp] theorem State.clearRequest_bestPen (s : State) : s.clearRequest.bestPen = 0 := rfl
@[simp] theorem State.clearRequest_pen (s : State) : s.clearRequest.pen = Vector.replicate 8 0 := rfl
@[simp] theorem State.clearRequest_mem (s : State) : s.clearRequest.mem = s.mem := rfl
@[simp] theorem State.clearRequest_faultLog (s : State) : s.clearRequest.faultLog = s.faultLog := rfl
@[simp] theorem State.clearRequest_inbox (s : State) : s.clearRequest.inbox = s.inbox := rfl
@[simp] theorem State.clearRequest_response (s : State) : s.clearRequest.response = s.response := rfl
@[simp] theorem State.clearRequest_draws (s : State) : s.clearRequest.draws = s.draws := rfl

@[simp] theorem State.selectEntry_lastcmd (s : State) (e : Entry) : (s.selectEntry e).lastcmd = s.lastcmd := rfl
@[simp] theorem State.selectEntry_status (s : State) (e : Entry) : (s.selectEntry e).status = s.status.invSel.setSel := rfl
@[simp] theorem State.selectEntry_ecl (s : State) (e : Entry) : (s.selectEntry e).ecl = s.ecl := rfl
@[simp] theorem State.selectEntry_len (s : State) (e : Entry) : (s.selectEntry e).len = s.len := rfl
@[simp] theorem State.selectEntry_entry (s : State) (e : Entry) : (s.selectEntry e).entry = e := rfl
@[simp] theorem State.selectEntry_cur (s : State) (e : Entry) : (s.selectEntry e).cur = s.cur := rfl
@[simp] theorem State.selectEntry_gfP (s : State) (e : Entry) : (s.selectEntry e).gfP = s.gfP := rfl
@[simp] theorem State.selectEntry_genLen (s : State) (e : Entry) : (s.selectEntry e).genLen = s.genLen := rfl
@[simp] theorem State.selectEntry_zzRow (s : State) (e : Entry) : (s.selectEntry e).zzRow = s.zzRow := rfl
@[simp] theorem State.selectEntry_zzCol (s : State) (e : Entry) : (s.selectEntry e).zzCol = s.zzCol := rfl
@[simp] theorem State.selectEntry_zzIdx (s : State) (e : Entry) : (s.selectEntry e).zzIdx = s.zzIdx := rfl
@[simp] theorem State.selectEntry_wmMask (s : State) (e : Entry) : (s.selectEntry e).wmMask = s.wmMask := rfl
@[simp] theorem State.selectEntry_fmtWord (s : State) (e : Entry) : (s.selectEntry e).fmtWord = s.fmtWord := rfl
@[simp] theorem State.selectEntry_viWord (s : State) (e : Entry) : (s.selectEntry e).viWord = s.viWord := rfl
@[simp] theorem State.selectEntry_score (s : State) (e : Entry) : (s.selectEntry e).score = s.score := rfl
@[simp] theorem State.selectEntry_bestId (s : State) (e : Entry) : (s.selectEntry e).bestId = s.bestId := rfl
@[simp] theorem State.selectEntry_bestPen (s : State) (e : Entry) : (s.selectEntry e).bestPen = s.bestPen := rfl
@[simp] theorem State.selectEntry_pen (s : State) (e : Entry) : (s.selectEntry e).pen = s.pen := rfl
@[simp] theorem State.selectEntry_mem (s : State) (e : Entry) : (s.selectEntry e).mem = s.mem := rfl
@[simp] theorem State.selectEntry_faultLog (s : State) (e : Entry) : (s.selectEntry e).faultLog = s.faultLog := rfl
@[simp] theorem State.selectEntry_inbox (s : State) (e : Entry) : (s.selectEntry e).inbox = s.inbox := rfl
@[simp] theorem State.selectEntry_response (s : State) (e : Entry) : (s.selectEntry e).response = s.response := rfl
@[simp] theorem State.selectEntry_draws (s : State) (e : Entry) : (s.selectEntry e).draws = s.draws := rfl

@[simp] theorem State.setStream_lastcmd (s : State) (st : Stream) : (s.setStream st).lastcmd = s.lastcmd := rfl
@[simp] theorem State.setStream_status (s : State) (st : Stream) : (s.setStream st).status = s.status := rfl
@[simp] theorem State.setStream_ecl (s : State) (st : Stream) : (s.setStream st).ecl = s.ecl := rfl
@[simp] theorem State.setStream_len (s : State) (st : Stream) : (s.setStream st).len = s.len := rfl
@[simp] theorem State.setStream_entry (s : State) (st : Stream) : (s.setStream st).entry = s.entry := rfl
@[simp] theorem State.setStream_cur (s : State) (st : Stream) : (s.setStream st).cur = BitVec.ofNat 15 st.cur := rfl
@[simp] theorem State.setStream_gfP (s : State) (st : Stream) : (s.setStream st).gfP = s.gfP := rfl
@[simp] theorem State.setStream_genLen (s : State) (st : Stream) : (s.setStream st).genLen = s.genLen := rfl
@[simp] theorem State.setStream_zzRow (s : State) (st : Stream) : (s.setStream st).zzRow = s.zzRow := rfl
@[simp] theorem State.setStream_zzCol (s : State) (st : Stream) : (s.setStream st).zzCol = s.zzCol := rfl
@[simp] theorem State.setStream_zzIdx (s : State) (st : Stream) : (s.setStream st).zzIdx = s.zzIdx := rfl
@[simp] theorem State.setStream_wmMask (s : State) (st : Stream) : (s.setStream st).wmMask = s.wmMask := rfl
@[simp] theorem State.setStream_fmtWord (s : State) (st : Stream) : (s.setStream st).fmtWord = s.fmtWord := rfl
@[simp] theorem State.setStream_viWord (s : State) (st : Stream) : (s.setStream st).viWord = s.viWord := rfl
@[simp] theorem State.setStream_score (s : State) (st : Stream) : (s.setStream st).score = s.score := rfl
@[simp] theorem State.setStream_bestId (s : State) (st : Stream) : (s.setStream st).bestId = s.bestId := rfl
@[simp] theorem State.setStream_bestPen (s : State) (st : Stream) : (s.setStream st).bestPen = s.bestPen := rfl
@[simp] theorem State.setStream_pen (s : State) (st : Stream) : (s.setStream st).pen = s.pen := rfl
@[simp] theorem State.setStream_mem (s : State) (st : Stream) : (s.setStream st).mem = st.mem := rfl
@[simp] theorem State.setStream_faultLog (s : State) (st : Stream) : (s.setStream st).faultLog = s.faultLog := rfl
@[simp] theorem State.setStream_inbox (s : State) (st : Stream) : (s.setStream st).inbox = s.inbox := rfl
@[simp] theorem State.setStream_response (s : State) (st : Stream) : (s.setStream st).response = s.response := rfl
@[simp] theorem State.setStream_draws (s : State) (st : Stream) : (s.setStream st).draws = s.draws := rfl

@[simp] theorem State.storeGenerator_lastcmd (s : State) (n : Nat) : (s.storeGenerator n).lastcmd = s.lastcmd := rfl
@[simp] theorem State.storeGenerator_status (s : State) (n : Nat) : (s.storeGenerator n).status = s.status.setGen := rfl
@[simp] theorem State.storeGenerator_ecl (s : State) (n : Nat) : (s.storeGenerator n).ecl = s.ecl := rfl
@[simp] theorem State.storeGenerator_len (s : State) (n : Nat) : (s.storeGenerator n).len = s.len := rfl
@[simp] theorem State.storeGenerator_entry (s : State) (n : Nat) : (s.storeGenerator n).entry = s.entry := rfl
@[simp] theorem State.storeGenerator_cur (s : State) (n : Nat) : (s.storeGenerator n).cur = s.cur := rfl
@[simp] theorem State.storeGenerator_gfP (s : State) (n : Nat) : (s.storeGenerator n).gfP = s.gfP := rfl
@[simp] theorem State.storeGenerator_genLen (s : State) (n : Nat) : (s.storeGenerator n).genLen = BitVec.ofNat 7 n := rfl
@[simp] theorem State.storeGenerator_zzRow (s : State) (n : Nat) : (s.storeGenerator n).zzRow = s.zzRow := rfl
@[simp] theorem State.storeGenerator_zzCol (s : State) (n : Nat) : (s.storeGenerator n).zzCol = s.zzCol := rfl
@[simp] theorem State.storeGenerator_zzIdx (s : State) (n : Nat) : (s.storeGenerator n).zzIdx = s.zzIdx := rfl
@[simp] theorem State.storeGenerator_wmMask (s : State) (n : Nat) : (s.storeGenerator n).wmMask = s.wmMask := rfl
@[simp] theorem State.storeGenerator_fmtWord (s : State) (n : Nat) : (s.storeGenerator n).fmtWord = s.fmtWord := rfl
@[simp] theorem State.storeGenerator_viWord (s : State) (n : Nat) : (s.storeGenerator n).viWord = s.viWord := rfl
@[simp] theorem State.storeGenerator_score (s : State) (n : Nat) : (s.storeGenerator n).score = s.score := rfl
@[simp] theorem State.storeGenerator_bestId (s : State) (n : Nat) : (s.storeGenerator n).bestId = s.bestId := rfl
@[simp] theorem State.storeGenerator_bestPen (s : State) (n : Nat) : (s.storeGenerator n).bestPen = s.bestPen := rfl
@[simp] theorem State.storeGenerator_pen (s : State) (n : Nat) : (s.storeGenerator n).pen = s.pen := rfl
@[simp] theorem State.storeGenerator_mem (s : State) (n : Nat) : (s.storeGenerator n).mem = s.mem.writeList .gen 0 (generator n) := rfl
@[simp] theorem State.storeGenerator_faultLog (s : State) (n : Nat) : (s.storeGenerator n).faultLog = s.faultLog := rfl
@[simp] theorem State.storeGenerator_inbox (s : State) (n : Nat) : (s.storeGenerator n).inbox = s.inbox := rfl
@[simp] theorem State.storeGenerator_response (s : State) (n : Nat) : (s.storeGenerator n).response = s.response := rfl
@[simp] theorem State.storeGenerator_draws (s : State) (n : Nat) : (s.storeGenerator n).draws = s.draws := rfl

@[simp] theorem State.accept_lastcmd (s : State) (w : Word) : (s.accept w).lastcmd = w := rfl
@[simp] theorem State.accept_status (s : State) (w : Word) : (s.accept w).status = s.status := rfl
@[simp] theorem State.accept_ecl (s : State) (w : Word) : (s.accept w).ecl = s.ecl := rfl
@[simp] theorem State.accept_len (s : State) (w : Word) : (s.accept w).len = s.len := rfl
@[simp] theorem State.accept_entry (s : State) (w : Word) : (s.accept w).entry = s.entry := rfl
@[simp] theorem State.accept_cur (s : State) (w : Word) : (s.accept w).cur = s.cur := rfl
@[simp] theorem State.accept_gfP (s : State) (w : Word) : (s.accept w).gfP = s.gfP := rfl
@[simp] theorem State.accept_genLen (s : State) (w : Word) : (s.accept w).genLen = s.genLen := rfl
@[simp] theorem State.accept_zzRow (s : State) (w : Word) : (s.accept w).zzRow = s.zzRow := rfl
@[simp] theorem State.accept_zzCol (s : State) (w : Word) : (s.accept w).zzCol = s.zzCol := rfl
@[simp] theorem State.accept_zzIdx (s : State) (w : Word) : (s.accept w).zzIdx = s.zzIdx := rfl
@[simp] theorem State.accept_wmMask (s : State) (w : Word) : (s.accept w).wmMask = s.wmMask := rfl
@[simp] theorem State.accept_fmtWord (s : State) (w : Word) : (s.accept w).fmtWord = s.fmtWord := rfl
@[simp] theorem State.accept_viWord (s : State) (w : Word) : (s.accept w).viWord = s.viWord := rfl
@[simp] theorem State.accept_score (s : State) (w : Word) : (s.accept w).score = s.score := rfl
@[simp] theorem State.accept_bestId (s : State) (w : Word) : (s.accept w).bestId = s.bestId := rfl
@[simp] theorem State.accept_bestPen (s : State) (w : Word) : (s.accept w).bestPen = s.bestPen := rfl
@[simp] theorem State.accept_pen (s : State) (w : Word) : (s.accept w).pen = s.pen := rfl
@[simp] theorem State.accept_mem (s : State) (w : Word) : (s.accept w).mem = s.mem := rfl
@[simp] theorem State.accept_faultLog (s : State) (w : Word) : (s.accept w).faultLog = s.faultLog := rfl
@[simp] theorem State.accept_inbox (s : State) (w : Word) : (s.accept w).inbox = s.inbox := rfl
@[simp] theorem State.accept_response (s : State) (w : Word) : (s.accept w).response = some .done := rfl
@[simp] theorem State.accept_draws (s : State) (w : Word) : (s.accept w).draws = s.draws := rfl

@[simp] theorem State.platformReset_lastcmd (s : State) : s.platformReset.lastcmd = 0 := rfl
@[simp] theorem State.platformReset_status (s : State) : s.platformReset.status = Status.zero := rfl
@[simp] theorem State.platformReset_ecl (s : State) : s.platformReset.ecl = 0 := rfl
@[simp] theorem State.platformReset_len (s : State) : s.platformReset.len = 0 := rfl
@[simp] theorem State.platformReset_entry (s : State) : s.platformReset.entry = Entry.zero := rfl
@[simp] theorem State.platformReset_cur (s : State) : s.platformReset.cur = 0 := rfl
@[simp] theorem State.platformReset_gfP (s : State) : s.platformReset.gfP = 0 := rfl
@[simp] theorem State.platformReset_genLen (s : State) : s.platformReset.genLen = 0 := rfl
@[simp] theorem State.platformReset_zzRow (s : State) : s.platformReset.zzRow = 0 := rfl
@[simp] theorem State.platformReset_zzCol (s : State) : s.platformReset.zzCol = 0 := rfl
@[simp] theorem State.platformReset_zzIdx (s : State) : s.platformReset.zzIdx = 0 := rfl
@[simp] theorem State.platformReset_wmMask (s : State) : s.platformReset.wmMask = 0 := rfl
@[simp] theorem State.platformReset_fmtWord (s : State) : s.platformReset.fmtWord = 0 := rfl
@[simp] theorem State.platformReset_viWord (s : State) : s.platformReset.viWord = 0 := rfl
@[simp] theorem State.platformReset_score (s : State) : s.platformReset.score = Score.zero := rfl
@[simp] theorem State.platformReset_bestId (s : State) : s.platformReset.bestId = 0 := rfl
@[simp] theorem State.platformReset_bestPen (s : State) : s.platformReset.bestPen = 0 := rfl
@[simp] theorem State.platformReset_pen (s : State) : s.platformReset.pen = Vector.replicate 8 0 := rfl
@[simp] theorem State.platformReset_mem (s : State) : s.platformReset.mem = Memory.empty := rfl
@[simp] theorem State.platformReset_faultLog (s : State) : s.platformReset.faultLog = s.faultLog := rfl
@[simp] theorem State.platformReset_inbox (s : State) : s.platformReset.inbox = s.inbox := rfl
@[simp] theorem State.platformReset_response (s : State) : s.platformReset.response = none := rfl
@[simp] theorem State.platformReset_draws (s : State) : s.platformReset.draws = s.draws := rfl

@[simp] theorem State.stream_mem (s : State) : s.stream.mem = s.mem := rfl
@[simp] theorem State.stream_cur (s : State) : s.stream.cur = s.cur.toNat := rfl

@[simp] theorem Status.zero_err : Status.zero.err = 0#4 := rfl

end Sys2Proof.Machine
end

