-- ==== Sys2Proof/Laws/Ops.lean ====
section
/-! SUPPORT. What the shared operations can answer, once for each: sticky errors, preconditions, reads that may fault,
raising an error, and the composed updates of 41_capacity_select and 43_reed_solomon. -/

-- One theorem at a time: each proof in flight holds a thread's whole stack.
set_option Elab.async false

namespace Sys2Proof.Machine

/-! ### Control of a meaning -/

theorem unlessError_ok {s : State} (h : s.status.err = 0#4) (body : State → Result) : unlessError s body = body s := by
  simp [unlessError, h]

theorem unlessError_ignored {s : State} (h : s.status.err ≠ 0#4) (body : State → Result) :
    unlessError s body = .next s := by
  simp [unlessError, h]

theorem unlessError_next {s t : State} {body : State → Result} (h : unlessError s body = .next t) :
    (s.status.err ≠ 0#4 ∧ t = s) ∨ (s.status.err = 0#4 ∧ body s = .next t) := by
  by_cases he : s.status.err = 0#4
  · exact .inr ⟨he, by rwa [unlessError_ok he] at h⟩
  · rw [unlessError_ignored he] at h
    exact .inl ⟨he, (Host.Outcome.next.inj h).symm⟩

theorem unlessError_fault {s : State} {f : Fault} {body : State → Result} (h : unlessError s body = .fault f) :
    s.status.err = 0#4 ∧ body s = .fault f := by
  by_cases he : s.status.err = 0#4
  · exact ⟨he, by rwa [unlessError_ok he] at h⟩
  · rw [unlessError_ignored he] at h; cases h

theorem raiseError_next {c : BitVec 4} {s t : State} (h : raiseError c s = .next t) : t = s.withError c :=
  (Host.Outcome.next.inj h).symm

theorem require_true {ok : Bool} (h : ok = true) (s : State) (k : Result) : require ok s k = k := by simp [require, h]

theorem require_false {ok : Bool} (h : ok = false) (s : State) (k : Result) :
    require ok s k = .next (s.withError errSequence) := by simp [require, h, raiseError]

theorem require_next {ok : Bool} {s t : State} {k : Result} (h : require ok s k = .next t) :
    (ok = false ∧ t = s.withError errSequence) ∨ (ok = true ∧ k = .next t) := by
  cases ok
  · rw [require_false rfl] at h; exact .inl ⟨rfl, (Host.Outcome.next.inj h).symm⟩
  · rw [require_true rfl] at h; exact .inr ⟨rfl, h⟩

theorem require_fault {ok : Bool} {s : State} {f : Fault} {k : Result} (h : require ok s k = .fault f) :
    ok = true ∧ k = .fault f := by
  cases ok
  · rw [require_false rfl] at h; cases h
  · rw [require_true rfl] at h; exact ⟨rfl, h⟩

theorem raiseUnwritten_fault {u : Unwritten} {s : State} {f : Fault} (h : raiseUnwritten u s = .fault f) :
    f = .unwritten u (s.faultLog ++ [.unwritten u]) := (Host.Outcome.fault.inj h).symm

theorem orFault_next {α : Type} {s t : State} {r : Except Unwritten α} {k : α → Result} :
    orFault s r k = .next t ↔ ∃ a, r = .ok a ∧ k a = .next t := by
  cases r <;> simp [orFault, raiseUnwritten]

theorem orFault_fault {α : Type} {s : State} {r : Except Unwritten α} {k : α → Result} {f : Fault} :
    orFault s r k = .fault f ↔
      (∃ u, r = .error u ∧ f = .unwritten u (s.faultLog ++ [.unwritten u])) ∨ ∃ a, r = .ok a ∧ k a = .fault f := by
  cases r <;> simp [orFault, raiseUnwritten, eq_comm]

theorem andThen_next {r : Result} {k : State → Result} {t : State} :
    andThen r k = .next t ↔ ∃ s, r = .next s ∧ k s = .next t := by
  cases r <;> simp [andThen]

theorem andThen_fault {r : Result} {k : State → Result} {f : Fault} :
    andThen r k = .fault f ↔ r = .fault f ∨ ∃ s, r = .next s ∧ k s = .fault f := by
  cases r <;> simp [andThen]

/-! ### Flags -/

/-- The error flag is what every invalidation keeps. -/
theorem Status.err_invSel (t : Status) : t.invSel.setSel.err = t.err := rfl

/-! ### Element reads after a whole-window write -/

/-- Right after a list write from index 0, the elements it covers are read back as the list. -/
theorem Memory.readList_writeList_zero {m : Memory} (hm : m.wf = true) {w : Window} {vals : List Byte}
    (h : vals.length ≤ w.size) : (m.writeList w 0 vals).readList w 0 vals.length = .ok vals := by
  rw [Memory.readList_eq_ok (Memory.wf_writeList w 0 vals hm) (by omega)]
  refine ⟨rfl, fun k hk => ?_⟩
  rw [Memory.read?_writeList, if_pos ⟨rfl, by omega, by omega, by omega⟩]
  simp

/-- A list read of a window that a list write did not touch is unchanged. -/
theorem Memory.readList_writeList_ne {m : Memory} {w w' : Window} (h : w' ≠ w) (i : Nat) (vals : List Byte) (j n : Nat) :
    (m.writeList w i vals).readList w' j n = m.readList w' j n := by
  simp only [Memory.readList, Memory.writeList, Memory.window_setWindow, if_neg h]

/-- Listed reads of a window that a list write did not touch are unchanged. -/
theorem Memory.readAt_writeList_ne {m : Memory} {w w' : Window} (h : w' ≠ w) (i : Nat) (vals : List Byte)
    (is : List Nat) : (m.writeList w i vals).readAt w' is = m.readAt w' is := by
  have : ∀ k, (m.writeList w i vals).read? w' k = m.read? w' k := fun k => by
    rw [Memory.read?_writeList, if_neg (by simp [h])]
  simp only [Memory.readAt, this]

/-- Only the written window changes. -/
theorem Memory.window_writeList (m : Memory) (w : Window) (i : Nat) (vals : List Byte) (w' : Window) :
    (m.writeList w i vals).window w' =
      if w' = w then (m.window w).writeList i (vals.take (w.size - i)) else m.window w' := by
  rw [Memory.writeList, Memory.window_setWindow]

theorem Memory.window_write (m : Memory) (w : Window) (i : Nat) (b : Byte) {w' : Window} (h : w' ≠ w) :
    (m.write w i b).window w' = m.window w' := by
  rw [Memory.write]
  split
  · rw [Memory.window_setWindow, if_neg h]
  · rfl

/-! ### Version selection -/

/-- A row of the ROM answers exactly for the versions 1..40. -/
theorem capRow?_isSome (v : Nat) (e : BitVec 2) : (capRow? v e).isSome = true ↔ 1 ≤ v ∧ v ≤ 40 := by
  have hlen : capRows.length = 160 := rfl
  have he := e.isLt
  by_cases h : 1 ≤ v ∧ v ≤ 40
  · have : 4 * (v - 1) + e.toNat < capRows.length := by omega
    simp [capRow?, Config.verMax, h, this]
  · simp [capRow?, Config.verMax, h]

/-- The search finds the least version of its range that fits. -/
theorem firstFit_eq_some {e : BitVec 2} {n k v w : Nat} (h : firstFit e n k v = some w) :
    v ≤ w ∧ w < v + k ∧ fits w e n = true ∧ ∀ u, v ≤ u → u < w → fits u e n = false := by
  induction k generalizing v with
  | zero => simp [firstFit] at h
  | succ k ih =>
    simp only [firstFit] at h
    split at h
    · next hf =>
      obtain rfl := Option.some.inj h
      exact ⟨le_refl _, by omega, hf, fun u _ _ => by omega⟩
    · next hf =>
      obtain ⟨h₁, h₂, h₃, h₄⟩ := ih h
      refine ⟨by omega, by omega, h₃, fun u hu hw => ?_⟩
      by_cases huv : u = v
      · subst huv; simpa using hf
      · exact h₄ u (by omega) hw

/-- The search finds nothing exactly when no version of its range fits. -/
theorem firstFit_eq_none {e : BitVec 2} {n k v : Nat} :
    firstFit e n k v = none ↔ ∀ u, v ≤ u → u < v + k → fits u e n = false := by
  induction k generalizing v with
  | zero => simp only [firstFit, true_iff]; intro u h₁ h₂; omega
  | succ k ih =>
    simp only [firstFit]
    split
    · next hf =>
      simp only [reduceCtorEq, false_iff, not_forall]
      exact ⟨v, le_refl _, by omega, by simp [hf]⟩
    · next hf =>
      rw [ih]
      constructor
      · intro h u h₁ h₂
        by_cases huv : u = v
        · subst huv; simpa using hf
        · exact h u (by omega) (by omega)
      · intro h u h₁ h₂
        exact h u (by omega) (by omega)

/-! ### Reed-Solomon -/

theorem genStep_length (g : List Byte) (i : Nat) : (genStep g i).length = g.length + 1 := by
  simp [genStep]

/-- A generator has one coefficient more than its degree. -/
theorem generator_length (n : Nat) : (generator n).length = n + 1 := by
  induction n with
  | zero => rfl
  | succ n ih => rw [generator, List.range_succ, List.foldl_append]; simpa [genStep_length, generator] using ih

theorem rsStep_length {g r : List Byte} (d : Byte) (hg : g.length = r.length + 1) (hr : 0 < r.length) :
    (rsStep g r d).length = r.length := by
  have h : (r.tail ++ [0#8]).length = r.length := by simp; omega
  simp only [rsStep]
  split
  · exact h
  · simp only [List.length_zipWith, h, List.length_tail, hg]; omega

/-- The register keeps its length: `n` EC codewords for a generator of degree `n`. -/
theorem rsEncode_length {n : Nat} {g ds : List Byte} (hg : g.length = n + 1) (hn : 0 < n) :
    (rsEncode n g ds).length = n := by
  have : ∀ (ds r : List Byte), r.length = n → (ds.foldl (rsStep g) r).length = n := by
    intro ds
    induction ds with
    | nil => intro r hr; exact hr
    | cons d ds ih => intro r hr; exact ih _ (by rw [rsStep_length d (by omega) (by omega), hr])
  exact this ds _ (by simp)

/-- The block loop changes only `ECB` and `RSR`. -/
theorem rsBlocks_window {e : Entry} {g : List Byte} {bs : List Nat} {m m' : Memory} (h : rsBlocks e g bs m = .ok m')
    {w : Window} (h₁ : w ≠ .ecb) (h₂ : w ≠ .rsr) : m'.window w = m.window w := by
  induction bs generalizing m with
  | nil => rw [Except.ok.inj h]
  | cons b bs ih =>
    simp only [rsBlocks] at h
    split at h
    · cases h
    · rw [ih h, Memory.window_writeList, if_neg h₂, Memory.window_writeList, if_neg h₁]

theorem rsBlocks_wf {e : Entry} {g : List Byte} {bs : List Nat} {m m' : Memory} (h : rsBlocks e g bs m = .ok m')
    (hm : m.wf = true) : m'.wf = true := by
  induction bs generalizing m with
  | nil => rwa [← Except.ok.inj h]
  | cons b bs ih =>
    simp only [rsBlocks] at h
    split at h
    · cases h
    · exact ih h (Memory.wf_writeList _ _ _ (Memory.wf_writeList _ _ _ hm))

/-! ### Matrix and mask -/

@[simp] theorem builtCells_length (v : Nat) : (builtCells v).length = Config.cellCap := by
  simp [builtCells]

@[simp] theorem overlay_length (cells : List Byte) (ws : List (Nat × Byte)) : (overlay cells ws).length = cells.length := by
  induction ws generalizing cells with
  | nil => rfl
  | cons w ws ih => simpa [overlay] using ih (cells.set w.1 w.2)

@[simp] theorem placedCells_length (v : Nat) (f : BitVec 15) (m : BitVec 3) (ilv mat : List Byte) :
    (placedCells v f m ilv mat).length = mat.length := by
  simp [placedCells]

/-- An overlay leaves every index it does not name alone. -/
theorem overlay_getElem?_of_notMem {cells : List Byte} {ws : List (Nat × Byte)} {k : Nat} (h : ∀ w ∈ ws, w.1 ≠ k) :
    (overlay cells ws)[k]? = cells[k]? := by
  induction ws generalizing cells with
  | nil => rfl
  | cons w ws ih =>
    have := ih (cells := cells.set w.1 w.2) fun w' hw' => h w' (by simp [hw'])
    simp only [overlay, List.foldl_cons] at this ⊢
    rw [this, List.getElem?_set_ne (h w (by simp))]

/-- What `PLACE m` can do: it answers exactly when `MAT` and `ILV` can be read, and then with the candidate in `WM`. -/
theorem placeMask_eq_ok {m : BitVec 3} {s t : State} (h : placeMask m s = .ok t) :
    ∃ mat ilv, s.mem.readList .mat 0 Config.cellCap = .ok mat ∧ s.mem.readList .ilv 0 s.entry.totalCw.toNat = .ok ilv ∧
      t = (((s.setMem (s.mem.writeList .wm 0 (placedCells s.entry.ver.toNat (formatWord s.entry.secl m) m ilv mat))).setFmt
        (formatWord s.entry.secl m)).setWmMask m).setStatus s.status.setPlaced := by
  simp only [placeMask] at h
  split at h
  · cases h
  · next mat hmat =>
    split at h
    · cases h
    · next ilv hilv => exact ⟨mat, ilv, hmat, hilv, (Except.ok.inj h).symm⟩

/-- What `SCORE` can do. -/
theorem scoreMask_eq_ok {s t : State} (h : scoreMask s = .ok t) :
    ∃ rows, readRows s.mem (side s.entry.ver.toNat) (side s.entry.ver.toNat) 0 = .ok rows ∧
      t = ((s.setScore (scoreOf rows)).setPen s.wmMask (scoreOf rows).ptotal).setStatus (s.status.setScored s.wmMask) := by
  simp only [scoreMask] at h
  split at h
  · cases h
  · next rows hrows => exact ⟨rows, hrows, (Except.ok.inj h).symm⟩

/-- What trying one mask can do: placing it, then scoring it. -/
theorem tryMask_eq_ok {m : BitVec 3} {s t : State} (h : tryMask m s = .ok t) :
    ∃ u, placeMask m s = .ok u ∧ scoreMask u = .ok t := by
  simp only [tryMask] at h
  split at h
  · cases h
  · next u hu => exact ⟨u, hu, h⟩

/-- What `MASK_SELECT` can do: the ascending loop, then the winner placed and scored again. -/
theorem selectMask_eq_ok {s t : State} (h : selectMask s = .ok t) :
    ∃ s₁ best s₂, tryMasks allMasks none s = .ok (s₁, best) ∧
      tryMask (best.getD (0#3, 0#32)).1 (s₁.setBest (best.getD (0#3, 0#32)).1 (best.getD (0#3, 0#32)).2) = .ok s₂ ∧
      t = s₂.setStatus s₂.status.setBest := by
  simp only [selectMask] at h
  split at h
  · cases h
  · next s₁ best h₁ =>
    split at h
    · cases h
    · next s₂ h₂ => exact ⟨s₁, best, s₂, h₁, h₂, (Except.ok.inj h).symm⟩

end Sys2Proof.Machine
end

