-- ==== Sys2Proof/Laws/PerInstr.lean ====
section
/-! SUPPORT. Statements about every command as syntax, one lemma per constructor. Family `OpcodeByte`: the low byte of a
command's word is the opcode 30_encoding R304 gives it, whatever the operands. -/

-- One theorem at a time: each proof in flight holds a thread's whole stack.
set_option Elab.async false

namespace Sys2Proof.Laws

/-- The opcode R304 gives a command. -/
def opcodeByte : Instr → BitVec 8
  | .nop => 0x00#8
  | .clear => 0x01#8
  | .gfInit => 0x02#8
  | .gfMul _ _ => 0x03#8
  | .capLookup _ _ => 0x10#8
  | .select => 0x11#8
  | .compose => 0x20#8
  | .bsReset => 0x21#8
  | .bsAppend _ _ => 0x22#8
  | .bsTerminate => 0x23#8
  | .bsPad => 0x24#8
  | .genPoly _ => 0x30#8
  | .rsEncode _ _ => 0x31#8
  | .rsAll => 0x32#8
  | .interleave => 0x40#8
  | .build => 0x50#8
  | .verCalc _ => 0x51#8
  | .fmtCalc _ _ => 0x52#8
  | .zzReset => 0x53#8
  | .zzNext => 0x54#8
  | .place _ => 0x60#8
  | .score => 0x61#8
  | .maskSelect => 0x62#8
  | .encode => 0x70#8

/-- The low byte of a word built from a high part and an opcode is the opcode. -/
theorem opcodeOf_append (a : BitVec 24) (op : BitVec 8) : opcodeOf (a ++ op) = op := by
  apply BitVec.eq_of_getLsbD_eq
  intro k hk
  simp only [opcodeOf, BitVec.getLsbD_extractLsb', hk, decide_true, Bool.true_and, Nat.zero_add,
    BitVec.getLsbD_append, if_true]

end Sys2Proof.Laws

namespace Sys2Proof.Laws.OpcodeByte

/-- The low byte of the command's word is its opcode. -/
def Statement (i : Instr) : Prop := opcodeOf (encode i) = opcodeByte i

theorem nop : Statement .nop := opcodeOf_append _ _
theorem clear : Statement .clear := opcodeOf_append _ _
theorem gfInit : Statement .gfInit := opcodeOf_append _ _
theorem gfMul (a b : BitVec 8) : Statement (.gfMul a b) := opcodeOf_append _ _
theorem capLookup (v : BitVec 6) (e : BitVec 2) : Statement (.capLookup v e) := opcodeOf_append _ _
theorem select : Statement .select := opcodeOf_append _ _
theorem compose : Statement .compose := opcodeOf_append _ _
theorem bsReset : Statement .bsReset := opcodeOf_append _ _
theorem bsAppend (w : BitVec 5) (x : BitVec 16) : Statement (.bsAppend w x) := opcodeOf_append _ _
theorem bsTerminate : Statement .bsTerminate := opcodeOf_append _ _
theorem bsPad : Statement .bsPad := opcodeOf_append _ _
theorem genPoly (n : BitVec 8) : Statement (.genPoly n) := opcodeOf_append _ _
theorem rsEncode (o : BitVec 12) (l : BitVec 8) : Statement (.rsEncode o l) := opcodeOf_append _ _
theorem rsAll : Statement .rsAll := opcodeOf_append _ _
theorem interleave : Statement .interleave := opcodeOf_append _ _
theorem build : Statement .build := opcodeOf_append _ _
theorem verCalc (v : BitVec 6) : Statement (.verCalc v) := opcodeOf_append _ _
theorem fmtCalc (e : BitVec 2) (m : BitVec 3) : Statement (.fmtCalc e m) := opcodeOf_append _ _
theorem zzReset : Statement .zzReset := opcodeOf_append _ _
theorem zzNext : Statement .zzNext := opcodeOf_append _ _
theorem place (m : BitVec 3) : Statement (.place m) := opcodeOf_append _ _
theorem score : Statement .score := opcodeOf_append _ _
theorem maskSelect : Statement .maskSelect := opcodeOf_append _ _
theorem encode : Statement .encode := opcodeOf_append _ _

end Sys2Proof.Laws.OpcodeByte
end

