-- ==== Sys2Proof/Laws/Stream.lean ====
section
/-! SUPPORT. What appending to the bitstream does (42_bitstream R602): which bits and bytes change, and that it cannot
fault where a byte's first bit has been written. -/

-- One theorem at a time: each proof in flight holds a thread's whole stack.
set_option Elab.async false

namespace Sys2Proof.Machine

theorem setBit_getLsbD (old : Byte) {k j : Nat} (b : Bool) (hk : k < 8) (hj : j < 8) :
    (setBit old k b).getLsbD j = if j = k then b else old.getLsbD j := by
  by_cases h : j = k
  · cases b <;> simp [setBit, h, hk]
  · by_cases hlt : j < k
    · cases b <;> simp [setBit, h, hj, hlt]
    · have : ¬ j - k = 0 := by omega
      cases b <;> simp [setBit, h, hj, hlt, this]

/-- The stream can take a bit: the cursor is inside `BS` and the byte it is in the middle of has been written. -/
def Stream.Open (st : Stream) : Prop :=
  st.cur % 8 ≠ 0 → (st.mem.read? .bs (st.cur / 8)).isSome = true

/-- Appending one bit (R602): it is set, the rest of a fresh byte is 0, every other bit and byte is kept. -/
theorem appendBit_spec (b : Bool) {st : Stream} (hcap : st.cur < 8 * Config.bsCap) (hopen : st.Open) :
    ∃ st', appendBit b st = .ok st' ∧ st'.cur = st.cur + 1 ∧
      st'.mem.bsBit st.cur = some b ∧
      (∀ p, p ≠ st.cur → st'.mem.bsBit p =
        if p / 8 = st.cur / 8 ∧ st.cur % 8 = 0 then some false else st.mem.bsBit p) ∧
      (∀ w k, w ≠ .bs ∨ k ≠ st.cur / 8 → st'.mem.read? w k = st.mem.read? w k) ∧
      (st'.mem.read? .bs (st.cur / 8)).isSome = true := by
  have hsz : st.cur / 8 < Window.size .bs := by simp only [Window.size, Config.bsCap] at *; omega
  have main : ∀ old : Byte, (st.cur % 8 = 0 → old = 0#8) → (st.cur % 8 ≠ 0 → st.mem.read? .bs (st.cur / 8) = some old) →
      ∀ m', m' = st.mem.write .bs (st.cur / 8) (setBit old (7 - st.cur % 8) b) →
      m'.bsBit st.cur = some b ∧
      (∀ p, p ≠ st.cur → m'.bsBit p = if p / 8 = st.cur / 8 ∧ st.cur % 8 = 0 then some false else st.mem.bsBit p) ∧
      (∀ w k, w ≠ .bs ∨ k ≠ st.cur / 8 → m'.read? w k = st.mem.read? w k) ∧
      (m'.read? .bs (st.cur / 8)).isSome = true := by
    rintro old h0 h1 m' rfl
    refine ⟨?_, ?_, ?_, ?_⟩
    · simp [Memory.bsBit, Memory.read?_write, hsz, setBit_getLsbD _ _ (show 7 - st.cur % 8 < 8 by omega)
        (show 7 - st.cur % 8 < 8 by omega)]
    · intro p hp
      by_cases hb : p / 8 = st.cur / 8
      · simp only [Memory.bsBit, Memory.read?_write, hsz, hb, and_self, if_true, Option.map_some, true_and]
        rw [setBit_getLsbD _ _ (by omega) (by omega), if_neg (by omega)]
        by_cases hz : st.cur % 8 = 0
        · simp [hz, h0 hz]
        · simp [hz, h1 hz]
      · simp [Memory.bsBit, Memory.read?_write, hb]
    · intro w k h
      rw [Memory.read?_write, if_neg (by tauto)]
    · simp [Memory.read?_write, hsz]
  by_cases hz : st.cur % 8 = 0
  · refine ⟨⟨st.mem.write .bs (st.cur / 8) (setBit 0#8 (7 - st.cur % 8) b), st.cur + 1⟩, by simp [appendBit, hz], rfl, ?_⟩
    exact main 0#8 (fun _ => rfl) (fun h => absurd hz h) _ rfl
  · obtain ⟨old, hold⟩ := Option.isSome_iff_exists.1 (hopen hz)
    refine ⟨⟨st.mem.write .bs (st.cur / 8) (setBit old (7 - st.cur % 8) b), st.cur + 1⟩,
      by simp only [appendBit, hz, if_false, Memory.readElem_eq, hold], rfl, ?_⟩
    exact main old (fun h => absurd h hz) (fun _ => hold) _ rfl

/-- What appending bits does (R602): the bits are there in order, the bits below are kept, a byte begun by these bits is
0 past them, and every other element of every window is kept. -/
theorem appendBits_spec (bs : List Bool) {st : Stream} (hcap : st.cur + bs.length ≤ 8 * Config.bsCap) (hopen : st.Open) :
    ∃ st', appendBits bs st = .ok st' ∧ st'.cur = st.cur + bs.length ∧ st'.Open ∧
      (∀ k < bs.length, st'.mem.bsBit (st.cur + k) = bs[k]?) ∧
      (∀ p < st.cur, st'.mem.bsBit p = st.mem.bsBit p) ∧
      (∀ p, st.cur + bs.length ≤ p → p / 8 < (st.cur + bs.length + 7) / 8 →
        st'.mem.bsBit p = if st.cur ≤ 8 * (p / 8) then some false else st.mem.bsBit p) ∧
      (∀ w k, w ≠ .bs ∨ k < st.cur / 8 ∨ (st.cur + bs.length + 7) / 8 ≤ k → st'.mem.read? w k = st.mem.read? w k) ∧
      (∀ k, st.cur / 8 ≤ k → k < (st.cur + bs.length + 7) / 8 → (st'.mem.read? .bs k).isSome = true) := by
  induction bs generalizing st with
  | nil =>
    refine ⟨st, rfl, rfl, hopen, by simp, by simp, ?_, by simp, ?_⟩
    · intro p h₁ h₂
      simp only [List.length_nil, Nat.add_zero] at h₁ h₂
      rw [if_neg (by omega)]
    · intro k h₁ h₂
      simp only [List.length_nil, Nat.add_zero] at h₁ h₂
      have : k = st.cur / 8 := by omega
      subst this
      exact hopen (by omega)
  | cons b bs ih =>
    simp only [List.length_cons] at hcap
    obtain ⟨st₁, e₁, c₁, b₁, o₁, f₁, w₁⟩ := appendBit_spec b (st := st) (by omega) hopen
    have hopen₁ : st₁.Open := by
      intro h
      rw [c₁] at h ⊢
      have : (st.cur + 1) / 8 = st.cur / 8 := by omega
      rwa [this]
    obtain ⟨st₂, e₂, c₂, o₂, bits₂, low₂, high₂, f₂, w₂⟩ := ih (st := st₁) (by omega) hopen₁
    rw [c₁] at c₂ bits₂ low₂ high₂ f₂ w₂
    refine ⟨st₂, by simp only [appendBits, e₁, e₂], by simp only [List.length_cons]; omega, o₂, ?_, ?_, ?_, ?_, ?_⟩
    · intro k hk
      cases k with
      | zero => rw [Nat.add_zero, low₂ _ (by omega), b₁]; rfl
      | succ k =>
        have := bits₂ k (by simpa using hk)
        rw [show st.cur + (k + 1) = st.cur + 1 + k by omega, this]; rfl
    · intro p hp
      rw [low₂ _ (by omega), o₁ p (by omega), if_neg (by omega)]
    · intro p h₁ h₂
      simp only [List.length_cons] at h₁ h₂
      rw [high₂ p (by omega) (by rwa [show st.cur + 1 + bs.length = st.cur + (bs.length + 1) by omega])]
      by_cases h : st.cur + 1 ≤ 8 * (p / 8)
      · rw [if_pos h, if_pos (by omega)]
      · rw [if_neg h, o₁ p (by omega)]
        by_cases h' : st.cur ≤ 8 * (p / 8)
        · rw [if_pos h', if_pos (by omega)]
        · rw [if_neg h', if_neg (by omega)]
    · intro w k h
      simp only [List.length_cons] at h
      by_cases hw : w = .bs
      · subst hw
        rcases h with h | h | h
        · exact absurd rfl h
        · rw [f₂ _ _ (.inr (.inl (by omega))), f₁ _ _ (.inr (by omega))]
        · rw [f₂ _ _ (.inr (.inr (by omega))), f₁ _ _ (.inr (by omega))]
      · rw [f₂ _ _ (.inl hw), f₁ _ _ (.inl hw)]
    · intro k h₁ h₂
      simp only [List.length_cons] at h₂
      by_cases hk : (st.cur + 1) / 8 ≤ k
      · exact w₂ k hk (by omega)
      · have : k = st.cur / 8 := by omega
        subst this
        rw [f₂ _ _ (.inr (.inl (by omega)))]
        exact w₁

@[simp] theorem bitsOf_length (x n : Nat) : (bitsOf x n).length = n := by
  induction n with
  | zero => rfl
  | succ n ih => simp [bitsOf, ih]

/-- Bit `k` of a field of width `n` from the left is bit `n - 1 - k` of its value (20_memory R206). -/
theorem bitsOf_getElem? (x : Nat) {n k : Nat} (h : k < n) : (bitsOf x n)[k]? = some (x.testBit (n - 1 - k)) := by
  induction n generalizing k with
  | zero => omega
  | succ n ih =>
    cases k with
    | zero => simp [bitsOf]
    | succ k => simp only [bitsOf, List.getElem?_cons_succ]; rw [ih (by omega)]; congr 2; omega

theorem bitsOf_zero (n : Nat) : bitsOf 0 n = List.replicate n false := by
  induction n with
  | zero => rfl
  | succ n ih => simp [bitsOf, ih, List.replicate_succ]

/-- Appending in two parts is appending once. -/
theorem appendBits_append (as bs : List Bool) (st : Stream) :
    appendBits (as ++ bs) st = match appendBits as st with
      | .error f => .error f
      | .ok st' => appendBits bs st' := by
  induction as generalizing st with
  | nil => rfl
  | cons a as ih =>
    simp only [List.cons_append, appendBits]
    cases appendBit a st with
    | error f => rfl
    | ok st' => exact ih st'

/-- Appending fields is appending their bits. -/
theorem appendFields_eq (fs : List (Nat × Nat)) (st : Stream) : appendFields fs st = appendBits (fieldBits fs) st := by
  induction fs generalizing st with
  | nil => rfl
  | cons f fs ih =>
    obtain ⟨w, x⟩ := f
    simp only [appendFields, fieldBits, List.flatMap_cons, appendBits_append, appendField]
    cases appendBits (bitsOf x w) st with
    | error f => rfl
    | ok st' => exact ih st'

/-- The terminator and the byte padding are zero bits: `t` of them, then up to the next byte boundary (R612). -/
theorem terminate_eq {cap : Nat} {st : Stream} {t : Nat} (ht : t = min 4 (cap - st.cur))
    (hcap : st.cur + t + (8 - (st.cur + t) % 8) % 8 ≤ 8 * Config.bsCap) (hopen : st.Open) :
    terminate cap st = appendBits (List.replicate (t + (8 - (st.cur + t) % 8) % 8) false) st := by
  subst ht
  simp only [terminate, appendField, bitsOf_zero, ← List.replicate_append_replicate, appendBits_append]
  obtain ⟨st₁, e₁, c₁, -⟩ := appendBits_spec (List.replicate (min 4 (cap - st.cur)) false) (st := st)
    (by simp only [List.length_replicate]; omega) hopen
  simp only [e₁, c₁, List.length_replicate]

theorem fieldBits_length (fs : List (Nat × Nat)) : (fieldBits fs).length = (fs.map Prod.fst).sum := by
  induction fs with
  | nil => rfl
  | cons f fs ih => simp [fieldBits]

theorem padFields_bits_length (k : Nat) (even : Bool) : (fieldBits (padFields k even)).length = 8 * k := by
  rw [fieldBits_length]
  induction k generalizing even with
  | zero => rfl
  | succ k ih => simp only [padFields, List.map_cons, List.sum_cons, ih]; omega

/-- The digit groups take the bits R506 counts. -/
theorem digitFields_bits_length (ds : List Nat) : (fieldBits (digitFields ds)).length = contentBits ds.length := by
  rw [fieldBits_length]
  induction ds using digitFields.induct with
  | case1 a b c ds ih =>
    simp only [digitFields, List.map_cons, List.sum_cons, ih, contentBits, List.length_cons]
    have h₁ : (ds.length + 1 + 1 + 1) / 3 = ds.length / 3 + 1 := by omega
    have h₂ : (ds.length + 1 + 1 + 1) % 3 = ds.length % 3 := by omega
    rw [h₁, h₂]; omega
  | case2 a b => simp [digitFields, contentBits]
  | case3 a => simp [digitFields, contentBits]
  | case4 => simp [digitFields, contentBits]

end Sys2Proof.Machine
end

