-- ==== Sys2Proof/Tests/Slice0.lean ====
section
/-! SUPPORT. The model's own tests: ill-formed commands refused, words written out from 30_encoding R301, at most two small
tests per command with expected values from the spec's examples, and for every statement with hypotheses a witness that
meets them. -/

-- One theorem at a time: each proof in flight holds a thread's whole stack.
set_option Elab.async false

namespace Sys2Proof.Tests

open Sys2Proof Sys2Proof.Machine

/-! ### Well-formedness: an ill-formed term for each check, beside the legal bounds -/

theorem test_illFormed_capLookup : Instr.wellFormed (.capLookup 0#6 0#2) = false ∧
    Instr.wellFormed (.capLookup 41#6 0#2) = false ∧ Instr.wellFormed (.capLookup 40#6 3#2) = true := by decide
theorem test_illFormed_bsAppend : Instr.wellFormed (.bsAppend 0#5 1#16) = false ∧
    Instr.wellFormed (.bsAppend 17#5 1#16) = false ∧ Instr.wellFormed (.bsAppend 16#5 1#16) = true := by decide
theorem test_illFormed_genPoly : Instr.wellFormed (.genPoly 0#8) = false ∧ Instr.wellFormed (.genPoly 69#8) = false ∧
    Instr.wellFormed (.genPoly 68#8) = true := by decide
theorem test_illFormed_rsEncode : Instr.wellFormed (.rsEncode 2956#12 1#8) = false ∧
    Instr.wellFormed (.rsEncode 2955#12 1#8) = true := by decide
theorem test_illFormed_verCalc : Instr.wellFormed (.verCalc 0#6) = false ∧ Instr.wellFormed (.verCalc 41#6) = false ∧
    Instr.wellFormed (.verCalc 1#6) = true := by decide

/-! ### Decoding: a word for every constructor, its fields laid out from R301 and R304 -/

theorem test_decode_nop : decode 0x00000000#32 = .ok .nop := by decide
theorem test_decode_clear : decode 0x00000001#32 = .ok .clear := by decide
theorem test_decode_gfInit : decode 0x00000002#32 = .ok .gfInit := by decide
/-- `AB`: B = 0xCA, A = 0x53. -/
theorem test_decode_gfMul : decode 0x00CA5303#32 = .ok (.gfMul 0x53#8 0xCA#8) := by decide
/-- `VE`: E = 2 in 17:16, V = 5 in 13:8 (R510's example). -/
theorem test_decode_capLookup : decode 0x00020510#32 = .ok (.capLookup 5#6 2#2) := by decide
theorem test_decode_select : decode 0x00000011#32 = .ok .select := by decide
theorem test_decode_compose : decode 0x00000020#32 = .ok .compose := by decide
theorem test_decode_bsReset : decode 0x00000021#32 = .ok .bsReset := by decide
/-- `WV`: X = 0b0001 in 31:16, W = 4 in 12:8 (R611's example). -/
theorem test_decode_bsAppend : decode 0x00010422#32 = .ok (.bsAppend 4#5 1#16) := by decide
theorem test_decode_bsTerminate : decode 0x00000023#32 = .ok .bsTerminate := by decide
theorem test_decode_bsPad : decode 0x00000024#32 = .ok .bsPad := by decide
theorem test_decode_genPoly : decode 0x00000A30#32 = .ok (.genPoly 10#8) := by decide
/-- `OL`: L = 16 in 27:20, O = 0 in 19:8 (R711's example); and L = 0xAB, O = 0xCDE. -/
theorem test_decode_rsEncode : decode 0x01000031#32 = .ok (.rsEncode 0#12 16#8) ∧
    decode 0x0ABCDE31#32 = .ok (.rsEncode 0xCDE#12 0xAB#8) := by decide
theorem test_decode_rsAll : decode 0x00000032#32 = .ok .rsAll := by decide
theorem test_decode_interleave : decode 0x00000040#32 = .ok .interleave := by decide
theorem test_decode_build : decode 0x00000050#32 = .ok .build := by decide
theorem test_decode_verCalc : decode 0x00000751#32 = .ok (.verCalc 7#6) := by decide
/-- `EM`: M = 2 in 12:10, E = 1 in 9:8 (R932's example). -/
theorem test_decode_fmtCalc : decode 0x00000952#32 = .ok (.fmtCalc 1#2 2#3) := by decide
theorem test_decode_zzReset : decode 0x00000053#32 = .ok .zzReset := by decide
theorem test_decode_zzNext : decode 0x00000054#32 = .ok .zzNext := by decide
theorem test_decode_place : decode 0x00000260#32 = .ok (.place 2#3) := by decide
theorem test_decode_score : decode 0x00000061#32 = .ok .score := by decide
theorem test_decode_maskSelect : decode 0x00000062#32 = .ok .maskSelect := by decide
theorem test_decode_encode : decode 0x00000070#32 = .ok .encode := by decide
/-- A reserved bit of each format, and a reserved opcode (R305). -/
theorem test_decode_illegal :
    decode 0x00000100#32 = .error (.reservedBit .n) ∧ decode 0x01000003#32 = .error (.reservedBit .ab) ∧
    decode 0x00004110#32 = .error (.reservedBit .ve) ∧ decode 0x00010A30#32 = .error (.reservedBit .n8) ∧
    decode 0x10000031#32 = .error (.reservedBit .ol) ∧ decode 0x00012422#32 = .error (.reservedBit .wv) ∧
    decode 0x00000860#32 = .error (.reservedBit .m) ∧ decode 0x00002052#32 = .error (.reservedBit .em) ∧
    decode 0x00004751#32 = .error (.reservedBit .v) ∧ decode 0x00000004#32 = .error (.reservedOpcode 4#8) := by decide

/-! ### Small states -/

/-- The next state of an outcome. -/
def after (r : Result) : Option State :=
  match r with
  | .next s => some s
  | .fault _ => none
  | .refused _ => none

/-- Entry 1-M as R504 lists it: 16 data codewords, 10 EC codewords, one block of 26. -/
def entry1M : Entry := entryOf 1 1#2 (16, 10, (1, 26, 16), (0, 0, 0))

/-- Entry 1-M selected, no stream yet. -/
def selected : State := { State.reset with entry := entry1M, status := { Status.zero with selV := true } }

/-- "01234567" in `DIGITS`, `LEN` 8, level M. -/
def loaded : State :=
  { State.reset with
    ecl := 1#2, len := 8#13,
    mem := Memory.empty.writeList .digits 0 [0x30#8, 0x31#8, 0x32#8, 0x33#8, 0x34#8, 0x35#8, 0x36#8, 0x37#8] }

/-- The 16 data codewords of "01234567" at 1-M (42_bitstream R620's example). -/
def stream1M : List Byte :=
  [0x10#8, 0x20#8, 0x0C#8, 0x56#8, 0x61#8, 0x80#8, 0xEC#8, 0x11#8, 0xEC#8, 0x11#8, 0xEC#8, 0x11#8, 0xEC#8, 0x11#8,
   0xEC#8, 0x11#8]

/-- Its 10 EC codewords (43_reed_solomon R720's example). -/
def ec1M : List Byte := [0xA5#8, 0x24#8, 0xD4#8, 0xC1#8, 0xED#8, 0x36#8, 0xC7#8, 0x87#8, 0x2C#8, 0x55#8]

/-- A complete stream for entry 1-M. -/
def composed : State :=
  { State.reset with
    entry := entry1M, cur := 128#15, status := { Status.zero with selV := true, bsV := true },
    mem := Memory.empty.writeList .bs 0 stream1M }

/-- EC codewords too. -/
def encoded : State :=
  { composed with
    status := { Status.zero with selV := true, bsV := true, ecV := true }, mem := composed.mem.writeList .ecb 0 ec1M }

/-- The read of one window's elements `0 .. n` after a command. -/
def windowAfter (r : Result) (w : Window) (n : Nat) : Option (List (Option Byte)) :=
  (after r).map fun s => Ram.view (s.mem.window w) 0 n

/-! ### One or two tests per command -/

theorem test_nop : after (exec .nop State.reset) = some State.reset := by decide +kernel
theorem test_clear_recovers : (after (exec .clear (selected.withError 4#4))).map (fun s => (s.status, s.entry, s.faultLog)) =
    some (Status.zero, Entry.zero, [.error 4#4]) := by decide +kernel
theorem test_gfInit : after (exec .gfInit State.reset) = some State.reset := by decide +kernel
/-- R410: 2 * 128 = 29, and 0x8E is the inverse of 2. -/
theorem test_gfMul_reduces : (after (exec (.gfMul 2#8 128#8) State.reset)).map State.gfP = some 29#8 := by decide +kernel
theorem test_gfMul_inverse : (after (exec (.gfMul 0x8E#8 2#8) State.reset)).map State.gfP = some 1#8 := by decide +kernel
/-- R510's example. -/
theorem test_capLookup_5Q : (after (exec (.capLookup 5#6 2#2) State.reset)).map (fun s =>
    (s.regWord .version, s.regWord .group1, s.regWord .group2, s.regWord .ecinfo)) =
    some (0x003E0A85#32, 0x000F2102#32, 0x00102202#32, 0x00408612#32) := by decide +kernel
theorem test_capLookup_notFound : (after (exec (.capLookup 41#6 0#2) State.reset)).map (fun s => s.status.err) =
    some 3#4 := by decide +kernel
/-- R520's example: 8 digits at M select version 1. -/
theorem test_select_1M : (after (exec .select loaded)).map (fun s => s.entry) = some entry1M := by decide +kernel
/-- R502: 7089 digits at L take version 40, 7090 none. -/
theorem test_select_bounds :
    (after (exec .select { State.reset with len := 7089#13 })).map (fun s => s.entry.ver.toNat) = some 40 ∧
    (after (exec .select { State.reset with len := 7090#13 })).map (fun s => s.status.err) = some 4#4 := by
  decide +kernel
/-- R630's first row. -/
theorem test_compose_stream :
    windowAfter (exec .compose { loaded with entry := entry1M, status := { Status.zero with selV := true } }) .bs 17 =
      some ((stream1M ++ [0x00#8]).map some) := by decide +kernel
theorem test_compose_unwritten :
    (match exec .compose { selected with len := 3#13 } with | .fault f => some f | _ => none) =
      some (.unwritten ⟨.digits, 0⟩ [.unwritten ⟨.digits, 0⟩]) := by decide +kernel
/-- R610's example. -/
theorem test_bsReset : (after (exec .bsReset composed)).map (fun s => (s.cur, s.mem.read? .bs 0, s.mem.read? .bs 2955)) =
    some (0#15, some 0#8, some 0#8) := by decide +kernel
/-- R611's example. -/
theorem test_bsAppend : (after (exec (.bsAppend 4#5 1#16) selected)).map (fun s => (s.cur, s.mem.read? .bs 0)) =
    some (4#15, some 0x10#8) := by decide +kernel
theorem test_bsAppend_priority : (after (exec (.bsAppend 17#5 1#16) State.reset)).map (fun s => s.status.err) = some 2#4 := by
  decide +kernel
/-- R612's example: `CUR` 41 of 128 ends at 48. -/
theorem test_bsTerminate :
    (after (exec .bsTerminate { composed with cur := 41#15 })).map (fun s => (s.cur, s.mem.read? .bs 5)) =
      some (48#15, some 0x80#8) := by decide +kernel
/-- R613's example: ten pad codewords from byte 6 on. -/
theorem test_bsPad :
    windowAfter (exec .bsPad { selected with cur := 48#15 }) .bs 17 =
      some (List.replicate 6 none ++ (stream1M.drop 6).map some ++ [none]) ∧
    (after (exec .bsPad { selected with cur := 48#15 })).map (fun s => (s.cur, s.status.bsV)) =
      some (128#15, true) := by decide +kernel
/-- R710's example. -/
theorem test_genPoly : windowAfter (exec (.genPoly 10#8) State.reset) .gen 12 =
    some [some 1#8, some 216#8, some 194#8, some 159#8, some 111#8, some 199#8, some 94#8, some 95#8, some 113#8,
      some 157#8, some 193#8, none] := by decide +kernel
/-- R706: `GEN_POLY 68` leaves the listed vector of 69 coefficients. -/
theorem test_genPoly_68 : windowAfter (exec (.genPoly 68#8) State.reset) .gen 69 =
    some (([1, 131, 115, 9, 39, 18, 182, 60, 94, 223, 230, 157, 142, 119, 85, 107, 34, 174,
        167, 109, 20, 185, 112, 145, 172, 224, 170, 182, 107, 38, 107, 71, 246, 230] ++
      [225, 144, 20, 14, 175, 226, 245, 20, 219, 212, 51, 158, 88, 63, 36, 199, 4, 80,
        157, 211, 239, 255, 7, 119, 11, 235, 12, 34, 149, 204, 8, 32, 29, 99, 11]).map some) := by
  decide +kernel
/-- R711's example, the source's own vector. -/
theorem test_rsEncode : windowAfter (exec (.rsEncode 0#12 16#8) { State.reset with
    genLen := 10#7, status := { Status.zero with genV := true },
    mem := (Memory.empty.writeList .gen 0 (generator 10)).writeList .bs 0
      [32#8, 91#8, 11#8, 120#8, 209#8, 114#8, 220#8, 77#8, 67#8, 64#8, 236#8, 17#8, 236#8, 17#8, 236#8, 17#8] }) .rsr 10 =
    some ([196#8, 35#8, 39#8, 119#8, 235#8, 215#8, 231#8, 226#8, 93#8, 23#8].map some) := by decide +kernel
/-- R720's example. -/
theorem test_rsAll : windowAfter (exec .rsAll composed) .ecb 11 = some (ec1M.map some ++ [none]) := by decide +kernel
/-- R810's example. -/
theorem test_interleave : windowAfter (exec .interleave encoded) .ilv 27 =
    some ((stream1M ++ ec1M).map some ++ [none]) := by decide +kernel
/-- R930's example: `MAT[13*177+8]` of version 1 is 5; and a cell outside the symbol. -/
theorem test_build_cells : builtCell 1 (centres 1) 13 8 = 5#8 ∧ builtCell 1 (centres 1) 21 0 = 2#8 := by decide +kernel
theorem test_build_sequence : (after (exec .build State.reset)).map (fun s => s.status.err) = some 6#4 := by decide +kernel
/-- R931's example. -/
theorem test_verCalc : (after (exec (.verCalc 7#6) State.reset)).map State.viWord = some 0x07C94#18 := by decide +kernel
theorem test_verCalc_range : (after (exec (.verCalc 41#6) State.reset)).map (fun s => s.status.err) = some 2#4 := by
  decide +kernel
/-- R932's example. -/
theorem test_fmtCalc : (after (exec (.fmtCalc 1#2 2#3) State.reset)).map State.fmtWord = some 0x5E7C#15 := by decide +kernel
theorem test_zzReset : (after (exec .zzReset { selected with
    zzIdx := 9#15, status := { Status.zero with selV := true, matV := true } })).map (fun s => (s.zzIdx, s.status.zzV)) =
    some (0#15, true) := by decide +kernel
/-- R942's example: the third coordinate of version 1 is (19, 20). -/
theorem test_zzNext : (after (exec .zzNext { selected with
    zzIdx := 2#15, status := { Status.zero with selV := true, matV := true, zzV := true } })).map (fun s =>
      (s.regWord .zzpos, s.zzIdx)) = some (0x00001413#32, 3#15) := by decide +kernel
/-- R1006: row 1 of masks 3 and 5, row 5 of masks 6 and 7. -/
theorem test_place_masks :
    (List.range 6).map (maskBit 3#3 1) = [false, false, true, false, false, true] ∧
    (List.range 6).map (maskBit 5#3 1) = [true, false, false, false, false, false] ∧
    (List.range 6).map (maskBit 6#3 5) = [true, false, false, false, true, true] ∧
    (List.range 6).map (maskBit 7#3 5) = [false, true, true, true, false, false] := by decide +kernel
theorem test_place_sequence : (after (exec (.place 2#3) encoded)).map (fun s => s.status.err) = some 6#4 := by
  decide +kernel
/-- R1017: `000010111010000000000` and `000010111011101000000`. -/
theorem test_score_lines :
    (let a := [0, 0, 0, 0, 1, 0, 1, 1, 1, 0, 1, 0, 0, 0, 0, 0, 0, 0, 0, 0, 0].map (· == 1)
     rule1Line a = 8 ∧ rule3Line a = 40) ∧
    (let a := [0, 0, 0, 0, 1, 0, 1, 1, 1, 0, 1, 1, 1, 0, 1, 0, 0, 0, 0, 0, 0].map (· == 1)
     rule1Line a = 4 ∧ rule3Line a = 80) := by decide +kernel
theorem test_score_sequence : (after (exec .score encoded)).map (fun s => s.status.err) = some 6#4 := by decide +kernel
theorem test_maskSelect_sequence : (after (exec .maskSelect encoded)).map (fun s => s.status.err) = some 6#4 := by
  decide +kernel
/-- R1110: a length that fits no version ends `ENCODE` at `SELECT`. -/
theorem test_encode_capacity : (after (exec .encode { State.reset with len := 7090#13 })).map (fun s =>
    (s.status.err, s.status.selV, s.faultLog)) = some (4#4, false, [.error 4#4]) := by decide +kernel
/-- R1110: a non-digit ends it at `COMPOSE`, the selection kept. -/
theorem test_encode_invalidDigit : (after (exec .encode { State.reset with
    len := 1#13, mem := Memory.empty.write .digits 0 0x3A#8 })).map (fun s => (s.status.err, s.status.selV)) =
    some (5#4, true) := by decide +kernel

/-! ### Witnesses: a concrete state and operands for the hypotheses of each statement, at the bounds of its ranges -/

/-- A list written from index 0 leaves its elements written. -/
theorem written_writeList {m : Memory} {w : Window} {vals : List Byte} {n : Nat} (hn : n ≤ vals.length)
    (hs : n ≤ w.size) : (m.writeList w 0 vals).Written w n := by
  intro i hi
  rw [Memory.read?_writeList, if_pos ⟨rfl, by omega, by omega, by omega⟩]
  simp [show i < vals.length by omega]

/-- A list written to another window keeps what is written. -/
theorem written_other {m : Memory} {w w' : Window} {vals : List Byte} {n : Nat} (h : m.Written w n) (hw : w ≠ w') :
    (m.writeList w' 0 vals).Written w n := by
  intro i hi
  rw [Memory.read?_writeList, if_neg (by simp [hw])]
  exact h i hi

theorem witness_StepRunsTheDecodedCommand :
    (∃ s : State, s.inbox = .write 0#20 32 0x00020510#32 :: [] ∧ decode 0x00020510#32 = .ok (.capLookup 5#6 2#2)) ∧
    (∃ s : State, s.inbox = .write 0#20 32 4#32 :: [] ∧ decode 4#32 = .error (.reservedOpcode 4#8)) ∧
    State.reset.inbox = [] :=
  ⟨⟨{ State.reset with inbox := [.write 0#20 32 0x00020510#32] }, rfl, by decide⟩,
    ⟨{ State.reset with inbox := [.write 0#20 32 4#32] }, rfl, by decide⟩, rfl⟩

theorem witness_IllegalWordsRaiseIllegalCmd :
    (∀ row ∈ opcodeRows, (4#32).toNat &&& row.mask ≠ row.op) ∧ decode 4#32 = .error (.reservedOpcode 4#8) ∧
    State.reset.status.err = 0#4 ∧ (State.reset.withError 1#4).status.err ≠ 0#4 ∧ Instr.nop ≠ .clear := by
  refine ⟨?_, by decide, by decide, by decide, by decide⟩
  simp [opcodeRows]

theorem witness_DecodeIsTheOpcodeMap :
    (∃ row ∈ opcodeRows, (0xFFFF1022#32).toNat &&& row.mask = row.op) ∧
    ∀ row ∈ opcodeRows, (0xFFFFFFFF#32).toNat &&& row.mask ≠ row.op := by
  constructor
  · refine ⟨_, List.mem_append_left _ (List.mem_of_getElem? (i := 8) rfl), by decide⟩
  · simp [opcodeRows]

theorem witness_DecodeAndEncodeAgree : decode 0xFFFF1F22#32 = .ok (.bsAppend 31#5 0xFFFF#16) := by decide

theorem witness_WordCommandsComplete :
    State.reset.status.err = 0#4 ∧ 1 ≤ (1#6).toNat ∧ (1#6).toNat ≤ 40 ∧ 1 ≤ (40#6).toNat ∧ (40#6).toNat ≤ 40 := by
  decide

theorem witness_CapacityRomFromBase : 1 ≤ 40 ∧ 40 ≤ 40 ∧ (0 < 1 ∨ 40 < 0) ∧ (41 < 1 ∨ 40 < 41) := by decide

theorem witness_CapacityRomInvariants :
    capRow? 1 1#2 = some (16, 10, (1, 26, 16), (0, 0, 0)) ∧
    capRow? 40 3#2 = some (1276, 30, (20, 45, 15), (61, 46, 16)) ∧ fits 1 1#2 8 = true ∧ fits 40 0#2 7089 = true :=
  ⟨rfl, rfl, by decide +kernel, by decide +kernel⟩

theorem witness_CapLookupLoadsTheRow :
    State.reset.status.err = 0#4 ∧ (1 ≤ (1#6).toNat ∧ (1#6).toNat ≤ 40) ∧ 1 ≤ (40#6).toNat ∧ (40#6).toNat ≤ 40 := by decide

theorem witness_SelectIsMinimal :
    loaded.status.err = 0#4 ∧ fits 1 loaded.ecl loaded.len.toNat = true ∧ (∀ u, 1 ≤ u → u < 1 → False) ∧
    (∃ v, 1 ≤ v ∧ v ≤ 40 ∧ fits v 0#2 7089 = true ∧ ∀ u < v, u = 0 ∨ fits u 0#2 7089 = false) ∧ loaded.Fits ∧
    State.reset.Fits ∧ State.reset.len.toNat ≤ loaded.len.toNat := by
  refine ⟨by decide, by decide +kernel, fun u h₁ h₂ => by omega, ⟨40, by decide, by decide, by decide +kernel, by decide +kernel⟩,
    ⟨1, by decide, by decide, by decide +kernel⟩, ⟨1, by decide, by decide, by decide +kernel⟩, by decide⟩

/-- A cursor anywhere in a zeroed buffer. -/
theorem selected_cursorOk (n : Nat) (hn : n ≤ 23648) : State.CursorOk { selected with
    cur := BitVec.ofNat 15 n, mem := Memory.empty.writeList .bs 0 (List.replicate 2956 0#8) } := by
  have hw : (Memory.empty.writeList .bs 0 (List.replicate 2956 0#8)).Written .bs 2956 :=
    written_writeList (Nat.le_of_eq List.length_replicate.symm) (by decide)
  have hc : (BitVec.ofNat 15 n).toNat = n := by rw [BitVec.toNat_ofNat]; exact Nat.mod_eq_of_lt (by omega)
  refine ⟨?_, fun i hi => hw i ?_⟩
  · change (BitVec.ofNat 15 n).toNat ≤ 23648; omega
  · change 8 * i < (BitVec.ofNat 15 n).toNat at hi; omega

/-- Width 16 ending exactly at the capacity, and width 1 in the middle of a byte. -/
theorem witness_BsAppendAppendsTheField :
    selected.status.err = 0#4 ∧ selected.status.selV = true ∧ selected.entry.dataCw.toNat ≤ 2956 ∧
    (112 + (16#5).toNat ≤ selected.entry.capBits ∧ 1 ≤ (16#5).toNat ∧ (16#5).toNat ≤ 16) ∧
    (5 + (1#5).toNat ≤ selected.entry.capBits ∧ 1 ≤ (1#5).toNat) ∧
    State.CursorOk { selected with
      cur := BitVec.ofNat 15 112, mem := Memory.empty.writeList .bs 0 (List.replicate 2956 0#8) } ∧
    State.CursorOk { selected with
      cur := BitVec.ofNat 15 5, mem := Memory.empty.writeList .bs 0 (List.replicate 2956 0#8) } :=
  ⟨by decide, by decide, by decide +kernel, by decide +kernel, by decide +kernel, selected_cursorOk 112 (by decide),
    selected_cursorOk 5 (by decide)⟩

/-- The cursor at the capacity, and one bit below it. -/
theorem witness_BsTerminateAppendsZeros :
    selected.status.err = 0#4 ∧ selected.status.selV = true ∧ selected.entry.dataCw.toNat ≤ 2956 ∧
    128 ≤ selected.entry.capBits ∧ 127 ≤ selected.entry.capBits ∧
    State.CursorOk { selected with
      cur := BitVec.ofNat 15 128, mem := Memory.empty.writeList .bs 0 (List.replicate 2956 0#8) } ∧
    State.CursorOk { selected with
      cur := BitVec.ofNat 15 127, mem := Memory.empty.writeList .bs 0 (List.replicate 2956 0#8) } :=
  ⟨by decide, by decide, by decide +kernel, by decide +kernel, by decide +kernel, selected_cursorOk 128 (by decide),
    selected_cursorOk 127 (by decide)⟩

theorem witness_BsResetZeroes : composed.status.err = 0#4 := by decide

/-- The cursor at 0, and at the capacity. -/
theorem witness_BsPadFillsTheCapacity :
    selected.status.err = 0#4 ∧ selected.status.selV = true ∧ selected.cur.toNat % 8 = 0 ∧
    selected.cur.toNat ≤ selected.entry.capBits ∧ selected.entry.dataCw.toNat ≤ 2956 ∧
    composed.status.selV = true ∧ composed.cur.toNat % 8 = 0 ∧ composed.cur.toNat = composed.entry.capBits := by
  decide +kernel

theorem loaded_digits (i : Nat) (hi : i < 8) : ∃ b, loaded.mem.read? .digits i = some b ∧ isDigit b ∧
    [0, 1, 2, 3, 4, 5, 6, 7][i]? = some (b.toNat - 0x30) := by
  refine ⟨BitVec.ofNat 8 (0x30 + i), ?_⟩
  unfold isDigit
  have h : ∀ i < 8, loaded.mem.read? .digits i = some (BitVec.ofNat 8 (0x30 + i)) ∧
      (0x30 ≤ (BitVec.ofNat 8 (0x30 + i)).toNat ∧ (BitVec.ofNat 8 (0x30 + i)).toNat ≤ 0x39) ∧
      [0, 1, 2, 3, 4, 5, 6, 7][i]? = some ((BitVec.ofNat 8 (0x30 + i)).toNat - 0x30) := by decide +kernel
  exact h i hi

/-- "01234567" at 1-M; the empty input; and 17 digits at 1-H, which leave one bit of the capacity (R630). -/
theorem witness_ComposeWritesTheStream :
    loaded.status.err = 0#4 ∧ loaded.mem.wf = true ∧ loaded.len.toNat = [0, 1, 2, 3, 4, 5, 6, 7].length ∧
    entry1M.dataCw.toNat ≤ 2956 ∧ 4 + entry1M.cci.toNat + contentBits 8 ≤ entry1M.capBits ∧
    4 + entry1M.cci.toNat + contentBits 0 ≤ entry1M.capBits ∧ (4 + 10 + contentBits 17 ≤ 8 * 9) ∧
    (∀ i < loaded.len.toNat, ∃ b, loaded.mem.read? .digits i = some b ∧ isDigit b ∧
      [0, 1, 2, 3, 4, 5, 6, 7][i]? = some (b.toNat - 0x30)) :=
  ⟨by decide, by decide, by decide, by decide +kernel, by decide +kernel, by decide +kernel, by decide +kernel,
    fun i hi => loaded_digits i hi⟩

theorem witness_RsEncodeIsSystematic :
    1 ≤ 1 ∧ [1#8, 1#8].length = 1 + 1 ∧ [1#8, 1#8].head? = some 1#8 ∧ (generator 10).length = 10 + 1 ∧
    (generator 10).head? = some 1#8 := by decide +kernel

theorem witness_RsEncodeIsLinear :
    1 ≤ 10 ∧ (generator 10).length = 10 + 1 ∧ ([1#8, 2#8] : List Byte).length = ([3#8, 0#8] : List Byte).length := by
  decide +kernel

theorem witness_GenPolyStoresTheGenerator :
    State.reset.status.err = 0#4 ∧ 1 ≤ (1#8).toNat ∧ (68#8).toNat ≤ 68 := by decide

/-- An empty range at the end of `BS`, and a whole block with the degree-1 generator. -/
def division : State :=
  { State.reset with
    genLen := 1#7, status := { Status.zero with genV := true },
    mem := (Memory.empty.writeList .gen 0 [1#8, 1#8]).writeList .bs 0 [7#8, 9#8] }

theorem witness_RsEncodeFillsRsr :
    division.status.err = 0#4 ∧ division.status.genV = true ∧ division.mem.wf = true ∧
    (2956#12).toNat + (0#8).toNat ≤ 2956 ∧ (0#12).toNat + (2#8).toNat ≤ 2956 ∧ 1 ≤ division.genLen.toNat ∧
    division.genLen.toNat ≤ 68 ∧ [7#8, 9#8].length = (2#8).toNat ∧
    (∀ k < (2#8).toNat, division.mem.read? .bs ((0#12).toNat + k) = [7#8, 9#8][k]?) ∧
    [1#8, 1#8].length = division.genLen.toNat + 1 ∧
    ∀ k < division.genLen.toNat + 1, division.mem.read? .gen k = [1#8, 1#8][k]? := by decide +kernel

theorem composed_entry : composed.EntrySelected := ⟨1, 1#2, (16, 10, (1, 26, 16), (0, 0, 0)), by decide +kernel, rfl⟩

theorem witness_RsAllEncodesEveryBlock :
    composed.status.err = 0#4 ∧ composed.status.selV = true ∧ composed.status.bsV = true ∧ composed.mem.wf = true ∧
    composed.EntrySelected ∧ composed.mem.Written .bs composed.entry.dataCw.toNat :=
  ⟨by decide, by decide, by decide, by decide, composed_entry, written_writeList (by decide +kernel) (by decide +kernel)⟩

theorem witness_BlocksTileTheStream : capRow? 5 2#2 = some (62, 18, (2, 33, 15), (2, 34, 16)) ∧ 2 + 1 < 4 := by
  decide +kernel

theorem witness_InterleaveIsTheClosedForm :
    encoded.status.err = 0#4 ∧ encoded.status.selV = true ∧ encoded.status.bsV = true ∧ encoded.status.ecV = true ∧
    encoded.EntrySelected ∧ encoded.mem.Written .bs encoded.entry.dataCw.toNat ∧
    encoded.mem.Written .ecb (encoded.entry.nblk.toNat * encoded.entry.ecLen.toNat) :=
  ⟨by decide, by decide, by decide, by decide, composed_entry,
    written_other (written_writeList (by decide +kernel) (by decide +kernel)) (by decide),
    written_writeList (by decide +kernel) (by decide +kernel)⟩

theorem witness_BuildWritesEveryCell :
    selected.status.err = 0#4 ∧ selected.status.selV = true ∧ 0 < 177 ∧ 176 < 177 ∧ 17 + 4 * 1 ≤ 21 := by decide

/-- The versions, modules and bits of `FinderSeparatorTiming`, `AlignmentVersionFormatDark`, `ReservedMarksAreThePredicate`,
`DataModulesHoldTheCodewords` and `ZigzagIsEveryDataModuleOnce`. -/
theorem witness_versions : 1 ≤ 1 ∧ 1 ≤ 40 ∧ 40 ≤ 40 ∧ 7 ≤ 7 ∧ 17 < 18 ∧ 14 < 15 ∧ 20 < 17 + 4 * 1 := by decide

/-- Centres for `AlignmentVersionFormatDark`. -/
theorem witness_AlignmentVersionFormatDark : (6, 22) ∈ centres 7 ∧ (18, 18) ∈ centres 2 := by decide +kernel

theorem witness_ZigzagCursorWalksTheOrder :
    (∃ s : State, s.status.err = 0#4 ∧ s.status.matV = true) ∧
    (∃ s : State, s.status.err = 0#4 ∧ s.status.zzV = true ∧ 1 ≤ s.entry.ver.toNat ∧ s.entry.ver.toNat ≤ 40 ∧
      (zigzag s.entry.ver.toNat)[s.zzIdx.toNat]? = some (12, 0)) ∧
    ∃ s : State, s.status.err = 0#4 ∧ s.status.zzV = true ∧ s.zzIdx.toNat = (zigzag s.entry.ver.toNat).length :=
  ⟨⟨{ selected with status := { Status.zero with selV := true, matV := true } }, by decide, by decide⟩,
    ⟨{ selected with zzIdx := 207#15, status := { Status.zero with selV := true, matV := true, zzV := true } }, by decide,
      by decide, by decide +kernel, by decide +kernel, by decide +kernel⟩,
    ⟨{ selected with zzIdx := 208#15, status := { Status.zero with selV := true, matV := true, zzV := true } }, by decide,
      by decide, by decide +kernel⟩⟩

/-- A built matrix of version 1 and 26 codewords. -/
def interleaved : State :=
  { selected with
    status := { Status.zero with selV := true, bsV := true, ecV := true, ilvV := true, matV := true },
    mem := (Memory.empty.writeList .mat 0 (builtCells 1)).writeList .ilv 0 (List.replicate 26 0x5A#8) }

theorem witness_PlaceBuildsTheCandidate :
    interleaved.status.err = 0#4 ∧ interleaved.status.matV = true ∧ interleaved.status.ilvV = true ∧
    interleaved.mem.wf = true ∧ 1 ≤ interleaved.entry.ver.toNat ∧ interleaved.entry.ver.toNat ≤ 40 ∧
    interleaved.entry.totalCw.toNat ≤ 3706 ∧ interleaved.mem.Written .mat 31329 ∧
    interleaved.mem.Written .ilv interleaved.entry.totalCw.toNat ∧ (zigzag 1)[0]? = some (20, 20) ∧
    (zigzag 1)[207]? = some (12, 0) :=
  ⟨by decide, by decide, by decide, Memory.wf_writeList _ _ _ (Memory.wf_writeList _ _ _ Memory.wf_empty),
    by decide +kernel, by decide +kernel, by decide +kernel,
    written_other (written_writeList (by simp [Config.cellCap]) (by decide)) (by decide),
    written_writeList (by decide +kernel) (by decide +kernel), by decide +kernel, by decide +kernel⟩

theorem witness_RulesTwoAndThreeCount :
    (∀ row ∈ [[true, false], [false, true]], row.length = [[true, false], [false, true]].length) ∧
    7 ≤ (List.replicate 7 true).length := by decide

theorem witness_RuleFourIsTheBalance : 1 ≤ 21 ∧ 0 ≤ 21 * 21 ∧ 441 ≤ 21 * 21 := by decide

theorem witness_ScoreIsBounded :
    21 ≤ (List.replicate 21 (List.replicate 21 true)).length ∧
    (List.replicate 21 (List.replicate 21 true)).length ≤ 177 ∧
    ∀ row ∈ List.replicate 21 (List.replicate 21 true), row.length = (List.replicate 21 (List.replicate 21 true)).length := by
  simp

/-- A placed candidate for the score. -/
def placed : State :=
  { interleaved with
    status := { interleaved.status with wmV := true }, mem := interleaved.mem.writeList .wm 0 (List.replicate 31329 1#8) }

theorem witness_ScoreScoresTheSymbol :
    placed.status.err = 0#4 ∧ placed.status.wmV = true ∧ placed.mem.wf = true ∧ placed.entry.ver.toNat ≤ 40 ∧
    placed.mem.readList .wm 0 31329 = .ok (List.replicate 31329 1#8) ∧
    ∀ row ∈ [[true, false], [false, true]], row.length = [[true, false], [false, true]].length := by
  have hi : interleaved.mem.wf = true := Memory.wf_writeList _ _ _ (Memory.wf_writeList _ _ _ Memory.wf_empty)
  refine ⟨by decide, by decide, Memory.wf_writeList _ _ _ hi, by decide +kernel, ?_, by decide⟩
  have h := Memory.readList_writeList_zero hi (w := .wm) (vals := List.replicate 31329 1#8)
    (Nat.le_of_eq List.length_replicate)
  rw [List.length_replicate] at h
  exact h

theorem witness_MaskSelectPicksTheLowest :
    interleaved.status.err = 0#4 ∧ interleaved.status.matV = true ∧ interleaved.status.ilvV = true ∧
    interleaved.mem.wf = true ∧ interleaved.entry.ver.toNat ≤ 40 ∧ interleaved.entry.totalCw.toNat ≤ 3706 ∧
    interleaved.mem.Written .mat 31329 ∧ interleaved.mem.Written .ilv interleaved.entry.totalCw.toNat :=
  ⟨by decide, by decide, by decide, Memory.wf_writeList _ _ _ (Memory.wf_writeList _ _ _ Memory.wf_empty),
    by decide +kernel, by decide +kernel,
    written_other (written_writeList (by simp [Config.cellCap]) (by decide)) (by decide),
    written_writeList (by decide +kernel) (by decide +kernel)⟩

theorem loaded_launchOk : loaded.LaunchOk :=
  ⟨rfl, fun i hi => by obtain ⟨b, hb, hd, -⟩ := loaded_digits i hi; exact ⟨b, hb, hd⟩⟩

theorem witness_EncodeSucceeds : loaded.LaunchOk ∧ loaded.mem.wf = true ∧ loaded.Fits ∧ State.reset.LaunchOk ∧
    State.reset.Fits :=
  ⟨loaded_launchOk, by decide, ⟨1, by decide, by decide, by decide +kernel⟩, ⟨rfl, fun i hi => absurd hi (by simp [State.reset])⟩,
    ⟨1, by decide, by decide, by decide +kernel⟩⟩

/-- Two launched states that differ elsewhere; the over-long request is one that ends in an error. -/
theorem witness_EncodeDependsOnTheRequestOnly :
    loaded.LaunchOk ∧ State.LaunchOk { loaded with gfP := 7#8 } ∧ loaded.mem.wf = true ∧
    (∀ i < loaded.len.toNat, loaded.mem.read? .digits i = (State.mem { loaded with gfP := 7#8 }).read? .digits i) :=
  ⟨loaded_launchOk, loaded_launchOk, by decide, fun _ _ => rfl⟩

/-- No version holds 7090 digits at level L. -/
theorem over_long (v : Nat) (h₁ : 1 ≤ v) (h₂ : v ≤ 40) (h : fits v 0#2 7090 = true) : False := by
  have : ∀ u < 41, u = 0 ∨ fits u 0#2 7090 = false := by decide +kernel
  rcases this v (by omega) with h' | h'
  · omega
  · rw [h] at h'; cases h'

theorem witness_CommandsRaiseTheirCodes :
    State.reset.status.err = 0#4 ∧ State.reset.mem.wf = true ∧ Instr.compose ≠ .encode ∧ Raises .compose State.reset 6#4 ∧
    Raises (.bsAppend 0#5 0#16) State.reset 2#4 ∧ Raises (.bsAppend 17#5 0#16) State.reset 2#4 ∧
    Raises (.bsAppend 1#5 0#16) State.reset 6#4 ∧ Raises (.genPoly 69#8) State.reset 2#4 ∧
    Raises (.rsEncode 2956#12 1#8) State.reset 2#4 ∧ Raises (.rsEncode 2956#12 0#8) State.reset 6#4 ∧
    Raises (.capLookup 41#6 0#2) State.reset 3#4 ∧ Raises (.verCalc 0#6) State.reset 2#4 ∧
    (∃ s : State, s.status.err = 0#4 ∧ s.mem.wf = true ∧ Raises .select s 4#4) ∧
    (∃ s : State, s.status.err = 0#4 ∧ s.mem.wf = true ∧ Raises .compose s 5#4) ∧
    (∃ s : State, s.status.err = 0#4 ∧ s.mem.wf = true ∧ Raises .compose s 7#4) ∧
    (∃ s : State, s.status.err = 0#4 ∧ s.mem.wf = true ∧ Raises (.bsAppend 1#5 0#16) s 7#4) ∧
    (∃ s : State, s.status.err = 0#4 ∧ s.mem.wf = true ∧ ¬ s.Fits) ∧
    ∃ s : State, s.status.err = 0#4 ∧ s.mem.wf = true ∧ s.Fits ∧ s.MeetsBadDigit :=
  ⟨by decide, by decide, by decide, .composeSequence rfl, .appendOperand (by decide), .appendOperand (by decide),
    .appendSequence (by decide) rfl, .genOperand (by decide), .rsOperand (by decide), .rsSequence (by decide) rfl,
    .notFound (by decide), .verOperand (by decide),
    ⟨{ State.reset with len := 7090#13 }, by decide, by decide, .capacity fun ⟨v, h₁, h₂, h⟩ => over_long v h₁ h₂ h⟩,
    ⟨{ selected with len := 1#13, mem := Memory.empty.write .digits 0 0x3A#8 }, by decide, by decide,
      .invalidDigit rfl (by decide +kernel) ⟨0, by decide, by decide +kernel, fun i h => absurd h (by omega)⟩⟩,
    ⟨{ selected with len := 35#13 }, by decide, by decide, .composeOverflow rfl (by decide +kernel)⟩,
    ⟨{ selected with cur := 128#15 }, by decide, by decide, .appendOverflow (by decide) rfl (by decide +kernel)⟩,
    ⟨{ State.reset with len := 7090#13 }, by decide, by decide, fun ⟨v, h₁, h₂, h⟩ => over_long v h₁ h₂ h⟩,
    ⟨{ State.reset with len := 1#13, mem := Memory.empty.write .digits 0 0x3A#8 }, by decide, by decide,
      ⟨1, by decide, by decide, by decide +kernel⟩, 0, by decide, by decide +kernel, fun i h => absurd h (by omega)⟩⟩

theorem witness_FailedCommandsChangeOnlyErr :
    (∃ s t : State, s.inbox = .write 0#20 32 0x20#32 :: [] ∧ decode 0x20#32 ≠ .ok .encode ∧ s.status.err = 0#4 ∧
      step s = .next t ∧ t.status.err ≠ 0#4) ∧
    ∃ s t : State, s.status.err = 0#4 ∧ exec .encode s = .next t ∧ t.status.err ≠ 0#4 := by
  refine ⟨⟨{ State.reset with inbox := [.write 0#20 32 0x20#32] }, _, rfl, by decide, by decide, rfl, by decide⟩, ?_⟩
  have h : (after (exec .encode { State.reset with len := 7090#13 })).map (fun s => s.status.err) = some 4#4 := by
    decide +kernel
  cases hx : exec .encode { State.reset with len := 7090#13 } with
  | next t => rw [hx] at h; exact ⟨_, t, by decide, hx, by simp only [after, Option.map_some, Option.some.injEq] at h; rw [h]; decide⟩
  | fault f => rw [hx] at h; simp [after] at h
  | refused r => rw [hx] at h; simp [after] at h

theorem witness_ErrorsAreSticky :
    (selected.withError 6#4).status.err ≠ 0#4 ∧ 0x70#32 ≠ 1#32 ∧
    (∃ s : State, s.status.err ≠ 0#4 ∧ s.inbox = .write 0x008#20 32 3#32 :: []) ∧
    (∃ s : State, s.status.err ≠ 0#4 ∧ s.inbox = .write 0x00C#20 32 8191#32 :: []) ∧
    (∃ s : State, s.status.err ≠ 0#4 ∧ 7088 < Window.size .digits ∧
      s.inbox = .write (BitVec.ofNat 20 (elemAddr .digits 7088)) 32 0x39#32 :: []) ∧
    ∃ s : State, s.status.err ≠ 0#4 ∧ s.inbox = .read (BitVec.ofNat 20 (regAddr (.pen 7))) 32 :: [] :=
  ⟨by decide, by decide, ⟨{ selected.withError 6#4 with inbox := [.write 0x008#20 32 3#32] }, by decide, rfl⟩,
    ⟨{ selected.withError 6#4 with inbox := [.write 0x00C#20 32 8191#32] }, by decide, rfl⟩,
    ⟨{ selected.withError 6#4 with inbox := [.write (BitVec.ofNat 20 (elemAddr .digits 7088)) 32 0x39#32] }, by decide,
      by decide, rfl⟩,
    ⟨{ selected.withError 6#4 with inbox := [.read (BitVec.ofNat 20 (regAddr (.pen 7))) 32] }, by decide, rfl⟩⟩

theorem witness_FaultLogOnlyGrows :
    (∃ s t : State, s.inbox = [.write 0#20 32 0x20#32] ∧ step s = .next t ∧ t.faultLog = [.error 6#4]) ∧
    ∃ (s : State) (f : Fault), step s = .fault f :=
  ⟨⟨{ State.reset with inbox := [.write 0#20 32 0x20#32] }, _, rfl, rfl, by decide⟩,
    { selected with len := 1#13, inbox := [.write 0#20 32 0x20#32] }, _, rfl⟩

theorem witness_UnwrittenReadsStop :
    (∃ s : State, s.status.err = 0#4 ∧ s.status.selV = true ∧ s.mem.wf = true ∧
      4 + s.entry.cci.toNat + contentBits s.len.toNat ≤ s.entry.capBits ∧ s.len.toNat ≤ 7089 ∧ 0 < s.len.toNat ∧
      s.mem.read? .digits 0 = none) ∧
    (∃ s : State, s.status.err = 0#4 ∧ s.mem.wf = true ∧ s.Fits ∧ 0 < s.len.toNat ∧ s.mem.read? .digits 0 = none) ∧
    division.status.err = 0#4 ∧ division.status.genV = true ∧ division.mem.wf = true ∧ (2#12).toNat + (1#8).toNat ≤ 2956 ∧
    (2#12).toNat ≤ 2 ∧ 2 < (2#12).toNat + (1#8).toNat ∧ division.mem.read? .bs 2 = none :=
  ⟨⟨{ selected with len := 1#13 }, by decide, by decide, by decide, by decide +kernel, by decide, by decide,
    by decide +kernel⟩, ⟨{ State.reset with len := 1#13 }, by decide, by decide, ⟨1, by decide, by decide, by decide +kernel⟩,
    by decide, by decide +kernel⟩, by decide +kernel⟩

theorem selected_entry : selected.EntrySelected := ⟨1, 1#2, (16, 10, (1, 26, 16), (0, 0, 0)), by decide +kernel, rfl⟩

theorem selected_inv : selected.Inv where
  canonical := by decide
  code := by decide
  chained := by simp [Status.Chained, selected, Status.zero]
  entry := .inr selected_entry
  selected _ := selected_entry
  cursor := ⟨by decide, fun i hi => absurd hi (by simp [selected, State.reset])⟩
  bs h := absurd h (by decide)
  gen h := absurd h (by decide)
  ecb h := absurd h (by decide)
  ilv h := absurd h (by decide)
  mat h := absurd h (by decide)
  wm h := absurd h (by decide)
  zz h := absurd h (by decide)
  cells := by
    intro i b h
    simp [selected, State.reset] at h

theorem selected_truthful : selected.Truthful where
  gen h := absurd h (by decide)
  ecb h := absurd h (by decide)
  ilv h := absurd h (by decide)
  mat h := absurd h (by decide)
  zz h := absurd h (by decide)
  wm h := absurd h (by decide)
  sc h := absurd h (by decide)
  pen m h := by simp [selected, Status.zero] at h
  best h := absurd h (by decide)

theorem witness_OnlyThreeCommandsCanStop : ∃ (s : State) (i : Instr) (f : Fault), s.Inv ∧ exec i s = .fault f := by
  refine ⟨{ selected with len := 1#13 }, .compose, .unwritten ⟨.digits, 0⟩ [.unwritten ⟨.digits, 0⟩], ?_, rfl⟩
  exact ⟨selected_inv.1, selected_inv.2, selected_inv.3, selected_inv.4, selected_inv.5, selected_inv.6, selected_inv.7,
    selected_inv.8, selected_inv.9, selected_inv.10, selected_inv.11, selected_inv.12, selected_inv.13, selected_inv.14⟩

theorem witness_CommandsKeepWhatTheyDoNotWrite : ∃ t, exec (.gfMul 2#8 3#8) State.reset = .next t := ⟨_, rfl⟩

theorem witness_RepeatingACommandChangesNothing : (∀ w x, Instr.bsPad ≠ .bsAppend w x) ∧ Instr.bsPad ≠ .bsTerminate ∧
    Instr.bsPad ≠ .zzNext ∧ composed.mem.wf = true ∧ ∃ t, exec .bsPad composed = .next t :=
  ⟨fun _ _ h => Instr.noConfusion h, by decide, by decide, by decide, _, rfl⟩

theorem witness_BusErrorsChangeNothing :
    (∃ s : State, s.inbox = .read 0x80#20 32 :: [] ∧ ¬ Mapped (0x80#20).toNat) ∧ (16 ≠ 32) ∧ (2#20).toNat % 4 ≠ 0 ∧
    ∃ s : State, s.inbox = .write 4#20 32 0#32 :: [] ∧ ¬ Writable (4#20).toNat := by
  refine ⟨⟨{ State.reset with inbox := [.read 0x80#20 32] }, rfl, ?_⟩, by decide, by decide,
    ⟨{ State.reset with inbox := [.write 4#20 32 0#32] }, rfl, ?_⟩⟩
  · rintro (⟨r, h⟩ | ⟨w, i, hi, h⟩)
    · cases r <;> simp [regAddr] at h
      omega
    · cases w <;> simp [elemAddr, Window.base] at h <;> omega
  · rintro (h | h | h | ⟨i, hi, h⟩ | ⟨i, hi, h⟩) <;> simp at h <;> omega

theorem witness_BusReadsHaveNoEffect :
    (∃ s : State, s.inbox = .read (BitVec.ofNat 20 (regAddr .status)) 32 :: []) ∧
    (∃ s : State, 0 < Window.size .bs ∧ s.mem.read? .bs 0 = some 0x10#8 ∧
      s.inbox = .read (BitVec.ofNat 20 (elemAddr .bs 0)) 32 :: []) ∧
    ∃ s : State, 31328 < Window.size .wm ∧ s.mem.read? .wm 31328 = none ∧
      s.inbox = .read (BitVec.ofNat 20 (elemAddr .wm 31328)) 32 :: [] :=
  ⟨⟨{ State.reset with inbox := [.read (BitVec.ofNat 20 (regAddr .status)) 32] }, rfl⟩,
    ⟨{ composed with inbox := [.read (BitVec.ofNat 20 (elemAddr .bs 0)) 32] }, by decide, by decide +kernel, rfl⟩,
    ⟨{ State.reset with inbox := [.read (BitVec.ofNat 20 (elemAddr .wm 31328)) 32] }, by decide, by decide +kernel, rfl⟩⟩

theorem witness_HostWritesStoreAndInvalidate :
    (∃ s : State, s.inbox = .write 0x008#20 32 0xFFFFFFFF#32 :: []) ∧
    (∃ s : State, s.inbox = .write 0x00C#20 32 0xFFFFFFFF#32 :: []) ∧
    2955 < Window.size .bs ∧ ∃ s : State, s.inbox = .write (BitVec.ofNat 20 (elemAddr .bs 2955)) 32 0x1FF#32 :: [] :=
  ⟨⟨{ State.reset with inbox := [.write 0x008#20 32 0xFFFFFFFF#32] }, rfl⟩,
    ⟨{ State.reset with inbox := [.write 0x00C#20 32 0xFFFFFFFF#32] }, rfl⟩,
    by decide, ⟨{ State.reset with inbox := [.write (BitVec.ofNat 20 (elemAddr .bs 2955)) 32 0x1FF#32] }, rfl⟩⟩

theorem witness_PlatformResetResets : ∃ s : State, s.inbox = .reset :: [] :=
  ⟨{ composed with inbox := [.reset] }, rfl⟩

/-- `MemoryStaysCanonical`, `StatusStaysLegal`, `InvariantIsKept`, `FlagsTellTheTruth`: a state past reset that meets every
premise, and its step. -/
theorem witness_invariants :
    selected.mem.wf = true ∧ selected.status.err.toNat ≤ 7 ∧ selected.status.Chained ∧ selected.Inv ∧ selected.Truthful ∧
    step selected = .next selected :=
  ⟨selected_inv.canonical, selected_inv.code, selected_inv.chained, selected_inv, selected_truthful, rfl⟩

end Sys2Proof.Tests
end

section
/-! SUPPORT. What a command, a host move and a step can do, said once: a command that answers is ignored, fails, or has
the one effect its rule gives; a step changes the model's own fields, runs a command, stores a host write, or resets.
Every frame and every invariant is derived from these. -/

-- One theorem at a time: each proof in flight holds a thread's whole stack.
set_option Elab.async false

namespace Sys2Proof.Machine

/-- How a command other than `ENCODE` gets from `s` to `t`: ignored (60_exceptions R1203), failed with a code of R1201, or
with the effect of its rule, under the rule's preconditions. (`NOP` and `GF_INIT` answer the state they ran in.) -/
inductive CommandEffect (s : State) : Instr → State → Prop
  | ignored {i} (he : s.status.err ≠ 0#4) : CommandEffect s i s
  | failed {i} (c : BitVec 4) (he : s.status.err = 0#4) (hc : 1 ≤ c.toNat ∧ c.toNat ≤ 7) :
      CommandEffect s i (s.withError c)
  | nop : CommandEffect s .nop s
  | clear : CommandEffect s .clear s.clearRequest
  | gfInit : CommandEffect s .gfInit s
  | gfMul {a b} : CommandEffect s (.gfMul a b) (s.setGfP (gfMul a b))
  | capLookup {v e row} (hrow : capRow? v.toNat e = some row) :
      CommandEffect s (.capLookup v e) (s.selectEntry (entryOf v.toNat e row))
  | select {v row} (hrow : capRow? v s.ecl = some row) (hfit : firstFit s.ecl s.len.toNat Config.verMax 1 = some v) :
      CommandEffect s .select (s.selectEntry (entryOf v s.ecl row))
  | compose {ds st} (hsel : s.status.selV = true)
      (hfit : 4 + s.entry.cci.toNat + contentBits s.len.toNat ≤ s.entry.capBits)
      (hscan : scanDigits 0 [] (Ram.view s.mem.digits 0 s.len.toNat) = .digits ds)
      (hst : composeStream s.entry s.len.toNat ds s.mem = .ok st) :
      CommandEffect s .compose ((s.setStatus s.status.invBs.setBs).setStream st)
  | bsReset : CommandEffect s .bsReset ((s.setStatus s.status.invBs).setStream (Stream.zeroed s.mem))
  | bsAppend {w x st} (hw : 1 ≤ w.toNat ∧ w.toNat ≤ 16) (hsel : s.status.selV = true)
      (hfit : s.cur.toNat + w.toNat ≤ s.entry.capBits) (hst : appendField w.toNat x.toNat s.stream = .ok st) :
      CommandEffect s (.bsAppend w x) ((s.setStatus s.status.invBs).setStream st)
  | bsTerminate {st} (hsel : s.status.selV = true) (hst : terminate s.entry.capBits s.stream = .ok st) :
      CommandEffect s .bsTerminate ((s.setStatus s.status.invBs).setStream st)
  | bsPad {st} (hsel : s.status.selV = true) (halign : s.cur.toNat % 8 = 0)
      (hst : padStream s.entry.capBits s.stream = .ok st) :
      CommandEffect s .bsPad ((s.setStatus s.status.invBs.setBs).setStream st)
  | genPoly {n} (hn : 1 ≤ n.toNat ∧ n.toNat ≤ Config.ecMax) : CommandEffect s (.genPoly n) (s.storeGenerator n.toNat)
  | rsEncode {o l ds g} (hrange : o.toNat + l.toNat ≤ Config.bsCap) (hgen : s.status.genV = true)
      (hds : s.mem.readList .bs o.toNat l.toNat = .ok ds)
      (hg : s.mem.readList .gen 0 (s.genLen.toNat + 1) = .ok g) :
      CommandEffect s (.rsEncode o l) (s.setMem (s.mem.writeList .rsr 0 (rsEncode s.genLen.toNat g ds)))
  | rsAll {m} (hsel : s.status.selV = true) (hbs : s.status.bsV = true)
      (hm : rsBlocks s.entry (generator s.entry.ecLen.toNat) (List.range s.entry.nblk.toNat)
        ((s.setStatus s.status.invEc).storeGenerator s.entry.ecLen.toNat).mem = .ok m) :
      CommandEffect s .rsAll ((((s.setStatus s.status.invEc).storeGenerator s.entry.ecLen.toNat).setMem m).setStatus
        s.status.invEc.setGen.setEc)
  | interleave {ds es} (hsel : s.status.selV = true) (hbs : s.status.bsV = true) (hec : s.status.ecV = true)
      (hds : s.mem.readAt .bs s.entry.dataOrder = .ok ds) (hes : s.mem.readAt .ecb s.entry.ecOrder = .ok es) :
      CommandEffect s .interleave ((s.setStatus s.status.invIlv.setIlv).setMem (s.mem.writeList .ilv 0 (ds ++ es)))
  | build (hsel : s.status.selV = true) :
      CommandEffect s .build (((s.setStatus s.status.invMat.setMat).setVi
        (if 7 ≤ s.entry.ver.toNat then versionWord s.entry.ver.toNat else 0#18)).setMem
        (s.mem.writeList .mat 0 (builtCells s.entry.ver.toNat)))
  | verCalc {v} (hv : 1 ≤ v.toNat ∧ v.toNat ≤ Config.verMax) :
      CommandEffect s (.verCalc v) (s.setVi (versionWord v.toNat))
  | fmtCalc {e m} : CommandEffect s (.fmtCalc e m) (s.setFmt (formatWord e m))
  | zzReset (hmat : s.status.matV = true) : CommandEffect s .zzReset ((s.setZz 0 0 0).setStatus s.status.setZz)
  | zzDone (hzz : s.status.zzV = true) (hend : (zigzag s.entry.ver.toNat)[s.zzIdx.toNat]? = none) :
      CommandEffect s .zzNext (s.setStatus s.status.setZzDone)
  | zzNext {r c} (hzz : s.status.zzV = true) (hpos : (zigzag s.entry.ver.toNat)[s.zzIdx.toNat]? = some (r, c)) :
      CommandEffect s .zzNext (s.setZz r c (s.zzIdx.toNat + 1))
  | place {m t} (hmat : s.status.matV = true) (hilv : s.status.ilvV = true) (ht : placeMask m s = .ok t) :
      CommandEffect s (.place m) t
  | score {t} (hwm : s.status.wmV = true) (ht : scoreMask s = .ok t) : CommandEffect s .score t
  | maskSelect {t} (hmat : s.status.matV = true) (hilv : s.status.ilvV = true) (ht : selectMask s = .ok t) :
      CommandEffect s .maskSelect t

/-- A sticky command is ignored, or its body ran with `ERR` 0. -/
theorem CommandEffect.of_unlessError {s t : State} {i : Instr} {body : State → Result} (h : unlessError s body = .next t)
    (hbody : s.status.err = 0#4 → body s = .next t → CommandEffect s i t) : CommandEffect s i t := by
  obtain ⟨he, rfl⟩ | ⟨he, h⟩ := unlessError_next h
  · exact .ignored he
  · exact hbody he h

/-- A command with a precondition fails, or went on with the precondition met. -/
theorem CommandEffect.of_require {s t : State} {i : Instr} {ok : Bool} {k : Result} (he : s.status.err = 0#4)
    (h : require ok s k = .next t) (hk : ok = true → k = .next t → CommandEffect s i t) : CommandEffect s i t := by
  obtain ⟨-, rfl⟩ | ⟨hok, h⟩ := require_next h
  · exact .failed _ he (by decide)
  · exact hk hok h

/-- A command with an error test fails, or went on with the test negative. -/
theorem CommandEffect.of_raise_if {s t : State} {i : Instr} {p : Prop} [Decidable p] {c : BitVec 4} {k : Result}
    (he : s.status.err = 0#4) (hc : 1 ≤ c.toNat ∧ c.toNat ≤ 7) (h : (if p then raiseError c s else k) = .next t)
    (hk : ¬ p → k = .next t → CommandEffect s i t) : CommandEffect s i t := by
  by_cases hp : p
  · rw [if_pos hp] at h
    obtain rfl := raiseError_next h
    exact .failed _ he hc
  · rw [if_neg hp] at h
    exact hk hp h

theorem execGfMul_next {a b : BitVec 8} {s t : State} (h : execGfMul a b s = .next t) :
    CommandEffect s (.gfMul a b) t := by
  refine .of_unlessError h fun _ h => ?_
  cases h
  exact .gfMul

theorem execBsReset_next {s t : State} (h : execBsReset s = .next t) : CommandEffect s .bsReset t := by
  refine .of_unlessError h fun _ h => ?_
  cases h
  exact .bsReset

theorem execFmtCalc_next {e : BitVec 2} {m : BitVec 3} {s t : State} (h : execFmtCalc e m s = .next t) :
    CommandEffect s (.fmtCalc e m) t := by
  refine .of_unlessError h fun _ h => ?_
  cases h
  exact .fmtCalc

theorem execCapLookup_next {v : BitVec 6} {e : BitVec 2} {s t : State} (h : execCapLookup v e s = .next t) :
    CommandEffect s (.capLookup v e) t := by
  refine .of_unlessError h fun he h => ?_
  split at h
  · obtain rfl := raiseError_next h
    exact .failed _ he (by decide)
  · next row hrow => cases h; exact .capLookup hrow

theorem execSelect_next {s t : State} (h : execSelect s = .next t) : CommandEffect s .select t := by
  refine .of_unlessError h fun he h => ?_
  split at h
  · obtain rfl := raiseError_next h
    exact .failed _ he (by decide)
  · next v hfit =>
    split at h
    · obtain rfl := raiseError_next h
      exact .failed _ he (by decide)
    · next row hrow => cases h; exact .select hrow hfit

theorem execCompose_next {s t : State} (h : execCompose s = .next t) : CommandEffect s .compose t := by
  refine .of_unlessError h fun he h => .of_require he h fun hsel h => .of_raise_if he (by decide) h fun hfit h => ?_
  split at h
  · cases h
  · obtain rfl := raiseError_next h
    exact .failed _ he (by decide)
  · next ds hscan =>
    obtain ⟨st, hst, h⟩ := orFault_next.1 h
    cases h
    exact .compose hsel (by omega) hscan hst

theorem execBsAppend_next {w : BitVec 5} {x : BitVec 16} {s t : State} (h : execBsAppend w x s = .next t) :
    CommandEffect s (.bsAppend w x) t := by
  refine .of_unlessError h fun he h => .of_raise_if he (by decide) h fun hw h => .of_require he h fun hsel h =>
    .of_raise_if he (by decide) h fun hfit h => ?_
  obtain ⟨st, hst, h⟩ := orFault_next.1 h
  cases h
  exact .bsAppend (by omega) hsel (by omega) hst

theorem execBsTerminate_next {s t : State} (h : execBsTerminate s = .next t) : CommandEffect s .bsTerminate t := by
  refine .of_unlessError h fun he h => .of_require he h fun hsel h => ?_
  obtain ⟨st, hst, h⟩ := orFault_next.1 h
  cases h
  exact .bsTerminate hsel hst

theorem execBsPad_next {s t : State} (h : execBsPad s = .next t) : CommandEffect s .bsPad t := by
  refine .of_unlessError h fun he h => .of_require he h fun hok h => ?_
  obtain ⟨hsel, halign⟩ := Bool.and_eq_true_iff.1 hok
  obtain ⟨st, hst, h⟩ := orFault_next.1 h
  cases h
  exact .bsPad hsel (of_decide_eq_true halign) hst

theorem execGenPoly_next {n : BitVec 8} {s t : State} (h : execGenPoly n s = .next t) :
    CommandEffect s (.genPoly n) t := by
  refine .of_unlessError h fun he h => .of_raise_if he (by decide) h fun hn h => ?_
  cases h
  exact .genPoly (by omega)

theorem execRsEncode_next {o : BitVec 12} {l : BitVec 8} {s t : State} (h : execRsEncode o l s = .next t) :
    CommandEffect s (.rsEncode o l) t := by
  refine .of_unlessError h fun he h => .of_raise_if he (by decide) h fun hrange h => .of_require he h fun hgen h => ?_
  obtain ⟨ds, hds, h⟩ := orFault_next.1 h
  obtain ⟨g, hg, h⟩ := orFault_next.1 h
  cases h
  exact .rsEncode (by omega) hgen hds hg

theorem execRsAll_next {s t : State} (h : execRsAll s = .next t) : CommandEffect s .rsAll t := by
  refine .of_unlessError h fun he h => .of_require he h fun hok h => ?_
  obtain ⟨hsel, hbs⟩ := Bool.and_eq_true_iff.1 hok
  obtain ⟨m, hm, h⟩ := orFault_next.1 h
  cases h
  exact .rsAll hsel hbs hm

theorem execInterleave_next {s t : State} (h : execInterleave s = .next t) : CommandEffect s .interleave t := by
  refine .of_unlessError h fun he h => .of_require he h fun hok h => ?_
  simp only [Bool.and_eq_true] at hok
  obtain ⟨⟨hsel, hbs⟩, hec⟩ := hok
  obtain ⟨ds, hds, h⟩ := orFault_next.1 h
  obtain ⟨es, hes, h⟩ := orFault_next.1 h
  cases h
  exact .interleave hsel hbs hec hds hes

theorem execBuild_next {s t : State} (h : execBuild s = .next t) : CommandEffect s .build t := by
  refine .of_unlessError h fun he h => .of_require he h fun hsel h => ?_
  cases h
  exact .build hsel

theorem execVerCalc_next {v : BitVec 6} {s t : State} (h : execVerCalc v s = .next t) :
    CommandEffect s (.verCalc v) t := by
  refine .of_unlessError h fun he h => .of_raise_if he (by decide) h fun hv h => ?_
  cases h
  exact .verCalc (by omega)

theorem execZzReset_next {s t : State} (h : execZzReset s = .next t) : CommandEffect s .zzReset t := by
  refine .of_unlessError h fun he h => .of_require he h fun hmat h => ?_
  cases h
  exact .zzReset hmat

theorem execZzNext_next {s t : State} (h : execZzNext s = .next t) : CommandEffect s .zzNext t := by
  refine .of_unlessError h fun he h => .of_require he h fun hzz h => ?_
  split at h
  · next hend => cases h; exact .zzDone hzz hend
  · next r c hpos => cases h; exact .zzNext hzz hpos

theorem execPlace_next {m : BitVec 3} {s t : State} (h : execPlace m s = .next t) : CommandEffect s (.place m) t := by
  refine .of_unlessError h fun he h => .of_require he h fun hok h => ?_
  obtain ⟨hmat, hilv⟩ := Bool.and_eq_true_iff.1 hok
  obtain ⟨u, hu, h⟩ := orFault_next.1 h
  cases h
  exact .place hmat hilv hu

theorem execScore_next {s t : State} (h : execScore s = .next t) : CommandEffect s .score t := by
  refine .of_unlessError h fun he h => .of_require he h fun hwm h => ?_
  obtain ⟨u, hu, h⟩ := orFault_next.1 h
  cases h
  exact .score hwm hu

theorem execMaskSelect_next {s t : State} (h : execMaskSelect s = .next t) : CommandEffect s .maskSelect t := by
  refine .of_unlessError h fun he h => .of_require he h fun hok h => ?_
  obtain ⟨hmat, hilv⟩ := Bool.and_eq_true_iff.1 hok
  obtain ⟨u, hu, h⟩ := orFault_next.1 h
  cases h
  exact .maskSelect hmat hilv hu

/-- What a command other than `ENCODE` that answers can do. -/
theorem exec_next {i : Instr} {s t : State} (hi : i ≠ .encode) (h : exec i s = .next t) : CommandEffect s i t := by
  cases i with
  | nop => exact .of_unlessError h fun _ h => by cases h; exact .nop
  | clear => cases h; exact .clear
  | gfInit => exact .of_unlessError h fun _ h => by cases h; exact .gfInit
  | gfMul a b => exact execGfMul_next h
  | capLookup v e => exact execCapLookup_next h
  | select => exact execSelect_next h
  | compose => exact execCompose_next h
  | bsReset => exact execBsReset_next h
  | bsAppend w x => exact execBsAppend_next h
  | bsTerminate => exact execBsTerminate_next h
  | bsPad => exact execBsPad_next h
  | genPoly n => exact execGenPoly_next h
  | rsEncode o l => exact execRsEncode_next h
  | rsAll => exact execRsAll_next h
  | interleave => exact execInterleave_next h
  | build => exact execBuild_next h
  | verCalc v => exact execVerCalc_next h
  | fmtCalc e m => exact execFmtCalc_next h
  | zzReset => exact execZzReset_next h
  | zzNext => exact execZzNext_next h
  | place m => exact execPlace_next h
  | score => exact execScore_next h
  | maskSelect => exact execMaskSelect_next h
  | encode => exact absurd rfl hi

/-- The commands `ENCODE` is made of, in order (47_control R1110). -/
def encodeParts : List Instr := [.select, .compose, .rsAll, .interleave, .build, .maskSelect]

/-- What holds of a state and every command of `ENCODE` keeps, `ENCODE` keeps: it is ignored or runs its parts in order. -/
theorem execEncode_induct {P : State → Prop}
    (hpart : ∀ i ∈ encodeParts, ∀ s t, P s → exec i s = .next t → P t)
    {s t : State} (hs : P s) (h : exec .encode s = .next t) : P t := by
  obtain ⟨-, rfl⟩ | ⟨-, h⟩ := unlessError_next (show execEncode s = .next t from h)
  · exact hs
  obtain ⟨s₁, h₁, h⟩ := andThen_next.1 h
  obtain ⟨s₂, h₂, h⟩ := andThen_next.1 h
  obtain ⟨s₃, h₃, h⟩ := andThen_next.1 h
  obtain ⟨s₄, h₄, h⟩ := andThen_next.1 h
  obtain ⟨s₅, h₅, h₆⟩ := andThen_next.1 h
  have p₁ := hpart .select (by decide) s s₁ hs h₁
  have p₂ := hpart .compose (by decide) s₁ s₂ p₁ h₂
  have p₃ := hpart .rsAll (by decide) s₂ s₃ p₂ h₃
  have p₄ := hpart .interleave (by decide) s₃ s₄ p₃ h₄
  have p₅ := hpart .build (by decide) s₄ s₅ p₄ h₅
  exact hpart .maskSelect (by decide) s₅ t p₅ h₆

/-- What every effect of a command keeps, every command keeps. -/
theorem exec_induct {P : State → Prop} (heffect : ∀ i s t, P s → CommandEffect s i t → P t) {i : Instr} {s t : State}
    (hs : P s) (h : exec i s = .next t) : P t := by
  by_cases hi : i = .encode
  · subst hi
    refine execEncode_induct (fun j hj u v hu h => heffect j u v hu (exec_next ?_ h)) hs h
    rintro rfl
    exact absurd hj (by decide)
  · exact heffect i s t hs (exec_next hi h)

/-! ### Host moves -/

/-- A move of the host gets from `s`, the move taken off the inbox, to `t`: it changes the bus's own fields, runs a command,
meets an illegal word, stores into a register or a read-write window, or resets. -/
inductive MoveEffect (s : State) : State → Prop
  | bus (r : Option Response) (n : Nat) : MoveEffect s { s with response := r, draws := n }
  | command {t} (w : Word) (i : Instr) (h : exec i (s.accept w) = .next t) : MoveEffect s t
  | illegal {t} (w : Word) (h : illegalWord (s.accept w) = .next t) : MoveEffect s t
  | cfg (e : BitVec 2) : MoveEffect s (((s.setEcl e).setStatus s.status.invSel).respond .done)
  | len (n : BitVec 13) : MoveEffect s (((s.setLen n).setStatus s.status.invSel).respond .done)
  | element (w : Window) (i : Nat) (d : Word) (hw : w = .digits ∨ w = .bs) : MoveEffect s (s.writeElement w i d)
  | reset : MoveEffect s s.platformReset

theorem readElement_effect (s : State) (w : Window) (i : Nat) : MoveEffect s (s.readElement w i) := by
  unfold State.readElement
  split
  · exact .bus _ s.draws
  · exact .bus _ _

theorem busRead_effect (a : Addr) (width : Nat) (s : State) : MoveEffect s (busRead a width s) := by
  unfold busRead
  split
  · split
    · exact .bus _ s.draws
    · exact readElement_effect s _ _
    · exact .bus _ s.draws
  · exact .bus _ s.draws

theorem runWord_effect {w : Word} {s t : State} (h : runWord w (s.accept w) = .next t) : MoveEffect s t := by
  unfold runWord at h
  split at h
  · exact .command w _ h
  · exact .illegal w h

theorem busWrite_effect {a : Addr} {width : Nat} {d : Word} {s t : State} (h : busWrite a width d s = .next t) :
    MoveEffect s t := by
  unfold busWrite at h
  split at h
  · split at h
    · exact runWord_effect h
    · cases h; exact .cfg _
    · cases h; exact .len _
    · cases h; exact .element _ _ _ (.inl rfl)
    · cases h; exact .element _ _ _ (.inr rfl)
    · cases h; exact .bus _ s.draws
  · cases h; exact .bus _ s.draws

theorem hostMove_effect {m : HostMove} {s t : State} (h : hostMove m s = .next t) : MoveEffect s t := by
  cases m with
  | read a width => cases h; exact busRead_effect a width s
  | write a width d => exact busWrite_effect h
  | reset => cases h; exact .reset

/-- What the taking of a move, and every effect of one, keeps, every step keeps. -/
theorem step_induct {P : State → Prop} (hinbox : ∀ s rest, P s → P { s with inbox := rest })
    (hmove : ∀ s t, P s → MoveEffect s t → P t) {s t : State} (hs : P s) (h : step s = .next t) : P t := by
  unfold step nextMove at h
  split at h
  · cases h; exact hs
  · exact hmove _ t (hinbox s _ hs) (hostMove_effect h)

/-- An illegal word is ignored, or raises `ILLEGAL_CMD` (30_encoding R310, R311). -/
theorem illegalWord_next {s t : State} (h : illegalWord s = .next t) :
    t = s ∨ s.status.err = 0#4 ∧ t = s.withError errIllegalCmd := by
  obtain ⟨-, rfl⟩ | ⟨he, h⟩ := unlessError_next h
  · exact .inl rfl
  · exact .inr ⟨he, raiseError_next h⟩

end Sys2Proof.Machine
end

section
/-! SUPPORT. What an address names (10_state R104, 20_memory R201), and from it the statements about host accesses: a
written command word runs, reads give the register or the element, host writes store and invalidate. -/

-- One theorem at a time: each proof in flight holds a thread's whole stack.
set_option Elab.async false

namespace Sys2Proof.Machine

/-! ### Addresses -/

theorem targetAt_regAddr (r : Reg) : targetAt (regAddr r) = some (.reg r) := by
  cases r with
  | pen m => fin_cases m <;> rfl
  | _ => rfl

theorem regAddr_lt (r : Reg) : regAddr r < 0x80 := by
  cases r with
  | pen m => simp only [regAddr]; omega
  | _ => decide

theorem regAddr_aligned (r : Reg) : regAddr r % 4 = 0 := by
  cases r with
  | pen m => simp only [regAddr]; omega
  | _ => rfl

theorem regAt_elemAddr (w : Window) (i : Nat) : regAt (elemAddr w i) = none := by
  have hbase : 0x10000 ≤ w.base := by cases w <;> decide
  have hge : 0x10000 ≤ elemAddr w i := by simp only [elemAddr]; omega
  rw [regAt, if_neg (by omega), if_neg (by omega)]

/-- No two windows overlap (20_memory R201). -/
theorem Window.disjoint {w w' : Window} (h : w' ≠ w) :
    w'.base + 4 * w'.size ≤ w.base ∨ w.base + 4 * w.size ≤ w'.base := by
  revert h
  cases w <;> cases w' <;> decide

theorem contains_elemAddr {w : Window} {i : Nat} (hi : i < w.size) (w' : Window) :
    w'.contains (elemAddr w i) = decide (w' = w) := by
  rw [Bool.eq_iff_iff]
  simp only [Window.contains, decide_eq_true_eq]
  simp only [elemAddr]
  constructor
  · intro h
    by_contra hne
    have := Window.disjoint hne
    omega
  · rintro rfl
    omega

theorem targetAt_elemAddr {w : Window} {i : Nat} (hi : i < w.size) : targetAt (elemAddr w i) = some (.elem w i) := by
  have hfind : windowsInOrder.find? (fun w' => w'.contains (elemAddr w i)) = some w := by
    simp only [contains_elemAddr hi]
    cases w <;> rfl
  have hidx : (elemAddr w i - w.base) / 4 = i := by simp only [elemAddr]; omega
  simp only [targetAt, regAt_elemAddr, hfind, Option.map_some, hidx]

theorem elemAddr_lt {w : Window} {i : Nat} (hi : i < w.size) : elemAddr w i < 2 ^ 20 := by
  have hend : w.base + 4 * w.size ≤ 2 ^ 20 := by cases w <;> decide
  simp only [elemAddr]
  omega

theorem elemAddr_aligned (w : Window) (i : Nat) : elemAddr w i % 4 = 0 := by
  have : w.base % 4 = 0 := by cases w <;> rfl
  simp only [elemAddr]
  omega

/-- A 32-bit access at a multiple of 4 inside the host space has a legal form (20_memory R202, R203). -/
theorem formOk_ofNat {a : Nat} (hlt : a < 2 ^ 20) (ha : a % 4 = 0) : formOk (BitVec.ofNat 20 a) 32 = true := by
  simp only [formOk, BitVec.toNat_ofNat, Nat.mod_eq_of_lt hlt, ha, decide_true, Bool.and_self]

/-! ### Accesses by address -/

theorem step_eq_hostMove {s : State} {h : HostMove} {rest : List HostMove} (hs : s.inbox = h :: rest) :
    step s = hostMove h { s with inbox := rest } := by
  simp only [step, nextMove, hs]

theorem busRead_regAddr (r : Reg) (s : State) :
    busRead (BitVec.ofNat 20 (regAddr r)) 32 s = s.respond (.data (s.regWord r)) := by
  have hlt : regAddr r < 2 ^ 20 := by have := regAddr_lt r; omega
  simp only [busRead, formOk_ofNat hlt (regAddr_aligned r), if_true, BitVec.toNat_ofNat, Nat.mod_eq_of_lt hlt,
    targetAt_regAddr]

theorem busRead_elemAddr {w : Window} {i : Nat} (hi : i < w.size) (s : State) :
    busRead (BitVec.ofNat 20 (elemAddr w i)) 32 s = s.readElement w i := by
  simp only [busRead, formOk_ofNat (elemAddr_lt hi) (elemAddr_aligned w i), if_true, BitVec.toNat_ofNat,
    Nat.mod_eq_of_lt (elemAddr_lt hi), targetAt_elemAddr hi]

theorem busWrite_cmd (d : Word) (s : State) : busWrite 0#20 32 d s = runWord d (s.accept d) := rfl

theorem busWrite_cfg (d : Word) (s : State) : busWrite 0x008#20 32 d s =
    .next (((s.setEcl (d.extractLsb' 0 2)).setStatus s.status.invSel).respond .done) := rfl

theorem busWrite_len (d : Word) (s : State) : busWrite 0x00C#20 32 d s =
    .next (((s.setLen (d.extractLsb' 0 13)).setStatus s.status.invSel).respond .done) := rfl

theorem busWrite_elemAddr {w : Window} (hw : w = .digits ∨ w = .bs) {i : Nat} (hi : i < w.size) (d : Word) (s : State) :
    busWrite (BitVec.ofNat 20 (elemAddr w i)) 32 d s = .next (s.writeElement w i d) := by
  simp only [busWrite, formOk_ofNat (elemAddr_lt hi) (elemAddr_aligned w i), if_true, BitVec.toNat_ofNat,
    Nat.mod_eq_of_lt (elemAddr_lt hi), targetAt_elemAddr hi]
  obtain rfl | rfl := hw <;> rfl

/-! ### The command register -/

/-- Settles O1: the address 0 names `CMD`, whose write decodes the word and runs it with `LASTCMD` and the response set. -/
theorem stepRunsTheDecodedCommand : Obligations.StepRunsTheDecodedCommand := by
  unfold Obligations.StepRunsTheDecodedCommand
  refine ⟨fun s w i rest hs hw => ?_, fun s w e rest hs hw => ?_, fun s hs => ?_, fun s nbits w => rfl⟩
  · rw [step_eq_hostMove hs, hostMove, busWrite_cmd, runWord, hw]
    rfl
  · rw [step_eq_hostMove hs, hostMove, busWrite_cmd, runWord, hw]
    rfl
  · simp only [step, nextMove, hs]

/-! ### Values and fields -/

/-- A byte in the low bits of a bus word. -/
theorem byteWord_eq (b : Byte) : 0#24 ++ b = BitVec.ofNat 32 b.toNat := by
  apply BitVec.eq_of_toNat_eq
  simp only [BitVec.toNat_append, BitVec.toNat_ofNat, Nat.zero_mod, Nat.zero_shiftLeft, Nat.zero_or]
  omega

theorem toNat_and_seven (b : Byte) : (b &&& 0x07#8).toNat = b.toNat % 8 :=
  Nat.and_two_pow_sub_one_eq_mod b.toNat 3

/-- The value of an element as a bus word: a cell keeps its low 3 bits, a byte all 8 (20_memory R204). -/
theorem elemWord_eq (w : Window) (b : Byte) : 0#24 ++ (b &&& w.elemMask) =
    BitVec.ofNat 32 (if w = .mat ∨ w = .wm then b.toNat % 8 else b.toNat) := by
  have hbyte : b &&& 0xFF#8 = b := BitVec.and_allOnes
  cases w <;> simp only [byteWord_eq, Window.elemMask, toNat_and_seven, hbyte] <;> rfl

theorem readElement_of_some {s : State} {w : Window} {i : Nat} {b : Byte} (h : s.mem.read? w i = some b) :
    s.readElement w i = s.respond (.data (BitVec.ofNat 32 (if w = .mat ∨ w = .wm then b.toNat % 8 else b.toNat))) := by
  simp only [State.readElement, h, elemWord_eq]

theorem readElement_of_none {s : State} {w : Window} {i : Nat} (h : s.mem.read? w i = none) :
    s.readElement w i = { s.respond (.data (BitVec.ofNat 32 (if w = .mat ∨ w = .wm
      then (Config.freeElem s.draws).toNat % 8 else (Config.freeElem s.draws).toNat))) with draws := s.draws + 1 } := by
  simp only [State.readElement, h, elemWord_eq]

/-- Reserved bits stay 0 when a field is put below them. -/
theorem reserved_above_field {m n : Nat} {a mask : BitVec m} (h : a &&& mask = 0#m) (x : BitVec n) :
    (a ++ x) &&& (mask ++ 0#n) = 0#(m + n) := by
  rw [BitVec.and_append, h, BitVec.and_zero, BitVec.zero_append_zero]

/-- Reserved bits stay 0 when a reserved field is put below them. -/
theorem reserved_above_reserved {m n : Nat} {a mask : BitVec m} (h : a &&& mask = 0#m) (mask' : BitVec n) :
    (a ++ 0#n) &&& (mask ++ mask') = 0#(m + n) := by
  rw [BitVec.and_append, h, BitVec.zero_and, BitVec.zero_append_zero]

/-- A reserved field above all other fields reads 0. -/
theorem reserved_top {m n : Nat} (mask : BitVec m) (x : BitVec n) : (0#m ++ x) &&& (mask ++ 0#n) = 0#(m + n) :=
  reserved_above_field BitVec.zero_and x

/-- The field in the low bits of a word. -/
theorem field_low {m n : Nat} (a : BitVec m) (x : BitVec n) : (a ++ x).extractLsb' 0 n = x := by
  apply BitVec.eq_of_getLsbD_eq
  intro i hi
  simp [BitVec.getLsbD_append, hi]

/-- A field above the low `n` bits. -/
theorem field_above {m n start k : Nat} (a : BitVec m) (x : BitVec n) (h : n ≤ start) :
    (a ++ x).extractLsb' start k = a.extractLsb' (start - n) k := by
  apply BitVec.eq_of_getLsbD_eq
  intro i hi
  simp only [BitVec.getLsbD_extractLsb', BitVec.getLsbD_append, if_neg (show ¬ start + i < n by omega),
    show start + i - n = start - n + i by omega]

/-- The flag in the lowest bit of a word. -/
theorem flag_low {m : Nat} (a : BitVec m) (b : Bool) : (a ++ flagBit b).getLsbD 0 = b := by
  rw [BitVec.getLsbD_append, if_pos Nat.zero_lt_one, flagBit, BitVec.getLsbD_ofBool]
  simp

/-- A bit above the low `n` bits. -/
theorem bit_above {m n i : Nat} (a : BitVec m) (x : BitVec n) (h : n ≤ i) :
    (a ++ x).getLsbD i = a.getLsbD (i - n) := by
  rw [BitVec.getLsbD_append, if_neg (by omega)]

theorem Status.word_reserved (t : Status) : t.word &&& 0xFF008000#32 = 0#32 := by
  have hmask : 0xFF008000#32 = 0xFF#8 ++ 0#8 ++ 1#1 ++ 0#1 ++ 0#1 ++ 0#1 ++ 0#1 ++ 0#1 ++ 0#1 ++ 0#1 ++ 0#1 ++ 0#1 ++
      0#1 ++ 0#1 ++ 0#4 := rfl
  rw [hmask]
  iterate 12 refine reserved_above_field ?_ _
  exact reserved_above_reserved (reserved_top _ _) _

/-- The reserved fields of every register read 0 (10_state R105). -/
theorem regWord_reserved (s : State) :
    (s.regWord .status &&& 0xFF008000#32 = 0#32) ∧ (s.regWord .cfg &&& 0xFFFFFFFC#32 = 0#32) ∧
    (s.regWord .len &&& 0xFFFFE000#32 = 0#32) ∧ (s.regWord .version &&& 0xF000F000#32 = 0#32) ∧
    (s.regWord .group1 &&& 0xFF000080#32 = 0#32) ∧ (s.regWord .group2 &&& 0xFF000080#32 = 0#32) ∧
    (s.regWord .ecinfo &&& 0xF8000000#32 = 0#32) ∧ (s.regWord .bscur &&& 0xFFFF8000#32 = 0#32) ∧
    (s.regWord .gfr &&& 0xFFFFFF00#32 = 0#32) ∧ (s.regWord .genlen &&& 0xFFFFFF80#32 = 0#32) ∧
    (s.regWord .zzpos &&& 0xFFFF0000#32 = 0#32) ∧ (s.regWord .zzidx &&& 0xFFFF8000#32 = 0#32) ∧
    (s.regWord .wmask &&& 0xFFFFFFF8#32 = 0#32) ∧ (s.regWord .fmt &&& 0xFFFF8000#32 = 0#32) ∧
    (s.regWord .verinfo &&& 0xFFFC0000#32 = 0#32) ∧ (s.regWord .dark &&& 0xFFFF8000#32 = 0#32) ∧
    (s.regWord .best &&& 0xFFFFFFF8#32 = 0#32) := by
  refine ⟨s.status.word_reserved, reserved_top 0x3FFFFFFF#30 _, reserved_top 0x7FFFF#19 _, ?_, ?_, ?_, ?_,
    reserved_top 0x1FFFF#17 _, reserved_top 0xFFFFFF#24 _, reserved_top 0x1FFFFFF#25 _, ?_,
    reserved_top 0x1FFFF#17 _, reserved_top 0x1FFFFFFF#29 _, reserved_top 0x1FFFF#17 _, reserved_top 0x3FFF#14 _,
    reserved_top 0x1FFFF#17 _, reserved_top 0x1FFFFFFF#29 _⟩
  · exact reserved_above_field (reserved_above_field (reserved_above_field (reserved_above_reserved
      (reserved_top 0xF#4 _) 0xF#4) _) _) _
  · exact reserved_above_field (reserved_above_reserved (reserved_above_field (reserved_top 0xFF#8 _) _) 1#1) _
  · exact reserved_above_field (reserved_above_reserved (reserved_above_field (reserved_top 0xFF#8 _) _) 1#1) _
  · exact reserved_above_field (reserved_above_field (reserved_top 0x1F#5 _) _) _
  · exact reserved_above_field (reserved_top 0xFFFF#16 _) _

/-- The fields of `STATUS` stand at the bits R107 lists. -/
theorem regWord_status_fields (s : State) :
    let w := s.regWord .status
    w.extractLsb' 0 4 = s.status.err ∧ w.getLsbD 4 = s.status.selV ∧ w.getLsbD 5 = s.status.bsV ∧
    w.getLsbD 6 = s.status.genV ∧ w.getLsbD 7 = s.status.ecV ∧ w.getLsbD 8 = s.status.ilvV ∧
    w.getLsbD 9 = s.status.matV ∧ w.getLsbD 10 = s.status.zzV ∧ w.getLsbD 11 = s.status.zzDone ∧
    w.getLsbD 12 = s.status.wmV ∧ w.getLsbD 13 = s.status.scV ∧ w.getLsbD 14 = s.status.bestV ∧
    w.extractLsb' 16 8 = s.status.penv := by
  simp (disch := decide) only [State.regWord, Status.word, field_low, field_above, flag_low, bit_above, Nat.reduceSub,
    and_self]

/-- The fields of the entry's four registers stand at the bits R110 to R112 list. -/
theorem regWord_entry_fields (s : State) :
    (let w := s.regWord .version
     w.extractLsb' 0 6 = s.entry.ver ∧ w.extractLsb' 6 2 = s.entry.secl ∧ w.extractLsb' 8 4 = s.entry.cci ∧
     w.extractLsb' 16 12 = s.entry.dataCw) ∧
    (let w := s.regWord .group1
     w.extractLsb' 0 7 = s.entry.blk1 ∧ w.extractLsb' 8 8 = s.entry.c1 ∧ w.extractLsb' 16 8 = s.entry.k1) ∧
    (let w := s.regWord .group2
     w.extractLsb' 0 7 = s.entry.blk2 ∧ w.extractLsb' 8 8 = s.entry.c2 ∧ w.extractLsb' 16 8 = s.entry.k2) ∧
    (let w := s.regWord .ecinfo
     w.extractLsb' 0 8 = s.entry.ecLen ∧ w.extractLsb' 8 12 = s.entry.totalCw ∧ w.extractLsb' 20 7 = s.entry.nblk) := by
  simp (disch := decide) only [State.regWord, field_low, field_above, Nat.reduceSub, and_self]

/-- Settles O52: a read finds its register or element by address, a cell masked to 3 bits; each field is a slice of the
concatenation R107 to R122 list. -/
theorem busReadsHaveNoEffect : Obligations.BusReadsHaveNoEffect := by
  unfold Obligations.BusReadsHaveNoEffect
  refine ⟨fun s rest => ⟨fun r hs => ?_, fun w i b hi hb hs => ?_, fun w i hi hb hs => ?_⟩, fun s => ?_⟩
  · rw [step_eq_hostMove hs, hostMove, busRead_regAddr]
    rfl
  · rw [step_eq_hostMove hs, hostMove, busRead_elemAddr hi, readElement_of_some (s := { s with inbox := rest }) hb]
    rfl
  · rw [step_eq_hostMove hs, hostMove, busRead_elemAddr hi, readElement_of_none (s := { s with inbox := rest }) hb]
    rfl
  · simp only [regWord_reserved s, regWord_status_fields s, regWord_entry_fields s, true_and, and_true]
    simp (disch := decide) only [State.regWord, field_low, field_above, Nat.reduceSub, and_self, implies_true]

/-! ### Host writes -/

theorem State.writeElement_mem (s : State) (w : Window) (i : Nat) (d : Word) :
    (s.writeElement w i d).mem = s.mem.write w i (d.extractLsb' 0 8) := rfl

theorem Status.invSel_eq (t : Status) : t.invSel = { Status.zero with err := t.err, genV := t.genV } := rfl

theorem State.storeEcl_eq (s : State) (e : BitVec 2) (t : Status) (r : Response) :
    ((s.setEcl e).setStatus t).respond r = { s with response := some r, ecl := e, status := t } := rfl

theorem State.storeLen_eq (s : State) (n : BitVec 13) (t : Status) (r : Response) :
    ((s.setLen n).setStatus t).respond r = { s with response := some r, len := n, status := t } := rfl

theorem lowBits_eq (d : Word) (k : Nat) : d.extractLsb' 0 k = BitVec.ofNat k (d.toNat % 2 ^ k) := by
  apply BitVec.eq_of_toNat_eq
  simp

/-- Settles O53: the address 8 names `CFG`, 12 `LEN`, and an element's address the element, whose write is a memory write. -/
theorem hostWritesStoreAndInvalidate : Obligations.HostWritesStoreAndInvalidate := by
  unfold Obligations.HostWritesStoreAndInvalidate
  refine fun s rest d => ⟨fun hs => ?_, fun hs => ?_, fun z i hz hi hs => ?_⟩
  · rw [step_eq_hostMove hs, hostMove, busWrite_cfg, lowBits_eq d 2, State.storeEcl_eq, Status.invSel_eq]
    rfl
  · rw [step_eq_hostMove hs, hostMove, busWrite_len, lowBits_eq d 13, State.storeLen_eq, Status.invSel_eq]
  · rw [step_eq_hostMove hs, hostMove, busWrite_elemAddr hz hi]
    refine ⟨_, rfl, rfl, ?_, fun w k hwk => ?_⟩
    · simp only [State.writeElement_mem, Memory.read?_write, and_self, hi, if_true]
      exact congrArg some (lowBits_eq d 8)
    · rw [State.writeElement_mem, Memory.read?_write, if_neg]
      rintro ⟨hw, hk, -⟩
      exact hwk.elim (absurd hw) (absurd hk)

end Sys2Proof.Machine
end

section
/-! SUPPORT. What the loops over streams, blocks and masks keep, what every command leaves alone (10_state R124 and the
"written by" of R110 to R122), and that every step keeps the windows' canonical form. -/

-- One theorem at a time: each proof in flight holds a thread's whole stack.
set_option Elab.async false

namespace Sys2Proof.Machine

/-! ### Written elements stay written -/

/-- Every element written in `m` is written in `m'`. -/
def Memory.Covers (m m' : Memory) : Prop := ∀ w i, (m.read? w i).isSome = true → (m'.read? w i).isSome = true

theorem Memory.Covers.refl (m : Memory) : m.Covers m := fun _ _ h => h

theorem Memory.Covers.trans {m₁ m₂ m₃ : Memory} (h : m₁.Covers m₂) (h' : m₂.Covers m₃) : m₁.Covers m₃ :=
  fun w i hi => h' w i (h w i hi)

theorem Memory.covers_write (m : Memory) (w : Window) (i : Nat) (b : Byte) : m.Covers (m.write w i b) := by
  intro w' k h
  rw [Memory.read?_write]
  split
  · rfl
  · exact h

theorem Memory.covers_writeList (m : Memory) (w : Window) (i : Nat) (vals : List Byte) :
    m.Covers (m.writeList w i vals) := by
  intro w' k h
  rw [Memory.read?_writeList]
  split
  · next hk => rw [List.getElem?_eq_getElem (by omega)]; rfl
  · exact h

theorem Memory.window_writeList_ne {w w' : Window} (h : w' ≠ w) (m : Memory) (i : Nat) (vals : List Byte) :
    (m.writeList w i vals).window w' = m.window w' := by
  rw [Memory.window_writeList, if_neg h]

theorem Memory.Covers.written {m m' : Memory} (h : m.Covers m') {w : Window} {n : Nat} (hw : m.Written w n) :
    m'.Written w n :=
  fun i hi => h w i (hw i hi)

/-- A list written from index 0 leaves its elements written. -/
theorem Memory.written_writeList_zero (m : Memory) {w : Window} {vals : List Byte} {n : Nat} (hn : n ≤ vals.length)
    (hs : n ≤ w.size) : (m.writeList w 0 vals).Written w n := by
  intro i hi
  rw [Memory.read?_writeList, if_pos ⟨rfl, by omega, by omega, by omega⟩, List.getElem?_eq_getElem (by omega)]
  rfl

/-! ### The loops -/

/-- What every write to `BS` keeps of memory, appending bits keeps. -/
theorem appendBits_mem_induct {P : Memory → Prop} (hwrite : ∀ m i b, P m → P (m.write .bs i b)) {bs : List Bool}
    {st st' : Stream} (hm : P st.mem) (h : appendBits bs st = .ok st') : P st'.mem := by
  induction bs generalizing st with
  | nil => cases h; exact hm
  | cons b bs ih =>
    simp only [appendBits, appendBit] at h
    split at h
    · cases h
    · next st₁ h₁ =>
      refine ih ?_ h
      split at h₁
      · cases h₁
      · cases h₁; exact hwrite _ _ _ hm

theorem terminate_mem_induct {P : Memory → Prop} (hwrite : ∀ m i b, P m → P (m.write .bs i b)) {cap : Nat}
    {st st' : Stream} (hm : P st.mem) (h : terminate cap st = .ok st') : P st'.mem := by
  simp only [terminate] at h
  split at h
  · cases h
  · next st₁ h₁ => exact appendBits_mem_induct hwrite (appendBits_mem_induct hwrite hm h₁) h

theorem padStream_mem_induct {P : Memory → Prop} (hwrite : ∀ m i b, P m → P (m.write .bs i b)) {cap : Nat}
    {st st' : Stream} (hm : P st.mem) (h : padStream cap st = .ok st') : P st'.mem := by
  rw [padStream, appendFields_eq] at h
  exact appendBits_mem_induct hwrite hm h

/-- What `COMPOSE` can do: header and digits from a zeroed buffer, then the terminator, then the padding. -/
theorem composeStream_eq_ok {e : Entry} {n : Nat} {ds : List Nat} {m : Memory} {st : Stream}
    (h : composeStream e n ds m = .ok st) :
    ∃ st₁ st₂, appendFields ((4, 1) :: (e.cci.toNat, n) :: digitFields ds) (Stream.zeroed m) = .ok st₁ ∧
      terminate e.capBits st₁ = .ok st₂ ∧ padStream e.capBits st₂ = .ok st := by
  simp only [composeStream] at h
  split at h
  · cases h
  · next st₁ h₁ =>
    split at h
    · cases h
    · next st₂ h₂ => exact ⟨st₁, st₂, h₁, h₂, h⟩

theorem composeStream_mem_induct {P : Memory → Prop} (hwrite : ∀ m i b, P m → P (m.write .bs i b)) {e : Entry} {n : Nat}
    {ds : List Nat} {m : Memory} {st : Stream} (hm : P (Stream.zeroed m).mem) (h : composeStream e n ds m = .ok st) :
    P st.mem := by
  obtain ⟨st₁, st₂, h₁, h₂, h₃⟩ := composeStream_eq_ok h
  rw [appendFields_eq] at h₁
  exact padStream_mem_induct hwrite (terminate_mem_induct hwrite (appendBits_mem_induct hwrite hm h₁) h₂) h₃

/-- `m` is `m₀` after stores to `BS`: it is canonical when `m₀` is, no element is unwritten, every other window is kept. -/
structure Memory.BsStores (m₀ m : Memory) : Prop where
  wf     : m₀.wf = true → m.wf = true
  covers : m₀.Covers m
  same   : ∀ w, w ≠ .bs → m.window w = m₀.window w

theorem Memory.BsStores.refl (m : Memory) : Memory.BsStores m m := ⟨id, .refl m, fun _ _ => rfl⟩

theorem Memory.BsStores.write {m₀ m : Memory} (h : Memory.BsStores m₀ m) (i : Nat) (b : Byte) :
    Memory.BsStores m₀ (m.write .bs i b) where
  wf hm := Memory.wf_write _ _ _ (h.wf hm)
  covers := h.covers.trans (m.covers_write _ _ _)
  same w hw := (m.window_write .bs i b hw).trans (h.same w hw)

theorem zeroed_bsStores (m : Memory) : Memory.BsStores m (Stream.zeroed m).mem where
  wf hm := Memory.wf_writeList _ _ _ hm
  covers := m.covers_writeList _ _ _
  same _ hw := Memory.window_writeList_ne hw m 0 _

theorem appendField_bsStores {w x : Nat} {st st' : Stream} (h : appendField w x st = .ok st') :
    Memory.BsStores st.mem st'.mem :=
  appendBits_mem_induct (fun _ i b h => h.write i b) (.refl _) h

theorem terminate_bsStores {cap : Nat} {st st' : Stream} (h : terminate cap st = .ok st') :
    Memory.BsStores st.mem st'.mem :=
  terminate_mem_induct (fun _ i b h => h.write i b) (.refl _) h

theorem padStream_bsStores {cap : Nat} {st st' : Stream} (h : padStream cap st = .ok st') :
    Memory.BsStores st.mem st'.mem :=
  padStream_mem_induct (fun _ i b h => h.write i b) (.refl _) h

theorem composeStream_bsStores {e : Entry} {n : Nat} {ds : List Nat} {m : Memory} {st : Stream}
    (h : composeStream e n ds m = .ok st) : Memory.BsStores m st.mem :=
  composeStream_mem_induct (fun _ i b h => h.write i b) (zeroed_bsStores m) h

/-- What trying a mask keeps, the ascending loop keeps. -/
theorem tryMasks_induct {P : State → Prop} (htry : ∀ m s t, P s → tryMask m s = .ok t → P t) {ms : List (BitVec 3)}
    {best b : Option (BitVec 3 × Word)} {s t : State} (hs : P s) (h : tryMasks ms best s = .ok (t, b)) : P t := by
  induction ms generalizing best s with
  | nil => cases h; exact hs
  | cons m ms ih =>
    simp only [tryMasks] at h
    split at h
    · cases h
    · next s₁ h₁ => exact ih (htry m s s₁ hs h₁) h

/-- What trying a mask and storing the winner keep, `MASK_SELECT` keeps. -/
theorem selectMask_induct {P : State → Prop} (htry : ∀ m s t, P s → tryMask m s = .ok t → P t)
    (hbest : ∀ s m p, P s → P (s.setBest m p)) (hflag : ∀ s, P s → P (s.setStatus s.status.setBest)) {s t : State}
    (hs : P s) (h : selectMask s = .ok t) : P t := by
  obtain ⟨s₁, best, s₂, h₁, h₂, rfl⟩ := selectMask_eq_ok h
  exact hflag _ (htry _ _ _ (hbest _ _ _ (tryMasks_induct htry hs h₁)) h₂)

/-! ### Frames -/

/-- `t` differs from `s` at most in `STATUS`, the listed registers and windows, and the fault log. -/
structure Frame (rs : List Reg) (ws : List Window) (s t : State) : Prop where
  reg      : ∀ r, r ≠ .status → r ∉ rs → t.regWord r = s.regWord r
  window   : ∀ w, w ∉ ws → t.mem.window w = s.mem.window w
  lastcmd  : t.lastcmd = s.lastcmd
  ecl      : t.ecl = s.ecl
  len      : t.len = s.len
  inbox    : t.inbox = s.inbox
  response : t.response = s.response
  draws    : t.draws = s.draws

namespace Frame

variable {rs rs' : List Reg} {ws ws' : List Window} {s t u : State}

theorem refl (s : State) : Frame rs ws s s :=
  ⟨fun _ _ _ => rfl, fun _ _ => rfl, rfl, rfl, rfl, rfl, rfl, rfl⟩

theorem mono (hr : rs ⊆ rs') (hw : ws ⊆ ws') (h : Frame rs ws s t) : Frame rs' ws' s t :=
  { h with
    reg := fun r hs hn => h.reg r hs fun hm => hn (hr hm)
    window := fun w hn => h.window w fun hm => hn (hw hm) }

theorem trans (h : Frame rs ws s t) (h' : Frame rs ws t u) : Frame rs ws s u where
  reg r hs hn := (h'.reg r hs hn).trans (h.reg r hs hn)
  window w hn := (h'.window w hn).trans (h.window w hn)
  lastcmd := h'.lastcmd.trans h.lastcmd
  ecl := h'.ecl.trans h.ecl
  len := h'.len.trans h.len
  inbox := h'.inbox.trans h.inbox
  response := h'.response.trans h.response
  draws := h'.draws.trans h.draws

/-! One rule per register update: it stays in a frame that lists the register. -/

theorem setStatus (h : Frame rs ws s t) (x : Status) : Frame rs ws s (t.setStatus x) :=
  h.trans { (refl t : Frame rs ws t t) with
    reg := fun r hs _ => by
      cases r with
      | status => exact absurd rfl hs
      | _ => rfl }

theorem withError (h : Frame rs ws s t) (c : BitVec 4) : Frame rs ws s (t.withError c) :=
  h.trans { (refl t : Frame rs ws t t) with
    reg := fun r hs _ => by
      cases r with
      | status => exact absurd rfl hs
      | _ => rfl }

theorem setEntry (h : Frame rs ws s t) (hr : entryRegs ⊆ rs) (e : Entry) : Frame rs ws s (t.setEntry e) :=
  h.trans { (refl t : Frame rs ws t t) with
    reg := fun r _ hn => by
      cases r with
      | version | group1 | group2 | ecinfo => exact absurd (hr (by decide)) hn
      | _ => rfl }

theorem setCur (h : Frame rs ws s t) (hr : .bscur ∈ rs) (n : Nat) : Frame rs ws s (t.setCur n) :=
  h.trans { (refl t : Frame rs ws t t) with
    reg := fun r _ hn => by
      cases r with
      | bscur => exact absurd hr hn
      | _ => rfl }

theorem setGfP (h : Frame rs ws s t) (hr : .gfr ∈ rs) (p : Byte) : Frame rs ws s (t.setGfP p) :=
  h.trans { (refl t : Frame rs ws t t) with
    reg := fun r _ hn => by
      cases r with
      | gfr => exact absurd hr hn
      | _ => rfl }

theorem setGenLen (h : Frame rs ws s t) (hr : .genlen ∈ rs) (n : Nat) : Frame rs ws s (t.setGenLen n) :=
  h.trans { (refl t : Frame rs ws t t) with
    reg := fun r _ hn => by
      cases r with
      | genlen => exact absurd hr hn
      | _ => rfl }

theorem setZz (h : Frame rs ws s t) (hp : .zzpos ∈ rs) (hi : .zzidx ∈ rs) (row col idx : Nat) :
    Frame rs ws s (t.setZz row col idx) :=
  h.trans { (refl t : Frame rs ws t t) with
    reg := fun r _ hn => by
      cases r with
      | zzpos => exact absurd hp hn
      | zzidx => exact absurd hi hn
      | _ => rfl }

theorem setWmMask (h : Frame rs ws s t) (hr : .wmask ∈ rs) (m : BitVec 3) : Frame rs ws s (t.setWmMask m) :=
  h.trans { (refl t : Frame rs ws t t) with
    reg := fun r _ hn => by
      cases r with
      | wmask => exact absurd hr hn
      | _ => rfl }

theorem setFmt (h : Frame rs ws s t) (hr : .fmt ∈ rs) (f : BitVec 15) : Frame rs ws s (t.setFmt f) :=
  h.trans { (refl t : Frame rs ws t t) with
    reg := fun r _ hn => by
      cases r with
      | fmt => exact absurd hr hn
      | _ => rfl }

theorem setVi (h : Frame rs ws s t) (hr : .verinfo ∈ rs) (v : BitVec 18) : Frame rs ws s (t.setVi v) :=
  h.trans { (refl t : Frame rs ws t t) with
    reg := fun r _ hn => by
      cases r with
      | verinfo => exact absurd hr hn
      | _ => rfl }

theorem setScore (h : Frame rs ws s t) (hr : scoreRegs ⊆ rs) (c : Score) : Frame rs ws s (t.setScore c) :=
  h.trans { (refl t : Frame rs ws t t) with
    reg := fun r _ hn => by
      cases r with
      | p1 | p2 | p3 | p4 | ptotal | dark => exact absurd (hr (by decide)) hn
      | _ => rfl }

theorem setBest (h : Frame rs ws s t) (hb : .best ∈ rs) (hp : .bestpen ∈ rs) (m : BitVec 3) (p : Word) :
    Frame rs ws s (t.setBest m p) :=
  h.trans { (refl t : Frame rs ws t t) with
    reg := fun r _ hn => by
      cases r with
      | best => exact absurd hb hn
      | bestpen => exact absurd hp hn
      | _ => rfl }

theorem setPen (h : Frame rs ws s t) (hr : penRegs ⊆ rs) (m : BitVec 3) (p : Word) : Frame rs ws s (t.setPen m p) :=
  h.trans { (refl t : Frame rs ws t t) with
    reg := fun r _ hn => by
      cases r with
      | pen k => exact absurd (hr (List.mem_map_of_mem (List.mem_finRange k))) hn
      | _ => rfl }

theorem setMem (h : Frame rs ws s t) {m : Memory} (hm : ∀ w, w ∉ ws → m.window w = t.mem.window w) :
    Frame rs ws s (t.setMem m) :=
  h.trans { (refl t : Frame rs ws t t) with
    reg := fun r _ _ => by cases r <;> rfl
    window := hm }

theorem writeList (h : Frame rs ws s t) {w : Window} (hw : w ∈ ws) (i : Nat) (vals : List Byte) :
    Frame rs ws s (t.setMem (t.mem.writeList w i vals)) :=
  h.setMem fun _ hw' => Memory.window_writeList_ne (ne_of_mem_of_not_mem hw hw').symm _ i vals

theorem selectEntry (h : Frame rs ws s t) (hr : entryRegs ⊆ rs) (e : Entry) : Frame rs ws s (t.selectEntry e) :=
  (h.setStatus _).setEntry hr e

theorem storeGenerator (h : Frame rs ws s t) (hr : .genlen ∈ rs) (hw : .gen ∈ ws) (n : Nat) :
    Frame rs ws s (t.storeGenerator n) :=
  ((h.writeList hw 0 (generator n)).setGenLen hr n).setStatus _

/-- `CLEAR` writes every register but `CMD`, `CFG` and `LEN`. -/
theorem clearRequest (s : State) : Frame (regsWritten .clear) ws s s.clearRequest :=
  { (refl s : Frame (regsWritten .clear) ws s s) with
    reg := fun r hs hn => by
      cases r with
      | cmd | cfg | len => rfl
      | status => exact absurd rfl hs
      | pen k => exact absurd (List.mem_append_right _ (List.mem_map_of_mem (List.mem_finRange k))) hn
      | _ => exact absurd (by decide) hn }

end Frame

/-! ### The frame of every command -/

/-- A command that stores a stream writes `BS` and its cursor. -/
theorem Frame.stream {s : State} {st : Stream} (h : Memory.BsStores s.mem st.mem) (x : Status) :
    Frame [.bscur] [.bs] s ((s.setStatus x).setStream st) :=
  (((Frame.refl s).setStatus x).setMem fun w hw => h.same w (by simpa using hw)).setCur (by decide) st.cur

theorem placeMask_frame {m : BitVec 3} {s t : State} (h : placeMask m s = .ok t) : Frame [.wmask, .fmt] [.wm] s t := by
  obtain ⟨mat, ilv, -, -, rfl⟩ := placeMask_eq_ok h
  exact ((((Frame.refl s).writeList (by decide) 0 _).setFmt (by decide) _).setWmMask (by decide) m).setStatus _

theorem scoreMask_frame {s t : State} (h : scoreMask s = .ok t) : Frame (scoreRegs ++ penRegs) [] s t := by
  obtain ⟨rows, -, rfl⟩ := scoreMask_eq_ok h
  exact (((Frame.refl s).setScore (List.subset_append_left _ _) _).setPen (List.subset_append_right _ _) _ _).setStatus _

theorem tryMask_frame {m : BitVec 3} {s t : State} (h : tryMask m s = .ok t) :
    Frame (regsWritten .maskSelect) [.wm] s t := by
  obtain ⟨u, hplace, hscore⟩ := tryMask_eq_ok h
  exact ((placeMask_frame hplace).mono (by decide) (by decide)).trans
    ((scoreMask_frame hscore).mono (by decide) (by decide))

theorem selectMask_frame {s t : State} (h : selectMask s = .ok t) : Frame (regsWritten .maskSelect) [.wm] s t :=
  selectMask_induct (P := Frame (regsWritten .maskSelect) [.wm] s) (fun _ _ _ hs ht => hs.trans (tryMask_frame ht))
    (fun _ m p hs => hs.setBest (by decide) (by decide) m p) (fun _ hs => hs.setStatus _) (.refl s) h

theorem rsAll_frame {s : State} {m : Memory} {g : List Byte} {bs : List Nat}
    (hm : rsBlocks s.entry g bs ((s.setStatus s.status.invEc).storeGenerator s.entry.ecLen.toNat).mem = .ok m)
    (x : Status) :
    Frame [.genlen] [.gen, .rsr, .ecb] s
      ((((s.setStatus s.status.invEc).storeGenerator s.entry.ecLen.toNat).setMem m).setStatus x) :=
  ((((Frame.refl s).setStatus _).storeGenerator (by decide) (by decide) _).setMem fun w hw => by
    simp only [List.mem_cons, List.not_mem_nil, or_false, not_or] at hw
    obtain ⟨-, hrsr, hecb⟩ := hw
    exact rsBlocks_window hm hecb hrsr).setStatus x

/-- The frame of every command but `ENCODE`. -/
theorem CommandEffect.frame {i : Instr} {s t : State} (h : CommandEffect s i t) :
    Frame (regsWritten i) (windowsWritten i) s t := by
  cases h with
  | ignored => exact .refl s
  | failed c => exact (Frame.refl s).withError c
  | nop => exact .refl s
  | clear => exact .clearRequest s
  | gfInit => exact .refl s
  | gfMul => exact (Frame.refl s).setGfP (List.mem_singleton_self _) _
  | capLookup => exact (Frame.refl s).selectEntry (List.Subset.refl _) _
  | select => exact (Frame.refl s).selectEntry (List.Subset.refl _) _
  | compose _ _ _ hst => exact .stream (composeStream_bsStores hst) _
  | bsReset => exact .stream (zeroed_bsStores s.mem) _
  | bsAppend _ _ _ hst => exact .stream (appendField_bsStores hst) _
  | bsTerminate _ hst => exact .stream (terminate_bsStores hst) _
  | bsPad _ _ hst => exact .stream (padStream_bsStores hst) _
  | genPoly => exact (Frame.refl s).storeGenerator (List.mem_singleton_self _) (List.mem_singleton_self _) _
  | rsEncode => exact (Frame.refl s).writeList (List.mem_singleton_self _) 0 _
  | rsAll _ _ hm => exact rsAll_frame hm _
  | interleave => exact ((Frame.refl s).setStatus _).writeList (List.mem_singleton_self _) 0 _
  | build =>
    exact (((Frame.refl s).setStatus _).setVi (List.mem_singleton_self _) _).writeList (List.mem_singleton_self _) 0 _
  | verCalc => exact (Frame.refl s).setVi (List.mem_singleton_self _) _
  | fmtCalc => exact (Frame.refl s).setFmt (List.mem_singleton_self _) _
  | zzReset => exact ((Frame.refl s).setZz (by decide) (by decide) 0 0 0).setStatus _
  | zzDone => exact (Frame.refl s).setStatus _
  | zzNext => exact (Frame.refl s).setZz (by decide) (by decide) _ _ _
  | place _ _ ht => exact placeMask_frame ht
  | score _ ht => exact scoreMask_frame ht
  | maskSelect _ _ ht => exact selectMask_frame ht

/-- `ENCODE` writes what its parts write. -/
theorem encodeParts_subset : ∀ i ∈ encodeParts,
    regsWritten i ⊆ regsWritten .encode ∧ windowsWritten i ⊆ windowsWritten .encode := by
  decide

theorem exec_frame {i : Instr} {s t : State} (h : exec i s = .next t) :
    Frame (regsWritten i) (windowsWritten i) s t := by
  by_cases hi : i = .encode
  · subst hi
    refine execEncode_induct (P := Frame (regsWritten .encode) (windowsWritten .encode) s)
      (fun j hj u v hu huv => hu.trans ?_) (.refl s) h
    have hne : j ≠ .encode := by
      rintro rfl
      exact absurd hj (by decide)
    obtain ⟨hr, hw⟩ := encodeParts_subset j hj
    exact (exec_next hne huv).frame.mono hr hw
  · exact (exec_next hi h).frame

/-- Settles O49: the frame of every effect, composed from one rule per register update and from the loops. -/
theorem commandsKeepWhatTheyDoNotWrite : Obligations.CommandsKeepWhatTheyDoNotWrite := by
  intro i s t h
  have hf := exec_frame h
  exact ⟨hf.reg, hf.window, hf.lastcmd, hf.ecl, hf.len, hf.inbox, hf.response, hf.draws⟩

/-! ### The canonical form -/

theorem placeMask_wf {m : BitVec 3} {s t : State} (hs : s.mem.wf = true) (h : placeMask m s = .ok t) :
    t.mem.wf = true := by
  obtain ⟨mat, ilv, -, -, rfl⟩ := placeMask_eq_ok h
  exact Memory.wf_writeList _ _ _ hs

theorem scoreMask_mem {s t : State} (h : scoreMask s = .ok t) : t.mem = s.mem := by
  obtain ⟨rows, -, rfl⟩ := scoreMask_eq_ok h
  rfl

theorem tryMask_wf {m : BitVec 3} {s t : State} (hs : s.mem.wf = true) (h : tryMask m s = .ok t) : t.mem.wf = true := by
  obtain ⟨u, hplace, hscore⟩ := tryMask_eq_ok h
  rw [scoreMask_mem hscore]
  exact placeMask_wf hs hplace

theorem selectMask_wf {s t : State} (hs : s.mem.wf = true) (h : selectMask s = .ok t) : t.mem.wf = true :=
  selectMask_induct (P := fun s => s.mem.wf = true) (fun _ _ _ hs ht => tryMask_wf hs ht) (fun _ _ _ hs => hs)
    (fun _ hs => hs) hs h

/-- Every command's effect keeps the canonical form: each stores only by the window operations, which keep it. -/
theorem CommandEffect.wf {i : Instr} {s t : State} (hs : s.mem.wf = true) (h : CommandEffect s i t) :
    t.mem.wf = true := by
  cases h with
  | ignored | failed | nop | clear | gfInit | gfMul | capLookup | select | verCalc | fmtCalc | zzReset | zzDone
  | zzNext => exact hs
  | compose _ _ _ hst => exact (composeStream_bsStores hst).wf hs
  | bsReset => exact (zeroed_bsStores s.mem).wf hs
  | bsAppend _ _ _ hst => exact (appendField_bsStores hst).wf hs
  | bsTerminate _ hst => exact (terminate_bsStores hst).wf hs
  | bsPad _ _ hst => exact (padStream_bsStores hst).wf hs
  | genPoly | rsEncode | interleave | build => exact Memory.wf_writeList _ _ _ hs
  | rsAll _ _ hm => exact rsBlocks_wf hm (Memory.wf_writeList _ _ _ hs)
  | place _ _ ht => exact placeMask_wf hs ht
  | score _ ht => exact (scoreMask_mem ht).symm ▸ hs
  | maskSelect _ _ ht => exact selectMask_wf hs ht

theorem MoveEffect.wf {s t : State} (hs : s.mem.wf = true) (h : MoveEffect s t) : t.mem.wf = true := by
  cases h with
  | bus | cfg | len => exact hs
  | command w i h =>
    exact exec_induct (P := fun s => s.mem.wf = true) (fun _ _ _ hs he => he.wf hs) (s := s.accept w) hs h
  | illegal w h =>
    obtain rfl | ⟨-, rfl⟩ := illegalWord_next h
    · exact hs
    · exact hs
  | element w i d => exact Memory.wf_write _ _ _ hs
  | reset => exact Memory.wf_empty

/-- Settles O55: what every move's effect keeps, every step keeps. -/
theorem memoryStaysCanonical : Obligations.MemoryStaysCanonical := by
  intro s t hs h
  exact step_induct (P := fun s => s.mem.wf = true) (fun _ _ hs => hs) (fun _ _ hs hm => hm.wf hs) hs h

end Sys2Proof.Machine
end

section
/-! SUPPORT. What the capacity ROM says of a selected entry (41_capacity_select R503, R504, R508): its blocks fill the
buffers, and the interleaver's two orders have the length of the stream. -/

-- One theorem at a time: each proof in flight holds a thread's whole stack.
set_option Elab.async false

namespace Sys2Proof.Machine

/-- The figures of an entry fit the block's buffers and each other. -/
structure Entry.Sound (e : Entry) : Prop where
  dataCw_le  : e.dataCw.toNat ≤ Config.bsCap
  ecLen_pos  : 1 ≤ e.ecLen.toNat
  ecLen_le   : e.ecLen.toNat ≤ Config.ecMax
  nblk_eq    : e.nblk.toNat = e.blk1.toNat + e.blk2.toNat
  dataCw_eq  : e.dataCw.toNat = e.blk1.toNat * e.k1.toNat + e.blk2.toNat * e.k2.toNat
  ecb_le     : e.nblk.toNat * e.ecLen.toNat ≤ Config.ecbCap
  totalCw_eq : e.totalCw.toNat = e.dataCw.toNat + e.nblk.toNat * e.ecLen.toNat
  totalCw_le : e.totalCw.toNat ≤ Config.ilvCap
  group2     : 0 < e.blk2.toNat → e.k1.toNat ≤ e.k2.toNat

/-- The 160 rows, checked one by one. -/
theorem capRows_figures : ∀ row ∈ capRows,
    let e := entryOf 1 0#2 row
    (e.dataCw.toNat ≤ 2956 ∧ 1 ≤ e.ecLen.toNat ∧ e.ecLen.toNat ≤ 68 ∧ e.nblk.toNat = e.blk1.toNat + e.blk2.toNat) ∧
    (e.dataCw.toNat = e.blk1.toNat * e.k1.toNat + e.blk2.toNat * e.k2.toNat ∧
      e.nblk.toNat * e.ecLen.toNat ≤ 2430 ∧ e.totalCw.toNat = e.dataCw.toNat + e.nblk.toNat * e.ecLen.toNat ∧
      e.totalCw.toNat ≤ 3706 ∧ (0 < e.blk2.toNat → e.k1.toNat ≤ e.k2.toNat)) := by
  decide +kernel

theorem capRow?_eq_some {v : Nat} {e : BitVec 2} {row : CapRow} (h : capRow? v e = some row) :
    (1 ≤ v ∧ v ≤ 40) ∧ row ∈ capRows := by
  refine ⟨(capRow?_isSome v e).1 (by rw [h]; rfl), ?_⟩
  unfold capRow? at h
  split at h
  · exact List.mem_of_getElem? h
  · cases h

theorem entryOf_sound {v : Nat} {e : BitVec 2} {row : CapRow} (h : capRow? v e = some row) :
    (entryOf v e row).Sound := by
  obtain ⟨⟨hdata, hpos, hle, hnblk⟩, hsum, hecb, htotal, hilv, hgroup⟩ := capRows_figures row (capRow?_eq_some h).2
  exact ⟨hdata, hpos, hle, hnblk, hsum, hecb, htotal, hilv, hgroup⟩

theorem State.EntrySelected.sound {s : State} (h : s.EntrySelected) : s.entry.Sound := by
  obtain ⟨v, e, row, hrow, he⟩ := h
  rw [he]
  exact entryOf_sound hrow

theorem State.EntrySelected.ver_range {s : State} (h : s.EntrySelected) :
    1 ≤ s.entry.ver.toNat ∧ s.entry.ver.toNat ≤ 40 := by
  obtain ⟨v, e, row, hrow, he⟩ := h
  obtain ⟨hv, -⟩ := capRow?_eq_some hrow
  have hver : s.entry.ver.toNat = v := by
    rw [he]
    exact (BitVec.toNat_ofNat v 6).trans (Nat.mod_eq_of_lt (by omega))
  omega

theorem State.EntrySelected.side_le {s : State} (h : s.EntrySelected) : side s.entry.ver.toNat ≤ Config.sideMax := by
  have := h.ver_range
  simp only [side, Config.sideMax]
  omega

/-! ### The lengths of the interleaver's orders -/

/-- How many of the first `k` numbers lie below `c`. -/
theorem sum_indicator_lt (c k : Nat) : ((List.range k).map fun i => if i < c then 1 else 0).sum = min k c := by
  induction k with
  | zero => simp
  | succ k ih =>
    rw [List.range_succ, List.map_append, List.sum_append, ih]
    simp only [List.map_cons, List.map_nil, List.sum_cons, List.sum_nil]
    split <;> omega

/-- Counting the cells of a table of `n` columns of heights `f b` row by row is adding up the heights. -/
theorem sum_rows_eq_sum_heights {f : Nat → Nat} {k n : Nat} (h : ∀ b < n, f b ≤ k) :
    ((List.range k).map fun i => ((List.range n).filter fun b => decide (i < f b)).length).sum =
      ((List.range n).map f).sum := by
  induction n with
  | zero => simp
  | succ n ih =>
    have hstep : ∀ i, ((List.range (n + 1)).filter fun b => decide (i < f b)).length =
        ((List.range n).filter fun b => decide (i < f b)).length + if i < f n then 1 else 0 := by
      intro i
      rw [List.range_succ, List.filter_append, List.length_append]
      by_cases hi : i < f n <;> simp [hi]
    have hn := h n (by omega)
    simp only [hstep, List.sum_map_add, sum_indicator_lt]
    rw [ih fun b hb => h b (by omega), List.range_succ, List.map_append, List.sum_append, Nat.min_eq_right hn]
    simp

/-- The data codewords of the first `n` blocks. -/
theorem sum_blkLen (e : Entry) (n : Nat) : ((List.range n).map e.blkLen).sum =
    min n e.blk1.toNat * e.k1.toNat + (n - e.blk1.toNat) * e.k2.toNat := by
  induction n with
  | zero => simp
  | succ n ih =>
    rw [List.range_succ, List.map_append, List.sum_append, ih]
    simp only [List.map_cons, List.map_nil, List.sum_cons, List.sum_nil, Entry.blkLen]
    split
    · next hn =>
      rw [Nat.min_eq_left (by omega), Nat.min_eq_left (by omega), show n - e.blk1.toNat = 0 by omega,
        show n + 1 - e.blk1.toNat = 0 by omega]
      ring
    · next hn =>
      rw [Nat.min_eq_right (by omega), Nat.min_eq_right (by omega),
        show n + 1 - e.blk1.toNat = n - e.blk1.toNat + 1 by omega]
      ring

theorem Entry.Sound.blkLen_le {e : Entry} (h : e.Sound) {b : Nat} (hb : b < e.nblk.toNat) : e.blkLen b ≤ e.kMax := by
  have hn := h.nblk_eq
  have hg := h.group2
  unfold Entry.blkLen Entry.kMax
  split_ifs <;> omega

/-- The interleaver emits every data codeword once. -/
theorem Entry.Sound.dataOrder_length {e : Entry} (h : e.Sound) : e.dataOrder.length = e.dataCw.toNat := by
  have hn := h.nblk_eq
  simp only [Entry.dataOrder, List.length_flatMap, List.length_map]
  rw [sum_rows_eq_sum_heights fun b hb => h.blkLen_le hb, sum_blkLen, h.dataCw_eq, hn,
    Nat.min_eq_right (by omega), Nat.add_sub_cancel_left]

theorem Entry.ecOrder_length (e : Entry) : e.ecOrder.length = e.nblk.toNat * e.ecLen.toNat := by
  simp [Entry.ecOrder, List.length_flatMap, Nat.mul_comm]

end Sys2Proof.Machine
end

section
/-! SUPPORT. The machine's invariant, one rule per flag operation and per kind of store, then per effect: memory only ever
gains written elements, an invalidation only drops promises, and a flag is raised where its promise holds. -/

-- One theorem at a time: each proof in flight holds a thread's whole stack.
set_option Elab.async false

namespace Sys2Proof.Machine

/-! ### Legal cells -/

theorem cellLegal_cell (v : CellValue) (rsv : Bool) : cellLegal (cell v rsv) := by
  cases v <;> cases rsv <;> exact ⟨by decide, by decide⟩

/-- A window other than the matrices can hold anything. -/
theorem Memory.CellsLegal.congr {m m' : Memory} (h : m.CellsLegal) (hmat : m'.window .mat = m.window .mat)
    (hwm : m'.window .wm = m.window .wm) : m'.CellsLegal := by
  intro i b hb
  simp only [Memory.read?, hmat, hwm] at hb
  exact h i b hb

theorem Memory.CellsLegal.write {m : Memory} (h : m.CellsLegal) {w : Window} (hmat : w ≠ .mat) (hwm : w ≠ .wm) (i : Nat)
    (b : Byte) : (m.write w i b).CellsLegal :=
  h.congr (m.window_write w i b hmat.symm) (m.window_write w i b hwm.symm)

theorem Memory.CellsLegal.writeList_ne {m : Memory} (h : m.CellsLegal) {w : Window} (hmat : w ≠ .mat) (hwm : w ≠ .wm)
    (i : Nat) (vals : List Byte) : (m.writeList w i vals).CellsLegal :=
  h.congr (Memory.window_writeList_ne hmat.symm m i vals) (Memory.window_writeList_ne hwm.symm m i vals)

/-- A matrix window keeps its cells legal when legal ones are written. -/
theorem Memory.CellsLegal.writeList {m : Memory} (h : m.CellsLegal) (w : Window) (i : Nat) {vals : List Byte}
    (hvals : ∀ b ∈ vals, cellLegal b) : (m.writeList w i vals).CellsLegal := by
  have hread : ∀ w' k b, (w' = .mat ∨ w' = .wm) → (m.writeList w i vals).read? w' k = some b → cellLegal b := by
    intro w' k b hw' hb
    rw [Memory.read?_writeList] at hb
    split at hb
    · exact hvals b (List.mem_of_getElem? hb)
    · obtain rfl | rfl := hw'
      · exact h k b (.inl hb)
      · exact h k b (.inr hb)
  intro k b hb
  obtain hb | hb := hb
  · exact hread _ k b (.inl rfl) hb
  · exact hread _ k b (.inr rfl) hb

theorem builtCell_legal (v : Nat) (cs : List (Nat × Nat)) (r c : Nat) : cellLegal (builtCell v cs r c) := by
  unfold builtCell
  split
  · split
    · exact cellLegal_cell _ _
    · exact cellLegal_cell _ _
  · exact cellLegal_cell _ _

theorem builtCells_legal (v : Nat) : ∀ b ∈ builtCells v, cellLegal b := by
  intro b hb
  obtain ⟨k, -, rfl⟩ := List.mem_map.1 hb
  exact builtCell_legal _ _ _ _

/-- An overlay holds old elements and written ones. -/
theorem mem_overlay {cells : List Byte} {ws : List (Nat × Byte)} {b : Byte} (h : b ∈ overlay cells ws) :
    b ∈ cells ∨ ∃ w ∈ ws, b = w.2 := by
  induction ws generalizing cells with
  | nil => exact .inl h
  | cons w ws ih =>
    obtain hb | ⟨w', hw', hb⟩ := ih (cells := cells.set w.1 w.2) h
    · obtain hb | hb := List.mem_or_eq_of_mem_set hb
      · exact .inl hb
      · exact .inr ⟨w, List.mem_cons_self, hb⟩
    · exact .inr ⟨w', List.mem_cons_of_mem _ hw', hb⟩

theorem dataWrites_legal (m : BitVec 3) (ilv : Array Byte) (t : Nat) (ps : List (Nat × Nat)) :
    ∀ w ∈ dataWrites m ilv t ps, cellLegal w.2 := by
  induction ps generalizing t with
  | nil => intro w hw; cases hw
  | cons p ps ih =>
    intro w hw
    obtain rfl | hw := List.mem_cons.1 hw
    · exact cellLegal_cell _ _
    · exact ih (t + 1) w hw

theorem formatWrites_legal (v : Nat) (f : BitVec 15) : ∀ w ∈ formatWrites v f, cellLegal w.2 := by
  intro w hw
  obtain ⟨i, -, hw⟩ := List.mem_flatMap.1 hw
  simp only [List.mem_cons, List.not_mem_nil, or_false] at hw
  obtain rfl | rfl := hw <;> exact cellLegal_cell _ _

theorem placedCells_legal {mat : List Byte} (hmat : ∀ b ∈ mat, cellLegal b) (v : Nat) (f : BitVec 15) (m : BitVec 3)
    (ilv : List Byte) : ∀ b ∈ placedCells v f m ilv mat, cellLegal b := by
  intro b hb
  obtain hb | ⟨w, hw, rfl⟩ := mem_overlay hb
  · exact hmat b hb
  · obtain hw | hw := List.mem_append.1 hw
    · exact dataWrites_legal _ _ _ _ w hw
    · exact formatWrites_legal _ _ w hw

/-- What is read from `MAT` is legal. -/
theorem Memory.CellsLegal.of_readList {m : Memory} (h : m.CellsLegal) (hm : m.wf = true) {cells : List Byte}
    (hread : m.readList .mat 0 Config.cellCap = .ok cells) : ∀ b ∈ cells, cellLegal b := by
  obtain ⟨hlen, hget⟩ := (Memory.readList_eq_ok hm (by decide)).1 hread
  intro b hb
  obtain ⟨k, hk, rfl⟩ := List.getElem_of_mem hb
  refine h k _ (.inl ?_)
  have hk' := hget k (by omega)
  rwa [Nat.zero_add, List.getElem?_eq_getElem hk] at hk'

/-! ### The bit cursor -/

/-- The cursor of a stream is inside the buffer, over written bytes (42_bitstream R600, R602). -/
def Stream.CursorOk (st : Stream) : Prop :=
  st.cur ≤ 8 * Config.bsCap ∧ ∀ i, 8 * i < st.cur → (st.mem.read? .bs i).isSome = true

theorem Stream.CursorOk.isOpen {st : Stream} (h : st.CursorOk) : st.Open := fun _ => h.2 _ (by omega)

theorem zeroed_cursorOk (m : Memory) : (Stream.zeroed m).CursorOk :=
  ⟨Nat.zero_le _, fun _ hi => absurd hi (Nat.not_lt_zero _)⟩

theorem setStream_cur_toNat {s : State} {st : Stream} (h : st.CursorOk) : (s.setStream st).cur.toNat = st.cur := by
  obtain ⟨hle, -⟩ := h
  rw [State.setStream_cur, BitVec.toNat_ofNat, Nat.mod_eq_of_lt]
  simp only [Config.bsCap] at hle
  omega

/-- A state that takes back a stream with a legal cursor has it. -/
theorem State.setStream_cursorOk {s : State} {st : Stream} (h : st.CursorOk) : (s.setStream st).CursorOk := by
  have hcur := setStream_cur_toNat (s := s) h
  obtain ⟨hle, hw⟩ := h
  exact ⟨by omega, fun i hi => hw i (by omega)⟩

/-- Appending bits that fit moves the cursor over them and keeps it legal. -/
theorem Stream.CursorOk.appendBits {st st' : Stream} {bs : List Bool} (h : st.CursorOk)
    (hcap : st.cur + bs.length ≤ 8 * Config.bsCap) (hst : appendBits bs st = .ok st') :
    st'.CursorOk ∧ st'.cur = st.cur + bs.length := by
  obtain ⟨st₁, h₁, hcur, -, -, -, -, hkeep, hnew⟩ := appendBits_spec bs hcap h.isOpen
  obtain rfl : st₁ = st' := Except.ok.inj (h₁.symm.trans hst)
  refine ⟨⟨by omega, fun i hi => ?_⟩, hcur⟩
  by_cases hlow : i < st.cur / 8
  · rw [hkeep .bs i (.inr (.inl hlow))]
    exact h.2 i (by omega)
  · exact hnew i (by omega) (by omega)

theorem Stream.CursorOk.appendField {st st' : Stream} {w x : Nat} (h : st.CursorOk)
    (hcap : st.cur + w ≤ 8 * Config.bsCap) (hst : appendField w x st = .ok st') :
    st'.CursorOk ∧ st'.cur = st.cur + w := by
  simpa using h.appendBits (by simpa using hcap) hst

theorem Stream.CursorOk.appendFields {st st' : Stream} {fs : List (Nat × Nat)} (h : st.CursorOk)
    (hcap : st.cur + (fieldBits fs).length ≤ 8 * Config.bsCap) (hst : appendFields fs st = .ok st') :
    st'.CursorOk ∧ st'.cur = st.cur + (fieldBits fs).length :=
  h.appendBits hcap (appendFields_eq fs st ▸ hst)

/-- The terminator ends on a byte boundary. -/
theorem Stream.CursorOk.terminate {st st' : Stream} {n : Nat} (h : st.CursorOk) (hn : n ≤ Config.bsCap)
    (hst : terminate (8 * n) st = .ok st') :
    st'.CursorOk ∧ st'.cur % 8 = 0 := by
  have hle := h.1
  have hcap : st.cur + min 4 (8 * n - st.cur) + (8 - (st.cur + min 4 (8 * n - st.cur)) % 8) % 8 ≤ 8 * Config.bsCap := by
    omega
  rw [terminate_eq rfl hcap h.isOpen] at hst
  obtain ⟨hok, hcur⟩ := h.appendBits (by simpa [Nat.add_assoc] using hcap) hst
  rw [List.length_replicate] at hcur
  exact ⟨hok, by omega⟩

/-- The padding ends at the capacity when it began on a byte boundary. -/
theorem Stream.CursorOk.padStream {st st' : Stream} {n : Nat} (h : st.CursorOk) (hn : n ≤ Config.bsCap)
    (hst : padStream (8 * n) st = .ok st') : st'.CursorOk ∧ (st.cur % 8 = 0 → 8 * n ≤ st'.cur) := by
  have hle := h.1
  have hlen := padFields_bits_length ((8 * n - st.cur) / 8) true
  obtain ⟨hok, hcur⟩ := h.appendFields (fs := padFields ((8 * n - st.cur) / 8) true) (by omega) hst
  exact ⟨hok, fun _ => by omega⟩

theorem scanDigits_length {i : Nat} {seen ds : List Nat} {vs : List (Option Byte)}
    (h : scanDigits i seen vs = .digits ds) : ds.length = seen.length + vs.length := by
  induction vs generalizing i seen with
  | nil =>
    cases h
    simp
  | cons v vs ih =>
    cases v with
    | none => cases h
    | some c =>
      simp only [scanDigits] at h
      split at h
      · cases h
      · have := ih h
        simp only [List.length_cons] at this ⊢
        omega

/-- The composed stream ends at the capacity (42_bitstream R623). -/
theorem composeStream_cursorOk {e : Entry} {n : Nat} {ds : List Nat} {m : Memory} {st : Stream}
    (he : e.dataCw.toNat ≤ Config.bsCap) (hfit : 4 + e.cci.toNat + contentBits ds.length ≤ e.capBits)
    (hst : composeStream e n ds m = .ok st) : st.CursorOk ∧ e.capBits ≤ st.cur := by
  obtain ⟨st₁, st₂, h₁, h₂, h₃⟩ := composeStream_eq_ok hst
  have hlen : (fieldBits ((4, 1) :: (e.cci.toNat, n) :: digitFields ds)).length =
      4 + e.cci.toNat + contentBits ds.length := by
    have := digitFields_bits_length ds
    rw [fieldBits_length] at this ⊢
    simp only [List.map_cons, List.sum_cons, this]
    omega
  have hcap : (Stream.zeroed m).cur + (fieldBits ((4, 1) :: (e.cci.toNat, n) :: digitFields ds)).length ≤
      8 * Config.bsCap := by
    simp only [Entry.capBits, Stream.zeroed] at hfit ⊢
    omega
  obtain ⟨ok₁, -⟩ := (zeroed_cursorOk m).appendFields hcap h₁
  obtain ⟨ok₂, haligned⟩ := ok₁.terminate he h₂
  obtain ⟨ok₃, hend⟩ := ok₂.padStream he h₃
  exact ⟨ok₃, hend haligned⟩

/-! ### Implied flags -/

namespace Status.Chained

variable {t : Status}

theorem zero : Status.zero.Chained := by
  simp [Status.Chained, Status.zero]

theorem selV_of_zzV (h : t.Chained) (hzz : t.zzV = true) : t.selV = true := by
  obtain ⟨-, -, -, hsel, hmat, -⟩ := h
  exact hsel (hmat hzz)

theorem selV_of_wmV (h : t.Chained) (hwm : t.wmV = true) : t.selV = true := by
  obtain ⟨-, -, -, hsel, -, -, hmat, -⟩ := h
  exact hsel (hmat hwm).1

theorem invMat (h : t.Chained) : t.invMat.Chained := by
  obtain ⟨hbs, hec, hilv, -⟩ := h
  simpa [Status.Chained] using ⟨hbs, hec, hilv⟩

theorem invIlv (h : t.Chained) : t.invIlv.Chained := by
  obtain ⟨hbs, hec, -, hmat, hzz, hdone, -⟩ := h
  simpa [Status.Chained] using ⟨hbs, hec, hmat, hzz, hdone⟩

theorem invEc (h : t.Chained) : t.invEc.Chained := by
  obtain ⟨hbs, -, -, hmat, hzz, hdone, -⟩ := h
  simpa [Status.Chained] using ⟨hbs, hmat, hzz, hdone⟩

theorem invBs (h : t.Chained) : t.invBs.Chained := by
  obtain ⟨-, -, -, hmat, hzz, hdone, -⟩ := h
  simpa [Status.Chained] using ⟨hmat, hzz, hdone⟩

theorem invSel (t : Status) : t.invSel.Chained := by
  simp [Status.Chained]

theorem setSel (h : t.Chained) : t.setSel.Chained := by
  obtain ⟨-, hec, hilv, -, hzz, hdone, hrest⟩ := h
  simpa [Status.Chained] using ⟨hec, hilv, hzz, hdone, hrest⟩

theorem setBs (h : t.Chained) (hsel : t.selV = true) : t.setBs.Chained := by
  obtain ⟨-, -, hilv, -, hzz, hdone, hrest⟩ := h
  simpa [Status.Chained, hsel] using ⟨hilv, hzz, hdone, hrest⟩

theorem setGen (h : t.Chained) : t.setGen.Chained := h

theorem setEc (h : t.Chained) (hbs : t.bsV = true) : t.setEc.Chained := by
  obtain ⟨hsel, -, -, hrest⟩ := h
  simpa [Status.Chained, hbs] using ⟨hsel hbs, hrest⟩

theorem setIlv (h : t.Chained) (hec : t.ecV = true) : t.setIlv.Chained := by
  obtain ⟨hbs, hec', -, hmat, hzz, hdone, hwm, hrest⟩ := h
  simpa [Status.Chained, hec] using ⟨hbs, hec' hec, hmat, hzz, hdone, fun h => (hwm h).1, hrest⟩

theorem setMat (h : t.Chained) (hsel : t.selV = true) : t.setMat.Chained := by
  obtain ⟨-, hec, hilv, -, -, hdone, hwm, hrest⟩ := h
  simpa [Status.Chained, hsel] using ⟨hec, hilv, hdone, fun h => (hwm h).2, hrest⟩

theorem setZz (h : t.Chained) (hmat : t.matV = true) : t.setZz.Chained := by
  obtain ⟨hbs, hec, hilv, hsel, -, -, hwm, hrest⟩ := h
  simpa [Status.Chained, hmat] using ⟨hbs, hec, hilv, hsel hmat, fun h => (hwm h).2, hrest⟩

theorem setZzDone (h : t.Chained) (hzz : t.zzV = true) : t.setZzDone.Chained := by
  obtain ⟨hbs, hec, hilv, hsel, hmat, -, hrest⟩ := h
  simpa [Status.Chained, hzz] using ⟨hbs, hec, hilv, hsel, hmat hzz, hrest⟩

theorem setPlaced (h : t.Chained) (hmat : t.matV = true) (hilv : t.ilvV = true) : t.setPlaced.Chained := by
  obtain ⟨hbs, hec, hec', hsel, -, hdone, -⟩ := h
  simpa [Status.Chained, hmat, hilv] using ⟨hbs, hec, hec' hilv, hsel hmat, hdone⟩

theorem setScored (h : t.Chained) (hwm : t.wmV = true) (m : BitVec 3) : (t.setScored m).Chained := by
  obtain ⟨hbs, hec, hilv, hsel, hmat, hdone, himp, -⟩ := h
  simpa [Status.Chained, hwm] using ⟨hbs, hec, hilv, hsel, hmat, hdone, himp hwm⟩

theorem setBest (h : t.Chained) (hwm : t.wmV = true) : t.setBest.Chained := by
  obtain ⟨hbs, hec, hilv, hsel, hmat, hdone, himp, -⟩ := h
  simpa [Status.Chained, hwm] using ⟨hbs, hec, hilv, hsel, hmat, hdone, himp hwm⟩

end Status.Chained

/-! ### The invariant under one update -/

namespace State.Inv

variable {s : State}

/-- A store keeps the invariant: written elements stay written and cells stay legal. -/
theorem setMem (h : s.Inv) {m : Memory} (hwf : m.wf = true) (hcov : s.mem.Covers m) (hcells : m.CellsLegal) :
    (s.setMem m).Inv :=
  { h with
    canonical := hwf
    cursor := ⟨h.cursor.1, fun i hi => hcov _ _ (h.cursor.2 i hi)⟩
    gen := fun hf => ⟨(h.gen hf).1, (h.gen hf).2.1, hcov.written (h.gen hf).2.2⟩
    ecb := fun hf => hcov.written (h.ecb hf)
    ilv := fun hf => hcov.written (h.ilv hf)
    mat := fun hf => hcov.written (h.mat hf)
    wm := fun hf => hcov.written (h.wm hf)
    cells := hcells }

/-- A list store to a window other than the matrices. -/
theorem writeList (h : s.Inv) {w : Window} (hmat : w ≠ .mat) (hwm : w ≠ .wm) (i : Nat) (vals : List Byte) :
    (s.setMem (s.mem.writeList w i vals)).Inv :=
  h.setMem (Memory.wf_writeList _ _ _ h.canonical) (Memory.covers_writeList _ _ _ _)
    (h.cells.writeList_ne hmat hwm i vals)

/-- A list store of legal cells to a matrix window. -/
theorem writeCells (h : s.Inv) (w : Window) (i : Nat) {vals : List Byte} (hvals : ∀ b ∈ vals, cellLegal b) :
    (s.setMem (s.mem.writeList w i vals)).Inv :=
  h.setMem (Memory.wf_writeList _ _ _ h.canonical) (Memory.covers_writeList _ _ _ _) (h.cells.writeList w i hvals)

theorem invBs (h : s.Inv) : (s.setStatus s.status.invBs).Inv :=
  { h with
    chained := h.chained.invBs
    bs := by simp
    ecb := by simp
    ilv := by simp
    wm := by simp }

theorem invEc (h : s.Inv) : (s.setStatus s.status.invEc).Inv :=
  { h with
    chained := h.chained.invEc
    ecb := by simp
    ilv := by simp
    wm := by simp }

theorem invIlv (h : s.Inv) : (s.setStatus s.status.invIlv).Inv :=
  { h with
    chained := h.chained.invIlv
    ilv := by simp
    wm := by simp }

theorem invMat (h : s.Inv) : (s.setStatus s.status.invMat).Inv :=
  { h with
    chained := h.chained.invMat
    mat := by simp
    wm := by simp
    zz := by simp }

theorem invSel (h : s.Inv) : (s.setStatus s.status.invSel).Inv :=
  { h with
    chained := .invSel _
    selected := by simp
    bs := by simp
    ecb := by simp
    ilv := by simp
    mat := by simp
    wm := by simp
    zz := by simp }

theorem withError (h : s.Inv) {c : BitVec 4} (hc : c.toNat ≤ 7) : (s.withError c).Inv :=
  { h with code := hc }

end State.Inv

end Sys2Proof.Machine
end

section
/-! SUPPORT. Every effect of a command, and every move of the host, keeps the machine's invariant. -/

-- One theorem at a time: each proof in flight holds a thread's whole stack.
set_option Elab.async false

namespace Sys2Proof.Machine

/-! ### The blocks of `RS_ALL` -/

/-- Block `b` has its EC codewords in `ECB` (43_reed_solomon R720). -/
def Memory.BlockEncoded (e : Entry) (m : Memory) (b : Nat) : Prop :=
  ∃ ds, m.readList .bs (e.blkStart b) (e.blkLen b) = .ok ds ∧
    m.readList .ecb (b * e.ecLen.toNat) e.ecLen.toNat =
      .ok (rsEncode e.ecLen.toNat (generator e.ecLen.toNat) ds)

/-- The store of block `b`'s codewords makes it encoded. -/
theorem blockEncoded_store {e : Entry} {m : Memory} (hm : m.wf = true) (hpos : 0 < e.ecLen.toNat) {b : Nat}
    (hb : b * e.ecLen.toNat + e.ecLen.toNat ≤ Config.ecbCap) {ds : List Byte}
    (hds : m.readList .bs (e.blkStart b) (e.blkLen b) = .ok ds) :
    let r := rsEncode e.ecLen.toNat (generator e.ecLen.toNat) ds
    ((m.writeList .ecb (b * e.ecLen.toNat) r).writeList .rsr 0 r).BlockEncoded e b := by
  have hlen := rsEncode_length (ds := ds) (generator_length e.ecLen.toNat) hpos
  refine ⟨ds, ?_, ?_⟩
  · rw [Memory.readList_writeList_ne (by decide), Memory.readList_writeList_ne (by decide), hds]
  · rw [Memory.readList_writeList_ne (by decide),
      Memory.readList_eq_ok (Memory.wf_writeList _ _ _ hm) (show _ ≤ Config.ecbCap from hb)]
    refine ⟨hlen, fun k hk => ?_⟩
    have hsize : Window.size .ecb = Config.ecbCap := rfl
    rw [Memory.read?_writeList, if_pos ⟨rfl, by omega, by omega, by omega⟩, Nat.add_sub_cancel_left]

/-- The store of another block's codewords leaves block `b` encoded. -/
theorem blockEncoded_store_ne {e : Entry} {m : Memory} (hm : m.wf = true) {b c : Nat} (hne : b ≠ c)
    (hb : b * e.ecLen.toNat + e.ecLen.toNat ≤ Config.ecbCap) {r : List Byte} (hr : r.length = e.ecLen.toNat)
    (h : m.BlockEncoded e b) : ((m.writeList .ecb (c * e.ecLen.toNat) r).writeList .rsr 0 r).BlockEncoded e b := by
  obtain ⟨ds, hds, hecb⟩ := h
  refine ⟨ds, ?_, ?_⟩
  · rw [Memory.readList_writeList_ne (by decide), Memory.readList_writeList_ne (by decide), hds]
  · rw [Memory.readList_writeList_ne (by decide),
      Memory.readList_eq_ok (Memory.wf_writeList _ _ _ hm) (show _ ≤ Config.ecbCap from hb)]
    obtain ⟨hlen, hget⟩ := (Memory.readList_eq_ok hm (show _ ≤ Config.ecbCap from hb)).1 hecb
    refine ⟨hlen, fun k hk => ?_⟩
    rw [Memory.read?_writeList, if_neg, hget k hk]
    rintro ⟨-, hlow, hhigh, -⟩
    obtain hlt | hlt := Nat.lt_or_gt_of_ne hne
    · have := Nat.mul_le_mul_right e.ecLen.toNat hlt
      rw [Nat.succ_mul] at this
      omega
    · have := Nat.mul_le_mul_right e.ecLen.toNat hlt
      rw [Nat.succ_mul] at this
      omega

/-- What the block loop does: every listed block is encoded, and every block encoded before stays so. -/
theorem rsBlocks_encoded {e : Entry} (hpos : 0 < e.ecLen.toNat) {bs : List Nat} (hnodup : bs.Nodup)
    (hbs : ∀ b ∈ bs, b * e.ecLen.toNat + e.ecLen.toNat ≤ Config.ecbCap) {m m' : Memory} (hm : m.wf = true)
    (h : rsBlocks e (generator e.ecLen.toNat) bs m = .ok m') :
    (∀ b ∈ bs, m'.BlockEncoded e b) ∧
    ∀ b, b ∉ bs → b * e.ecLen.toNat + e.ecLen.toNat ≤ Config.ecbCap → m.BlockEncoded e b → m'.BlockEncoded e b := by
  induction bs generalizing m with
  | nil =>
    cases h
    exact ⟨fun b hb => absurd hb List.not_mem_nil, fun _ _ _ hb => hb⟩
  | cons c bs ih =>
    obtain ⟨hc, hnodup⟩ := List.nodup_cons.1 hnodup
    have hcap := hbs c List.mem_cons_self
    simp only [rsBlocks] at h
    split at h
    · cases h
    · next ds hds =>
      have hlen := rsEncode_length (ds := ds) (generator_length e.ecLen.toNat) hpos
      obtain ⟨hlisted, hkept⟩ := ih hnodup (fun b hb => hbs b (List.mem_cons_of_mem _ hb))
        (Memory.wf_writeList _ _ _ (Memory.wf_writeList _ _ _ hm)) h
      refine ⟨fun b hb => ?_, fun b hb hcap' henc => ?_⟩
      · obtain rfl | hb := List.mem_cons.1 hb
        · exact hkept b hc hcap (blockEncoded_store hm hpos hcap hds)
        · exact hlisted b hb
      · obtain ⟨hne, hb⟩ := not_or.1 (mt List.mem_cons.2 hb)
        exact hkept b hb hcap' (blockEncoded_store_ne hm hne hcap' hlen henc)

theorem rsBlocks_covers {e : Entry} {g : List Byte} {bs : List Nat} {m m' : Memory} (h : rsBlocks e g bs m = .ok m') :
    m.Covers m' := by
  induction bs generalizing m with
  | nil =>
    cases h
    exact .refl _
  | cons b bs ih =>
    simp only [rsBlocks] at h
    split at h
    · cases h
    · exact ((m.covers_writeList _ _ _).trans (Memory.covers_writeList _ _ _ _)).trans (ih h)

theorem Entry.Sound.block_le {e : Entry} (h : e.Sound) {b : Nat} (hb : b < e.nblk.toNat) :
    b * e.ecLen.toNat + e.ecLen.toNat ≤ Config.ecbCap := by
  have := Nat.mul_le_mul_right e.ecLen.toNat hb
  rw [Nat.succ_mul] at this
  exact this.trans h.ecb_le

/-- After `RS_ALL`'s loop every block is encoded. -/
theorem Entry.Sound.rsAll_encoded {e : Entry} (h : e.Sound) {m m' : Memory} (hm : m.wf = true)
    (hrun : rsBlocks e (generator e.ecLen.toNat) (List.range e.nblk.toNat) m = .ok m') :
    ∀ b < e.nblk.toNat, m'.BlockEncoded e b := fun b hb =>
  (rsBlocks_encoded h.ecLen_pos List.nodup_range (fun _ hc => h.block_le (List.mem_range.1 hc)) hm hrun).1 b
    (List.mem_range.2 hb)

/-- Encoded blocks are written blocks. -/
theorem Entry.Sound.written_ecb {e : Entry} (h : e.Sound) {m : Memory} (hm : m.wf = true)
    (henc : ∀ b < e.nblk.toNat, m.BlockEncoded e b) : m.Written .ecb (e.nblk.toNat * e.ecLen.toNat) := by
  intro i hi
  have hpos : 0 < e.ecLen.toNat := h.ecLen_pos
  have hb : i / e.ecLen.toNat < e.nblk.toNat := Nat.div_lt_of_lt_mul (by rwa [Nat.mul_comm])
  obtain ⟨ds, -, hread⟩ := henc _ hb
  obtain ⟨hlen, hget⟩ := (Memory.readList_eq_ok hm (show _ ≤ Config.ecbCap from h.block_le hb)).1 hread
  have hk := Nat.mod_lt i hpos
  have hget := hget _ hk
  rw [Nat.div_add_mod'] at hget
  rw [hget, List.getElem?_eq_getElem (by omega)]
  rfl

/-- The interleaved stream has `TOTAL_CW` codewords. -/
theorem Entry.Sound.interleaved_length {e : Entry} (h : e.Sound) {m : Memory} {ds es : List Byte}
    (hds : m.readAt .bs e.dataOrder = .ok ds) (hes : m.readAt .ecb e.ecOrder = .ok es) :
    e.totalCw.toNat = (ds ++ es).length := by
  have hds := congrArg List.length (Memory.readAt_eq_ok.1 hds)
  have hes := congrArg List.length (Memory.readAt_eq_ok.1 hes)
  simp only [List.length_map] at hds hes
  rw [List.length_append, ← hds, ← hes, h.dataOrder_length, Entry.ecOrder_length, h.totalCw_eq]

/-! ### The effects -/

namespace State.Inv

variable {s : State}

/-- A stream with a legal cursor is taken back while `BS_V` is 0. -/
theorem setStream (h : s.Inv) (hbs : s.status.bsV = false) {st : Stream} (hst : Memory.BsStores s.mem st.mem)
    (hcur : st.CursorOk) : (s.setStream st).Inv :=
  { h.setMem (hst.wf h.canonical) hst.covers (h.cells.congr (hst.same _ (by decide)) (hst.same _ (by decide))) with
    cursor := State.setStream_cursorOk hcur
    bs := by simp [hbs] }

theorem setBs (h : s.Inv) (hsel : s.status.selV = true) (hcap : s.entry.capBits ≤ s.cur.toNat) :
    (s.setStatus s.status.setBs).Inv :=
  { h with
    chained := h.chained.setBs hsel
    bs := fun _ => hcap }

/-- What a command that stores a stream but does not complete it leaves. -/
theorem storeStream (h : s.Inv) {st : Stream} (hst : Memory.BsStores s.mem st.mem) (hcur : st.CursorOk) :
    ((s.setStatus s.status.invBs).setStream st).Inv :=
  h.invBs.setStream rfl hst hcur

/-- What a command that completes the stream leaves. -/
theorem completeStream (h : s.Inv) (hsel : s.status.selV = true) {st : Stream} (hst : Memory.BsStores s.mem st.mem)
    (hcur : st.CursorOk) (hcap : s.entry.capBits ≤ st.cur) :
    ((s.setStatus s.status.invBs.setBs).setStream st).Inv :=
  (h.storeStream hst hcur).setBs hsel ((setStream_cur_toNat hcur).symm ▸ hcap)

theorem dataCw_le (h : s.Inv) (hsel : s.status.selV = true) : s.entry.dataCw.toNat ≤ Config.bsCap :=
  (h.selected hsel).sound.dataCw_le

theorem bsAppend (h : s.Inv) (hsel : s.status.selV = true) {w x : Nat} (hfit : s.cur.toNat + w ≤ s.entry.capBits)
    {st : Stream} (hst : appendField w x s.stream = .ok st) : ((s.setStatus s.status.invBs).setStream st).Inv := by
  have hle := h.dataCw_le hsel
  have hcap : s.stream.cur + w ≤ 8 * Config.bsCap := by
    simp only [Entry.capBits] at hfit
    rw [State.stream_cur]
    omega
  exact h.storeStream (appendField_bsStores hst) (Stream.CursorOk.appendField (st := s.stream) h.cursor hcap hst).1

theorem bsTerminate (h : s.Inv) (hsel : s.status.selV = true) {st : Stream}
    (hst : terminate s.entry.capBits s.stream = .ok st) : ((s.setStatus s.status.invBs).setStream st).Inv :=
  h.storeStream (terminate_bsStores hst)
    (Stream.CursorOk.terminate (st := s.stream) h.cursor (h.dataCw_le hsel) hst).1

theorem bsPad (h : s.Inv) (hsel : s.status.selV = true) (halign : s.cur.toNat % 8 = 0) {st : Stream}
    (hst : padStream s.entry.capBits s.stream = .ok st) : ((s.setStatus s.status.invBs.setBs).setStream st).Inv := by
  obtain ⟨hok, hend⟩ := Stream.CursorOk.padStream (st := s.stream) h.cursor (h.dataCw_le hsel) hst
  exact h.completeStream hsel (padStream_bsStores hst) hok (hend halign)

theorem compose (h : s.Inv) (hsel : s.status.selV = true) {ds : List Nat} {st : Stream}
    (hfit : 4 + s.entry.cci.toNat + contentBits s.len.toNat ≤ s.entry.capBits)
    (hscan : scanDigits 0 [] (Ram.view s.mem.digits 0 s.len.toNat) = .digits ds)
    (hst : composeStream s.entry s.len.toNat ds s.mem = .ok st) :
    ((s.setStatus s.status.invBs.setBs).setStream st).Inv := by
  have hlen : ds.length = s.len.toNat := by
    rw [scanDigits_length hscan, Ram.view_length, List.length_nil, Nat.zero_add]
  obtain ⟨hok, hend⟩ := composeStream_cursorOk (h.dataCw_le hsel) (hlen ▸ hfit) hst
  exact h.completeStream hsel (composeStream_bsStores hst) hok hend

theorem storeGenerator (h : s.Inv) {n : Nat} (hn : 1 ≤ n ∧ n ≤ Config.ecMax) : (s.storeGenerator n).Inv := by
  obtain ⟨hpos, hle⟩ := hn
  have hgen : (s.storeGenerator n).genLen.toNat = n := by
    rw [State.storeGenerator_genLen, BitVec.toNat_ofNat, Nat.mod_eq_of_lt]
    simp only [Config.ecMax] at hle
    omega
  have hsize : Window.size .gen = Config.ecMax + 1 := rfl
  have hlen := generator_length n
  exact { h.writeList (w := .gen) (by decide) (by decide) 0 (generator n) with
    gen := fun _ => ⟨by omega, by omega, Memory.written_writeList_zero _ (by omega) (by omega)⟩ }

theorem setEc (h : s.Inv) (hbs : s.status.bsV = true)
    (hw : s.mem.Written .ecb (s.entry.nblk.toNat * s.entry.ecLen.toNat)) : (s.setStatus s.status.setEc).Inv :=
  { h with
    chained := h.chained.setEc hbs
    ecb := fun _ => hw }

theorem rsAll (h : s.Inv) (hsel : s.status.selV = true) (hbs : s.status.bsV = true) {m : Memory}
    (hm : rsBlocks s.entry (generator s.entry.ecLen.toNat) (List.range s.entry.nblk.toNat)
      ((s.setStatus s.status.invEc).storeGenerator s.entry.ecLen.toNat).mem = .ok m) :
    ((((s.setStatus s.status.invEc).storeGenerator s.entry.ecLen.toNat).setMem m).setStatus
      s.status.invEc.setGen.setEc).Inv := by
  have hsound := (h.selected hsel).sound
  have hgen := h.invEc.storeGenerator ⟨hsound.ecLen_pos, hsound.ecLen_le⟩
  have hwf := rsBlocks_wf hm hgen.canonical
  have hcells : m.CellsLegal := hgen.cells.congr (rsBlocks_window hm (by decide) (by decide))
    (rsBlocks_window hm (by decide) (by decide))
  have hw := hsound.written_ecb hwf (hsound.rsAll_encoded hgen.canonical hm)
  exact (hgen.setMem hwf (rsBlocks_covers hm) hcells).setEc hbs hw

theorem interleave (h : s.Inv) (hbs : s.status.bsV = true) (hec : s.status.ecV = true) {ds es : List Byte}
    (hds : s.mem.readAt .bs s.entry.dataOrder = .ok ds) (hes : s.mem.readAt .ecb s.entry.ecOrder = .ok es) :
    ((s.setStatus s.status.invIlv.setIlv).setMem (s.mem.writeList .ilv 0 (ds ++ es))).Inv := by
  have hsound := (h.selected (h.chained.1 hbs)).sound
  have hlen := hsound.interleaved_length hds hes
  have hsize : s.entry.totalCw.toNat ≤ Window.size .ilv := hsound.totalCw_le
  exact { h.invIlv.writeList (w := .ilv) (by decide) (by decide) 0 (ds ++ es) with
    chained := h.chained.invIlv.setIlv hec
    ilv := fun _ => Memory.written_writeList_zero _ hlen.le hsize }

theorem build (h : s.Inv) (hsel : s.status.selV = true) (x : BitVec 18) :
    (((s.setStatus s.status.invMat.setMat).setVi x).setMem
      (s.mem.writeList .mat 0 (builtCells s.entry.ver.toNat))).Inv :=
  { h.invMat.writeCells .mat 0 (builtCells_legal s.entry.ver.toNat) with
    chained := h.chained.invMat.setMat hsel
    mat := fun _ => Memory.written_writeList_zero _ (builtCells_length _).ge le_rfl
    zz := by simp }

theorem selectEntry (h : s.Inv) {v : Nat} {e : BitVec 2} {row : CapRow} (hrow : capRow? v e = some row) :
    (s.selectEntry (entryOf v e row)).Inv :=
  { h.invSel with
    chained := (Status.Chained.invSel _).setSel
    entry := .inr ⟨v, e, row, hrow, rfl⟩
    selected := fun _ => ⟨v, e, row, hrow, rfl⟩
    bs := by simp
    ecb := by simp
    ilv := by simp
    zz := by simp }

theorem zzReset (h : s.Inv) (hmat : s.status.matV = true) : ((s.setZz 0 0 0).setStatus s.status.setZz).Inv :=
  { h with
    chained := h.chained.setZz hmat
    zz := fun _ => Nat.zero_le _ }

theorem zzDone (h : s.Inv) (hzz : s.status.zzV = true) : (s.setStatus s.status.setZzDone).Inv :=
  { h with chained := h.chained.setZzDone hzz }

theorem zzNext (h : s.Inv) {r c : Nat} (hpos : (zigzag s.entry.ver.toNat)[s.zzIdx.toNat]? = some (r, c)) :
    (s.setZz r c (s.zzIdx.toNat + 1)).Inv :=
  { h with
    zz := fun _ => by
      obtain ⟨hlt, -⟩ := List.getElem?_eq_some_iff.1 hpos
      exact (Nat.mod_le _ _).trans hlt }

theorem placeMask (h : s.Inv) (hmat : s.status.matV = true) (hilv : s.status.ilvV = true) {m : BitVec 3} {t : State}
    (ht : placeMask m s = .ok t) : t.Inv := by
  obtain ⟨mat, ilv, hread, -, rfl⟩ := placeMask_eq_ok ht
  obtain ⟨hlen, -⟩ := (Memory.readList_eq_ok h.canonical (by decide)).1 hread
  have hlegal := h.cells.of_readList h.canonical hread
  exact { h.writeCells .wm 0 (placedCells_legal hlegal s.entry.ver.toNat (formatWord s.entry.secl m) m ilv) with
    chained := h.chained.setPlaced hmat hilv
    wm := fun _ => Memory.written_writeList_zero _ (by rw [placedCells_length, hlen]) le_rfl }

theorem scoreMask (h : s.Inv) (hwm : s.status.wmV = true) {t : State} (ht : scoreMask s = .ok t) : t.Inv := by
  obtain ⟨rows, -, rfl⟩ := scoreMask_eq_ok ht
  exact { h with chained := h.chained.setScored hwm s.wmMask }

theorem clearRequest (h : s.Inv) : s.clearRequest.Inv :=
  { h with
    code := Nat.zero_le 7
    chained := .zero
    entry := .inl rfl
    selected := nofun
    cursor := ⟨Nat.zero_le _, fun _ hi => absurd hi (Nat.not_lt_zero _)⟩
    bs := nofun
    gen := nofun
    ecb := nofun
    ilv := nofun
    mat := nofun
    wm := nofun
    zz := nofun }

end State.Inv

theorem placeMask_status {m : BitVec 3} {s t : State} (h : placeMask m s = .ok t) :
    t.status = s.status.setPlaced := by
  obtain ⟨mat, ilv, -, -, rfl⟩ := placeMask_eq_ok h
  rfl

theorem scoreMask_status {s t : State} (h : scoreMask s = .ok t) : t.status = s.status.setScored s.wmMask := by
  obtain ⟨rows, -, rfl⟩ := scoreMask_eq_ok h
  rfl

/-- A state in which a mask can be tried (46_mask R1020): the invariant, a matrix and an interleaved stream. -/
structure State.Maskable (s : State) : Prop where
  inv : s.Inv
  mat : s.status.matV = true
  ilv : s.status.ilvV = true

/-- Trying a mask leaves a candidate and can be done again. -/
theorem State.Maskable.tryMask {s t : State} (h : s.Maskable) {m : BitVec 3} (ht : tryMask m s = .ok t) :
    t.Maskable ∧ t.status.wmV = true := by
  obtain ⟨u, hplace, hscore⟩ := tryMask_eq_ok ht
  have hu := h.inv.placeMask h.mat h.ilv hplace
  have hwm : u.status.wmV = true := by rw [placeMask_status hplace]; rfl
  have hstatus : t.status = s.status.setPlaced.setScored u.wmMask := by
    rw [scoreMask_status hscore, placeMask_status hplace]
  exact ⟨⟨hu.scoreMask hwm hscore, by rw [hstatus]; exact h.mat, by rw [hstatus]; exact h.ilv⟩, by rw [hstatus]; rfl⟩

theorem State.Maskable.tryMasks {s t : State} (h : s.Maskable) {ms : List (BitVec 3)}
    {best b : Option (BitVec 3 × Word)} (ht : tryMasks ms best s = .ok (t, b)) : t.Maskable :=
  tryMasks_induct (fun _ _ _ hs ht => (hs.tryMask ht).1) h ht

theorem State.Maskable.setBest {s : State} (h : s.Maskable) (m : BitVec 3) (p : Word) : (s.setBest m p).Maskable :=
  { h with inv := { h.inv with } }

theorem State.Inv.setBestV {s : State} (h : s.Inv) (hwm : s.status.wmV = true) :
    (s.setStatus s.status.setBest).Inv :=
  { h with chained := h.chained.setBest hwm }

theorem State.Maskable.selectMask {s t : State} (h : s.Maskable) (ht : selectMask s = .ok t) : t.Inv := by
  obtain ⟨s₁, best, s₂, hloop, hwin, rfl⟩ := selectMask_eq_ok ht
  obtain ⟨hs₂, hwm⟩ := ((h.tryMasks hloop).setBest _ _).tryMask hwin
  exact hs₂.inv.setBestV hwm

/-- Every effect of a command keeps the invariant. -/
theorem CommandEffect.inv {i : Instr} {s t : State} (hs : s.Inv) (h : CommandEffect s i t) : t.Inv := by
  cases h with
  | ignored | nop | gfInit => exact hs
  | failed c _ hc => exact hs.withError hc.2
  | clear => exact hs.clearRequest
  | gfMul | verCalc | fmtCalc => exact { hs with }
  | capLookup hrow => exact hs.selectEntry hrow
  | select hrow _ => exact hs.selectEntry hrow
  | compose hsel hfit hscan hst => exact hs.compose hsel hfit hscan hst
  | bsReset => exact hs.storeStream (zeroed_bsStores s.mem) (zeroed_cursorOk s.mem)
  | bsAppend _ hsel hfit hst => exact hs.bsAppend hsel hfit hst
  | bsTerminate hsel hst => exact hs.bsTerminate hsel hst
  | bsPad hsel halign hst => exact hs.bsPad hsel halign hst
  | genPoly hn => exact hs.storeGenerator hn
  | rsEncode => exact hs.writeList (by decide) (by decide) 0 _
  | rsAll hsel hbs hm => exact hs.rsAll hsel hbs hm
  | interleave _ hbs hec hds hes => exact hs.interleave hbs hec hds hes
  | build hsel => exact hs.build hsel _
  | zzReset hmat => exact hs.zzReset hmat
  | zzDone hzz => exact hs.zzDone hzz
  | zzNext _ hpos => exact hs.zzNext hpos
  | place hmat hilv ht => exact hs.placeMask hmat hilv ht
  | score hwm ht => exact hs.scoreMask hwm ht
  | maskSelect hmat hilv ht => exact State.Maskable.selectMask ⟨hs, hmat, hilv⟩ ht

theorem exec_inv {i : Instr} {s t : State} (hs : s.Inv) (h : exec i s = .next t) : t.Inv :=
  exec_induct (fun _ _ _ hs he => he.inv hs) hs h

/-! ### The host's moves and the reset -/

theorem State.Inv.setEcl {s : State} (h : s.Inv) (e : BitVec 2) : (s.setEcl e).Inv := { h with }

theorem State.Inv.setLen {s : State} (h : s.Inv) (n : BitVec 13) : (s.setLen n).Inv := { h with }

theorem State.Inv.respond {s : State} (h : s.Inv) (r : Response) : (s.respond r).Inv := { h with }

/-- The state after reset, whatever the model's own fields hold, meets the invariant: no flag is set. -/
theorem State.Inv.platformReset (s : State) : s.platformReset.Inv where
  canonical := rfl
  code := Nat.zero_le 7
  chained := .zero
  entry := .inl rfl
  selected := nofun
  cursor := ⟨Nat.zero_le _, fun _ hi => absurd hi (Nat.not_lt_zero _)⟩
  bs := nofun
  gen := nofun
  ecb := nofun
  ilv := nofun
  mat := nofun
  wm := nofun
  zz := nofun
  cells := fun i b hb => by simp at hb

theorem State.Inv.writeElement {s : State} (h : s.Inv) {w : Window} (hw : w = .digits ∨ w = .bs) (i : Nat) (d : Word) :
    (s.writeElement w i d).Inv := by
  have hcells : (s.mem.write w i (d.extractLsb' 0 8)).CellsLegal := by
    obtain rfl | rfl := hw <;> exact h.cells.write (by decide) (by decide) _ _
  exact (h.setMem (Memory.wf_write _ _ _ h.canonical) (Memory.covers_write _ _ _ _) hcells).invBs.respond .done

theorem MoveEffect.inv {s t : State} (hs : s.Inv) (h : MoveEffect s t) : t.Inv := by
  cases h with
  | bus => exact { hs with }
  | command w i h => exact exec_inv (s := s.accept w) { hs with } h
  | illegal w h =>
    have haccept : (s.accept w).Inv := { hs with }
    obtain rfl | ⟨-, rfl⟩ := illegalWord_next h
    · exact haccept
    · exact haccept.withError (by decide)
  | cfg e => exact (hs.setEcl e).invSel.respond .done
  | len n => exact (hs.setLen n).invSel.respond .done
  | element w i d hw => exact hs.writeElement hw i d
  | reset => exact .platformReset s

/-- Settles O57: every effect of a command and every move of the host keeps the invariant. -/
theorem invariantIsKept : Obligations.InvariantIsKept := by
  intro s t hs h
  exact step_induct (fun _ _ hs => { hs with }) (fun _ _ hs hm => hm.inv hs) hs h

end Sys2Proof.Machine
end

section
/-! SUPPORT. What the flags promise (10_state R107, R134): reads depend on their windows only, an invalidation drops
promises, and a command that raises a flag has made its promise true. -/

-- One theorem at a time: each proof in flight holds a thread's whole stack.
set_option Elab.async false

namespace Sys2Proof.Machine

/-! ### Reads depend on their window only -/

theorem Memory.readList_congr {m m' : Memory} {w : Window} (h : m'.window w = m.window w) (i n : Nat) :
    m'.readList w i n = m.readList w i n := by
  simp only [Memory.readList, h]

theorem Memory.read?_congr {m m' : Memory} {w : Window} (h : m'.window w = m.window w) : m'.read? w = m.read? w := by
  funext i
  simp only [Memory.read?, h]

theorem Memory.readAt_congr {m m' : Memory} {w : Window} (h : m'.window w = m.window w) (is : List Nat) :
    m'.readAt w is = m.readAt w is := by
  simp only [Memory.readAt, Memory.read?_congr h]

theorem readRows_congr {m m' : Memory} (h : m'.window .wm = m.window .wm) (S n r : Nat) :
    readRows m' S n r = readRows m S n r := by
  induction n generalizing r with
  | zero => rfl
  | succ n ih => simp only [readRows, Memory.readList_congr h, ih]

/-- The candidates depend on `MAT`, `ILV` and the entry only (46_mask R1005). -/
theorem State.candidate_congr {s t : State} (hmat : t.mem.window .mat = s.mem.window .mat)
    (hilv : t.mem.window .ilv = s.mem.window .ilv) (he : t.entry = s.entry) (m : BitVec 3) :
    t.candidate m = s.candidate m := by
  simp only [State.candidate, Memory.readList_congr hmat, Memory.readList_congr hilv, he]

theorem State.candidateTotal_congr {s t : State} (hmat : t.mem.window .mat = s.mem.window .mat)
    (hilv : t.mem.window .ilv = s.mem.window .ilv) (he : t.entry = s.entry) (m : BitVec 3) :
    t.candidateTotal m = s.candidateTotal m := by
  simp only [State.candidateTotal, State.candidate_congr hmat hilv he, he]

theorem blockEncoded_congr {e : Entry} {m m' : Memory} (hbs : m'.window .bs = m.window .bs)
    (hecb : m'.window .ecb = m.window .ecb) {b : Nat} (h : m.BlockEncoded e b) : m'.BlockEncoded e b := by
  simpa only [Memory.BlockEncoded, Memory.readList_congr hbs, Memory.readList_congr hecb] using h

/-- The list written to a window from index 0 is what the window's first elements read as. -/
theorem Memory.readList_stored {m : Memory} (hm : m.wf = true) {w : Window} {vals : List Byte} {n : Nat}
    (hn : n = vals.length) (hsize : n ≤ w.size) : (m.writeList w 0 vals).readList w 0 n = .ok vals := by
  subst hn
  exact Memory.readList_writeList_zero hm hsize

/-! ### The symbol in `WM` -/

/-- The rows read from `WM` are those of the symbol in its cells (46_mask R1010). -/
theorem readRows_eq_symbol {m : Memory} (hm : m.wf = true) {cells : List Byte}
    (hread : m.readList .wm 0 Config.cellCap = .ok cells) {S : Nat} (hS : S ≤ Config.sideMax) {n r : Nat}
    (hn : r + n ≤ S) : readRows m S n r =
      .ok ((List.range' r n).map fun r => ((cells.drop (r * Config.sideMax)).take S).map isDark) := by
  obtain ⟨hlen, hget⟩ := (Memory.readList_eq_ok hm (by decide)).1 hread
  induction n generalizing r with
  | zero => rfl
  | succ n ih =>
    have hrow : m.readList .wm (r * Config.sideMax) S = .ok ((cells.drop (r * Config.sideMax)).take S) := by
      simp only [Config.sideMax, Config.cellCap] at hS hlen hget ⊢
      have hend : r * 177 + S ≤ Window.size .wm := by
        show r * 177 + S ≤ 31329
        omega
      rw [Memory.readList_eq_ok hm hend]
      refine ⟨by rw [List.length_take, List.length_drop]; omega, fun k hk => ?_⟩
      rw [List.getElem?_take_of_lt hk, List.getElem?_drop, ← hget _ (by omega), Nat.zero_add]
    simp only [readRows, hrow, ih (r := r + 1) (by omega)]
    rfl

theorem readRows_eq_symbolRows {m : Memory} (hm : m.wf = true) {cells : List Byte}
    (hread : m.readList .wm 0 Config.cellCap = .ok cells) {S : Nat} (hS : S ≤ Config.sideMax) :
    readRows m S S 0 = .ok (symbolRows S cells) := by
  rw [readRows_eq_symbol hm hread hS (Nat.zero_add S).le, symbolRows, List.range_eq_range']

/-! ### The zigzag's coordinates -/

theorem le_of_mem_rightColumns {fuel right c : Nat} (h : c ∈ rightColumns fuel right) : c ≤ right := by
  induction fuel generalizing right with
  | zero => cases h
  | succ fuel ih =>
    simp only [rightColumns] at h
    split at h
    · cases h
    · have hc : (if right = 6 then 5 else right) ≤ right := by split <;> omega
      obtain rfl | h := List.mem_cons.1 h
      · exact hc
      · have := ih h
        omega

theorem mem_sweep_lt {v right : Nat} {cs : List (Nat × Nat)} (hr : right < side v) {p : Nat × Nat}
    (h : p ∈ sweep v cs right) : p.1 < side v ∧ p.2 < side v := by
  obtain ⟨vert, hvert, hp⟩ := List.mem_flatMap.1 (List.mem_of_mem_filter h)
  have hvert := List.mem_range.1 hvert
  have hrow : (if ((right + 1) &&& 2) == 0 then side v - 1 - vert else vert) < side v := by split <;> omega
  simp only [List.mem_cons, List.not_mem_nil, or_false] at hp
  obtain rfl | rfl := hp
  · exact ⟨hrow, hr⟩
  · exact ⟨hrow, by omega⟩

/-- The zigzag stays inside the symbol (45_matrix R940). -/
theorem mem_zigzag_lt {v : Nat} {p : Nat × Nat} (h : p ∈ zigzag v) : p.1 < side v ∧ p.2 < side v := by
  obtain ⟨right, hright, hp⟩ := List.mem_flatMap.1 h
  have hle := le_of_mem_rightColumns hright
  have hpos : 0 < side v := by simp only [side]; omega
  exact mem_sweep_lt (by omega) hp

/-! ### Truth under one update -/

/-- No set flag vouches for the window. -/
def Status.Frees (t : Status) : Window → Prop
  | .digits | .rsr => True
  | .gen => t.genV = false
  | .bs | .ecb => t.ecV = false ∧ t.ilvV = false
  | .ilv => t.ilvV = false ∧ t.wmV = false ∧ t.penv = 0#8
  | .mat => t.matV = false ∧ t.wmV = false ∧ t.penv = 0#8
  | .wm => t.wmV = false ∧ t.scV = false

namespace State.Truthful

variable {s : State}

/-- A store keeps the promises when it leaves alone every window a set flag vouches for. -/
theorem setMem (h : s.Truthful) {m : Memory} (hm : ∀ w, ¬ s.status.Frees w → m.window w = s.mem.window w) :
    (s.setMem m).Truthful where
  gen hf := (Memory.readList_congr (hm .gen (by simpa [Status.Frees] using hf)) _ _).trans (h.gen hf)
  ecb hf b hb := by
    replace hf : s.status.ecV = true := hf
    exact blockEncoded_congr (hm .bs (by simp [Status.Frees, hf])) (hm .ecb (by simp [Status.Frees, hf])) (h.ecb hf b hb)
  ilv hf := by
    replace hf : s.status.ilvV = true := hf
    obtain ⟨ds, es, hds, hes, hread⟩ := h.ilv hf
    exact ⟨ds, es, (Memory.readAt_congr (hm .bs (by simp [Status.Frees, hf])) _).trans hds,
      (Memory.readAt_congr (hm .ecb (by simp [Status.Frees, hf])) _).trans hes,
      (Memory.readList_congr (hm .ilv (by simp [Status.Frees, hf])) _ _).trans hread⟩
  mat hf := by
    replace hf : s.status.matV = true := hf
    exact (Memory.readList_congr (hm .mat (by simp [Status.Frees, hf])) _ _).trans (h.mat hf)
  zz := h.zz
  wm hf := by
    replace hf : s.status.wmV = true := hf
    obtain ⟨cells, hcand, hread⟩ := h.wm hf
    have hsame := State.candidate_congr (s := s) (t := s.setMem m) (hm .mat (by simp [Status.Frees, hf]))
      (hm .ilv (by simp [Status.Frees, hf])) rfl
    exact ⟨cells, (hsame _).trans hcand,
      (Memory.readList_congr (hm .wm (by simp [Status.Frees, hf])) _ _).trans hread⟩
  sc hf := by
    replace hf : s.status.scV = true := hf
    obtain ⟨rows, hrows, hsc⟩ := h.sc hf
    exact ⟨rows, (readRows_congr (hm .wm (by simp [Status.Frees, hf])) _ _ _).trans hrows, hsc⟩
  pen k hk := by
    have hne : s.status.penv ≠ 0#8 := fun h0 => by
      rw [State.setMem_status, h0] at hk
      simp at hk
    have hsame := State.candidateTotal_congr (s := s) (t := s.setMem m) (hm .mat (by simp [Status.Frees, hne]))
      (hm .ilv (by simp [Status.Frees, hne])) rfl
    exact (hsame _).trans (h.pen k hk)
  best := h.best

/-- A list store to a window no set flag vouches for. -/
theorem writeList (h : s.Truthful) {w : Window} (hw : s.status.Frees w) (i : Nat) (vals : List Byte) :
    (s.setMem (s.mem.writeList w i vals)).Truthful :=
  h.setMem fun w' hw' => Memory.window_writeList_ne (by rintro rfl; exact hw' hw) _ i vals

theorem invBs (h : s.Truthful) : (s.setStatus s.status.invBs).Truthful :=
  { h with
    ecb := by simp
    ilv := by simp
    wm := by simp
    sc := by simp
    pen := by simp
    best := by simp }

theorem invEc (h : s.Truthful) : (s.setStatus s.status.invEc).Truthful :=
  { h with
    ecb := by simp
    ilv := by simp
    wm := by simp
    sc := by simp
    pen := by simp
    best := by simp }

theorem invIlv (h : s.Truthful) : (s.setStatus s.status.invIlv).Truthful :=
  { h with
    ilv := by simp
    wm := by simp
    sc := by simp
    pen := by simp
    best := by simp }

theorem invMat (h : s.Truthful) : (s.setStatus s.status.invMat).Truthful :=
  { h with
    mat := by simp
    zz := by simp
    wm := by simp
    sc := by simp
    pen := by simp
    best := by simp }

theorem invSel (h : s.Truthful) : (s.setStatus s.status.invSel).Truthful :=
  { h with
    ecb := by simp
    ilv := by simp
    mat := by simp
    zz := by simp
    wm := by simp
    sc := by simp
    pen := by simp
    best := by simp }

/-- With no flag set nothing is promised. -/
theorem of_status_zero (h : s.status = Status.zero) : s.Truthful := by
  constructor <;> simp [h, Status.zero]

theorem storeStream (h : s.Truthful) {st : Stream} (hst : Memory.BsStores s.mem st.mem) :
    ((s.setStatus s.status.invBs).setStream st).Truthful :=
  { h.invBs.setMem (m := st.mem) fun w hw => hst.same w (by rintro rfl; exact hw ⟨rfl, rfl⟩) with }

theorem completeStream (h : s.Truthful) {st : Stream} (hst : Memory.BsStores s.mem st.mem) :
    ((s.setStatus s.status.invBs.setBs).setStream st).Truthful :=
  { h.storeStream hst with }

end State.Truthful

end Sys2Proof.Machine
end

section
/-! SUPPORT. Every effect of a command, and every move of the host, keeps the flags' promises; the selection of
`MASK_SELECT` is followed mask by mask (46_mask R1020). -/

-- One theorem at a time: each proof in flight holds a thread's whole stack.
set_option Elab.async false

namespace Sys2Proof.Machine

namespace State.Truthful

variable {s : State}

/-! ### Commands that store a result -/

theorem storeGenerator (h : s.Truthful) (hwf : s.mem.wf = true) {n : Nat} (hn : n ≤ Config.ecMax) :
    (s.storeGenerator n).Truthful := by
  have hlen : (s.storeGenerator n).genLen.toNat = n := by
    rw [State.storeGenerator_genLen, BitVec.toNat_ofNat, Nat.mod_eq_of_lt]
    simp only [Config.ecMax] at hn
    omega
  have hsize : n + 1 ≤ Window.size .gen := Nat.succ_le_succ hn
  have hdrop : (s.setStatus { s.status with genV := false }).Truthful := { h with gen := nofun }
  exact { hdrop.writeList (w := .gen) rfl 0 (generator n) with
    gen := fun _ => by
      rw [hlen]
      exact Memory.readList_stored hwf (generator_length n).symm hsize }

theorem setEc (h : s.Truthful) (henc : ∀ b < s.entry.nblk.toNat, s.mem.BlockEncoded s.entry b) :
    (s.setStatus s.status.setEc).Truthful :=
  { h with ecb := fun _ => henc }

theorem rsAll (h : s.Truthful) (hinv : s.Inv) (hsel : s.status.selV = true) {m : Memory}
    (hm : rsBlocks s.entry (generator s.entry.ecLen.toNat) (List.range s.entry.nblk.toNat)
      ((s.setStatus s.status.invEc).storeGenerator s.entry.ecLen.toNat).mem = .ok m) :
    ((((s.setStatus s.status.invEc).storeGenerator s.entry.ecLen.toNat).setMem m).setStatus
      s.status.invEc.setGen.setEc).Truthful := by
  have hsound := (hinv.selected hsel).sound
  have hgen := h.invEc.storeGenerator (n := s.entry.ecLen.toNat) hinv.canonical hsound.ecLen_le
  have hwf := (hinv.invEc.storeGenerator ⟨hsound.ecLen_pos, hsound.ecLen_le⟩).canonical
  have hstore := hgen.setMem (m := m) fun w hw => rsBlocks_window hm (by rintro rfl; exact hw ⟨rfl, rfl⟩)
    (by rintro rfl; exact hw trivial)
  exact hstore.setEc (hsound.rsAll_encoded hwf hm)

theorem interleave (h : s.Truthful) (hinv : s.Inv) (hbs : s.status.bsV = true) {ds es : List Byte}
    (hds : s.mem.readAt .bs s.entry.dataOrder = .ok ds) (hes : s.mem.readAt .ecb s.entry.ecOrder = .ok es) :
    ((s.setStatus s.status.invIlv.setIlv).setMem (s.mem.writeList .ilv 0 (ds ++ es))).Truthful := by
  have hsound := (hinv.selected (hinv.chained.1 hbs)).sound
  have hlen := hsound.interleaved_length hds hes
  exact { h.invIlv.writeList (w := .ilv) ⟨rfl, rfl, rfl⟩ 0 (ds ++ es) with
    ilv := fun _ => ⟨ds, es, (Memory.readAt_writeList_ne (by decide) _ _ _).trans hds,
      (Memory.readAt_writeList_ne (by decide) _ _ _).trans hes,
      Memory.readList_stored (w := .ilv) hinv.canonical hlen hsound.totalCw_le⟩ }

theorem build (h : s.Truthful) (hwf : s.mem.wf = true) (x : BitVec 18) :
    (((s.setStatus s.status.invMat.setMat).setVi x).setMem
      (s.mem.writeList .mat 0 (builtCells s.entry.ver.toNat))).Truthful :=
  { h.invMat.writeList (w := .mat) ⟨rfl, rfl, rfl⟩ 0 (builtCells s.entry.ver.toNat) with
    mat := fun _ => Memory.readList_stored (w := .mat) hwf (builtCells_length _).symm le_rfl
    wm := by simp
    pen := by simp }

theorem selectEntry (h : s.Truthful) (e : Entry) : (s.selectEntry e).Truthful :=
  { h.invSel with
    ecb := by simp
    ilv := by simp
    mat := by simp
    zz := by simp
    wm := by simp
    sc := by simp
    pen := by simp }

/-! ### The zigzag cursor -/

theorem zzReset (h : s.Truthful) : ((s.setZz 0 0 0).setStatus s.status.setZz).Truthful :=
  { h with zz := fun _ => ⟨nofun, fun k hk => absurd hk.symm (Nat.succ_ne_zero k)⟩ }

theorem zzDone (h : s.Truthful) (hinv : s.Inv) (hzz : s.status.zzV = true)
    (hend : (zigzag s.entry.ver.toNat)[s.zzIdx.toNat]? = none) : (s.setStatus s.status.setZzDone).Truthful :=
  { h with zz := fun _ =>
      ⟨fun _ => Nat.le_antisymm (hinv.zz hzz) (List.getElem?_eq_none_iff.1 hend), (h.zz hzz).2⟩ }

theorem zzNext (h : s.Truthful) (hinv : s.Inv) (hzz : s.status.zzV = true) {r c : Nat}
    (hpos : (zigzag s.entry.ver.toNat)[s.zzIdx.toNat]? = some (r, c)) :
    (s.setZz r c (s.zzIdx.toNat + 1)).Truthful := by
  obtain ⟨hlt, -⟩ := List.getElem?_eq_some_iff.1 hpos
  obtain ⟨hr, hc⟩ := mem_zigzag_lt (List.mem_of_getElem? hpos)
  have hside := (hinv.selected (hinv.chained.selV_of_zzV hzz)).side_le
  simp only [Config.sideMax] at hside
  have hrow : (BitVec.ofNat 8 r).toNat = r := by rw [BitVec.toNat_ofNat]; omega
  have hcol : (BitVec.ofNat 8 c).toNat = c := by rw [BitVec.toNat_ofNat]; omega
  refine { h with zz := fun _ => ⟨fun hdone => ?_, fun k hk => ?_⟩ }
  · have := (h.zz hzz).1 hdone
    omega
  · rw [State.setZz_zzIdx, BitVec.toNat_ofNat] at hk
    have hk : k = s.zzIdx.toNat := by omega
    rw [State.setZz_entry, State.setZz_zzRow, State.setZz_zzCol, hrow, hcol, hk, hpos]

/-! ### Placing and scoring -/

theorem placeMask (h : s.Truthful) (hwf : s.mem.wf = true) {m : BitVec 3} {t : State} (ht : placeMask m s = .ok t) :
    t.Truthful := by
  obtain ⟨mat, ilv, hmat, hilv, rfl⟩ := placeMask_eq_ok ht
  have hdrop : (s.setStatus { s.status with wmV := false, scV := false }).Truthful := { h with wm := nofun, sc := nofun }
  have hlen : Config.cellCap = (placedCells s.entry.ver.toNat (formatWord s.entry.secl m) m ilv mat).length :=
    ((placedCells_length _ _ _ _ _).trans ((Memory.readList_eq_ok hwf (by decide)).1 hmat).1).symm
  have hcand : s.candidate m = .ok (placedCells s.entry.ver.toNat (formatWord s.entry.secl m) m ilv mat) := by
    simp only [State.candidate, hmat, hilv]
  generalize placedCells s.entry.ver.toNat (formatWord s.entry.secl m) m ilv mat = cells at hlen hcand ⊢
  have hkept {w : Window} (hw : w ≠ .wm) : (s.mem.writeList .wm 0 cells).window w = s.mem.window w :=
    Memory.window_writeList_ne hw _ 0 _
  exact { hdrop.writeList (w := .wm) ⟨rfl, rfl⟩ 0 cells with
    wm := fun _ => ⟨cells, (State.candidate_congr (s := s) (hkept (w := .mat) (by decide))
      (hkept (w := .ilv) (by decide)) rfl m).trans hcand,
      Memory.readList_stored (w := .wm) hwf hlen le_rfl⟩
    sc := nofun }

end State.Truthful

end Sys2Proof.Machine
end

section
/-! SUPPORT. Scoring and the selection of `MASK_SELECT` (46_mask R1015, R1020), followed mask by mask. -/

-- One theorem at a time: each proof in flight holds a thread's whole stack.
set_option Elab.async false

namespace Sys2Proof.Machine

/-! ### Scoring -/

/-- `PENV` after a mask is scored: its bit and the bits before. -/
theorem Status.setScored_penv_getLsbD (t : Status) (k : BitVec 3) {j : Nat} (hj : j < 8) :
    (t.setScored k).penv.getLsbD j = (t.penv.getLsbD j || decide (j = k.toNat)) := by
  have hbit : (1#8 <<< k.toNat).getLsbD j = decide (j = k.toNat) := by
    rw [← BitVec.twoPow_eq, BitVec.getLsbD_twoPow]
    have := k.isLt
    by_cases h : k.toNat = j
    · simp [h]
      omega
    · simp [h, Ne.symm h]
  rw [Status.setScored_penv, BitVec.getLsbD_or, hbit]

/-- The total `SCORE` finds is that of the candidate in `WM`. -/
theorem State.Truthful.total_of_readRows {s : State} (h : s.Truthful) (hinv : s.Inv) (hwm : s.status.wmV = true)
    {rows : List (List Bool)}
    (hrows : readRows s.mem (side s.entry.ver.toNat) (side s.entry.ver.toNat) 0 = .ok rows) :
    s.candidateTotal s.wmMask = some (scoreOf rows).ptotal := by
  obtain ⟨cells, hcand, hread⟩ := h.wm hwm
  have hside := (hinv.selected (hinv.chained.selV_of_wmV hwm)).side_le
  rw [readRows_eq_symbolRows hinv.canonical hread hside] at hrows
  cases hrows
  simp only [State.candidateTotal, hcand]

/-- Storing the total of an already scored candidate changes no penalty. -/
theorem State.Truthful.setPen_scored {s : State} (h : s.Truthful) {k : BitVec 3} {p : Word}
    (htotal : s.candidateTotal k = some p) (hscored : s.status.penv.getLsbD k.toNat = true) :
    s.pen.set k.toNat p k.isLt = s.pen := by
  have hpen := h.pen k.toFin hscored
  rw [htotal] at hpen
  rw [Option.some.inj hpen]
  exact Vector.set_getElem_self _

theorem State.Truthful.scoreMask {s t : State} (h : s.Truthful) (hinv : s.Inv) (hwm : s.status.wmV = true)
    (ht : scoreMask s = .ok t) : t.Truthful := by
  obtain ⟨rows, hrows, rfl⟩ := scoreMask_eq_ok ht
  have htotal := h.total_of_readRows hinv hwm hrows
  refine { h with sc := fun _ => ⟨rows, hrows, rfl⟩, pen := fun m hm => ?_, best := fun hb => ?_ }
  · rw [State.setStatus_status, Status.setScored_penv_getLsbD _ _ m.isLt] at hm
    refine (State.candidateTotal_congr (s := s) rfl rfl rfl _).trans ?_
    simp only [State.setStatus_pen, State.setPen_pen, State.setScore_pen]
    by_cases hk : s.wmMask.toNat = m.val
    · have hmask : BitVec.ofFin m = s.wmMask := BitVec.eq_of_toNat_eq hk.symm
      rw [hmask, htotal]
      simp [hk]
    · have hold : s.status.penv.getLsbD m = true := by simpa [Ne.symm hk] using hm
      rw [h.pen m hold]
      simp [Vector.getElem_set_ne, hk]
  · obtain ⟨hall, hbest⟩ := h.best hb
    have hscored : s.status.penv.getLsbD s.wmMask.toNat = true := by
      rw [hall]
      exact BitVec.getLsbD_allOnes ▸ decide_eq_true s.wmMask.isLt
    have hsame : (((s.setScore (scoreOf rows)).setPen s.wmMask (scoreOf rows).ptotal).setStatus
        (s.status.setScored s.wmMask)).pen = s.pen := h.setPen_scored htotal hscored
    have hpenv : (s.status.setScored s.wmMask).penv = 0xFF#8 := by
      rw [Status.setScored_penv, hall]
      exact BitVec.allOnes_or
    rw [hsame]
    exact ⟨hpenv, hbest⟩

/-! ### Trying one mask -/

/-- `BEST_V` cleared, whatever it was: the selection runs while `BEST` is not the selection. -/
def State.dropBest (s : State) : State := s.setStatus { s.status with bestV := false }

theorem State.Truthful.dropBest {s : State} (h : s.Truthful) : s.dropBest.Truthful := { h with best := nofun }

theorem State.Inv.dropBest {s : State} (h : s.Inv) : s.dropBest.Inv := by
  obtain ⟨hbs, hec, hilv, hmat, hzz, hdone, hwm, hsc, -, hpen⟩ := h.chained
  exact { h with chained := ⟨hbs, hec, hilv, hmat, hzz, hdone, hwm, hsc, nofun, hpen⟩ }

theorem placeMask_dropBest {m : BitVec 3} {s t : State} (h : placeMask m s = .ok t) :
    placeMask m s.dropBest = .ok t.dropBest := by
  obtain ⟨mat, ilv, hmat, hilv, rfl⟩ := placeMask_eq_ok h
  have hmat' : s.dropBest.mem.readList .mat 0 Config.cellCap = .ok mat := hmat
  have hilv' : s.dropBest.mem.readList .ilv 0 s.dropBest.entry.totalCw.toNat = .ok ilv := hilv
  simp only [placeMask, hmat', hilv']
  rfl

theorem scoreMask_dropBest {s t : State} (h : scoreMask s = .ok t) : scoreMask s.dropBest = .ok t.dropBest := by
  obtain ⟨rows, hrows, rfl⟩ := scoreMask_eq_ok h
  have hrows' : readRows s.dropBest.mem (side s.dropBest.entry.ver.toNat) (side s.dropBest.entry.ver.toNat) 0 =
      .ok rows := hrows
  simp only [scoreMask, hrows']
  rfl

theorem placeMask_wmMask {m : BitVec 3} {s t : State} (h : placeMask m s = .ok t) : t.wmMask = m := by
  obtain ⟨mat, ilv, -, -, rfl⟩ := placeMask_eq_ok h
  rfl

theorem placeMask_entry {m : BitVec 3} {s t : State} (h : placeMask m s = .ok t) : t.entry = s.entry := by
  obtain ⟨mat, ilv, -, -, rfl⟩ := placeMask_eq_ok h
  rfl

theorem scoreMask_entry {s t : State} (h : scoreMask s = .ok t) : t.entry = s.entry := by
  obtain ⟨rows, -, rfl⟩ := scoreMask_eq_ok h
  rfl

/-- Placing and scoring a mask change no candidate's total. -/
theorem tryMask_candidateTotal {m : BitVec 3} {s t : State} (h : tryMask m s = .ok t) :
    t.candidateTotal = s.candidateTotal := by
  obtain ⟨u, hplace, hscore⟩ := tryMask_eq_ok h
  have hframe := tryMask_frame h
  funext k
  exact State.candidateTotal_congr (hframe.window .mat (by decide)) (hframe.window .ilv (by decide))
    ((scoreMask_entry hscore).trans (placeMask_entry hplace)) k

theorem tryMask_status {m : BitVec 3} {s t : State} (h : tryMask m s = .ok t) :
    t.status = s.status.setPlaced.setScored m := by
  obtain ⟨u, hplace, hscore⟩ := tryMask_eq_ok h
  rw [scoreMask_status hscore, placeMask_status hplace, placeMask_wmMask hplace]

theorem placeMask_best {m : BitVec 3} {s t : State} (h : placeMask m s = .ok t) :
    t.bestId = s.bestId ∧ t.bestPen = s.bestPen := by
  obtain ⟨mat, ilv, -, -, rfl⟩ := placeMask_eq_ok h
  exact ⟨rfl, rfl⟩

theorem scoreMask_best {s t : State} (h : scoreMask s = .ok t) : t.bestId = s.bestId ∧ t.bestPen = s.bestPen := by
  obtain ⟨rows, -, rfl⟩ := scoreMask_eq_ok h
  exact ⟨rfl, rfl⟩

/-- Placing and scoring a mask leave `BEST` and `BESTPEN` alone. -/
theorem tryMask_best {m : BitVec 3} {s t : State} (h : tryMask m s = .ok t) :
    t.bestId = s.bestId ∧ t.bestPen = s.bestPen := by
  obtain ⟨u, hplace, hscore⟩ := tryMask_eq_ok h
  obtain ⟨hid, hpen⟩ := placeMask_best hplace
  obtain ⟨hid', hpen'⟩ := scoreMask_best hscore
  exact ⟨hid'.trans hid, hpen'.trans hpen⟩

/-- What the selection may rely on while it runs. -/
structure State.Selecting (s : State) : Prop where
  maskable : s.Maskable
  truthful : s.dropBest.Truthful

/-- Trying mask `m` finds its total. -/
theorem State.Selecting.tryMask {s t : State} (h : s.Selecting) {m : BitVec 3} (ht : tryMask m s = .ok t) :
    t.Selecting ∧ t.candidateTotal m = some t.score.ptotal := by
  obtain ⟨u, hplace, hscore⟩ := tryMask_eq_ok ht
  have hinv := (h.maskable.inv.placeMask h.maskable.mat h.maskable.ilv hplace).dropBest
  have htruth := h.truthful.placeMask h.maskable.inv.canonical (placeMask_dropBest hplace)
  have hwm : u.dropBest.status.wmV = true := by
    show u.status.wmV = true
    rw [placeMask_status hplace]
    rfl
  refine ⟨⟨(h.maskable.tryMask ht).1, htruth.scoreMask hinv hwm (scoreMask_dropBest hscore)⟩, ?_⟩
  obtain ⟨rows, hrows, rfl⟩ := scoreMask_eq_ok hscore
  have htotal := htruth.total_of_readRows hinv hwm hrows
  have hmask : u.dropBest.wmMask = m := placeMask_wmMask (placeMask_dropBest hplace)
  rw [hmask] at htotal
  exact htotal

/-! ### The selection -/

/-- `best` is the mask of least total among `seen`, the lowest of them on a tie, with that total (46_mask R1020). -/
def BestOf (total : BitVec 3 → Option Word) (seen : List (BitVec 3)) : Option (BitVec 3 × Word) → Prop
  | none => seen = []
  | some (w, p) => w ∈ seen ∧ total w = some p ∧
      ∀ m ∈ seen, ∀ q, total m = some q → p.toNat ≤ q.toNat ∧ (m.toNat < w.toNat → p.toNat < q.toNat)

/-- Whether a total `q` replaces the best so far: only when it is strictly lower (46_mask R1020). -/
def better (best : Option (BitVec 3 × Word)) (q : Word) : Bool :=
  match best with
  | none => true
  | some (_, p) => decide (q.toNat < p.toNat)

theorem tryMasks_cons {m : BitVec 3} {ms : List (BitVec 3)} {best b : Option (BitVec 3 × Word)} {s t : State}
    (h : tryMasks (m :: ms) best s = .ok (t, b)) :
    ∃ s₁, tryMask m s = .ok s₁ ∧
      tryMasks ms (if better best s₁.score.ptotal then some (m, s₁.score.ptotal) else best) s₁ = .ok (t, b) := by
  simp only [tryMasks] at h
  split at h
  · cases h
  · next s₁ h₁ => exact ⟨s₁, h₁, h⟩

/-- One more mask, higher than those seen, is taken in by the replacement rule. -/
theorem BestOf.snoc {total : BitVec 3 → Option Word} {seen : List (BitVec 3)} {best : Option (BitVec 3 × Word)}
    (h : BestOf total seen best) {m : BitVec 3} {q : Word} (hhigh : ∀ k ∈ seen, k.toNat < m.toNat)
    (hq : total m = some q) : BestOf total (seen ++ [m]) (if better best q then some (m, q) else best) := by
  have hself : ∀ q', total m = some q' → q' = q := fun q' h' => Option.some.inj (h'.symm.trans hq)
  cases best with
  | none =>
    obtain rfl : seen = [] := h
    refine ⟨List.mem_singleton_self m, hq, fun k hk q' hq' => ?_⟩
    obtain rfl := List.mem_singleton.1 hk
    rw [hself q' hq']
    exact ⟨le_rfl, fun hlt => absurd hlt (Nat.lt_irrefl _)⟩
  | some wp =>
    obtain ⟨w, p⟩ := wp
    obtain ⟨hw, hp, hmin⟩ := h
    by_cases hlt : q.toNat < p.toNat
    · rw [if_pos (by simpa [better] using hlt)]
      refine ⟨by simp, hq, fun k hk q' hq' => ?_⟩
      obtain hk | hk := List.mem_append.1 hk
      · have := (hmin k hk q' hq').1
        exact ⟨by omega, fun _ => by omega⟩
      · obtain rfl := List.mem_singleton.1 hk
        rw [hself q' hq']
        exact ⟨le_rfl, fun hlt => absurd hlt (Nat.lt_irrefl _)⟩
    · rw [if_neg (by simpa [better] using hlt)]
      refine ⟨List.mem_append_left _ hw, hp, fun k hk q' hq' => ?_⟩
      obtain hk | hk := List.mem_append.1 hk
      · exact hmin k hk q' hq'
      · obtain rfl := List.mem_singleton.1 hk
        rw [hself q' hq']
        have := hhigh w hw
        exact ⟨by omega, fun _ => by omega⟩

/-- The bit of every mask in `seen` is set in `PENV`. -/
def Status.ScoredAll (t : Status) (seen : List (BitVec 3)) : Prop := ∀ m ∈ seen, t.penv.getLsbD m.toNat = true

theorem Status.ScoredAll.tryMask {s t : State} {seen : List (BitVec 3)} (h : s.status.ScoredAll seen) {m : BitVec 3}
    (ht : tryMask m s = .ok t) : t.status.ScoredAll (seen ++ [m]) := by
  intro k hk
  rw [tryMask_status ht, Status.setScored_penv_getLsbD _ _ k.isLt, Bool.or_eq_true, decide_eq_true_eq]
  obtain hk | hk := List.mem_append.1 hk
  · exact .inl (h k hk)
  · exact .inr (congrArg BitVec.toNat (List.mem_singleton.1 hk))

/-- The ascending loop: from the masks seen to those and the listed ones, each scored, the best of all of them kept. -/
theorem State.Selecting.tryMasks {ms seen : List (BitVec 3)} {best b : Option (BitVec 3 × Word)} {s t : State}
    (h : s.Selecting) (hsorted : (seen ++ ms).Pairwise (·.toNat < ·.toNat)) (hseen : s.status.ScoredAll seen)
    (hbest : BestOf s.candidateTotal seen best) (ht : tryMasks ms best s = .ok (t, b)) :
    t.Selecting ∧ t.status.ScoredAll (seen ++ ms) ∧ BestOf t.candidateTotal (seen ++ ms) b := by
  induction ms generalizing seen best s with
  | nil =>
    cases ht
    rw [List.append_nil]
    exact ⟨h, hseen, hbest⟩
  | cons m ms ih =>
    obtain ⟨s₁, h₁, ht⟩ := tryMasks_cons ht
    obtain ⟨hs₁, htotal⟩ := h.tryMask h₁
    have hhigh : ∀ k ∈ seen, k.toNat < m.toNat := fun k hk =>
      (List.pairwise_append.1 hsorted).2.2 k hk m List.mem_cons_self
    have hstep : BestOf s₁.candidateTotal (seen ++ [m]) _ :=
      (tryMask_candidateTotal h₁ ▸ hbest).snoc hhigh htotal
    have happend : seen ++ m :: ms = seen ++ [m] ++ ms := List.append_cons seen m ms
    rw [happend] at hsorted ⊢
    exact ih hs₁ hsorted (hseen.tryMask h₁) hstep ht

theorem mem_allMasks (m : BitVec 3) : m ∈ allMasks := by
  revert m
  decide

/-- All eight bits make `PENV` 0xFF. -/
theorem Status.ScoredAll.penv_eq {t : Status} (h : t.ScoredAll allMasks) : t.penv = 0xFF#8 := by
  refine BitVec.eq_of_getLsbD_eq fun i hi => ?_
  have hbit := h (BitVec.ofFin ⟨i, hi⟩) (mem_allMasks _)
  have hones : (0xFF#8).getLsbD i = true := BitVec.getLsbD_allOnes ▸ decide_eq_true hi
  exact hbit.trans hones.symm

theorem State.Selecting.setBest {s : State} (h : s.Selecting) (m : BitVec 3) (p : Word) : (s.setBest m p).Selecting where
  maskable := h.maskable.setBest m p
  truthful := { h.truthful with best := nofun }

/-- Raising `BEST_V` over eight scored masks and their best. -/
theorem State.Selecting.setBestV {s : State} (h : s.Selecting) (hall : s.status.ScoredAll allMasks)
    (hbest : BestOf s.candidateTotal allMasks (some (s.bestId, s.bestPen))) :
    (s.setStatus s.status.setBest).Truthful := by
  obtain ⟨-, htotal, hmin⟩ := hbest
  have hpen : ∀ m : Fin 8, s.candidateTotal (BitVec.ofFin m) = some s.pen[m] := fun m =>
    h.truthful.pen m (hall (BitVec.ofFin m) (mem_allMasks _))
  refine { h.truthful with best := fun _ => ⟨hall.penv_eq, ?_, fun m => ?_⟩ }
  · exact Option.some.inj (htotal.symm.trans (hpen s.bestId.toFin))
  · exact hmin (BitVec.ofFin m) (mem_allMasks _) _ (hpen m)

theorem State.Truthful.selectMask {s t : State} (h : s.Truthful) (hs : s.Maskable) (ht : selectMask s = .ok t) :
    t.Truthful := by
  obtain ⟨s₁, best, s₂, hloop, hwin, rfl⟩ := selectMask_eq_ok ht
  have hsel : s.Selecting := ⟨hs, h.dropBest⟩
  obtain ⟨hs₁, hall, hbest⟩ := hsel.tryMasks (seen := []) (best := none) (by decide) (by simp [Status.ScoredAll]) rfl hloop
  cases best with
  | none => exact absurd (show allMasks = [] from hbest) (by decide)
  | some wp =>
    obtain ⟨w, p⟩ := wp
    obtain ⟨hs₂, -⟩ := (hs₁.setBest w p).tryMask hwin
    obtain ⟨hid, hpen⟩ := tryMask_best hwin
    refine hs₂.setBestV (fun m _ => ?_) ?_
    · exact (Status.ScoredAll.tryMask (s := s₁.setBest w p) hall hwin) m (List.mem_append_left _ (mem_allMasks m))
    · rw [tryMask_candidateTotal hwin, hid, hpen]
      exact hbest

/-! ### Commands, moves and the reset -/

/-- Every effect of a command keeps the flags' promises. -/
theorem CommandEffect.truthful {i : Instr} {s t : State} (hinv : s.Inv) (hs : s.Truthful) (h : CommandEffect s i t) :
    t.Truthful := by
  cases h with
  | ignored | nop | gfInit => exact hs
  | failed | gfMul | verCalc | fmtCalc => exact { hs with }
  | clear => exact .of_status_zero rfl
  | capLookup | select => exact hs.selectEntry _
  | compose _ _ _ hst => exact hs.completeStream (composeStream_bsStores hst)
  | bsReset => exact hs.storeStream (zeroed_bsStores s.mem)
  | bsAppend _ _ _ hst => exact hs.storeStream (appendField_bsStores hst)
  | bsTerminate _ hst => exact hs.storeStream (terminate_bsStores hst)
  | bsPad _ _ hst => exact hs.completeStream (padStream_bsStores hst)
  | genPoly hn => exact hs.storeGenerator hinv.canonical hn.2
  | rsEncode => exact hs.writeList (w := .rsr) trivial 0 _
  | rsAll hsel _ hm => exact hs.rsAll hinv hsel hm
  | interleave _ hbs _ hds hes => exact hs.interleave hinv hbs hds hes
  | build => exact hs.build hinv.canonical _
  | zzReset => exact hs.zzReset
  | zzDone hzz hend => exact hs.zzDone hinv hzz hend
  | zzNext hzz hpos => exact hs.zzNext hinv hzz hpos
  | place _ _ ht => exact hs.placeMask hinv.canonical ht
  | score hwm ht => exact hs.scoreMask hinv hwm ht
  | maskSelect hmat hilv ht => exact hs.selectMask ⟨hinv, hmat, hilv⟩ ht

/-- The invariant with the flags' promises. -/
structure State.Sound (s : State) : Prop where
  inv      : s.Inv
  truthful : s.Truthful

theorem exec_sound {i : Instr} {s t : State} (hs : s.Sound) (h : exec i s = .next t) : t.Sound :=
  exec_induct (fun _ _ _ hs he => ⟨he.inv hs.inv, he.truthful hs.inv hs.truthful⟩) hs h

namespace State.Truthful

variable {s : State}

theorem setEcl (h : s.Truthful) (e : BitVec 2) : (s.setEcl e).Truthful := { h with }

theorem setLen (h : s.Truthful) (n : BitVec 13) : (s.setLen n).Truthful := { h with }

theorem respond (h : s.Truthful) (r : Response) : (s.respond r).Truthful := { h with }

theorem accept (h : s.Truthful) (w : Word) : (s.accept w).Truthful := { h with }

theorem withError (h : s.Truthful) (c : BitVec 4) : (s.withError c).Truthful := { h with }

/-- A host write of a digit or a stream byte drops every promise it could break. -/
theorem writeElement (h : s.Truthful) {w : Window} (hw : w = .digits ∨ w = .bs) (i : Nat) (d : Word) :
    (s.writeElement w i d).Truthful := by
  have hfree : s.status.invBs.Frees w := by
    obtain rfl | rfl := hw
    · exact trivial
    · exact ⟨rfl, rfl⟩
  exact { h.invBs.setMem (m := s.mem.write w i (d.extractLsb' 0 8)) fun w' hw' =>
      Memory.window_write _ _ _ _ (by rintro rfl; exact hw' hfree) with }

end State.Truthful

theorem MoveEffect.truthful {s t : State} (hinv : s.Inv) (hs : s.Truthful) (h : MoveEffect s t) : t.Truthful := by
  cases h with
  | bus => exact { hs with }
  | command w i h => exact (exec_sound (s := s.accept w) ⟨{ hinv with }, hs.accept w⟩ h).truthful
  | illegal w h =>
    obtain rfl | ⟨-, rfl⟩ := illegalWord_next h
    · exact hs.accept w
    · exact (hs.accept w).withError _
  | cfg e => exact (hs.setEcl e).invSel.respond .done
  | len n => exact (hs.setLen n).invSel.respond .done
  | element w i d hw => exact hs.writeElement hw i d
  | reset => exact .of_status_zero rfl

/-- Settles O59: with the invariant, every effect and every move keeps the flags' promises. -/
theorem flagsTellTheTruth : Obligations.FlagsTellTheTruth := by
  intro s t hinv hs h
  exact (step_induct (P := State.Sound) (fun _ _ hs => ⟨{ hs.inv with }, { hs.truthful with }⟩)
    (fun _ _ hs hm => ⟨hm.inv hs.inv, hm.truthful hs.inv hs.truthful⟩) ⟨hinv, hs⟩ h).truthful

/-- The value every register has at reset (10_state R139). -/
theorem reset_regWord (r : Reg) : State.reset.regWord r = 0#32 := by
  cases r with
  | pen m => simp [State.regWord, State.reset]
  | _ => rfl

/-- Settles O58: no register holds a bit, no window an element, and no flag promises anything. -/
theorem resetStateMeetsTheInvariant : Obligations.ResetStateMeetsTheInvariant :=
  ⟨reset_regWord, Memory.read?_empty, .platformReset State.reset, .of_status_zero rfl⟩

end Sys2Proof.Machine
end

section
/-! SUPPORT. Which accesses the bus refuses (20_memory R202, R203, R207, 10_state R105): what stands at an address is there
by its address, so a refused access finds nothing to act on. -/

-- One theorem at a time: each proof in flight holds a thread's whole stack.
set_option Elab.async false

namespace Sys2Proof.Machine

/-! ### What stands at an address -/

theorem regsInOrder_regAddr : ∀ k < 24, regsInOrder[k]?.map regAddr = some (4 * k) := by decide

theorem regAt_eq_some {a : Nat} {r : Reg} (ha : a % 4 = 0) (h : regAt a = some r) : a = regAddr r := by
  unfold regAt at h
  split at h
  · have haddr := regsInOrder_regAddr (a / 4) (by omega)
    rw [h, Option.map_some, Option.some.injEq] at haddr
    omega
  · split at h
    · cases h
      simp only [regAddr, Fin.val_ofNat]
      omega
    · cases h

theorem targetAt_eq_reg {a : Nat} {r : Reg} (ha : a % 4 = 0) (h : targetAt a = some (.reg r)) : a = regAddr r := by
  unfold targetAt at h
  split at h
  · next r' hr =>
    cases h
    exact regAt_eq_some ha hr
  · simp at h

theorem targetAt_eq_elem {a : Nat} {w : Window} {i : Nat} (ha : a % 4 = 0) (h : targetAt a = some (.elem w i)) :
    i < w.size ∧ a = elemAddr w i := by
  unfold targetAt at h
  split at h
  · cases h
  · obtain ⟨w', hfind, helem⟩ := Option.map_eq_some_iff.1 h
    cases helem
    have hrange := List.find?_some hfind
    have hbase := elemAddr_aligned w 0
    simp only [Window.contains, decide_eq_true_eq] at hrange
    simp only [elemAddr] at hbase ⊢
    omega

theorem mapped_of_targetAt {a : Nat} {t : Target} (ha : a % 4 = 0) (h : targetAt a = some t) : Mapped a := by
  cases t with
  | reg r => exact .inl ⟨r, targetAt_eq_reg ha h⟩
  | elem w i => exact .inr ⟨w, i, targetAt_eq_elem ha h⟩

/-! ### Refused accesses -/

theorem formOk_iff {a : Addr} {width : Nat} : formOk a width = true ↔ width = 32 ∧ a.toNat % 4 = 0 := by
  simp only [formOk, Bool.and_eq_true, decide_eq_true_eq]

theorem busRead_refused {a : Addr} {width : Nat} (h : width ≠ 32 ∨ a.toNat % 4 ≠ 0 ∨ ¬ Mapped a.toNat) (s : State) :
    busRead a width s = s.respond (.busError a) := by
  unfold busRead
  split
  · next hform =>
    obtain ⟨hwidth, halign⟩ := formOk_iff.1 hform
    have hunmapped : targetAt a.toNat = none := by
      have hvoid : ¬ Mapped a.toNat := by simpa [hwidth, halign] using h
      exact Option.eq_none_iff_forall_ne_some.2 fun t ht => hvoid (mapped_of_targetAt halign ht)
    rw [hunmapped]
  · rfl

theorem busWrite_refused {a : Addr} {width : Nat} (h : width ≠ 32 ∨ a.toNat % 4 ≠ 0 ∨ ¬ Writable a.toNat) (d : Word)
    (s : State) : busWrite a width d s = .next (s.respond (.busError a)) := by
  unfold busWrite
  split
  · next hform =>
    obtain ⟨hwidth, halign⟩ := formOk_iff.1 hform
    have hro : ¬ Writable a.toNat := by simpa [hwidth, halign] using h
    split
    · next ht => exact absurd (.inl (targetAt_eq_reg halign ht)) hro
    · next ht => exact absurd (.inr (.inl (targetAt_eq_reg halign ht))) hro
    · next ht => exact absurd (.inr (.inr (.inl (targetAt_eq_reg halign ht)))) hro
    · next i ht => exact absurd (.inr (.inr (.inr (.inl ⟨i, targetAt_eq_elem halign ht⟩)))) hro
    · next i ht => exact absurd (.inr (.inr (.inr (.inr ⟨i, targetAt_eq_elem halign ht⟩)))) hro
    · rfl
  · rfl

/-- Settles O51: a refused access has no legal form or names nothing the host may read or write. -/
theorem busErrorsChangeNothing : Obligations.BusErrorsChangeNothing := by
  unfold Obligations.BusErrorsChangeNothing
  refine fun s rest a width d => ⟨fun hs h => ?_, fun hs h => ?_⟩
  · rw [step_eq_hostMove hs, hostMove, busRead_refused h]
    rfl
  · rw [step_eq_hostMove hs, hostMove, busWrite_refused h]
    rfl

end Sys2Proof.Machine
end

section
/-! SUPPORT. Where a command stops on an element never written (20_memory R213, 60_exceptions R1209): reads go in index
order, so the first such element decides. -/

-- One theorem at a time: each proof in flight holds a thread's whole stack.
set_option Elab.async false

namespace Sys2Proof.Machine

/-! ### The first element that stops a read -/

theorem Memory.view_getElem? {m : Memory} (hm : m.wf = true) {w : Window} {i n k : Nat} (hn : i + n ≤ w.size)
    (hk : k < n) : (Ram.view (m.window w) i n)[k]? = some (m.read? w (i + k)) := by
  rw [Ram.view_eq ((Memory.wf_iff m).1 hm w).1, List.getElem?_map, List.getElem?_range' hk, Option.map_some,
    Nat.one_mul, Memory.read?, if_pos (by omega)]

theorem firstMissing_of_first {vs : List (Option Byte)} {i k : Nat} (hk : vs[k]? = some none)
    (hbefore : ∀ j < k, ∃ b, vs[j]? = some (some b)) : firstMissing i vs = some (i + k) := by
  induction vs generalizing i k with
  | nil => simp at hk
  | cons v vs ih =>
    cases k with
    | zero =>
      obtain rfl : v = none := by simpa using hk
      rfl
    | succ k =>
      obtain ⟨b, rfl⟩ : ∃ b, v = some b := by simpa using hbefore 0 (by omega)
      have hrest := ih (i := i + 1) (k := k) (by simpa using hk) fun j hj => by simpa using hbefore (j + 1) (by omega)
      rw [firstMissing, hrest, Nat.add_right_comm, Nat.add_assoc]

theorem scanDigits_of_first {vs : List (Option Byte)} {i k : Nat} {seen : List Nat} (hk : vs[k]? = some none)
    (hbefore : ∀ j < k, ∃ b, vs[j]? = some (some b) ∧ isDigit b) : scanDigits i seen vs = .stopped (i + k) := by
  induction vs generalizing i k seen with
  | nil => simp at hk
  | cons v vs ih =>
    cases k with
    | zero =>
      obtain rfl : v = none := by simpa using hk
      rfl
    | succ k =>
      obtain ⟨b, hb, hdigit⟩ := hbefore 0 (by omega)
      obtain rfl : v = some b := by simpa using hb
      have hnot : ¬ (b.toNat < 0x30 ∨ 0x39 < b.toNat) := by
        obtain ⟨hge, hle⟩ := hdigit
        omega
      have hrest := fun seen' => ih (i := i + 1) (k := k) (seen := seen') (by simpa using hk) fun j hj => by
        simpa using hbefore (j + 1) (by omega)
      rw [scanDigits, if_neg hnot, hrest, Nat.add_right_comm, Nat.add_assoc]

theorem Memory.readList_of_first {m : Memory} (hm : m.wf = true) {w : Window} {i n k : Nat} (hn : i + n ≤ w.size)
    (hik : i ≤ k) (hkn : k < i + n) (hk : m.read? w k = none)
    (hbefore : ∀ j, i ≤ j → j < k → (m.read? w j).isSome = true) : m.readList w i n = .error ⟨w, k⟩ := by
  have hmissing : firstMissing i (Ram.view (m.window w) i n) = some (i + (k - i)) := by
    refine firstMissing_of_first ?_ fun j hj => ?_
    · rw [Memory.view_getElem? hm hn (by omega), Nat.add_sub_cancel' hik, hk]
    · obtain ⟨b, hb⟩ := Option.isSome_iff_exists.1 (hbefore (i + j) (by omega) (by omega))
      exact ⟨b, by rw [Memory.view_getElem? hm hn (by omega), hb]⟩
  simp only [Memory.readList, hmissing, Nat.add_sub_cancel' hik]

/-- `COMPOSE`'s scan ends at element `k`, never written: every element before it is a digit (log entry 11). -/
structure State.MeetsUnwritten (s : State) (k : Nat) : Prop where
  lt_len    : k < s.len.toNat
  unwritten : s.mem.read? .digits k = none
  digits    : ∀ i < k, ∃ b, s.mem.read? .digits i = some b ∧ isDigit b

theorem State.MeetsUnwritten.scanDigits {s : State} {k : Nat} (h : s.MeetsUnwritten k) (hm : s.mem.wf = true)
    (hlen : s.len.toNat ≤ Config.digitCap) :
    scanDigits 0 [] (Ram.view s.mem.digits 0 s.len.toNat) = .stopped k := by
  have hview : ∀ j < s.len.toNat, (Ram.view s.mem.digits 0 s.len.toNat)[j]? = some (s.mem.read? .digits j) := by
    intro j hj
    have := Memory.view_getElem? hm (w := .digits) (i := 0) (n := s.len.toNat) (by rwa [Nat.zero_add]) hj
    rwa [Nat.zero_add] at this
  have hlt := h.lt_len
  rw [scanDigits_of_first (k := k), Nat.zero_add]
  · rw [hview k hlt, h.unwritten]
  · intro j hj
    obtain ⟨b, hb, hdigit⟩ := h.digits j hj
    exact ⟨b, by rw [hview j (by omega), hb], hdigit⟩

theorem State.MeetsUnwritten.selectEntry {s : State} {k : Nat} (h : s.MeetsUnwritten k) (e : Entry) :
    (s.selectEntry e).MeetsUnwritten k where
  lt_len := by rw [State.selectEntry_len]; exact h.lt_len
  unwritten := by rw [State.selectEntry_mem]; exact h.unwritten
  digits := by rw [State.selectEntry_mem]; exact h.digits

/-! ### `SELECT` of a request that fits -/

/-- No row of the ROM holds 7090 digits, which need 23634 bits (41_capacity_select R504, R507). -/
theorem capRows_hold_few_digits : ∀ v ≤ 40, ∀ e : BitVec 2, ∀ row ∈ capRow? v e, 8 * row.1 < 4 + cci v + 23634 := by
  decide +kernel

theorem capRow?_capBits_lt {v : Nat} {e : BitVec 2} {row : CapRow} (h : capRow? v e = some row) :
    8 * row.1 < 4 + cci v + 23634 := by
  obtain ⟨⟨-, hv⟩, -⟩ := capRow?_eq_some h
  exact capRows_hold_few_digits v hv e row (Option.mem_def.2 h)

theorem cci_le (v : Nat) : cci v ≤ 14 := by
  unfold cci
  split_ifs <;> decide

theorem entryOf_cci_toNat (v : Nat) (e : BitVec 2) (row : CapRow) : (entryOf v e row).cci.toNat = cci v := by
  have := cci_le v
  exact (BitVec.toNat_ofNat (cci v) 4).trans (Nat.mod_eq_of_lt (by omega))

theorem entryOf_capBits {v : Nat} {e : BitVec 2} {row : CapRow} (h : capRow? v e = some row) :
    (entryOf v e row).capBits = 8 * row.1 := by
  have hlt := capRow?_capBits_lt h
  have hcci := cci_le v
  have hdata : (entryOf v e row).dataCw.toNat = row.1 :=
    (BitVec.toNat_ofNat row.1 12).trans (Nat.mod_eq_of_lt (by omega))
  rw [Entry.capBits, hdata]

/-- A digit takes at least 10/3 bits (41_capacity_select R506). -/
theorem ten_mul_le_contentBits (n : Nat) : 10 * n ≤ 3 * contentBits n := by
  have hmod : n % 3 = 0 ∨ n % 3 = 1 ∨ n % 3 = 2 := by omega
  unfold contentBits
  obtain h | h | h := hmod <;> rw [h] <;> simp only [List.getD_cons_zero, List.getD_cons_succ] <;> omega

theorem fits_iff {v : Nat} {e : BitVec 2} {n : Nat} :
    fits v e n = true ↔ ∃ row, capRow? v e = some row ∧ requiredBits v n ≤ 8 * row.1 := by
  unfold fits
  split
  · next row hrow => simp [hrow]
  · next hrow => simp [hrow]

theorem len_le_of_fits {v : Nat} {e : BitVec 2} {n : Nat} (h : fits v e n = true) : n ≤ Config.digitCap := by
  obtain ⟨row, hrow, hbits⟩ := fits_iff.1 h
  have hlt := capRow?_capBits_lt hrow
  have hten := ten_mul_le_contentBits n
  unfold requiredBits at hbits
  simp only [Config.digitCap]
  omega

/-- `SELECT` of a request that fits loads an entry that holds it (41_capacity_select R520). -/
theorem execSelect_of_fits {s : State} (he : s.status.err = 0#4) (h : s.Fits) :
    ∃ v row, capRow? v s.ecl = some row ∧ requiredBits v s.len.toNat ≤ 8 * row.1 ∧ s.len.toNat ≤ Config.digitCap ∧
      execSelect s = .next (s.selectEntry (entryOf v s.ecl row)) := by
  obtain ⟨v₀, h₁, h₂, hfit₀⟩ := h
  cases hfirst : firstFit s.ecl s.len.toNat Config.verMax 1 with
  | none =>
    have hnone := firstFit_eq_none.1 hfirst v₀ h₁ (by omega)
    rw [hfit₀] at hnone
    cases hnone
  | some v =>
    obtain ⟨-, -, hfit, -⟩ := firstFit_eq_some hfirst
    obtain ⟨row, hrow, hbits⟩ := fits_iff.1 hfit
    refine ⟨v, row, hrow, hbits, len_le_of_fits hfit, ?_⟩
    rw [execSelect, unlessError_ok he]
    simp only [hfirst, hrow]

/-! ### The three commands -/

theorem execCompose_unwritten {s : State} {k : Nat} (he : s.status.err = 0#4) (hsel : s.status.selV = true)
    (hm : s.mem.wf = true) (hfit : 4 + s.entry.cci.toNat + contentBits s.len.toNat ≤ s.entry.capBits)
    (hlen : s.len.toNat ≤ Config.digitCap) (hk : s.MeetsUnwritten k) :
    execCompose s = raiseUnwritten ⟨.digits, k⟩ s := by
  rw [execCompose, unlessError_ok he, require_true hsel, if_neg (by omega), hk.scanDigits hm hlen]

/-- The same right after an entry is selected. -/
theorem execCompose_selected_unwritten {s : State} {e : Entry} {k : Nat} (he : s.status.err = 0#4)
    (hm : s.mem.wf = true) (hfit : 4 + e.cci.toNat + contentBits s.len.toNat ≤ e.capBits)
    (hlen : s.len.toNat ≤ Config.digitCap) (hk : s.MeetsUnwritten k) :
    execCompose (s.selectEntry e) = raiseUnwritten ⟨.digits, k⟩ s := by
  rw [execCompose_unwritten (k := k), raiseUnwritten, raiseUnwritten, State.selectEntry_faultLog]
  · rwa [State.selectEntry_status, Status.err_invSel]
  · rw [State.selectEntry_status, Status.setSel_selV]
  · rwa [State.selectEntry_mem]
  · rwa [State.selectEntry_entry, State.selectEntry_len]
  · rwa [State.selectEntry_len]
  · exact hk.selectEntry e

theorem execEncode_unwritten {s : State} {k : Nat} (he : s.status.err = 0#4) (hm : s.mem.wf = true) (hfits : s.Fits)
    (hk : s.MeetsUnwritten k) : execEncode s = raiseUnwritten ⟨.digits, k⟩ s := by
  obtain ⟨v, row, hrow, hbits, hlen, hselect⟩ := execSelect_of_fits he hfits
  have hcompose := execCompose_selected_unwritten (e := entryOf v s.ecl row) he hm
    (by rwa [entryOf_cci_toNat, entryOf_capBits hrow]) hlen hk
  rw [execEncode, unlessError_ok he]
  exact andThen_fault.2 (.inr ⟨_, hselect, andThen_fault.2 (.inl hcompose)⟩)

theorem execRsEncode_unwritten {s : State} {o : BitVec 12} {l : BitVec 8} {k : Nat} (he : s.status.err = 0#4)
    (hgen : s.status.genV = true) (hm : s.mem.wf = true) (hrange : o.toNat + l.toNat ≤ Config.bsCap)
    (hok : o.toNat ≤ k) (hkl : k < o.toNat + l.toNat) (hk : s.mem.read? .bs k = none)
    (hbefore : ∀ i, o.toNat ≤ i → i < k → (s.mem.read? .bs i).isSome = true) :
    execRsEncode o l s = raiseUnwritten ⟨.bs, k⟩ s := by
  rw [execRsEncode, unlessError_ok he, if_neg (by omega), require_true hgen,
    Memory.readList_of_first (w := .bs) hm hrange hok hkl hk hbefore, orFault]

/-- Settles O47: `COMPOSE`'s scan and `RS_ENCODE`'s read stop at the first element never written; `ENCODE` reaches its
scan with an entry that fits. -/
theorem unwrittenReadsStop : Obligations.UnwrittenReadsStop := by
  unfold Obligations.UnwrittenReadsStop
  refine ⟨fun s k he hsel hm hfit hlen hlt hk hdigits => ?_, fun s k he hm hfits hlt hk hdigits => ?_,
    fun s o l k he hgen hm hrange hok hkl hk hbefore => ?_⟩
  · exact execCompose_unwritten he hsel hm hfit hlen ⟨hlt, hk, hdigits⟩
  · exact execEncode_unwritten he hm hfits ⟨hlt, hk, hdigits⟩
  · exact execRsEncode_unwritten he hgen hm hrange hok hkl hk hbefore

end Sys2Proof.Machine
end

section
/-! SUPPORT. Command words (30_encoding R301 to R311): a word is the digits of its fields, so its reserved bits, its opcode
and its operands are statements about `bitField`, and a command's word is the one its fields make. -/

-- One theorem at a time: each proof in flight holds a thread's whole stack.
set_option Elab.async false

namespace Sys2Proof

open Machine
open Laws (opcodeByte)

/-! ### Bit fields -/

theorem toNat_append_add {m n : Nat} (x : BitVec m) (y : BitVec n) : (x ++ y).toNat = x.toNat * 2 ^ n + y.toNat := by
  rw [BitVec.toNat_append, ← Nat.shiftLeft_add_eq_or_of_lt y.isLt, Nat.shiftLeft_eq]

theorem toNat_extractLsb'_div {m : Nat} (x : BitVec m) (lo n : Nat) :
    (x.extractLsb' lo n).toNat = x.toNat / 2 ^ lo % 2 ^ n := by
  rw [BitVec.extractLsb'_toNat, Nat.shiftRight_eq_div_pow]

theorem ofNat_bitField {n hi lo : Nat} (h : hi + 1 - lo = n) (w : Word) :
    BitVec.ofNat n (bitField w.toNat hi lo) = w.extractLsb' lo n := by
  apply BitVec.eq_of_toNat_eq
  rw [BitVec.toNat_ofNat, toNat_extractLsb'_div, bitField, h, Nat.mod_mod]

/-- The bits `hi` down to `lo`, as a mask. -/
def fieldMask (hi lo : Nat) : Nat := (2 ^ (hi + 1 - lo) - 1) <<< lo

theorem and_fieldMask (w hi lo : Nat) : w &&& fieldMask hi lo = bitField w hi lo * 2 ^ lo := by
  rw [fieldMask, bitField, ← Nat.shiftLeft_eq]
  apply Nat.eq_of_testBit_eq
  intro k
  by_cases hk : lo ≤ k
  · simp [hk, Nat.testBit_shiftLeft, Nat.testBit_two_pow_sub_one, Nat.testBit_div_two_pow, Bool.and_comm]
  · simp [hk, Nat.testBit_shiftLeft]

theorem and_fieldMask_eq_zero {w hi lo : Nat} : w &&& fieldMask hi lo = 0 ↔ bitField w hi lo = 0 := by
  rw [and_fieldMask, Nat.mul_eq_zero, or_iff_left (Nat.two_pow_pos lo).ne']

/-! ### Reserved bits (R301) -/

/-- The reserved fields of a format, highest and lowest bit of each (R301). -/
def Format.reserved : Format → List (Nat × Nat)
  | .n  => [(31, 8)]
  | .ab => [(31, 24)]
  | .ve => [(31, 18), (15, 14)]
  | .n8 => [(31, 16)]
  | .ol => [(31, 28)]
  | .wv => [(15, 13)]
  | .m  => [(31, 11)]
  | .em => [(31, 13)]
  | .v  => [(31, 14)]

/-- No reserved bit of the format is 1 (R305). -/
def ReservedZero (f : Format) (w : Word) : Prop := ∀ g ∈ f.reserved, bitField w.toNat g.1 g.2 = 0

/-- The mask of a list of fields. -/
def fieldsMask (gs : List (Nat × Nat)) : Nat := gs.foldr (fun g m => fieldMask g.1 g.2 ||| m) 0

theorem and_fieldsMask_eq_zero {w : Nat} {gs : List (Nat × Nat)} :
    w &&& fieldsMask gs = 0 ↔ ∀ g ∈ gs, bitField w g.1 g.2 = 0 := by
  induction gs with
  | nil => simp [fieldsMask]
  | cons g gs ih =>
    rw [List.forall_mem_cons, ← ih, ← and_fieldMask_eq_zero, ← Nat.or_eq_zero_iff, ← Nat.and_or_distrib_left]
    rfl

/-- The mask above the opcode byte is the reserved fields (R305). -/
theorem Format.mask_reserved (f : Format) : f.mask.toNat &&& 0xFFFFFF00 = fieldsMask f.reserved := by
  cases f <;> rfl

theorem Format.mask_mod (f : Format) : f.mask.toNat % 2 ^ 8 = 2 ^ 8 - 1 := by cases f <;> rfl

theorem reservedZero_iff {f : Format} {w : Word} : w &&& f.mask &&& 0xFFFFFF00#32 = 0#32 ↔ ReservedZero f w := by
  rw [ReservedZero, ← and_fieldsMask_eq_zero, ← f.mask_reserved, BitVec.and_assoc, ← BitVec.toNat_inj]
  rfl

/-- The match and mask of R305: the opcode is the row's, and no reserved bit is 1. -/
theorem and_mask_eq_iff {f : Format} {w : Word} {op : BitVec 8} :
    w.toNat &&& f.mask.toNat = op.toNat ↔ opcodeOf w = op ∧ ReservedZero f w := by
  have hlow : (w.toNat &&& f.mask.toNat) % 2 ^ 8 = (opcodeOf w).toNat := by
    rw [Nat.and_mod_two_pow, f.mask_mod, Nat.and_two_pow_sub_one_eq_mod, Nat.mod_mod, opcodeOf,
      toNat_extractLsb'_div, Nat.pow_zero, Nat.div_one]
  have hhigh : ReservedZero f w ↔ bitField (w.toNat &&& f.mask.toNat) 31 8 = 0 := by
    rw [ReservedZero, ← and_fieldsMask_eq_zero, ← f.mask_reserved, ← Nat.and_assoc, ← and_fieldMask_eq_zero]
    rfl
  have hlt : w.toNat &&& f.mask.toNat < 2 ^ 32 := Nat.and_lt_two_pow _ f.mask.isLt
  rw [hhigh, ← BitVec.toNat_inj, ← hlow, bitField]
  omega

/-! ### What decoding does -/

/-- The format R304 gives a command. -/
def Instr.format : Instr → Format
  | .gfMul _ _ => .ab
  | .capLookup _ _ => .ve
  | .bsAppend _ _ => .wv
  | .genPoly _ => .n8
  | .rsEncode _ _ => .ol
  | .verCalc _ => .v
  | .fmtCalc _ _ => .em
  | .place _ => .m
  | _ => .n

/-- The command with its operands replaced by the fields of a word (R302). -/
def Instr.withOperands (w : Word) : Instr → Instr
  | .gfMul _ _ => .gfMul (w.extractLsb' 8 8) (w.extractLsb' 16 8)
  | .capLookup _ _ => .capLookup (w.extractLsb' 8 6) (w.extractLsb' 16 2)
  | .bsAppend _ _ => .bsAppend (w.extractLsb' 8 5) (w.extractLsb' 16 16)
  | .genPoly _ => .genPoly (w.extractLsb' 8 8)
  | .rsEncode _ _ => .rsEncode (w.extractLsb' 8 12) (w.extractLsb' 20 8)
  | .verCalc _ => .verCalc (w.extractLsb' 8 6)
  | .fmtCalc _ _ => .fmtCalc (w.extractLsb' 8 2) (w.extractLsb' 10 3)
  | .place _ => .place (w.extractLsb' 8 3)
  | i => i

theorem inFormat_eq_ok {w : Word} {f : Format} {i j : Instr} :
    inFormat w f i = .ok j ↔ ReservedZero f w ∧ i = j := by
  rw [← reservedZero_iff, inFormat]
  split
  · next h => simp [h]
  · next h => simp [h]

/-- One arm of `decode` per opcode (R304). -/
theorem decode_of_opcode {w : Word} {i : Instr} (h : opcodeOf w = opcodeByte i) :
    decode w = inFormat w i.format (i.withOperands w) := by
  cases i <;> (rw [decode, h]; rfl)

theorem opcodeOf_of_decode {w : Word} {i : Instr} (h : decode w = .ok i) : opcodeOf w = opcodeByte i := by
  unfold decode at h
  split at h
  case h_25 => cases h
  all_goals
    next hop =>
      obtain ⟨-, rfl⟩ := inFormat_eq_ok.1 h
      exact BitVec.eq_of_toNat_eq hop

/-! ### The encoder -/

/-- The fields of a command's word are its operands. -/
theorem withOperands_encode (i : Instr) : i.withOperands (encode i) = i := by
  cases i <;>
    simp [-Nat.reduceAdd, Instr.withOperands, encode, BitVec.extractLsb'_append_eq_of_le,
      BitVec.extractLsb'_append_eq_of_add_le, BitVec.extractLsb'_eq_self]

/-- The word made of a word's own operand fields is that word when the bits outside them agree: the opcode and the reserved
bits. Both sides are sums of the word's digits. -/
theorem encode_withOperands {w : Word} {i : Instr} :
    encode (i.withOperands w) = w ↔ opcodeOf w = opcodeByte i ∧ ReservedZero i.format w := by
  rw [← BitVec.toNat_inj, ← BitVec.toNat_inj (x := opcodeOf w), opcodeOf, toNat_extractLsb'_div, ReservedZero]
  have hw := w.isLt
  cases i
  all_goals
    simp only [-Nat.reduceAdd, Instr.withOperands, encode, opcodeByte, toNat_append_add, toNat_extractLsb'_div,
      BitVec.toNat_ofNat]
    simp only [Instr.format, Format.reserved, bitField, List.forall_mem_cons, List.not_mem_nil, false_imp_iff,
      implies_true, and_true]
    omega

theorem decode_eq_ok_iff {w : Word} {i : Instr} : decode w = .ok i ↔ encode i = w := by
  constructor
  · intro h
    have hop := opcodeOf_of_decode h
    rw [decode_of_opcode hop, inFormat_eq_ok] at h
    obtain ⟨hreserved, hoperands⟩ := h
    rw [← encode_withOperands.2 ⟨hop, hreserved⟩, hoperands]
  · rintro rfl
    obtain ⟨hop, hreserved⟩ := encode_withOperands.1 (congrArg encode (withOperands_encode i))
    rw [decode_of_opcode hop, inFormat_eq_ok]
    exact ⟨hreserved, withOperands_encode i⟩

/-- Settles O4: a word decodes to a command exactly when it is the command's word. -/
theorem decodeAndEncodeAgree : Obligations.DecodeAndEncodeAgree :=
  ⟨fun _ => decode_eq_ok_iff.2 rfl, fun _ _ => decode_eq_ok_iff.1⟩

/-! ### The opcode map (R304, R305) -/

/-- The row holds the opcode, the mask and the operand fields of the command. -/
structure RowDescribes (row : OpcodeRow) (i : Instr) : Prop where
  op : row.op = (opcodeByte i).toNat
  mask : row.mask = i.format.mask.toNat
  make (w : Word) : row.make w.toNat = i.withOperands w

theorem opcodeRows_describe : ∀ row ∈ opcodeRows, RowDescribes row (row.make 0) := by
  intro row hrow
  refine ⟨?op, ?mask, fun w => ?make⟩
  case op => revert row; decide
  case mask => revert row; decide
  case make => fin_cases hrow <;> simp [Instr.withOperands, ofNat_bitField]

theorem opcodeByte_mem_opcodeRows (i : Instr) : ∃ row ∈ opcodeRows, row.op = (opcodeByte i).toNat := by
  cases i <;> simp [opcodeRows, opcodeByte]

/-- A word that meets a row decodes to the row's command. -/
theorem decode_of_row {w : Word} {row : OpcodeRow} (hrow : row ∈ opcodeRows) (h : w.toNat &&& row.mask = row.op) :
    decode w = .ok (row.make w.toNat) := by
  obtain ⟨hop, hmask, hmake⟩ := opcodeRows_describe row hrow
  rw [hop, hmask, and_mask_eq_iff] at h
  obtain ⟨hopcode, hreserved⟩ := h
  rw [decode_of_opcode hopcode, inFormat_eq_ok]
  exact ⟨hreserved, (hmake w).symm⟩

/-- A word that decodes meets a row. -/
theorem exists_row_of_decode {w : Word} {i : Instr} (h : decode w = .ok i) :
    ∃ row ∈ opcodeRows, w.toNat &&& row.mask = row.op := by
  obtain ⟨row, hrow, hrowOp⟩ := opcodeByte_mem_opcodeRows i
  obtain ⟨hop, hmask, -⟩ := opcodeRows_describe row hrow
  have hopcode : opcodeOf w = opcodeByte (row.make 0) := by
    rw [opcodeOf_of_decode h, ← BitVec.toNat_inj, ← hrowOp, hop]
  rw [decode_of_opcode hopcode, inFormat_eq_ok] at h
  refine ⟨row, hrow, ?_⟩
  rw [hop, hmask]
  exact and_mask_eq_iff.2 ⟨hopcode, h.1⟩

theorem decode_error_of_no_row {w : Word} (h : ∀ row ∈ opcodeRows, w.toNat &&& row.mask ≠ row.op) :
    ∃ e, decode w = .error e := by
  cases hd : decode w with
  | error e => exact ⟨e, rfl⟩
  | ok i =>
    obtain ⟨row, hrow, hmeets⟩ := exists_row_of_decode hd
    exact absurd hmeets (h row hrow)

/-- Settles O3: every row of the map has the opcode, mask and operands of one arm of `decode`, and every arm has its row. -/
theorem decodeIsTheOpcodeMap : Obligations.DecodeIsTheOpcodeMap :=
  fun _ => ⟨fun _ hrow h => decode_of_row hrow h, decode_error_of_no_row⟩

/-- Settles O5: decoding closed words is computation. -/
theorem exampleWordsDecode : Obligations.ExampleWordsDecode := by
  unfold Obligations.ExampleWordsDecode
  decide

end Sys2Proof

namespace Sys2Proof.Machine

/-! ### Illegal words and ignored commands (R310, R311) -/

theorem runWord_of_error {w : Word} {e : DecodeError} (h : decode w = .error e) (s : State) :
    runWord w s = illegalWord s := by
  rw [runWord, h]

/-- While `ERR` is not 0 every command but `CLEAR` is ignored (60_exceptions R1203). -/
theorem exec_ignored {i : Instr} {s : State} (hi : i ≠ .clear) (he : s.status.err ≠ 0#4) : exec i s = .next s := by
  cases i with
  | clear => exact absurd rfl hi
  | _ => exact if_neg he

/-- Settles O2: a word of no row is illegal, an illegal word raises code 1, and a set `ERR` stops both it and every command. -/
theorem illegalWordsRaiseIllegalCmd : Obligations.IllegalWordsRaiseIllegalCmd := by
  refine ⟨fun _ => decode_error_of_no_row, fun w e s hw he => ?_, fun w e s hw he => ?_, fun i s => exec_ignored⟩
  · rw [runWord_of_error hw, illegalWord, unlessError_ok he]
    rfl
  · rw [runWord_of_error hw, illegalWord, unlessError_ignored he]

end Sys2Proof.Machine
end

section
/-! SUPPORT. The Galois field (40_galois_field R401 to R404): `EXP` is the doubling of R401 iterated on 1 and `LOG` its
inverse, so multiplying by a non-zero byte is doubling `LOG` times, and doubling is linear. -/

-- One theorem at a time: each proof in flight holds a thread's whole stack.
set_option Elab.async false

namespace Sys2Proof.Machine

/-! ### The tables -/

/-- The step of R401's construction: the byte doubled modulo 0x11D. -/
def double (x : Byte) : Byte :=
  let t : BitVec 9 := x.setWidth 9 <<< 1
  (if t.getLsbD 8 then t ^^^ 0x11D#9 else t).setWidth 8

theorem expRom_succ_of_lt : ∀ i < 254, expRom (i + 1) = double (expRom i) := by decide +kernel

theorem logRom_expRom : ∀ i < 255, logRom (expRom i) = i := by decide +kernel

theorem logRom_spec : ∀ x : Byte, x ≠ 0#8 → logRom x < 255 ∧ expRom (logRom x) = x := by decide +kernel

/-- The second half of `EXP` repeats the first. -/
theorem expRom_sub {i : Nat} (h : 255 ≤ i) (hi : i < 512) : expRom i = expRom (i - 255) := by
  by_cases h₁ : i < 510
  · simp only [expRom, if_neg (show ¬ i < 255 by omega), if_pos h₁, if_pos (show i - 255 < 255 by omega)]
  · simp only [expRom, if_neg (show ¬ i < 255 by omega), if_neg h₁, if_neg (show ¬ i - 255 < 255 by omega),
      if_pos (show i - 255 < 510 by omega), show i - 255 - 255 = i - 510 by omega]

/-- `EXP` has period 255. -/
theorem expRom_mod {i : Nat} (hi : i < 512) : expRom i = expRom (i % 255) := by
  induction i using Nat.strong_induction_on with
  | _ i ih =>
    by_cases h : i < 255
    · rw [Nat.mod_eq_of_lt h]
    · rw [expRom_sub (by omega) hi, ih (i - 255) (by omega) (by omega), ← Nat.mod_eq_sub_mod (by omega)]

/-- Settles O6: the tables are evaluated entry by entry, and past entry 254 `EXP` repeats by its definition. -/
theorem galoisTables : Obligations.GaloisTables := by
  refine ⟨rfl, fun i h₁ h₂ => ?_, fun i => expRom_sub, fun i => expRom_mod, logRom_expRom, rfl, rfl, logRom_spec⟩
  obtain ⟨k, rfl⟩ := Nat.exists_eq_add_of_le' h₁
  exact expRom_succ_of_lt k (by omega)

/-! ### The field product (R403, R404) -/

theorem expRom_succ {i : Nat} (h : i < 511) : expRom (i + 1) = double (expRom i) := by
  have hstep : ∀ k < 255, expRom ((k + 1) % 255) = double (expRom k) := fun k hk => by
    by_cases hlast : k = 254
    · subst hlast
      decide +kernel
    · rw [Nat.mod_eq_of_lt (by omega)]
      exact expRom_succ_of_lt k (by omega)
  rw [expRom_mod (by omega), expRom_mod (i := i) (by omega), ← hstep _ (Nat.mod_lt _ (by omega)), Nat.mod_add_mod]

theorem double_zero : double 0#8 = 0#8 := rfl

/-- Doubling is linear: a bit shifted out of one operand reduces that operand alone. -/
theorem double_xor (x y : Byte) : double (x ^^^ y) = double x ^^^ double y := by
  simp only [double, BitVec.setWidth_xor, BitVec.shiftLeft_xor_distrib, BitVec.getLsbD_xor]
  generalize x.setWidth 9 <<< 1 = x', y.setWidth 9 <<< 1 = y'
  have hcancel : (x' ^^^ 0x11D#9) ^^^ (y' ^^^ 0x11D#9) = x' ^^^ y' := by
    rw [BitVec.xor_comm y', BitVec.xor_assoc, ← BitVec.xor_assoc 0x11D#9, BitVec.xor_self, BitVec.zero_xor]
  cases x'.getLsbD 8 <;> cases y'.getLsbD 8
  case false.false => simp
  case false.true => simp [BitVec.xor_assoc]
  case true.false => simp [BitVec.xor_assoc, BitVec.xor_comm y']
  case true.true => simp only [Bool.xor_self, Bool.false_eq_true, if_false, if_true, ← BitVec.setWidth_xor, hcancel]

theorem iterate_double_zero (k : Nat) : double^[k] 0#8 = 0#8 :=
  Function.iterate_fixed double_zero k

theorem iterate_double_xor (k : Nat) (x y : Byte) : double^[k] (x ^^^ y) = double^[k] x ^^^ double^[k] y := by
  induction k with
  | zero => rfl
  | succ k ih => simp only [Function.iterate_succ_apply', ih, double_xor]

theorem iterate_double_expRom {i k : Nat} (h : i + k < 512) : double^[k] (expRom i) = expRom (i + k) := by
  induction k with
  | zero => rfl
  | succ k ih => rw [Function.iterate_succ_apply', ih (by omega), ← Nat.add_assoc, expRom_succ (by omega)]

theorem logRom_lt (a : Byte) : logRom a < 255 := by
  by_cases h : a = 0#8
  · subst h; decide
  · exact (logRom_spec a h).1

theorem expRom_logRom {a : Byte} (h : a ≠ 0#8) : expRom (logRom a) = a := (logRom_spec a h).2

@[simp] theorem gfMul_zero (a : Byte) : gfMul a 0#8 = 0#8 := if_pos (.inr rfl)

@[simp] theorem zero_gfMul (a : Byte) : gfMul 0#8 a = 0#8 := if_pos (.inl rfl)

theorem gfMul_of_ne_zero {a b : Byte} (ha : a ≠ 0#8) (hb : b ≠ 0#8) : gfMul a b = expRom (logRom a + logRom b) :=
  if_neg (by simp [ha, hb])

theorem gfMul_comm (a b : Byte) : gfMul a b = gfMul b a := by
  simp only [gfMul, Or.comm, Nat.add_comm]

/-- Multiplying by a non-zero byte is doubling as often as its logarithm says. -/
theorem gfMul_eq_iterate {a : Byte} (ha : a ≠ 0#8) (b : Byte) : gfMul a b = double^[logRom a] b := by
  by_cases hb : b = 0#8
  · rw [hb, gfMul_zero, iterate_double_zero]
  · have := logRom_lt a
    have := logRom_lt b
    rw [gfMul_of_ne_zero ha hb, Nat.add_comm, ← iterate_double_expRom (by omega), expRom_logRom hb]

theorem gfMul_xor (a b c : Byte) : gfMul a (b ^^^ c) = gfMul a b ^^^ gfMul a c := by
  by_cases ha : a = 0#8
  · simp [ha]
  · simp only [gfMul_eq_iterate ha, iterate_double_xor]

/-- Multiplications by two bytes can be exchanged, being iterates of one function. -/
theorem gfMul_left_comm (a b c : Byte) : gfMul a (gfMul b c) = gfMul b (gfMul a c) := by
  by_cases ha : a = 0#8
  · simp [ha]
  by_cases hb : b = 0#8
  · simp [hb]
  simp only [gfMul_eq_iterate ha, gfMul_eq_iterate hb, ← Function.iterate_add_apply, Nat.add_comm]

theorem gfMul_assoc (a b c : Byte) : gfMul a (gfMul b c) = gfMul (gfMul a b) c := by
  rw [gfMul_comm b c, gfMul_left_comm, gfMul_comm c]

theorem gfMul_one (a : Byte) : gfMul a 1#8 = a := by
  by_cases ha : a = 0#8
  · simp [ha]
  · have hlog : logRom 1#8 = 0 := rfl
    rw [gfMul_of_ne_zero ha (by decide), hlog, Nat.add_zero, expRom_logRom ha]

/-- The logarithms of a byte and of its inverse make 255, the period of `EXP`. -/
theorem gfMul_inverse {a : Byte} (ha : a ≠ 0#8) : gfMul a (expRom (255 - logRom a)) = 1#8 := by
  have hlt := logRom_lt a
  rw [gfMul_eq_iterate ha, iterate_double_expRom (by omega), Nat.sub_add_cancel (by omega)]
  rfl

/-- Settles O7: multiplying by a non-zero byte is an iterate of the linear `double`. -/
theorem gfMulLaws : Obligations.GfMulLaws :=
  ⟨gfMul_comm, gfMul_one, gfMul_zero, gfMul_assoc, gfMul_xor, fun _ => gfMul_inverse⟩

/-! ### The commands of one word -/

/-- The word R920 divides: the two bits of the level above the three of the mask. -/
theorem formatWord_eq (e : BitVec 2) (m : BitVec 3) :
    formatWord e m = BitVec.ofNat 15 (bch (8 * (e ^^^ 1#2).toNat + m.toNat) 5 0x537 10) ^^^ 0x5412#15 := by
  have hdata : (ecBits e ++ m).toNat = 8 * (e ^^^ 1#2).toNat + m.toNat :=
    (toNat_append_add _ _).trans (congrArg (· + m.toNat) (Nat.mul_comm _ 8))
  rw [formatWord, hdata]

theorem execGfMul_ok {s : State} (he : s.status.err = 0#4) (a b : BitVec 8) :
    execGfMul a b s = .next (s.setGfP (gfMul a b)) := by
  rw [execGfMul, unlessError_ok he]

theorem execVerCalc_ok {s : State} (he : s.status.err = 0#4) {v : BitVec 6}
    (hv : 1 ≤ v.toNat ∧ v.toNat ≤ Config.verMax) :
    execVerCalc v s = .next (s.setVi (versionWord v.toNat)) := by
  rw [execVerCalc, unlessError_ok he, if_neg (by omega)]

theorem execFmtCalc_ok {s : State} (he : s.status.err = 0#4) (e : BitVec 2) (m : BitVec 3) :
    execFmtCalc e m s = .next (s.setFmt (formatWord e m)) := by
  rw [execFmtCalc, unlessError_ok he]

/-- Settles O8: with `ERR` 0 and the version legal each of the five runs to its one register update. -/
theorem wordCommandsComplete : Obligations.WordCommandsComplete := by
  refine ⟨fun s => ?nop, fun s => ?gfInit, fun s a b he => ?gfMul, fun s v he h₁ h₂ => ?verCalc,
    fun s e m he => ?fmtCalc⟩
  case nop => exact ite_self _
  case gfInit => exact ite_self _
  case gfMul => exact execGfMul_ok he a b
  case verCalc => exact execVerCalc_ok he ⟨h₁, h₂⟩
  case fmtCalc => rw [← formatWord_eq]; exact execFmtCalc_ok he e m

end Sys2Proof.Machine
end
section
/-! SUPPORT. Stores made twice (10_state R135): canonical memories that read the same are the same, so a store of what a
window already holds changes nothing; the bitstream and the block loop of `RS_ALL` write what `BS` says, whatever the
other windows hold. -/

-- One theorem at a time: each proof in flight holds a thread's whole stack.
set_option Elab.async false

namespace Sys2Proof.Machine

/-! ### Memories that read the same -/

theorem Ram.ext_read? {lo : Nat} {r r' : Ram} (hr : Ram.risingFrom lo r = true) (hr' : Ram.risingFrom lo r' = true)
    (h : ∀ k, r.read? k = r'.read? k) : r = r' := by
  induction r generalizing r' lo with
  | nil =>
    cases r' with
    | nil => rfl
    | cons c r' => simpa [Ram.read?] using h c.1
  | cons c r ih =>
    cases r' with
    | nil => simpa [Ram.read?] using h c.1
    | cons c' r' =>
      obtain ⟨j, b⟩ := c
      obtain ⟨j', b'⟩ := c'
      simp only [Ram.risingFrom, Bool.and_eq_true, decide_eq_true_eq] at hr hr'
      obtain ⟨hj, hrise⟩ := hr
      obtain ⟨hj', hrise'⟩ := hr'
      simp only [Ram.read?_cons] at h
      have hjj : j = j' := by
        rcases Nat.lt_trichotomy j j' with hlt | heq | hlt
        · have := h j
          rw [if_pos rfl, if_neg (by omega), Ram.read?_eq_none_of_lt hrise' (by omega)] at this
          cases this
        · exact heq
        · have := h j'
          rw [if_pos rfl, if_neg (by omega), Ram.read?_eq_none_of_lt hrise (by omega)] at this
          cases this
      subst hjj
      obtain rfl : b = b' := by simpa using h j
      have htail : ∀ k, Ram.read? r k = Ram.read? r' k := fun k => by
        by_cases hk : j = k
        · rw [Ram.read?_eq_none_of_lt hrise (by omega), Ram.read?_eq_none_of_lt hrise' (by omega)]
        · simpa only [if_neg hk] using h k
      rw [ih hrise hrise' htail]

theorem Ram.read?_eq_none_of_ge {r : Ram} {n k : Nat} (hb : ∀ c ∈ r, c.1 < n) (hk : n ≤ k) : r.read? k = none := by
  induction r with
  | nil => rfl
  | cons c r ih =>
    obtain ⟨j, b⟩ := c
    have hj : j < n := hb (j, b) List.mem_cons_self
    rw [Ram.read?_cons, if_neg (by omega), ih fun d hd => hb d (List.mem_cons_of_mem _ hd)]

theorem Memory.window_read? {m : Memory} (hm : m.wf = true) (w : Window) (k : Nat) :
    (m.window w).read? k = m.read? w k := by
  by_cases hk : k < w.size
  · rw [Memory.read?, if_pos hk]
  · rw [Memory.read?, if_neg hk, Ram.read?_eq_none_of_ge ((Memory.wf_iff m).1 hm w).2 (by omega)]

theorem Memory.ext_window {m m' : Memory} (h : ∀ w, m.window w = m'.window w) : m = m' :=
  (Memory.mk.injEq ..).mpr ⟨h .digits, h .bs, h .gen, h .rsr, h .ecb, h .ilv, h .mat, h .wm⟩

theorem Memory.ext_read? {m m' : Memory} (hm : m.wf = true) (hm' : m'.wf = true)
    (h : ∀ w k, m.read? w k = m'.read? w k) : m = m' :=
  Memory.ext_window fun w => Ram.ext_read? ((Memory.wf_iff m).1 hm w).1 ((Memory.wf_iff m').1 hm' w).1 fun k => by
    rw [Memory.window_read? hm, Memory.window_read? hm', h]

/-! ### List stores -/

/-- Storing a list again where it has been stored changes nothing. -/
theorem Memory.writeList_again {m x : Memory} (hx : x.wf = true) {w : Window} {i : Nat} {vals : List Byte}
    (h : x.window w = (m.writeList w i vals).window w) : x.writeList w i vals = x := by
  refine Memory.ext_read? (Memory.wf_writeList _ _ _ hx) hx fun w' k => ?_
  rw [Memory.read?_writeList]
  split
  · next hk =>
    rw [hk.1, Memory.read?_congr h, Memory.read?_writeList, if_pos ⟨rfl, hk.2⟩]
  · rfl

/-- A list that fills its window is all the window holds. -/
theorem Memory.window_writeList_all {m : Memory} (hm : m.wf = true) {w : Window} {vals : List Byte}
    (h : vals.length = w.size) : (m.writeList w 0 vals).window w = Ram.cellsFrom 0 vals := by
  have hb := ((Memory.wf_iff m).1 hm w).2
  have hlow : (m.window w).filter (fun c => decide (c.1 < 0)) = [] := by simp
  have hhigh : (m.window w).filter (fun c => decide (0 + vals.length ≤ c.1)) = [] := by
    simpa [h] using fun i b hc => hb (i, b) hc
  rw [Memory.window_writeList, if_pos rfl, Nat.sub_zero, List.take_of_length_le (by omega), Ram.writeList, hlow, hhigh,
    List.nil_append, List.append_nil]

/-! ### The bitstream depends on `BS` and the cursor only -/

/-- Two streams with one cursor and one `BS`. -/
structure Stream.SameBs (st st' : Stream) : Prop where
  cur : st'.cur = st.cur
  bs  : st'.mem.window .bs = st.mem.window .bs

theorem Memory.window_write_congr {m m' : Memory} {w : Window} (h : m'.window w = m.window w) (i : Nat) (b : Byte) :
    (m'.write w i b).window w = (m.write w i b).window w := by
  unfold Memory.write
  split
  · simp only [Memory.window_setWindow, h]
  · exact h

theorem appendBit_congr {b : Bool} {st st₁ st' : Stream} (h : appendBit b st = .ok st₁) (hs : st.SameBs st') :
    ∃ st₁', appendBit b st' = .ok st₁' ∧ st₁.SameBs st₁' := by
  obtain ⟨hcur, hbs⟩ := hs
  have hread : st'.mem.readElem .bs = st.mem.readElem .bs := by
    funext k
    simp only [Memory.readElem, Memory.read?_congr hbs]
  simp only [appendBit, hcur, hread] at h ⊢
  split at h
  · cases h
  · cases h
    exact ⟨_, rfl, rfl, Memory.window_write_congr hbs _ _⟩

theorem appendBits_congr {bs : List Bool} {st st₁ st' : Stream} (h : appendBits bs st = .ok st₁) (hs : st.SameBs st') :
    ∃ st₁', appendBits bs st' = .ok st₁' ∧ st₁.SameBs st₁' := by
  induction bs generalizing st st' with
  | nil =>
    cases h
    exact ⟨st', rfl, hs⟩
  | cons b bs ih =>
    simp only [appendBits] at h ⊢
    split at h
    · cases h
    · next st₂ h₂ =>
      obtain ⟨st₂', h₂', hs₂⟩ := appendBit_congr h₂ hs
      rw [h₂']
      exact ih h hs₂

theorem terminate_congr {cap : Nat} {st st₁ st' : Stream} (h : terminate cap st = .ok st₁) (hs : st.SameBs st') :
    ∃ st₁', terminate cap st' = .ok st₁' ∧ st₁.SameBs st₁' := by
  simp only [terminate, hs.cur] at h ⊢
  split at h
  · cases h
  · next st₂ h₂ =>
    obtain ⟨st₂', h₂', hs₂⟩ := appendBits_congr h₂ hs
    simp only [show appendField (min 4 (cap - st.cur)) 0 st' = .ok st₂' from h₂', hs₂.cur]
    exact appendBits_congr h hs₂

theorem padStream_congr {cap : Nat} {st st₁ st' : Stream} (h : padStream cap st = .ok st₁) (hs : st.SameBs st') :
    ∃ st₁', padStream cap st' = .ok st₁' ∧ st₁.SameBs st₁' := by
  simp only [padStream, appendFields_eq, hs.cur] at h ⊢
  exact appendBits_congr h hs

/-- The zeroed buffer is the same whatever the windows held (42_bitstream R610). -/
theorem zeroed_sameBs {m m' : Memory} (hm : m.wf = true) (hm' : m'.wf = true) :
    (Stream.zeroed m).SameBs (Stream.zeroed m') where
  cur := rfl
  bs := by
    have hlen : (List.replicate Config.bsCap 0#8).length = Window.size .bs := List.length_replicate
    exact (Memory.window_writeList_all hm' hlen).trans (Memory.window_writeList_all hm hlen).symm

/-- Composing again from a memory whose `BS` holds the composed stream gives that memory back. -/
theorem composeStream_again {e : Entry} {n : Nat} {ds : List Nat} {m x : Memory} {st : Stream} (hm : m.wf = true)
    (hx : x.wf = true) (h : composeStream e n ds m = .ok st) (hbs : x.window .bs = st.mem.window .bs) :
    composeStream e n ds x = .ok ⟨x, st.cur⟩ := by
  obtain ⟨st₁, st₂, h₁, h₂, h₃⟩ := composeStream_eq_ok h
  rw [appendFields_eq] at h₁
  obtain ⟨st₁', h₁', hs₁⟩ := appendBits_congr h₁ (zeroed_sameBs hm hx)
  obtain ⟨st₂', h₂', hs₂⟩ := terminate_congr h₂ hs₁
  obtain ⟨st₃', h₃', hcur, hsame⟩ := padStream_congr h₃ hs₂
  have hx' : composeStream e n ds x = .ok st₃' := by
    simp only [composeStream, appendFields_eq, h₁', h₂', h₃']
  have hmem : st₃'.mem = x := Memory.ext_window fun w => by
    by_cases hw : w = .bs
    · rw [hw, hsame, hbs]
    · exact (composeStream_bsStores hx').same w hw
  rw [hx', ← hmem, ← hcur]

theorem appendBits_cur {bs : List Bool} {st st' : Stream} (h : appendBits bs st = .ok st') :
    st'.cur = st.cur + bs.length := by
  induction bs generalizing st with
  | nil =>
    cases h
    rfl
  | cons b bs ih =>
    simp only [appendBits, appendBit] at h
    split at h
    · cases h
    · next st₁ h₁ =>
      split at h₁
      · cases h₁
      · cases h₁
        rw [ih h, List.length_cons, Nat.add_assoc, Nat.add_comm 1]

/-- The padding begun on a byte boundary ends at the capacity, or where it began past it (R613). -/
theorem padStream_cur {n : Nat} {st st' : Stream} (halign : st.cur % 8 = 0) (h : padStream (8 * n) st = .ok st') :
    st'.cur = max st.cur (8 * n) := by
  rw [padStream, appendFields_eq] at h
  rw [appendBits_cur h, padFields_bits_length]
  omega

theorem padStream_of_full {cap : Nat} {st : Stream} (h : cap ≤ st.cur) : padStream cap st = .ok st := by
  rw [padStream, Nat.sub_eq_zero_of_le h]
  rfl

/-! ### The block loop of `RS_ALL` -/

/-- `m'` is `m` with the elements stored that `p` lists. -/
def Memory.Stored (p : Window → Nat → Option Byte) (m m' : Memory) : Prop :=
  ∀ w k, m'.read? w k = (p w k).or (m.read? w k)

/-- The elements a list store sets. -/
def listPatch (w : Window) (i : Nat) (vals : List Byte) (w' : Window) (k : Nat) : Option Byte :=
  if w' = w ∧ i ≤ k ∧ k < i + vals.length ∧ k < w.size then vals[k - i]? else none

theorem Memory.stored_writeList (m : Memory) (w : Window) (i : Nat) (vals : List Byte) :
    Memory.Stored (listPatch w i vals) m (m.writeList w i vals) := by
  intro w' k
  rw [Memory.read?_writeList, listPatch]
  split
  · rw [List.getElem?_eq_getElem (by omega), Option.some_or]
  · rw [Option.none_or]

theorem Memory.Stored.trans {p q : Window → Nat → Option Byte} {m m₁ m₂ : Memory} (h : Memory.Stored p m m₁)
    (h' : Memory.Stored q m₁ m₂) : Memory.Stored (fun w k => (q w k).or (p w k)) m m₂ := fun w k => by
  rw [h' w k, h w k, Option.or_assoc]

/-- The same stores over a memory that holds what they left change nothing. -/
theorem Memory.Stored.again {p : Window → Nat → Option Byte} {m m' x x' : Memory} (h : Memory.Stored p m m')
    (hx : x.wf = true) (hx' : x'.wf = true) (h' : Memory.Stored p x x')
    (hsame : ∀ w, (∃ k, p w k ≠ none) → x.window w = m'.window w) : x' = x := by
  refine Memory.ext_read? hx' hx fun w k => ?_
  rw [h' w k]
  cases hp : p w k with
  | none => rfl
  | some b =>
    rw [Memory.read?_congr (hsame w ⟨k, by simp [hp]⟩), h w k, hp]
    rfl

/-- What the block loop stores is settled by `BS`: some elements of `ECB` and `RSR`, the same over every memory with
that `BS`. -/
theorem rsBlocks_stored {e : Entry} {g : List Byte} {bs : List Nat} {m m' : Memory} (h : rsBlocks e g bs m = .ok m') :
    ∃ p, (∀ w k, p w k ≠ none → w = .ecb ∨ w = .rsr) ∧
      ∀ x, x.window .bs = m.window .bs → ∃ x', rsBlocks e g bs x = .ok x' ∧ Memory.Stored p x x' := by
  induction bs generalizing m with
  | nil => exact ⟨fun _ _ => none, fun _ _ hp => absurd rfl hp, fun x _ => ⟨x, rfl, fun _ _ => rfl⟩⟩
  | cons b bs ih =>
    simp only [rsBlocks] at h
    split at h
    · cases h
    · next ds hds =>
      obtain ⟨p, hp, hrun⟩ := ih h
      generalize hr : rsEncode e.ecLen.toNat g ds = r at h hrun
      refine ⟨fun w k => (p w k).or ((listPatch .rsr 0 r w k).or (listPatch .ecb (b * e.ecLen.toNat) r w k)),
        fun w k hne => ?_, fun x hx => ?_⟩
      · by_contra hw
        obtain ⟨hecb, hrsr⟩ := not_or.1 hw
        have hnone : p w k = none := by_contra fun hne => hw (hp w k hne)
        simp [hnone, listPatch, hecb, hrsr] at hne
      · have hkeep : ((x.writeList .ecb (b * e.ecLen.toNat) r).writeList .rsr 0 r).window .bs =
            ((m.writeList .ecb (b * e.ecLen.toNat) r).writeList .rsr 0 r).window .bs := by
          simp only [Memory.window_writeList_ne (show Window.bs ≠ .rsr by decide),
            Memory.window_writeList_ne (show Window.bs ≠ .ecb by decide), hx]
        obtain ⟨x', hx', hst⟩ := hrun _ hkeep
        refine ⟨x', by simp only [rsBlocks, Memory.readList_congr hx, hds, hr, hx'], ?_⟩
        exact ((x.stored_writeList _ _ _).trans (Memory.stored_writeList _ _ _ _)).trans hst

/-- The block loop over a memory that holds its `BS` and what it left changes nothing. -/
theorem rsBlocks_again {e : Entry} {g : List Byte} {bs : List Nat} {m m' x : Memory} (h : rsBlocks e g bs m = .ok m')
    (hx : x.wf = true) (hbs : x.window .bs = m.window .bs) (hecb : x.window .ecb = m'.window .ecb)
    (hrsr : x.window .rsr = m'.window .rsr) : rsBlocks e g bs x = .ok x := by
  obtain ⟨p, hp, hrun⟩ := rsBlocks_stored h
  obtain ⟨m₁, hm₁, hst⟩ := hrun m rfl
  obtain rfl : m₁ = m' := Except.ok.inj (hm₁.symm.trans h)
  obtain ⟨x', hx', hst'⟩ := hrun x hbs
  rw [hx', hst.again hx (rsBlocks_wf hx' hx) hst']
  rintro w ⟨k, hne⟩
  obtain rfl | rfl := hp w k hne
  · exact hecb
  · exact hrsr

end Sys2Proof.Machine
end
section
/-! SUPPORT. `MASK_SELECT` overwrites whatever an earlier placement, score or selection left (46_mask R1020): its outcome
is settled by the rest of the state, and so is the same when it is run again. -/

-- One theorem at a time: each proof in flight holds a thread's whole stack.
set_option Elab.async false

namespace Sys2Proof.Machine

/-! ### What the selection does not overwrite -/

/-- The state with all that `MASK_SELECT` writes blanked, and `STATUS` with it. -/
def State.maskless (s : State) : State :=
  { s with
    status := Status.zero, mem := s.mem.setWindow .wm [], wmMask := 0, fmtWord := 0, score := Score.zero, bestId := 0
    bestPen := 0, pen := Vector.replicate 8 0 }

theorem State.window_of_maskless {s x : State} (h : x.maskless = s.maskless) {w : Window} (hw : w ≠ .wm) :
    x.mem.window w = s.mem.window w := by
  have := congrArg (fun s => s.mem.window w) h
  simpa [State.maskless, hw] using this

theorem State.entry_of_maskless {s x : State} (h : x.maskless = s.maskless) : x.entry = s.entry := by
  have := congrArg State.entry h
  simpa only [State.maskless] using this

theorem State.setMem_maskless {s : State} {m : Memory} (h : ∀ w, w ≠ .wm → m.window w = s.mem.window w) :
    (s.setMem m).maskless = s.maskless := by
  have hmem : m.setWindow .wm [] = s.mem.setWindow .wm [] := Memory.ext_window fun w => by
    by_cases hw : w = .wm
    · simp [hw]
    · simp [hw, h w hw]
  simp only [State.maskless, State.setMem, hmem]

@[simp] theorem State.setStatus_maskless (s : State) (t : Status) : (s.setStatus t).maskless = s.maskless := rfl
@[simp] theorem State.setFmt_maskless (s : State) (f : BitVec 15) : (s.setFmt f).maskless = s.maskless := rfl
@[simp] theorem State.setWmMask_maskless (s : State) (m : BitVec 3) : (s.setWmMask m).maskless = s.maskless := rfl
@[simp] theorem State.setScore_maskless (s : State) (c : Score) : (s.setScore c).maskless = s.maskless := rfl
@[simp] theorem State.setPen_maskless (s : State) (m : BitVec 3) (p : Word) :
    (s.setPen m p).maskless = s.maskless := rfl
@[simp] theorem State.setBest_maskless (s : State) (m : BitVec 3) (p : Word) :
    (s.setBest m p).maskless = s.maskless := rfl

/-- A state is what the selection does not write with what it writes. -/
theorem State.ext_maskless {s t : State} (h : t.maskless = s.maskless) (hstatus : t.status = s.status)
    (hwm : t.mem.window .wm = s.mem.window .wm) (hmask : t.wmMask = s.wmMask) (hfmt : t.fmtWord = s.fmtWord)
    (hscore : t.score = s.score) (hid : t.bestId = s.bestId) (hbest : t.bestPen = s.bestPen) (hpen : t.pen = s.pen) :
    t = s := by
  have hmem : t.mem = s.mem := Memory.ext_window fun w => by
    by_cases hw : w = .wm
    · rw [hw, hwm]
    · exact State.window_of_maskless h hw
  cases s
  cases t
  simp only [State.maskless, State.mk.injEq] at h hstatus hmask hfmt hscore hid hbest hpen hmem ⊢
  simp only [h, hstatus, hmask, hfmt, hscore, hid, hbest, hpen, hmem, and_self]

/-! ### Trials -/

/-- One mask tried: its candidate's cells and their score (46_mask R1005, R1015). -/
structure Trial where
  mask  : BitVec 3
  cells : List Byte
  score : Score

/-- What `PLACE` and `SCORE` of a tried mask leave. (Irreducible, so that comparing two such states does not run the
store of a whole symbol.) -/
@[irreducible] def State.afterTrial (s : State) (x : Trial) : State :=
  (((((s.setMem (s.mem.writeList .wm 0 x.cells)).setFmt (formatWord s.entry.secl x.mask)).setWmMask x.mask).setScore
    x.score).setPen x.mask x.score.ptotal).setStatus (s.status.setPlaced.setScored x.mask)

/-- The trial is what trying its mask finds in `s`. -/
structure State.Tries (s : State) (x : Trial) : Prop where
  candidate : s.candidate x.mask = .ok x.cells
  length    : x.cells.length = Config.cellCap
  scored    : ∃ rows, readRows (s.mem.writeList .wm 0 x.cells) (side s.entry.ver.toNat) (side s.entry.ver.toNat) 0 =
    .ok rows ∧ x.score = scoreOf rows

theorem tryMask_trial {m : BitVec 3} {s t : State} (hs : s.mem.wf = true) (h : tryMask m s = .ok t) :
    ∃ x : Trial, x.mask = m ∧ s.Tries x ∧ t = s.afterTrial x := by
  obtain ⟨u, hplace, hscore⟩ := tryMask_eq_ok h
  obtain ⟨mat, ilv, hmat, hilv, rfl⟩ := placeMask_eq_ok hplace
  obtain ⟨rows, hrows, rfl⟩ := scoreMask_eq_ok hscore
  refine ⟨⟨m, placedCells s.entry.ver.toNat (formatWord s.entry.secl m) m ilv mat, scoreOf rows⟩, rfl, ⟨?_, ?_, ?_⟩, ?_⟩
  · simp only [State.candidate, hmat, hilv]
  · exact (placedCells_length _ _ _ _ _).trans ((Memory.readList_eq_ok hs (by decide)).1 hmat).1
  · exact ⟨rows, hrows, rfl⟩
  · rw [State.afterTrial]
    rfl

theorem State.Tries.tryMask {s : State} {x : Trial} (h : s.Tries x) : tryMask x.mask s = .ok (s.afterTrial x) := by
  obtain ⟨rows, hrows, hscore⟩ := h.scored
  have hcand := h.candidate
  simp only [State.candidate] at hcand
  split at hcand
  · cases hcand
  · next mat hmat =>
    split at hcand
    · cases hcand
    · next ilv hilv =>
      simp only [Machine.tryMask, placeMask, hmat, hilv, Except.ok.inj hcand, scoreMask, State.setStatus_mem,
        State.setWmMask_mem, State.setFmt_mem, State.setMem_mem, State.setStatus_entry, State.setWmMask_entry,
        State.setFmt_entry, State.setMem_entry, hrows, ← hscore]
      rw [State.afterTrial]
      rfl

theorem State.Tries.congr {s t : State} {x : Trial} (h : s.Tries x) (hs : s.mem.wf = true) (ht : t.mem.wf = true)
    (hsame : t.maskless = s.maskless) : t.Tries x := by
  have hentry := State.entry_of_maskless hsame
  have hwm : (t.mem.writeList .wm 0 x.cells).window .wm = (s.mem.writeList .wm 0 x.cells).window .wm :=
    (Memory.window_writeList_all ht h.length).trans (Memory.window_writeList_all hs h.length).symm
  refine ⟨?_, h.length, ?_⟩
  · rw [State.candidate_congr (State.window_of_maskless hsame (by decide))
      (State.window_of_maskless hsame (by decide)) hentry, h.candidate]
  · rw [hentry, readRows_congr hwm]
    exact h.scored

@[simp] theorem State.afterTrial_maskless (s : State) (x : Trial) : (s.afterTrial x).maskless = s.maskless := by
  rw [State.afterTrial, State.setStatus_maskless, State.setPen_maskless, State.setScore_maskless,
    State.setWmMask_maskless, State.setFmt_maskless]
  exact State.setMem_maskless fun w hw => Memory.window_writeList_ne hw _ 0 _

section

variable (s : State) (x : Trial)

theorem State.afterTrial_status : (s.afterTrial x).status = s.status.setPlaced.setScored x.mask := by
  rw [State.afterTrial, State.setStatus_status]

theorem State.afterTrial_mem : (s.afterTrial x).mem = s.mem.writeList .wm 0 x.cells := by
  rw [State.afterTrial]
  rfl

theorem State.afterTrial_fmtWord : (s.afterTrial x).fmtWord = formatWord s.entry.secl x.mask := by
  rw [State.afterTrial]
  rfl

theorem State.afterTrial_wmMask : (s.afterTrial x).wmMask = x.mask := by
  rw [State.afterTrial]
  rfl

theorem State.afterTrial_score : (s.afterTrial x).score = x.score := by
  rw [State.afterTrial]
  rfl

theorem State.afterTrial_best : (s.afterTrial x).bestId = s.bestId ∧ (s.afterTrial x).bestPen = s.bestPen := by
  simp [State.afterTrial]

theorem State.afterTrial_pen : (s.afterTrial x).pen = s.pen.set x.mask.toNat x.score.ptotal x.mask.isLt := by
  rw [State.afterTrial]
  rfl

end

theorem State.afterTrial_wf {s : State} (h : s.mem.wf = true) (x : Trial) : (s.afterTrial x).mem.wf = true := by
  rw [State.afterTrial_mem]
  exact Memory.wf_writeList _ _ _ h

/-! ### Trials in turn -/

/-- What trials in turn leave. -/
def State.afterTrials (s : State) (xs : List Trial) : State := xs.foldl State.afterTrial s

@[simp] theorem State.afterTrials_nil (s : State) : s.afterTrials [] = s := rfl

@[simp] theorem State.afterTrials_cons (s : State) (x : Trial) (xs : List Trial) :
    s.afterTrials (x :: xs) = (s.afterTrial x).afterTrials xs := rfl

@[simp] theorem State.afterTrials_maskless (s : State) (xs : List Trial) :
    (s.afterTrials xs).maskless = s.maskless := by
  induction xs generalizing s with
  | nil => rw [State.afterTrials_nil]
  | cons x xs ih => rw [State.afterTrials_cons, ih, State.afterTrial_maskless]

theorem State.afterTrials_wf {s : State} (h : s.mem.wf = true) (xs : List Trial) :
    (s.afterTrials xs).mem.wf = true := by
  induction xs generalizing s with
  | nil => rwa [State.afterTrials_nil]
  | cons x xs ih =>
    rw [State.afterTrials_cons]
    exact ih (State.afterTrial_wf h x)

theorem State.afterTrials_status (s : State) (xs : List Trial) : (s.afterTrials xs).status =
    (xs.map Trial.mask).foldl (fun t m => t.setPlaced.setScored m) s.status := by
  induction xs generalizing s with
  | nil => rw [State.afterTrials_nil, List.map_nil, List.foldl_nil]
  | cons x xs ih => rw [State.afterTrials_cons, ih, State.afterTrial_status, List.map_cons, List.foldl_cons]

/-- The penalties after trials in turn are the tried masks' own, and the old ones of the masks not tried. -/
theorem State.afterTrials_pen_congr {s t : State} {xs : List Trial}
    (h : ∀ i (hi : i < 8), i ∉ xs.map (·.mask.toNat) → t.pen[i] = s.pen[i]) :
    (t.afterTrials xs).pen = (s.afterTrials xs).pen := by
  induction xs generalizing s t with
  | nil =>
    rw [State.afterTrials_nil, State.afterTrials_nil]
    exact Vector.ext fun i hi => h i hi List.not_mem_nil
  | cons x xs ih =>
    rw [State.afterTrials_cons, State.afterTrials_cons]
    refine ih fun i hi hnot => ?_
    simp only [State.afterTrial_pen]
    by_cases hx : x.mask.toNat = i
    · subst hx
      simp only [Vector.getElem_set_self]
    · rw [Vector.getElem_set_ne _ hi hx, Vector.getElem_set_ne _ hi hx]
      exact h i hi (by simpa [Ne.symm hx] using hnot)

/-- The best of the trials in turn, as the loop of R1020 keeps it. -/
def bestTrial (best : Option (BitVec 3 × Word)) (xs : List Trial) : Option (BitVec 3 × Word) :=
  xs.foldl (fun b x => if better b x.score.ptotal then some (x.mask, x.score.ptotal) else b) best

theorem tryMasks_trials {ms : List (BitVec 3)} {best b : Option (BitVec 3 × Word)} {s t : State} (hs : s.mem.wf = true)
    (h : tryMasks ms best s = .ok (t, b)) :
    ∃ xs : List Trial, xs.map Trial.mask = ms ∧ (∀ x ∈ xs, s.Tries x) ∧ t = s.afterTrials xs ∧
      b = bestTrial best xs := by
  induction ms generalizing best s with
  | nil =>
    cases h
    exact ⟨[], rfl, by simp, rfl, rfl⟩
  | cons m ms ih =>
    obtain ⟨s₁, h₁, h⟩ := tryMasks_cons h
    obtain ⟨x, rfl, hx, rfl⟩ := tryMask_trial hs h₁
    have hwf := State.afterTrial_wf hs x
    obtain ⟨xs, rfl, hxs, rfl, rfl⟩ := ih hwf h
    refine ⟨x :: xs, rfl, List.forall_mem_cons.2 ⟨hx, fun y hy => ?_⟩, rfl, by rw [State.afterTrial_score]; rfl⟩
    exact (hxs y hy).congr hwf hs (s.afterTrial_maskless x).symm

theorem tryMasks_of_trials {xs : List Trial} {best : Option (BitVec 3 × Word)} {s : State} (hs : s.mem.wf = true)
    (h : ∀ x ∈ xs, s.Tries x) :
    tryMasks (xs.map Trial.mask) best s = .ok (s.afterTrials xs, bestTrial best xs) := by
  induction xs generalizing best s with
  | nil => rfl
  | cons x xs ih =>
    obtain ⟨hx, hxs⟩ := List.forall_mem_cons.1 h
    have hwf := State.afterTrial_wf hs x
    simp only [List.map_cons, tryMasks, hx.tryMask, State.afterTrial_score]
    exact ih hwf fun y hy => (hxs y hy).congr hs hwf (s.afterTrial_maskless x)

/-! ### The selection -/

/-- What the selection leaves that tries `xs` and then the winner `y` again. -/
def State.afterSelection (s : State) (xs : List Trial) (y : Trial) : State :=
  let b := (bestTrial none xs).getD (0#3, 0#32)
  let t := ((s.afterTrials xs).setBest b.1 b.2).afterTrial y
  t.setStatus t.status.setBest

/-- `STATUS` after a selection. -/
def Status.selected (t : Status) : Status := { t with wmV := true, scV := true, bestV := true, penv := 0xFF#8 }

/-- The eight masks and the winner again leave every bit of `PENV` set. -/
theorem Status.selected_eq (t : Status) (m : BitVec 3) :
    ((allMasks.foldl (fun t m => t.setPlaced.setScored m) t).setPlaced.setScored m).setBest = t.selected := by
  have hall : (allMasks.foldl (fun t m => t.setPlaced.setScored m) t).penv = 0xFF#8 := by
    simp only [allMasks, List.foldl_cons, List.foldl_nil, Status.setScored_penv, Status.setPlaced_penv, BitVec.or_assoc]
    exact BitVec.or_allOnes
  have hpenv : (((allMasks.foldl (fun t m => t.setPlaced.setScored m) t).setPlaced.setScored m).setBest).penv =
      0xFF#8 := by
    rw [Status.setBest_penv, Status.setScored_penv, Status.setPlaced_penv, hall]
    exact BitVec.allOnes_or
  simp only [allMasks, List.foldl_cons, List.foldl_nil, Status.selected] at hpenv ⊢
  simp only [Status.setBest, Status.setScored, Status.setPlaced] at hpenv ⊢
  rw [hpenv]

theorem State.afterSelection_status (s : State) {xs : List Trial} (hxs : xs.map Trial.mask = allMasks) (y : Trial) :
    (s.afterSelection xs y).status = s.status.selected := by
  simp only [State.afterSelection, State.setStatus_status, State.afterTrial_status, State.setBest_status,
    State.afterTrials_status, hxs, Status.selected_eq]

theorem State.afterSelection_maskless (s : State) (xs : List Trial) (y : Trial) :
    (s.afterSelection xs y).maskless = s.maskless := by
  simp [State.afterSelection]

/-- Every mask is tried, so every penalty is a trial's. -/
theorem State.afterTrials_pen_eq {xs : List Trial} (hxs : xs.map Trial.mask = allMasks) (s t : State) :
    (t.afterTrials xs).pen = (s.afterTrials xs).pen := by
  refine State.afterTrials_pen_congr fun i hi hnot => absurd ?_ hnot
  have hmem : BitVec.ofFin ⟨i, hi⟩ ∈ xs.map Trial.mask := hxs ▸ mem_allMasks _
  obtain ⟨x, hx, hmask⟩ := List.mem_map.1 hmem
  exact List.mem_map.2 ⟨x, hx, by rw [hmask]; rfl⟩

/-- Two states that differ in what the selection writes come out of it the same, but for flags it does not set. -/
theorem State.afterSelection_congr {s t : State} (hs : s.mem.wf = true) (ht : t.mem.wf = true)
    (hsame : t.maskless = s.maskless) {xs : List Trial} (hxs : xs.map Trial.mask = allMasks) {y : Trial}
    (hy : y.cells.length = Config.cellCap) :
    t.afterSelection xs y = (s.afterSelection xs y).setStatus t.status.selected := by
  have hentry : (t.afterTrials xs).entry = (s.afterTrials xs).entry := by
    rw [State.entry_of_maskless (t.afterTrials_maskless xs), State.entry_of_maskless (s.afterTrials_maskless xs),
      State.entry_of_maskless hsame]
  have hlen : y.cells.length = Window.size .wm := hy
  refine State.ext_maskless ?maskless ?status ?wm ?mask ?fmt ?score ?id ?best ?pen
  case maskless => simp [State.afterSelection_maskless, hsame]
  case status => rw [State.afterSelection_status _ hxs, State.setStatus_status]
  all_goals simp only [State.afterSelection, State.setStatus_mem, State.setStatus_fmtWord, State.setStatus_wmMask,
    State.setStatus_score, State.setStatus_bestId, State.setStatus_bestPen, State.setStatus_pen, State.afterTrial_mem,
    State.afterTrial_fmtWord, State.afterTrial_wmMask, State.afterTrial_score, State.afterTrial_best,
    State.afterTrial_pen, State.setBest_mem, State.setBest_entry, State.setBest_bestId, State.setBest_bestPen,
    State.setBest_pen]
  case wm => rw [Memory.window_writeList_all (State.afterTrials_wf ht xs) hlen,
      Memory.window_writeList_all (State.afterTrials_wf hs xs) hlen]
  case fmt => rw [hentry]
  case pen => rw [State.afterTrials_pen_eq hxs s t]

theorem selectMask_trials {s t : State} (hs : s.mem.wf = true) (h : selectMask s = .ok t) :
    ∃ (xs : List Trial) (y : Trial), xs.map Trial.mask = allMasks ∧ (∀ x ∈ xs, s.Tries x) ∧ s.Tries y ∧
      y.mask = ((bestTrial none xs).getD (0#3, 0#32)).1 ∧ t = s.afterSelection xs y := by
  obtain ⟨s₁, best, s₂, hloop, hwin, rfl⟩ := selectMask_eq_ok h
  obtain ⟨xs, hmap, hxs, rfl, rfl⟩ := tryMasks_trials hs hloop
  have hwf : ((s.afterTrials xs).setBest ((bestTrial none xs).getD (0#3, 0#32)).1
      ((bestTrial none xs).getD (0#3, 0#32)).2).mem.wf = true := State.afterTrials_wf hs xs
  obtain ⟨y, hmask, hy, rfl⟩ := tryMask_trial hwf hwin
  exact ⟨xs, y, hmap, hxs, hy.congr hwf hs (s.afterTrials_maskless xs).symm, hmask, rfl⟩

theorem selectMask_of_trials {s : State} (hs : s.mem.wf = true) {xs : List Trial} {y : Trial}
    (hmap : xs.map Trial.mask = allMasks) (hxs : ∀ x ∈ xs, s.Tries x) (hy : s.Tries y)
    (hmask : y.mask = ((bestTrial none xs).getD (0#3, 0#32)).1) : selectMask s = .ok (s.afterSelection xs y) := by
  have hwf : ((s.afterTrials xs).setBest ((bestTrial none xs).getD (0#3, 0#32)).1
      ((bestTrial none xs).getD (0#3, 0#32)).2).mem.wf = true := State.afterTrials_wf hs xs
  have hwin := (hy.congr hs hwf (s.afterTrials_maskless xs)).tryMask
  rw [hmask] at hwin
  simp only [selectMask, ← hmap, tryMasks_of_trials hs hxs, hwin]
  rfl

/-- The selection sets its flags and keeps what it does not write; and from every state that agrees with the first one
on that, it comes out the same. -/
theorem selectMask_again {s t : State} (hs : s.mem.wf = true) (h : selectMask s = .ok t) :
    t.status = s.status.selected ∧ t.maskless = s.maskless ∧
      ∀ x : State, x.mem.wf = true → x.maskless = s.maskless → selectMask x = .ok (t.setStatus x.status.selected) := by
  obtain ⟨xs, y, hmap, hxs, hy, hmask, rfl⟩ := selectMask_trials hs h
  refine ⟨s.afterSelection_status hmap y, s.afterSelection_maskless xs y, fun x hx hsame => ?_⟩
  rw [selectMask_of_trials hx hmap (fun z hz => (hxs z hz).congr hs hx hsame) (hy.congr hs hx hsame) hmask,
    State.afterSelection_congr hs hx hsame hmap hy.length]

end Sys2Proof.Machine
end
section
/-! SUPPORT. Running a command again (42_bitstream R625, 40_galois_field R405, 46_mask R1015, 45_matrix R941, 47_control
R1121): an effect that can happen is what the command does; a command whose result is in place has no further effect;
and `ENCODE`'s commands leave the results of the earlier ones in place. -/

-- One theorem at a time: each proof in flight holds a thread's whole stack.
set_option Elab.async false

namespace Sys2Proof.Machine

/-! ### From effects to commands -/

theorem err_ne_zero_of_code {c : BitVec 4} (h : 1 ≤ c.toNat ∧ c.toNat ≤ 7) : c ≠ 0#4 := by
  rintro rfl
  exact absurd h.1 (by decide)

theorem CommandEffect.of_eq {i : Instr} {s t u : State} (h : CommandEffect s i u) (hu : u = t) : CommandEffect s i t :=
  hu ▸ h

/-- An effect that leaves no error is what the command does. -/
theorem CommandEffect.exec_eq {i : Instr} {s t : State} (h : CommandEffect s i t) (he : s.status.err = 0#4)
    (ht : t.status.err = 0#4) : exec i s = .next t := by
  cases h with
  | ignored hne => exact absurd he hne
  | failed c _ hc => exact absurd ht (err_ne_zero_of_code hc)
  | nop | gfInit => exact ite_self _
  | clear => rfl
  | gfMul => exact execGfMul_ok he _ _
  | verCalc hv => exact execVerCalc_ok he hv
  | fmtCalc => exact execFmtCalc_ok he _ _
  | capLookup hrow =>
    show execCapLookup _ _ s = _
    simp only [execCapLookup, unlessError_ok he, hrow]
  | select hrow hfit =>
    show execSelect s = _
    simp only [execSelect, unlessError_ok he, hfit, hrow]
  | compose hsel hfit hscan hst =>
    show execCompose s = _
    simp only [execCompose, unlessError_ok he, require_true hsel, if_neg (Nat.not_lt.2 hfit), hscan, hst, orFault]
  | bsReset =>
    show execBsReset s = _
    rw [execBsReset, unlessError_ok he]
  | bsAppend hw hsel hfit hst =>
    show execBsAppend _ _ s = _
    simp only [execBsAppend, unlessError_ok he, require_true hsel, if_neg (Nat.not_lt.2 hfit), hst, orFault]
    exact if_neg (by omega)
  | bsTerminate hsel hst =>
    show execBsTerminate s = _
    simp only [execBsTerminate, unlessError_ok he, require_true hsel, hst, orFault]
  | bsPad hsel halign hst =>
    show execBsPad s = _
    simp only [execBsPad, unlessError_ok he, hsel, halign, decide_true, Bool.and_self, require_true, hst, orFault]
  | genPoly hn =>
    show execGenPoly _ s = _
    rw [execGenPoly, unlessError_ok he, if_neg (by omega)]
  | rsEncode hrange hgen hds hg =>
    show execRsEncode _ _ s = _
    simp only [execRsEncode, unlessError_ok he, if_neg (Nat.not_lt.2 hrange), require_true hgen, hds, hg, orFault]
  | rsAll hsel hbs hm =>
    show execRsAll s = _
    simp only [execRsAll, unlessError_ok he, hsel, hbs, Bool.and_self, require_true, hm, orFault]
    rfl
  | interleave hsel hbs hec hds hes =>
    show execInterleave s = _
    simp only [execInterleave, unlessError_ok he, hsel, hbs, hec, Bool.and_self, require_true, hds, hes, orFault]
  | build hsel =>
    show execBuild s = _
    simp only [execBuild, unlessError_ok he, require_true hsel]
  | zzReset hmat =>
    show execZzReset s = _
    rw [execZzReset, unlessError_ok he, require_true hmat]
  | zzDone hzz hend =>
    show execZzNext s = _
    simp only [execZzNext, unlessError_ok he, require_true hzz, hend]
  | zzNext hzz hpos =>
    show execZzNext s = _
    simp only [execZzNext, unlessError_ok he, require_true hzz, hpos]
  | place hmat hilv hu =>
    show execPlace _ s = _
    simp only [execPlace, unlessError_ok he, hmat, hilv, Bool.and_self, require_true, hu, orFault]
  | score hwm hu =>
    show execScore s = _
    simp only [execScore, unlessError_ok he, require_true hwm, hu, orFault]
  | maskSelect hmat hilv hu =>
    show execMaskSelect s = _
    simp only [execMaskSelect, unlessError_ok he, hmat, hilv, Bool.and_self, require_true, hu, orFault]

/-! ### The result of a command of `ENCODE` in place -/

/-- The result of a command of `ENCODE` is in the registers and windows it writes, as it follows from those it reads. -/
def State.Done (s : State) : Instr → Prop
  | .select => ∃ v row, capRow? v s.ecl = some row ∧ firstFit s.ecl s.len.toNat Config.verMax 1 = some v ∧
      s.entry = entryOf v s.ecl row
  | .compose => 4 + s.entry.cci.toNat + contentBits s.len.toNat ≤ s.entry.capBits ∧
      ∃ ds n, scanDigits 0 [] (Ram.view (s.mem.window .digits) 0 s.len.toNat) = .digits ds ∧
        composeStream s.entry s.len.toNat ds s.mem = .ok ⟨s.mem, n⟩ ∧ s.cur = BitVec.ofNat 15 n
  | .rsAll => s.mem.writeList .gen 0 (generator s.entry.ecLen.toNat) = s.mem ∧
      s.genLen = BitVec.ofNat 7 s.entry.ecLen.toNat ∧
      rsBlocks s.entry (generator s.entry.ecLen.toNat) (List.range s.entry.nblk.toNat) s.mem = .ok s.mem
  | .interleave => ∃ ds es, s.mem.readAt .bs s.entry.dataOrder = .ok ds ∧ s.mem.readAt .ecb s.entry.ecOrder = .ok es ∧
      s.mem.writeList .ilv 0 (ds ++ es) = s.mem
  | .build => s.viWord = (if 7 ≤ s.entry.ver.toNat then versionWord s.entry.ver.toNat else 0#18) ∧
      s.mem.writeList .mat 0 (builtCells s.entry.ver.toNat) = s.mem
  | .maskSelect => ∀ t : Status, selectMask (s.setStatus t) = .ok (s.setStatus t.selected)
  | _ => True

/-- The flags after a command of `ENCODE` (10_state R134, R138). -/
def Status.after (t : Status) : Instr → Status
  | .select => t.invSel.setSel
  | .compose => t.invBs.setBs
  | .rsAll => t.invEc.setGen.setEc
  | .interleave => t.invIlv.setIlv
  | .build => t.invMat.setMat
  | .maskSelect => t.selected
  | _ => t

/-- The flags a command of `ENCODE` needs (10_state R134). -/
def Status.Ready (t : Status) : Instr → Prop
  | .compose | .build => t.selV = true
  | .rsAll => t.selV = true ∧ t.bsV = true
  | .interleave => t.selV = true ∧ t.bsV = true ∧ t.ecV = true
  | .maskSelect => t.matV = true ∧ t.ilvV = true
  | _ => True

/-- A command of `ENCODE` that succeeds had the flags it needs, sets its own and leaves its result in place. -/
theorem CommandEffect.done {i : Instr} {s t : State} (h : CommandEffect s i t) (hi : i ∈ encodeParts)
    (hs : s.mem.wf = true) (ht : t.status.err = 0#4) :
    s.status.Ready i ∧ t.status = s.status.after i ∧ t.Done i := by
  have hwf := h.wf hs
  cases h with
  | ignored hne => exact absurd ht hne
  | failed c _ hc => exact absurd ht (err_ne_zero_of_code hc)
  | select hrow hfit => exact ⟨trivial, rfl, _, _, hrow, hfit, rfl⟩
  | compose hsel hfit hscan hst =>
    have hkeep := (composeStream_bsStores hst).same .digits (by decide)
    exact ⟨hsel, rfl, hfit, _, _, hkeep ▸ hscan, composeStream_again hs hwf hst rfl, rfl⟩
  | rsAll hsel hbs hm =>
    have hkeep {w : Window} (hecb : w ≠ .ecb) (hrsr : w ≠ .rsr) := rsBlocks_window hm hecb hrsr
    exact ⟨⟨hsel, hbs⟩, rfl, Memory.writeList_again hwf (hkeep (by decide) (by decide)), rfl,
      rsBlocks_again hm hwf (hkeep (by decide) (by decide)) rfl rfl⟩
  | interleave hsel hbs hec hds hes =>
    refine ⟨⟨hsel, hbs, hec⟩, rfl, _, _, ?_, ?_, Memory.writeList_again hwf rfl⟩
    · exact (Memory.readAt_writeList_ne (by decide) _ _ _).trans hds
    · exact (Memory.readAt_writeList_ne (by decide) _ _ _).trans hes
  | build hsel => exact ⟨hsel, rfl, rfl, Memory.writeList_again hwf rfl⟩
  | maskSelect hmat hilv hu =>
    obtain ⟨hstatus, hkeep, hagain⟩ := selectMask_again hs hu
    exact ⟨⟨hmat, hilv⟩, hstatus, fun x => hagain (t.setStatus x) hwf hkeep⟩
  | _ => exact absurd hi (by simp [encodeParts])

/-- A command of `ENCODE` whose result is in place changes the flags only. -/
theorem State.Done.effect {i : Instr} {s : State} (h : s.Done i) (hi : i ∈ encodeParts) {t : Status} (ht : t.Ready i) :
    CommandEffect (s.setStatus t) i (s.setStatus (t.after i)) := by
  cases i with
  | select =>
    obtain ⟨v, row, hrow, hfit, hentry⟩ := h
    refine .of_eq (.select hrow hfit) ?_
    rw [State.selectEntry, State.setStatus_ecl, ← hentry]
    rfl
  | compose =>
    obtain ⟨hfit, ds, n, hscan, hst, hcur⟩ := h
    refine .of_eq (.compose ht hfit hscan hst) ?_
    rw [State.setStream, State.setCur, ← hcur]
    rfl
  | rsAll =>
    obtain ⟨hgen, hlen, hblocks⟩ := h
    obtain ⟨hsel, hbs⟩ := ht
    refine .of_eq (.rsAll hsel hbs (m := s.mem) (hgen.symm ▸ hblocks)) ?_
    rw [State.storeGenerator, State.setGenLen, State.setStatus_entry, ← hlen]
    rfl
  | interleave =>
    obtain ⟨ds, es, hds, hes, hilv⟩ := h
    obtain ⟨hsel, hbs, hec⟩ := ht
    refine .of_eq (.interleave hsel hbs hec hds hes) ?_
    rw [State.setStatus_mem, hilv]
    rfl
  | build =>
    obtain ⟨hvi, hmat⟩ := h
    refine .of_eq (.build ht) ?_
    rw [State.setStatus_mem, State.setStatus_entry, hmat, ← hvi]
    rfl
  | maskSelect => exact .maskSelect ht.1 ht.2 (h t)
  | _ => exact absurd hi (by simp [encodeParts])

/-- Setting the flags of a command again changes none, and keeps those it needs. -/
theorem Status.after_after (t : Status) (i : Instr) : (t.after i).after i = t.after i := by
  cases i <;> rfl

theorem Status.Ready.after {t : Status} {i : Instr} (h : t.Ready i) : (t.after i).Ready i := by
  cases i <;> exact h

theorem Status.after_err (t : Status) (i : Instr) : (t.after i).err = t.err := by
  cases i <;> rfl

/-! ### Results stay in place -/

namespace Frame

variable {rs : List Reg} {ws : List Window} {s t : State}

theorem cur (h : Frame rs ws s t) (hr : .bscur ∉ rs) : t.cur = s.cur := by
  have := h.reg .bscur (by decide) hr
  simpa only [State.regWord, field_low] using congrArg (·.extractLsb' 0 15) this

theorem genLen (h : Frame rs ws s t) (hr : .genlen ∉ rs) : t.genLen = s.genLen := by
  have := h.reg .genlen (by decide) hr
  simpa only [State.regWord, field_low] using congrArg (·.extractLsb' 0 7) this

theorem viWord (h : Frame rs ws s t) (hr : .verinfo ∉ rs) : t.viWord = s.viWord := by
  have := h.reg .verinfo (by decide) hr
  simpa only [State.regWord, field_low] using congrArg (·.extractLsb' 0 18) this

theorem entry (h : Frame rs ws s t) (hr : ∀ r ∈ entryRegs, r ∉ rs) : t.entry = s.entry := by
  obtain ⟨sversion, sgroup1, sgroup2, secinfo⟩ := regWord_entry_fields s
  obtain ⟨tversion, tgroup1, tgroup2, tecinfo⟩ := regWord_entry_fields t
  simp only [h.reg .version (by decide) (hr _ (by decide)), sversion] at tversion
  simp only [h.reg .group1 (by decide) (hr _ (by decide)), sgroup1] at tgroup1
  simp only [h.reg .group2 (by decide) (hr _ (by decide)), sgroup2] at tgroup2
  simp only [h.reg .ecinfo (by decide) (hr _ (by decide)), secinfo] at tecinfo
  exact ((Entry.mk.injEq ..).mpr (by simp only [tversion, tgroup1, tgroup2, tecinfo, and_self])).symm

end Frame

/-- The windows a command of `ENCODE` reads, but for those it reads after it has written them. -/
def windowsRead : Instr → List Window
  | .compose => [.digits]
  | .rsAll => [.bs]
  | .interleave => [.bs, .ecb]
  | _ => []

/-- Command `j` writes nothing that the result of `i` is made of. -/
abbrev Undisturbed (i j : Instr) : Prop :=
  i ≠ .maskSelect ∧ (∀ r ∈ entryRegs ++ regsWritten i, r ∉ regsWritten j) ∧
    ∀ w ∈ windowsRead i ++ windowsWritten i, w ∉ windowsWritten j

theorem encodeParts_undisturbed : encodeParts.Pairwise Undisturbed := by decide

theorem State.Done.keep {i j : Instr} {s t : State} (h : s.Done i) (hij : Undisturbed i j) (hs : s.mem.wf = true)
    (ht : t.mem.wf = true) (hf : Frame (regsWritten j) (windowsWritten j) s t) : t.Done i := by
  obtain ⟨hne, hregs, hwins⟩ := hij
  have hentry := hf.entry fun r hr => hregs r (List.mem_append_left _ hr)
  have hreg {r : Reg} (hr : r ∈ regsWritten i) := hregs r (List.mem_append_right _ hr)
  have hwin {w : Window} (hw : w ∈ windowsRead i ++ windowsWritten i) := hf.window w (hwins w hw)
  cases i with
  | select => simpa only [State.Done, hf.ecl, hf.len, hentry] using h
  | compose =>
    obtain ⟨hfit, ds, n, hscan, hst, hcur⟩ := h
    refine ⟨by rwa [hentry, hf.len], ds, n, by rwa [hf.len, hwin (by decide)], ?_,
      (hf.cur (hreg (by decide))).trans hcur⟩
    rw [hentry, hf.len]
    exact composeStream_again hs ht hst (hwin (by decide))
  | rsAll =>
    obtain ⟨hgen, hlen, hblocks⟩ := h
    refine ⟨Memory.writeList_again (m := s.mem) ht ?_, ?_, ?_⟩
    · rw [hentry, hgen, hwin (by decide)]
    · rw [hentry, hf.genLen (hreg (by decide)), hlen]
    · rw [hentry]
      exact rsBlocks_again hblocks ht (hwin (by decide)) (hwin (by decide)) (hwin (by decide))
  | interleave =>
    obtain ⟨ds, es, hds, hes, hilv⟩ := h
    refine ⟨ds, es, ?_, ?_, Memory.writeList_again (m := s.mem) ht ?_⟩
    · rw [hentry, Memory.readAt_congr (hwin (by decide)), hds]
    · rw [hentry, Memory.readAt_congr (hwin (by decide)), hes]
    · rw [hilv, hwin (by decide)]
  | build =>
    obtain ⟨hvi, hmat⟩ := h
    refine ⟨?_, Memory.writeList_again (m := s.mem) ht ?_⟩
    · rw [hentry, hf.viWord (hreg (by decide)), hvi]
    · rw [hentry, hmat, hwin (by decide)]
  | maskSelect => exact absurd rfl hne
  | _ => trivial

/-! ### `ENCODE` again -/

/-- Commands run in turn (47_control R1110). -/
def execAll : List Instr → State → Result
  | [], s => .next s
  | i :: is, s => andThen (exec i s) (execAll is)

theorem andThen_next_self (r : Result) : andThen r Host.Outcome.next = r := by
  cases r <;> rfl

theorem execEncode_eq (s : State) : execEncode s = unlessError s (execAll encodeParts) := by
  have hlast : execAll [.maskSelect] = execMaskSelect := funext fun s => andThen_next_self (execMaskSelect s)
  simp only [execEncode, encodeParts, execAll, ← hlast]
  rfl

theorem exec_wf {i : Instr} {s t : State} (hs : s.mem.wf = true) (h : exec i s = .next t) : t.mem.wf = true :=
  exec_induct (P := fun s => s.mem.wf = true) (fun _ _ _ hs he => he.wf hs) hs h

/-- A command that leaves no error met none (60_exceptions R1203). -/
theorem err_eq_zero_of_exec {i : Instr} {s t : State} (hi : i ≠ .clear) (h : exec i s = .next t)
    (ht : t.status.err = 0#4) : s.status.err = 0#4 := by
  by_contra he
  rw [exec_ignored hi he] at h
  exact he (Host.Outcome.next.inj h ▸ ht)

theorem ne_of_mem_encodeParts {i : Instr} (hi : i ∈ encodeParts) : i ≠ .clear ∧ i ≠ .encode := by
  refine ⟨?_, ?_⟩ <;> (rintro rfl; exact absurd hi (by decide))

theorem err_eq_zero_of_execAll {is : List Instr} (his : ∀ i ∈ is, i ∈ encodeParts) {s t : State}
    (h : execAll is s = .next t) (ht : t.status.err = 0#4) : s.status.err = 0#4 := by
  induction is generalizing s with
  | nil =>
    cases h
    exact ht
  | cons i is ih =>
    obtain ⟨hi, his⟩ := List.forall_mem_cons.1 his
    obtain ⟨u, hu, h⟩ := andThen_next.1 h
    exact err_eq_zero_of_exec (ne_of_mem_encodeParts hi).1 hu (ih his h)

theorem State.Done.keepAll {i : Instr} {is : List Instr} {s t : State} (hd : s.Done i)
    (his : ∀ j ∈ is, Undisturbed i j) (hs : s.mem.wf = true) (h : execAll is s = .next t) : t.Done i := by
  induction is generalizing s with
  | nil =>
    cases h
    exact hd
  | cons j is ih =>
    obtain ⟨hij, his⟩ := List.forall_mem_cons.1 his
    obtain ⟨u, hu, h⟩ := andThen_next.1 h
    have hwf := exec_wf hs hu
    exact ih (hd.keep hij hs hwf (exec_frame hu)) his hwf h

/-- Commands of `ENCODE` that succeed in turn leave all their results in place. -/
theorem execAll_done {is : List Instr} (his : ∀ i ∈ is, i ∈ encodeParts) (hpair : is.Pairwise Undisturbed) {s t : State}
    (hs : s.mem.wf = true) (h : execAll is s = .next t) (ht : t.status.err = 0#4) :
    t.status = is.foldl Status.after s.status ∧ ∀ i ∈ is, t.Done i := by
  induction is generalizing s with
  | nil =>
    cases h
    exact ⟨rfl, fun _ hi => absurd hi List.not_mem_nil⟩
  | cons i is ih =>
    obtain ⟨hi, his⟩ := List.forall_mem_cons.1 his
    obtain ⟨hfirst, hpair⟩ := List.pairwise_cons.1 hpair
    obtain ⟨u, hu, h⟩ := andThen_next.1 h
    have hwf := exec_wf hs hu
    obtain ⟨-, hstatus, hd⟩ := (exec_next (ne_of_mem_encodeParts hi).2 hu).done hi hs (err_eq_zero_of_execAll his h ht)
    obtain ⟨hrest, hdone⟩ := ih his hpair hwf h
    refine ⟨by rw [hrest, hstatus, List.foldl_cons], List.forall_mem_cons.2 ⟨?_, hdone⟩⟩
    exact hd.keepAll hfirst hwf h

/-- Each of the commands in turn has the flags it needs. -/
def Status.ReadyAll : List Instr → Status → Prop
  | [], _ => True
  | i :: is, t => t.Ready i ∧ ReadyAll is (t.after i)

/-- Commands of `ENCODE` whose results are in place change the flags only. -/
theorem execAll_of_done {is : List Instr} (his : ∀ i ∈ is, i ∈ encodeParts) {s : State} (hdone : ∀ i ∈ is, s.Done i)
    {t : Status} (ht : t.err = 0#4) (hready : t.ReadyAll is) :
    execAll is (s.setStatus t) = .next (s.setStatus (is.foldl Status.after t)) := by
  induction is generalizing t with
  | nil => rfl
  | cons i is ih =>
    obtain ⟨hi, his⟩ := List.forall_mem_cons.1 his
    obtain ⟨hd, hdone⟩ := List.forall_mem_cons.1 hdone
    obtain ⟨hri, hready⟩ := hready
    have ht' : (t.after i).err = 0#4 := (t.after_err i).trans ht
    rw [execAll, (hd.effect hi hri).exec_eq ht ht']
    exact ih his hdone ht' hready

/-- Whatever the flags, `ENCODE`'s commands raise those that the later ones need. -/
theorem Status.readyAll_encodeParts (t : Status) : t.ReadyAll encodeParts :=
  ⟨trivial, rfl, ⟨rfl, rfl⟩, ⟨rfl, rfl, rfl⟩, rfl, ⟨rfl, rfl⟩, trivial⟩

/-- The flags after all of `ENCODE`'s commands. -/
theorem Status.foldl_after_encodeParts (t : Status) : encodeParts.foldl Status.after t =
    { err := t.err, selV := true, bsV := true, genV := true, ecV := true, ilvV := true, matV := true, zzV := false,
      zzDone := false, wmV := true, scV := true, bestV := true, penv := 0xFF#8 } := by
  cases t
  rfl

theorem execEncode_again {s t : State} (hs : s.mem.wf = true) (h : exec .encode s = .next t) (ht : t.status.err = 0#4) :
    exec .encode t = .next t := by
  have he := err_eq_zero_of_exec (by decide) h ht
  rw [exec, execEncode_eq, unlessError_ok he] at h
  obtain ⟨hstatus, hdone⟩ := execAll_done (fun _ hi => hi) encodeParts_undisturbed hs h ht
  have hflags : encodeParts.foldl Status.after t.status = t.status := by
    rw [hstatus, Status.foldl_after_encodeParts, Status.foldl_after_encodeParts]
  have hagain := execAll_of_done (fun _ hi => hi) hdone ht t.status.readyAll_encodeParts
  rw [hflags] at hagain
  rw [exec, execEncode_eq, unlessError_ok ht]
  exact hagain

/-! ### The other commands again -/

theorem State.selectEntry_self {s : State} {e : Entry} (ht : s.status.invSel.setSel = s.status) (he : s.entry = e) :
    s.selectEntry e = s := by
  rw [State.selectEntry, ht, ← he]
  rfl

/-- Taking back the stream and the flags a state has changes nothing. -/
theorem State.setStream_self {s : State} {t : Status} {st : Stream} (ht : t = s.status) (hst : st = s.stream) :
    (s.setStatus t).setStream st = s := by
  subst ht hst
  have hcur : BitVec.ofNat 15 s.cur.toNat = s.cur := by rw [BitVec.ofNat_toNat, BitVec.setWidth_eq]
  rw [State.setStream, State.setCur, State.stream_cur, hcur]
  rfl

theorem zeroed_again {m : Memory} (hm : m.wf = true) : Stream.zeroed (Stream.zeroed m).mem = Stream.zeroed m := by
  rw [Stream.zeroed, Stream.zeroed, Memory.writeList_again (Memory.wf_writeList _ _ _ hm) rfl]

theorem padStream_again {s : State} {st : Stream} (halign : s.cur.toNat % 8 = 0)
    (hst : padStream s.entry.capBits s.stream = .ok st) (t : Status) :
    let u := (s.setStatus t).setStream st
    u.cur.toNat % 8 = 0 ∧ padStream u.entry.capBits u.stream = .ok u.stream := by
  have hend : st.cur = max s.cur.toNat s.entry.capBits := padStream_cur (st := s.stream) halign hst
  have hcap : s.entry.capBits = 8 * s.entry.dataCw.toNat := rfl
  have hdata := s.entry.dataCw.isLt
  have hlt := s.cur.isLt
  have hcur : (BitVec.ofNat 15 st.cur).toNat = st.cur := by
    rw [BitVec.toNat_ofNat]
    omega
  refine ⟨?_, padStream_of_full ?_⟩
  · rw [State.setStream_cur, hcur]
    omega
  · rw [State.stream_cur, State.setStream_cur, hcur, State.setStream_entry, State.setStatus_entry]
    omega

theorem State.storeGenerator_again {s : State} (hs : s.mem.wf = true) (n : Nat) :
    (s.storeGenerator n).storeGenerator n = s.storeGenerator n := by
  have hmem := Memory.writeList_again (Memory.wf_writeList .gen 0 (generator n) hs) rfl
  simp only [State.storeGenerator, State.setStatus_mem, State.setGenLen_mem, State.setMem_mem, hmem]
  rfl

theorem placeMask_again {m : BitVec 3} {s t : State} (hs : s.mem.wf = true) (h : placeMask m s = .ok t) :
    placeMask m t = .ok t := by
  have hwf := placeMask_wf hs h
  have hframe := placeMask_frame h
  have hentry := placeMask_entry h
  have hmask := placeMask_wmMask h
  have hstatus : t.status.setPlaced = t.status := by
    rw [placeMask_status h]
    rfl
  obtain ⟨mat, ilv, hmat, hilv, ht⟩ := placeMask_eq_ok h
  have hfmt : t.fmtWord = formatWord s.entry.secl m := by rw [ht, State.setStatus_fmtWord]; rfl
  have hmem : t.mem.window .wm = (s.mem.writeList .wm 0
      (placedCells s.entry.ver.toNat (formatWord s.entry.secl m) m ilv mat)).window .wm := by
    rw [ht, State.setStatus_mem]
    rfl
  simp only [placeMask, hentry, Memory.readList_congr (hframe.window .mat (by decide)), hmat,
    Memory.readList_congr (hframe.window .ilv (by decide)), hilv, Memory.writeList_again hwf hmem, hstatus]
  rw [← hfmt, ← hmask]
  rfl

theorem Status.setScored_setScored (t : Status) (m : BitVec 3) : (t.setScored m).setScored m = t.setScored m := by
  simp only [Status.setScored, BitVec.or_assoc, BitVec.or_self]

theorem scoreMask_again {s t : State} (h : scoreMask s = .ok t) : scoreMask t = .ok t := by
  obtain ⟨rows, hrows, rfl⟩ := scoreMask_eq_ok h
  simp only [scoreMask, State.setStatus_mem, State.setPen_mem, State.setScore_mem, State.setStatus_entry,
    State.setPen_entry, State.setScore_entry, hrows, State.setStatus_status, State.setStatus_wmMask,
    State.setPen_wmMask, State.setScore_wmMask, Status.setScored_setScored]
  simp [State.setStatus, State.setPen, State.setScore]

/-- A command other than `ENCODE` and the three that advance a cursor has, right after it ran, no further effect. -/
theorem CommandEffect.again {i : Instr} {s t : State} (h : CommandEffect s i t) (hs : s.mem.wf = true)
    (ht : t.status.err = 0#4) (happend : ∀ w x, i ≠ .bsAppend w x) (hterminate : i ≠ .bsTerminate)
    (hnext : i ≠ .zzNext) : CommandEffect t i t := by
  by_cases hi : i ∈ encodeParts
  · obtain ⟨hready, hstatus, hdone⟩ := h.done hi hs ht
    have hflags : t.status.after i = t.status := by rw [hstatus, Status.after_after]
    have heffect := hdone.effect hi (hstatus ▸ hready.after)
    rwa [hflags] at heffect
  have hwf := h.wf hs
  cases h with
  | ignored he => exact .ignored he
  | failed c _ hc => exact absurd ht (err_ne_zero_of_code hc)
  | nop => exact .nop
  | clear => exact .clear
  | gfInit => exact .gfInit
  | gfMul => exact .gfMul
  | capLookup hrow => exact .of_eq (.capLookup hrow) (State.selectEntry_self (s.status.after_after .select) rfl)
  | bsReset => exact .of_eq .bsReset (State.setStream_self rfl (zeroed_again hs))
  | bsPad hsel halign hst =>
    obtain ⟨halign', hst'⟩ := padStream_again halign hst s.status.invBs.setBs
    exact .of_eq (.bsPad hsel halign' hst') (State.setStream_self rfl rfl)
  | genPoly hn => exact .of_eq (.genPoly hn) (State.storeGenerator_again hs _)
  | rsEncode hrange hgen hds hg =>
    refine .of_eq (.rsEncode hrange hgen ((Memory.readList_writeList_ne (by decide) _ _ _ _).trans hds)
      ((Memory.readList_writeList_ne (by decide) _ _ _ _).trans hg)) ?_
    exact congrArg s.setMem (Memory.writeList_again hwf rfl)
  | verCalc hv => exact .verCalc hv
  | fmtCalc => exact .fmtCalc
  | zzReset hmat => exact .zzReset hmat
  | place hmat hilv hu =>
    have hstatus := placeMask_status hu
    exact .place (hstatus ▸ hmat) (hstatus ▸ hilv) (placeMask_again hs hu)
  | score hwm hu => exact .score (scoreMask_status hu ▸ hwm) (scoreMask_again hu)
  | bsAppend => exact absurd rfl (happend _ _)
  | bsTerminate => exact absurd rfl hterminate
  | zzDone | zzNext => exact absurd rfl hnext
  | select | compose | rsAll | interleave | build | maskSelect => exact absurd (by decide) hi

/-- Settles O50: an ignored command stays ignored; any other one finds its result in place. -/
theorem repeatingACommandChangesNothing : Obligations.RepeatingACommandChangesNothing := by
  intro i s t happend hterminate hnext hs h
  by_cases hclear : i = .clear
  · subst hclear
    cases h
    rfl
  by_cases ht : t.status.err = 0#4
  · by_cases hencode : i = .encode
    · subst hencode
      exact execEncode_again hs h ht
    · exact ((exec_next hencode h).again hs ht happend hterminate hnext).exec_eq ht ht
  · exact exec_ignored hclear ht

end Sys2Proof.Machine
end

section
/-! SUPPORT. The version selector (41_capacity_select R503 to R521): the ROM's rows follow from the base table and fit the
registers they load into, `DATA_CW` rises with the version, and so the search finds the least version that fits, which a
shorter input does not raise. -/

-- One theorem at a time: each proof in flight holds a thread's whole stack.
set_option Elab.async false

namespace Sys2Proof.Machine

/-! ### The rows (R503, R508) -/

theorem exists_capRow? {v : Nat} {e : BitVec 2} (h₁ : 1 ≤ v) (h₂ : v ≤ 40) : ∃ row, capRow? v e = some row :=
  Option.isSome_iff_exists.1 ((capRow?_isSome v e).2 ⟨h₁, h₂⟩)

theorem capRow?_eq_none {v : Nat} {e : BitVec 2} (h : v < 1 ∨ 40 < v) : capRow? v e = none := by
  rw [← Option.not_isSome_iff_eq_none, capRow?_isSome]
  omega

/-- R503's equations, applied to the base table, give the ROM. -/
theorem capRow?_succ_eq_rowFromBase : ∀ v < 40, ∀ e : BitVec 2, ∀ b ∈ baseRows[v]?, ∀ row ∈ capRow? (v + 1) e,
    row = rowFromBase b.1 (b.2.1.getD e.toNat 0) (b.2.2.getD e.toNat 0) := by
  decide +kernel

/-- Settles O10: the rows are compared one by one, and only the versions 1..40 have one. -/
theorem capacityRomFromBase : Obligations.CapacityRomFromBase := by
  refine ⟨rfl, fun v e h₁ h₂ => ?_, fun v e => capRow?_eq_none⟩
  obtain ⟨u, rfl⟩ := Nat.exists_eq_add_of_le' h₁
  have hbase := List.getElem?_eq_getElem (show u < baseRows.length from h₂)
  obtain ⟨row, hrow⟩ := exists_capRow? (e := e) h₁ h₂
  exact ⟨_, _, _, hbase, hrow.trans (congrArg some (capRow?_succ_eq_rowFromBase u h₂ e _ hbase row hrow))⟩

/-- Items 1 and 2 of R508 over the 160 rows, in the registers. -/
theorem capRows_bounds : ∀ row ∈ capRows,
    let x := entryOf 1 0#2 row
    (x.blk2 ≠ 0#7 → x.k2.toNat = x.k1.toNat + 1 ∧ x.c2.toNat = x.c1.toNat + 1 ∧
      x.c2.toNat - x.k2.toNat = x.ecLen.toNat) ∧ x.c1.toNat - x.k1.toNat = x.ecLen.toNat ∧
    1 ≤ x.nblk.toNat ∧ x.nblk.toNat ≤ 81 ∧ 7 ≤ x.ecLen.toNat ∧ x.ecLen.toNat ≤ 30 ∧ x.c1.toNat ≤ 153 ∧
    x.kMax ≤ 123 := by
  decide +kernel

/-- No register of an entry cuts a figure of its row (R509). -/
theorem capRows_fit_registers : ∀ row ∈ capRows,
    let x := entryOf 1 0#2 row
    x.dataCw.toNat = row.1 ∧ x.ecLen.toNat = row.2.1 ∧ (x.blk1.toNat, x.c1.toNat, x.k1.toNat) = row.2.2.1 ∧
    (x.blk2.toNat, x.c2.toNat, x.k2.toNat) = row.2.2.2 ∧
    x.totalCw.toNat = x.blk1.toNat * x.c1.toNat + x.blk2.toNat * x.c2.toNat := by
  decide +kernel

/-! ### `DATA_CW` rises with the version (R508) -/

/-- `DATA_CW` of the row `CAP[v][e]`; 0 for a version without one. -/
def romDataCw (e : BitVec 2) (v : Nat) : Nat := (capRow? v e).elim 0 (·.1)

theorem romDataCw_of_capRow? {v : Nat} {e : BitVec 2} {row : CapRow} (h : capRow? v e = some row) :
    romDataCw e v = row.1 := by
  rw [romDataCw, h, Option.elim_some]

theorem romDataCw_lt_succ : ∀ v < 40, ∀ e : BitVec 2, romDataCw e v < romDataCw e (v + 1) := by
  decide +kernel

theorem romDataCw_strictMonoOn (e : BitVec 2) : StrictMonoOn (romDataCw e) (Set.Iic 40) :=
  strictMonoOn_Iic_of_lt_succ fun v hv => romDataCw_lt_succ v hv e

theorem capRow?_dataCw_lt {v w : Nat} {e : BitVec 2} {r r' : CapRow} (h : capRow? v e = some r)
    (h' : capRow? w e = some r') (hvw : v < w) : r.1 < r'.1 := by
  obtain ⟨⟨-, hv⟩, -⟩ := capRow?_eq_some h
  obtain ⟨⟨-, hw⟩, -⟩ := capRow?_eq_some h'
  have hlt := romDataCw_strictMonoOn e hv hw hvw
  rwa [romDataCw_of_capRow? h, romDataCw_of_capRow? h'] at hlt

/-! ### What fits (R505 to R508) -/

/-- R506 as one quotient: a digit takes 10/3 bits, rounded up. -/
theorem contentBits_eq_div (n : Nat) : contentBits n = (10 * n + 2) / 3 := by
  have hmod : n % 3 = 0 ∨ n % 3 = 1 ∨ n % 3 = 2 := by omega
  unfold contentBits
  obtain h | h | h := hmod <;> rw [h] <;> simp only [List.getD_cons_zero, List.getD_cons_succ] <;> omega

theorem contentBits_mono {m n : Nat} (h : m ≤ n) : contentBits m ≤ contentBits n := by
  rw [contentBits_eq_div, contentBits_eq_div]
  omega

theorem cci_of_legal {v : Nat} (h₁ : 1 ≤ v) (h₂ : v ≤ 40) :
    cci v = if v ≤ 9 then 10 else if v ≤ 26 then 12 else 14 := by
  unfold cci
  split_ifs <;> omega

theorem ten_le_cci {v : Nat} (h₁ : 1 ≤ v) (h₂ : v ≤ 40) : 10 ≤ cci v := by
  rw [cci_of_legal h₁ h₂]
  split_ifs <;> decide

theorem fits_iff_of_capRow? {v n : Nat} {e : BitVec 2} {row : CapRow} (h : capRow? v e = some row) :
    fits v e n = true ↔ requiredBits v n ≤ 8 * row.1 := by
  simp only [fits_iff, h, Option.some.injEq, exists_eq_left']

/-- A shorter input fits where a longer one does. -/
theorem fits_of_le {v m n : Nat} {e : BitVec 2} (hmn : m ≤ n) (h : fits v e n = true) : fits v e m = true := by
  obtain ⟨row, hrow, hbits⟩ := fits_iff.1 h
  have hmono := contentBits_mono hmn
  refine fits_iff.2 ⟨row, hrow, le_trans ?_ hbits⟩
  unfold requiredBits
  omega

/-- A later version holds what an earlier one does: its row has 8 more bits at least, its count field 4 more at most. -/
theorem fits_of_version_le {v w n : Nat} {e : BitVec 2} (h : fits v e n = true) (hvw : v ≤ w) (hw : w ≤ 40) :
    fits w e n = true := by
  obtain rfl | hlt := Nat.eq_or_lt_of_le hvw
  · exact h
  obtain ⟨row, hrow, hbits⟩ := fits_iff.1 h
  obtain ⟨⟨h₁, h₂⟩, -⟩ := capRow?_eq_some hrow
  obtain ⟨row', hrow'⟩ := exists_capRow? (e := e) (by omega) hw
  have hrise := capRow?_dataCw_lt hrow hrow' hlt
  have hcci := ten_le_cci h₁ h₂
  have hcci' := cci_le w
  refine fits_iff.2 ⟨row', hrow', ?_⟩
  unfold requiredBits at hbits ⊢
  omega

/-- The content of `2 ^ cci(v)` digits is too long for version `v` at any level. -/
theorem romDataCw_lt_of_cci : ∀ v ≤ 40, ∀ e : BitVec 2, 1 ≤ v →
    3 * (8 * romDataCw e v) < 10 * 2 ^ cci v := by
  decide +kernel

/-- The character-count field holds every length that fits (R508). -/
theorem len_lt_of_fits {v n : Nat} {e : BitVec 2} (h : fits v e n = true) : n < 2 ^ cci v := by
  obtain ⟨row, hrow, hbits⟩ := fits_iff.1 h
  obtain ⟨⟨h₁, h₂⟩, -⟩ := capRow?_eq_some hrow
  have hcap := romDataCw_lt_of_cci v h₂ e h₁
  rw [romDataCw_of_capRow? hrow] at hcap
  have hten := ten_mul_le_contentBits n
  unfold requiredBits at hbits
  omega

/-- Settles O11: the rows are checked one by one; a length that fits and the monotonicity come from `DATA_CW`. -/
theorem capacityRomInvariants : Obligations.CapacityRomInvariants := by
  refine ⟨fun v e row hrow => ?_, fun v w e r r' => capRow?_dataCw_lt, fun v w e n => fits_of_version_le⟩
  obtain ⟨hgroup2, hgroup1, hnblk, hnblk', hec, hec', hc, hk⟩ := capRows_bounds row (capRow?_eq_some hrow).2
  have hsound := entryOf_sound hrow
  exact ⟨hgroup2, hgroup1, hnblk, hnblk', hec, hec', hc, hk, hsound.dataCw_eq.symm, hsound.dataCw_le, hsound.ecb_le,
    fun n => len_lt_of_fits⟩

/-! ### The two commands (R509, R510, R520) -/

theorem entryOf_ver_toNat {v : Nat} {e : BitVec 2} {row : CapRow} (h : capRow? v e = some row) :
    (entryOf v e row).ver.toNat = v := by
  obtain ⟨⟨-, hv⟩, -⟩ := capRow?_eq_some h
  exact (BitVec.toNat_ofNat v 6).trans (Nat.mod_eq_of_lt (by omega))

/-- Loading an entry with `ERR` 0 changes the four registers, and of the flags leaves only `SEL_V` and `GEN_V`. -/
theorem State.selectEntry_eq {s : State} (he : s.status.err = 0#4) (x : Entry) : s.selectEntry x =
    { s with entry := x, status := { Status.zero with selV := true, genV := s.status.genV } } := by
  have hstatus : s.status.invSel.setSel = { Status.zero with selV := true, genV := s.status.genV } := by
    rw [Status.invSel_eq, he]
    rfl
  rw [State.selectEntry, hstatus]
  rfl

theorem exec_capLookup_ok {s : State} {v : BitVec 6} {e : BitVec 2} {row : CapRow} (he : s.status.err = 0#4)
    (hrow : capRow? v.toNat e = some row) :
    exec (.capLookup v e) s = .next (s.selectEntry (entryOf v.toNat e row)) :=
  (CommandEffect.capLookup hrow).exec_eq he he

/-- Settles O12: the version has a row, whose figures fit the registers. -/
theorem capLookupLoadsTheRow : Obligations.CapLookupLoadsTheRow := by
  intro s v e he h₁ h₂
  obtain ⟨row, hrow⟩ := exists_capRow? (e := e) h₁ h₂
  obtain ⟨hdata, hec, hgroup1, hgroup2, htotal⟩ := capRows_fit_registers row (capRow?_eq_some hrow).2
  exact ⟨row, entryOf v.toNat e row, hrow, (exec_capLookup_ok he hrow).trans (by rw [State.selectEntry_eq he]),
    BitVec.eq_of_toNat_eq (entryOf_ver_toNat hrow), rfl, entryOf_cci_toNat _ _ _, hdata, hec, hgroup1, hgroup2, htotal,
    (entryOf_sound hrow).nblk_eq⟩

/-- The search answers a version no larger than one that fits. -/
theorem exists_firstFit_le {e : BitVec 2} {n v : Nat} (h₁ : 1 ≤ v) (h₂ : v ≤ 40) (hfit : fits v e n = true) :
    ∃ w ≤ v, firstFit e n Config.verMax 1 = some w := by
  cases hfirst : firstFit e n Config.verMax 1 with
  | none => exact absurd hfit (Bool.eq_false_iff.1 (firstFit_eq_none.1 hfirst v h₁ (Nat.lt_succ_of_le h₂)))
  | some w =>
    obtain ⟨-, -, -, hleast⟩ := firstFit_eq_some hfirst
    exact ⟨w, Nat.le_of_not_lt fun hlt => Bool.eq_false_iff.1 (hleast v h₁ hlt) hfit, rfl⟩

/-- The search answers `v` when `v` is the least version that fits. -/
theorem firstFit_eq_some_of_least {e : BitVec 2} {n v : Nat} (h₁ : 1 ≤ v) (h₂ : v ≤ 40) (hfit : fits v e n = true)
    (hleast : ∀ u, 1 ≤ u → u < v → fits u e n = false) : firstFit e n Config.verMax 1 = some v := by
  obtain ⟨w, hle, hfirst⟩ := exists_firstFit_le h₁ h₂ hfit
  obtain rfl | hlt := Nat.eq_or_lt_of_le hle
  · exact hfirst
  · obtain ⟨hw, -, hfitw, -⟩ := firstFit_eq_some hfirst
    exact absurd hfitw (Bool.eq_false_iff.1 (hleast w hw hlt))

theorem exec_select_ok {s : State} {v : Nat} (he : s.status.err = 0#4)
    (hfirst : firstFit s.ecl s.len.toNat Config.verMax 1 = some v) :
    ∃ row, capRow? v s.ecl = some row ∧ exec .select s = .next (s.selectEntry (entryOf v s.ecl row)) := by
  obtain ⟨-, -, hfit, -⟩ := firstFit_eq_some hfirst
  obtain ⟨row, hrow, -⟩ := fits_iff.1 hfit
  exact ⟨row, hrow, (CommandEffect.select hrow hfirst).exec_eq he he⟩

/-- The version found for a shorter input is no larger (R521). -/
theorem firstFit_mono {e : BitVec 2} {m n v : Nat} (hmn : m ≤ n) (h : firstFit e n Config.verMax 1 = some v) :
    ∃ v' ≤ v, firstFit e m Config.verMax 1 = some v' := by
  obtain ⟨h₁, h₂, hfit, -⟩ := firstFit_eq_some h
  exact exists_firstFit_le h₁ (Nat.le_of_lt_succ h₂) (fits_of_le hmn hfit)

/-- Settles O13: the search finds the least version that fits, and a shorter input fits where a longer one does. -/
theorem selectIsMinimal : Obligations.SelectIsMinimal := by
  refine ⟨fun v n e row hrow => ?_, fun s v he h₁ h₂ hfit hleast => ?_, fun s s' he he' hecl hlen hfits => ?_⟩
  · obtain ⟨⟨h₁, h₂⟩, -⟩ := capRow?_eq_some hrow
    rw [← cci_of_legal h₁ h₂]
    exact fits_iff_of_capRow? hrow
  · obtain ⟨row, hrow, hexec⟩ := exec_select_ok he (firstFit_eq_some_of_least h₁ h₂ hfit hleast)
    exact ⟨row, hrow, hexec.trans (by rw [State.selectEntry_eq he])⟩
  · obtain ⟨u, h₁, h₂, hfit⟩ := hfits
    obtain ⟨v, -, hfirst⟩ := exists_firstFit_le h₁ h₂ hfit
    obtain ⟨v', hle, hfirst'⟩ := firstFit_mono hlen hfirst
    obtain ⟨row, hrow, hexec⟩ := exec_select_ok he hfirst
    obtain ⟨row', hrow', hexec'⟩ := exec_select_ok he' (by rwa [hecl])
    refine ⟨_, _, hexec, hexec', ?_⟩
    rwa [State.selectEntry_entry, State.selectEntry_entry, entryOf_ver_toNat hrow, entryOf_ver_toNat hrow']

end Sys2Proof.Machine
end

section
/-! SUPPORT. The bitstream composer (42_bitstream R610 to R624): each command appends one list of bits, so what
`appendBits_spec` says of that list is what the command leaves. -/

-- One theorem at a time: each proof in flight holds a thread's whole stack.
set_option Elab.async false

namespace Sys2Proof.Machine

/-! ### The stream as bits and as bytes (R601) -/

/-- The cursor register holds every cursor inside the buffer. -/
theorem State.setStream_cur_of_le {s : State} {st : Stream} (h : st.cur ≤ 8 * Config.bsCap) :
    (s.setStream st).cur.toNat = st.cur := by
  rw [State.setStream_cur, BitVec.toNat_ofNat, Nat.mod_eq_of_lt]
  simp only [Config.bsCap] at h
  omega

theorem Stream.open_of_aligned {st : Stream} (h : st.cur % 8 = 0) : st.Open := fun hne => absurd h hne

/-- Eight bits of the stream are the byte they make. -/
theorem Memory.read?_bs_of_bits {m : Memory} {k : Nat} {b : Byte}
    (h : ∀ i < 8, m.bsBit (8 * k + i) = some (b.getLsbD (7 - i))) : m.read? .bs k = some b := by
  have hbyte : ∀ i < 8, (m.read? .bs k).map (fun c => c.getLsbD (7 - i)) = some (b.getLsbD (7 - i)) := by
    intro i hi
    have hbit := h i hi
    rwa [Memory.bsBit, show (8 * k + i) / 8 = k by omega, show (8 * k + i) % 8 = i by omega] at hbit
  obtain ⟨c, hc, -⟩ := Option.map_eq_some_iff.1 (hbyte 0 (by decide))
  have hcb : c = b := BitVec.eq_of_getLsbD_eq fun j hj => by
    have hbit := hbyte (7 - j) (by omega)
    rw [hc, show 7 - (7 - j) = j by omega] at hbit
    exact Option.some.inj hbit
  rw [hc, hcb]

theorem zeroed_read? (m : Memory) {k : Nat} (hk : k < 2956) : (Stream.zeroed m).mem.read? .bs k = some 0#8 := by
  have hlen : (List.replicate Config.bsCap 0#8).length = 2956 := List.length_replicate
  rw [Stream.zeroed, Memory.read?_writeList, if_pos ⟨rfl, Nat.zero_le _, by omega, hk⟩, Nat.sub_zero,
    List.getElem?_replicate_of_lt (by omega)]

/-- A legal entry's stream fits the buffer (R600). -/
theorem Entry.capBits_le {e : Entry} (h : e.dataCw.toNat ≤ 2956) : e.capBits ≤ 8 * Config.bsCap :=
  Nat.mul_le_mul_left 8 h

/-! ### The terminator (R612) -/

/-- The zero bits of a terminator at `cur`: `t` of them, and `z` more up to the byte boundary. -/
def terminatorLength (cap cur : Nat) : Nat :=
  min 4 (cap - cur) + (8 - (cur + min 4 (cap - cur)) % 8) % 8

/-- The terminator ends on a byte boundary, which the capacity is too. -/
theorem terminatorLength_end {e : Entry} {cur : Nat} (h : cur ≤ e.capBits) :
    cur + terminatorLength e.capBits cur = 8 * ((cur + min 4 (e.capBits - cur) + 7) / 8) ∧
      cur + terminatorLength e.capBits cur ≤ e.capBits := by
  unfold terminatorLength Entry.capBits at *
  omega

theorem terminate_eq_appendBits {e : Entry} {st : Stream} (he : e.dataCw.toNat ≤ 2956) (hcur : st.cur ≤ e.capBits)
    (hopen : st.Open) :
    terminate e.capBits st = appendBits (List.replicate (terminatorLength e.capBits st.cur) false) st :=
  terminate_eq rfl ((Nat.add_assoc _ _ _).trans_le ((terminatorLength_end hcur).2.trans (Entry.capBits_le he))) hopen

/-! ### The pad codewords (R613) -/

/-- Pad codeword `j`. -/
def padByte (j : Nat) : Byte := if j % 2 = 0 then 0xEC#8 else 0x11#8

/-- The bits of the first `k` pad codewords. -/
def padBits (k : Nat) : List Bool := (List.range k).flatMap fun j => bitsOf (if j % 2 = 0 then 0xEC else 0x11) 8

theorem padFields_eq_map (k i : Nat) : padFields k (decide (i % 2 = 0)) =
    (List.range' i k).map fun j => (8, if j % 2 = 0 then 0xEC else 0x11) := by
  induction k generalizing i with
  | zero => rfl
  | succ k ih =>
    have hnot : (!decide (i % 2 = 0)) = decide ((i + 1) % 2 = 0) := by
      rw [← decide_not, decide_eq_decide]
      omega
    simp only [padFields, hnot, ih, List.range'_succ, List.map_cons, decide_eq_true_eq]

theorem fieldBits_padFields (k : Nat) : fieldBits (padFields k true) = padBits k := by
  have hfields := padFields_eq_map k 0
  rw [Nat.zero_mod, decide_eq_true rfl] at hfields
  rw [hfields, fieldBits, List.flatMap_map, ← List.range_eq_range']
  rfl

theorem padStream_eq (cap : Nat) (st : Stream) : padStream cap st = appendBits (padBits ((cap - st.cur) / 8)) st := by
  rw [padStream, appendFields_eq, fieldBits_padFields]

@[simp] theorem padBits_length (k : Nat) : (padBits k).length = 8 * k := by
  rw [← fieldBits_padFields, padFields_bits_length]

/-- Item `i` of block `j`, where every block has `n` items. -/
theorem getElem?_flatMap_of_length {α β : Type} {f : α → List β} {n : Nat} (hf : ∀ a, (f a).length = n) (l : List α)
    (j : Nat) {i : Nat} (hi : i < n) : (l.flatMap f)[n * j + i]? = l[j]?.bind fun a => (f a)[i]? := by
  induction l generalizing j with
  | nil => simp
  | cons a l ih =>
    cases j with
    | zero => simp [List.getElem?_append_left, hf, hi]
    | succ j =>
      have hle : (f a).length ≤ n * (j + 1) + i := by rw [hf, Nat.mul_succ]; omega
      rw [List.flatMap_cons, List.getElem?_append_right hle, hf, Nat.mul_succ, Nat.add_right_comm,
        Nat.add_sub_cancel, ih, List.getElem?_cons_succ]

theorem padBits_getElem? {k j i : Nat} (hj : j < k) (hi : i < 8) :
    (padBits k)[8 * j + i]? = some ((padByte j).getLsbD (7 - i)) := by
  rw [padBits, getElem?_flatMap_of_length (fun _ => bitsOf_length _ _) _ _ hi, List.getElem?_range hj, Option.bind_some,
    bitsOf_getElem? _ hi, padByte]
  split <;> rfl

/-! ### The composed stream (R620 to R623) -/

theorem groupField_zero (a b c : Nat) (ds : List Nat) :
    groupField (a :: b :: c :: ds) 0 = (10, 100 * a + 10 * b + c) := by
  simp [groupField, List.range_succ]
  omega

theorem groupField_succ (a b c : Nat) (ds : List Nat) (k : Nat) :
    groupField (a :: b :: c :: ds) (k + 1) = groupField ds k := by
  have hlen : (a :: b :: c :: ds).length - 3 * (k + 1) = ds.length - 3 * k := by
    simp only [List.length_cons]
    omega
  have hget : ∀ t, (a :: b :: c :: ds).getD (3 * (k + 1) + t) 0 = ds.getD (3 * k + t) 0 := fun t => by
    rw [show 3 * (k + 1) + t = 3 * k + t + 1 + 1 + 1 by omega]
    rfl
  simp only [groupField, hlen, hget]

/-- Taking the digits off in threes gives the groups of R620. -/
theorem digitFields_eq_map (ds : List Nat) :
    digitFields ds = (List.range ((ds.length + 2) / 3)).map (groupField ds) := by
  induction ds using digitFields.induct with
  | case1 a b c ds ih =>
    have hcount : ((a :: b :: c :: ds).length + 2) / 3 = (ds.length + 2) / 3 + 1 := by
      simp only [List.length_cons]
      omega
    rw [hcount, List.range_succ_eq_map, List.map_cons, List.map_map, groupField_zero, digitFields, ih]
    exact congrArg _ (List.map_congr_left fun k _ => (groupField_succ a b c ds k).symm)
  | case2 a b => simp [digitFields, groupField, List.range_succ, Nat.mul_comm]
  | case3 a => simp [digitFields, groupField]
  | case4 => rfl

theorem headBits_eq (w : Nat) (ds : List Nat) :
    fieldBits ((4, 1) :: (w, ds.length) :: digitFields ds) = headBits w ds := by
  rw [digitFields_eq_map, headBits]

theorem headBits_length (w : Nat) (ds : List Nat) : (headBits w ds).length = 4 + w + contentBits ds.length := by
  have hdigits := digitFields_bits_length ds
  rw [fieldBits_length] at hdigits
  rw [← headBits_eq, fieldBits_length, List.map_cons, List.map_cons, List.sum_cons, List.sum_cons, hdigits,
    Nat.add_assoc]

theorem composedBits_eq (cap w : Nat) (ds : List Nat) : composedBits cap w ds =
    headBits w ds ++ List.replicate (terminatorLength cap (headBits w ds).length) false ++
      padBits (cap / 8 - ((headBits w ds).length + terminatorLength cap (headBits w ds).length) / 8) := by
  rw [terminatorLength, ← Nat.add_assoc]
  rfl

/-- The stream is as long as the capacity (R624). -/
theorem composedBits_length {e : Entry} {w : Nat} {ds : List Nat} (hfit : (headBits w ds).length ≤ e.capBits) :
    (composedBits e.capBits w ds).length = e.capBits := by
  obtain ⟨hend, hle⟩ := terminatorLength_end hfit
  have hcap : e.capBits = 8 * e.dataCw.toNat := rfl
  rw [composedBits_eq, List.length_append, List.length_append, List.length_replicate, padBits_length]
  omega

/-- The three stages of `COMPOSE` append one list of bits to the zeroed buffer. -/
theorem composeStream_eq {e : Entry} {ds : List Nat} (m : Memory) (he : e.dataCw.toNat ≤ 2956)
    (hfit : (headBits e.cci.toNat ds).length ≤ e.capBits) :
    composeStream e ds.length ds m = appendBits (composedBits e.capBits e.cci.toNat ds) (Stream.zeroed m) := by
  have hcap := Entry.capBits_le he
  obtain ⟨st₁, h₁, hcur₁, hopen₁, -⟩ := appendBits_spec (headBits e.cci.toNat ds) (st := Stream.zeroed m)
    (by simp only [Stream.zeroed]; omega) (Stream.open_of_aligned rfl)
  replace hcur₁ : st₁.cur = (headBits e.cci.toNat ds).length := hcur₁.trans (Nat.zero_add _)
  rw [← hcur₁] at hfit
  obtain ⟨hend, hle⟩ := terminatorLength_end hfit
  have hterm := terminate_eq_appendBits he hfit hopen₁
  obtain ⟨st₂, h₂, hcur₂, -⟩ := appendBits_spec (List.replicate (terminatorLength e.capBits st₁.cur) false) (st := st₁)
    (by rw [List.length_replicate]; omega) hopen₁
  rw [List.length_replicate] at hcur₂
  have hpads : (e.capBits - st₂.cur) / 8 = e.capBits / 8 - st₂.cur / 8 := by omega
  have hbits := composedBits_eq e.capBits e.cci.toNat ds
  rw [← hcur₁, ← hcur₂] at hbits
  simp only [composeStream, appendFields_eq, headBits_eq, h₁, hterm, h₂, padStream_eq, hpads, hbits, appendBits_append]

/-- An element of `DIGITS` is written with the ASCII digit of value `d`. -/
def HoldsDigit (v : Option Byte) (d : Nat) : Prop := ∃ b, v = some b ∧ isDigit b ∧ d = b.toNat - 0x30

/-- The scan of R620 over written digits answers their values. -/
theorem scanDigits_of_digits {vs : List (Option Byte)} {ds : List Nat} {i : Nat} {seen : List Nat}
    (h : List.Forall₂ HoldsDigit vs ds) : scanDigits i seen vs = .digits (seen.reverse ++ ds) := by
  induction h generalizing i seen with
  | nil => rw [scanDigits, List.append_nil]
  | cons hd _ ih =>
    obtain ⟨b, rfl, ⟨hge, hle⟩, rfl⟩ := hd
    rw [scanDigits, if_neg (by omega), ih, List.reverse_cons, List.append_assoc, List.singleton_append]

theorem State.holdsDigits (s : State) {ds : List Nat} (hm : s.mem.wf = true) (hlen : ds.length = s.len.toNat)
    (h : ∀ i < s.len.toNat, ∃ b, s.mem.read? .digits i = some b ∧ isDigit b ∧ ds[i]? = some (b.toNat - 0x30)) :
    List.Forall₂ HoldsDigit (Ram.view s.mem.digits 0 s.len.toNat) ds := by
  have hsize : 0 + s.len.toNat ≤ Window.size .digits := by
    by_contra hgt
    obtain ⟨b, hb, -⟩ := h (Window.size .digits) (by omega)
    rw [Memory.read?, if_neg (Nat.lt_irrefl _)] at hb
    cases hb
  refine List.forall₂_iff_get.2 ⟨by rw [Ram.view_length, hlen], fun i hi hi' => ?_⟩
  obtain ⟨b, hb, hdigit, hd⟩ := h i (hlen ▸ hi')
  have hview := Memory.view_getElem? hm hsize (hlen ▸ hi')
  rw [Nat.zero_add, hb] at hview
  exact ⟨b, (List.getElem?_eq_some_iff.1 hview).2, hdigit, (List.getElem?_eq_some_iff.1 hd).2⟩

/-! ### The commands -/

/-- Settles O14: the list write covers the whole window. -/
theorem bsResetZeroes : Obligations.BsResetZeroes := by
  intro s he
  exact ⟨_, CommandEffect.bsReset.exec_eq he he, rfl, fun k hk => zeroed_read? s.mem hk, (zeroed_bsStores s.mem).same⟩

/-- Settles O15: the command appends the bits of its field. -/
theorem bsAppendAppendsTheField : Obligations.BsAppendAppendsTheField := by
  intro s w x he hsel hw₁ hw₂ hfit hdata hcursor
  have hcap : s.stream.cur + (bitsOf x.toNat w.toNat).length ≤ 8 * Config.bsCap := by
    rw [bitsOf_length]
    exact hfit.trans (Entry.capBits_le hdata)
  obtain ⟨st, hst, hcur, -, hbits, hlow, hhigh, hkeep, -⟩ := appendBits_spec _ hcap (Stream.CursorOk.isOpen hcursor)
  have hle := hcur ▸ hcap
  simp only [bitsOf_length, State.stream_cur, State.stream_mem] at hcur hbits hlow hhigh hkeep
  refine ⟨_, (CommandEffect.bsAppend ⟨hw₁, hw₂⟩ hsel hfit hst).exec_eq he he,
    (State.setStream_cur_of_le hle).trans hcur, rfl, fun k hk => ?_, hlow, fun p hp hbyte => hhigh p hp (by omega),
    fun z k hk => hkeep z k (hk.imp_right (Or.imp_right fun hk => by omega))⟩
  rw [State.setStream_mem, hbits k hk, bitsOf_getElem? _ hk]
  rfl

/-- Settles O16: the command appends zero bits up to a byte boundary inside the capacity. -/
theorem bsTerminateAppendsZeros : Obligations.BsTerminateAppendsZeros := by
  intro s he hsel hle hdata hcursor
  obtain ⟨hend, hfit⟩ := terminatorLength_end hle
  have hroom := hfit.trans (Entry.capBits_le hdata)
  have hopen : s.stream.Open := Stream.CursorOk.isOpen hcursor
  obtain ⟨st, hst, hcur, -, hbits, hlow, -, hkeep, -⟩ :=
    appendBits_spec (List.replicate (terminatorLength s.entry.capBits s.cur.toNat) false) (st := s.stream)
      (by rwa [List.length_replicate]) hopen
  have hterm := (terminate_eq_appendBits (st := s.stream) hdata hle hopen).trans hst
  simp only [List.length_replicate, State.stream_cur, State.stream_mem] at hcur hbits hlow hkeep
  have hcur' := (State.setStream_cur_of_le (s := s.setStatus s.status.invBs) (hcur ▸ hroom)).trans hcur
  refine ⟨_, (CommandEffect.bsTerminate hsel hterm).exec_eq he he, hcur'.trans hend, hcur'.trans_le hfit, rfl,
    fun p hp hp' => ?_, hlow, fun z k hk => hkeep z k (hk.imp_right (Or.imp_right fun hk => by omega))⟩
  obtain ⟨k, rfl⟩ := Nat.exists_eq_add_of_le hp
  rw [State.setStream_mem, hbits k (by omega), List.getElem?_replicate_of_lt (by omega)]

/-- Settles O17: the command appends the pad codewords, whose bits are read back as bytes. -/
theorem bsPadFillsTheCapacity : Obligations.BsPadFillsTheCapacity := by
  intro s he hsel halign hle hdata
  have hcap := Entry.capBits_le hdata
  have hcapBits : s.entry.capBits = 8 * s.entry.dataCw.toNat := rfl
  obtain ⟨n, hn⟩ : ∃ n, n = (s.entry.capBits - s.cur.toNat) / 8 := ⟨_, rfl⟩
  have hend : s.cur.toNat + 8 * n = s.entry.capBits := by omega
  obtain ⟨st, hst, hcur, -, hbits, -, -, hkeep, -⟩ := appendBits_spec (padBits n) (st := s.stream)
    (by rw [padBits_length, State.stream_cur]; omega) (Stream.open_of_aligned halign)
  have hpad : padStream s.entry.capBits s.stream = .ok st := by rw [padStream_eq, State.stream_cur, ← hn, hst]
  simp only [padBits_length, State.stream_cur, State.stream_mem, hend] at hcur hbits hkeep
  refine ⟨_, (CommandEffect.bsPad hsel halign hpad).exec_eq he he,
    (State.setStream_cur_of_le (by omega)).trans hcur, rfl, fun j hj => ?_,
    fun z k hk => hkeep z k (hk.imp_right (Or.imp_right fun hk => by omega))⟩
  refine Memory.read?_bs_of_bits (b := padByte j) fun i hi => ?_
  rw [show 8 * (s.cur.toNat / 8 + j) + i = s.cur.toNat + (8 * j + i) by omega, State.setStream_mem,
    hbits _ (by omega), padBits_getElem? (by omega) hi]

/-- Settles O18: header, digit groups, terminator and padding are one list of bits, as long as the capacity, appended to
the zeroed buffer. -/
theorem composeWritesTheStream : Obligations.ComposeWritesTheStream := by
  intro s ds he hsel hm hdata hfit hlen hdigits
  have hcap := Entry.capBits_le hdata
  have hcapBits : s.entry.capBits = 8 * s.entry.dataCw.toNat := rfl
  have hhead : (headBits s.entry.cci.toNat ds).length ≤ s.entry.capBits := by rwa [headBits_length, hlen]
  have hbitsLen : (composedBits s.entry.capBits s.entry.cci.toNat ds).length = s.entry.capBits :=
    composedBits_length hhead
  have hzero : (Stream.zeroed s.mem).cur = 0 := rfl
  obtain ⟨st, hst, hcur, -, hbits, -, -, hkeep, -⟩ :=
    appendBits_spec (composedBits s.entry.capBits s.entry.cci.toNat ds) (st := Stream.zeroed s.mem) (by omega)
      (Stream.open_of_aligned rfl)
  simp only [hzero, Nat.zero_add, hbitsLen] at hcur hbits hkeep
  have hcompose : composeStream s.entry s.len.toNat ds s.mem = .ok st := by
    rw [← hlen, composeStream_eq s.mem hdata hhead, hst]
  have hscan : scanDigits 0 [] (Ram.view s.mem.digits 0 s.len.toNat) = .digits ds :=
    scanDigits_of_digits (s.holdsDigits hm hlen hdigits)
  refine ⟨_, (CommandEffect.compose hsel hfit hscan hcompose).exec_eq he he,
    (State.setStream_cur_of_le (by omega)).trans hcur, rfl, hbits, fun k hk hk' => ?_,
    (composeStream_bsStores hcompose).same⟩
  rw [State.setStream_mem, hkeep .bs k (.inr (.inr (by omega))), zeroed_read? s.mem hk']

end Sys2Proof.Machine
end

section
/-! SUPPORT. The Reed-Solomon polynomials (43_reed_solomon R701 to R707): the roots of a generator, why no coefficient
of it is 0, and the division register as a shift plus a multiple of the generator, hence linear, and hence a division. -/

-- One theorem at a time: each proof in flight holds a thread's whole stack.
set_option Elab.async false

namespace Sys2Proof.Machine

theorem xor_gfMul (a b c : Byte) : gfMul (a ^^^ b) c = gfMul a c ^^^ gfMul b c := by
  simp only [gfMul_comm _ c, gfMul_xor]

theorem one_gfMul (a : Byte) : gfMul 1#8 a = a := (gfMul_comm _ _).trans (gfMul_one a)

/-! ### The roots (R702) -/

theorem evalPoly_append_singleton (p : List Byte) (c x : Byte) :
    evalPoly (p ++ [c]) x = gfMul (evalPoly p x) x ^^^ c := by
  simp [evalPoly]

theorem evalPoly_zero_cons (p : List Byte) (x : Byte) : evalPoly (0#8 :: p) x = evalPoly p x := by
  simp [evalPoly]

theorem evalPoly_xor {p q : List Byte} (h : p.length = q.length) (x : Byte) :
    evalPoly (List.zipWith (fun a b => a ^^^ b) p q) x = evalPoly p x ^^^ evalPoly q x := by
  induction p using List.reverseRecOn generalizing q with
  | nil => rw [List.eq_nil_of_length_eq_zero h.symm]; exact (BitVec.xor_self).symm
  | append_singleton p c ih =>
    obtain rfl | ⟨q, d, rfl⟩ := q.eq_nil_or_concat'
    · simp at h
    · have h : p.length = q.length := by simpa using h
      rw [List.zipWith_append h, List.zipWith_cons_cons, List.zipWith_nil_left]
      simp only [evalPoly_append_singleton, ih h, xor_gfMul]
      ac_rfl

theorem evalPoly_map_gfMul (p : List Byte) (c x : Byte) :
    evalPoly (p.map fun a => gfMul a c) x = gfMul (evalPoly p x) c := by
  induction p using List.reverseRecOn with
  | nil => exact (zero_gfMul c).symm
  | append_singleton p a ih =>
    rw [List.map_append, List.map_singleton, evalPoly_append_singleton, ih, evalPoly_append_singleton, xor_gfMul,
      ← gfMul_assoc, gfMul_comm c x, gfMul_assoc]

/-- A round of R701 multiplies by `x - EXP[i]`. -/
theorem evalPoly_genStep (g : List Byte) (i : Nat) (x : Byte) :
    evalPoly (genStep g i) x = gfMul (evalPoly g x) (x ^^^ expRom i) := by
  rw [genStep, evalPoly_xor (by simp), evalPoly_append_singleton, evalPoly_zero_cons, evalPoly_map_gfMul, gfMul_xor,
    BitVec.xor_zero]

theorem generator_succ (n : Nat) : generator (n + 1) = genStep (generator n) n := by
  simp [generator, List.range_succ]

theorem evalPoly_generator_expRom {n i : Nat} (h : i < n) : evalPoly (generator n) (expRom i) = 0#8 := by
  induction n with
  | zero => omega
  | succ n ih =>
    rw [generator_succ, evalPoly_genStep]
    obtain rfl | hlt := Nat.eq_or_lt_of_le (Nat.le_of_lt_succ h)
    · rw [BitVec.xor_self, gfMul_zero]
    · rw [ih hlt, zero_gfMul]

/-! ### The coefficients (R702) -/

/-- Coefficient `k` of `generator n`, that of the highest degree first; 0 past the last. -/
def generatorCoeff (n k : Nat) : Byte := (generator n).getD k 0#8

theorem getD_zipWith_xor {p q : List Byte} (h : p.length = q.length) (k : Nat) :
    (List.zipWith (fun a b => a ^^^ b) p q).getD k 0#8 = p.getD k 0#8 ^^^ q.getD k 0#8 := by
  by_cases hk : k < p.length
  · simp [hk, h ▸ hk]
  · simp [hk, h ▸ hk]

theorem genStep_getD (g : List Byte) (i k : Nat) :
    (genStep g i).getD k 0#8 = g.getD k 0#8 ^^^ (0#8 :: g.map fun c => gfMul c (expRom i)).getD k 0#8 := by
  rw [genStep, getD_zipWith_xor (by simp)]
  congr 1
  obtain hlt | heq | hgt := Nat.lt_trichotomy k g.length
  · simp [hlt, List.getElem?_append_left]
  · simp [heq]
  · simp [hgt, Nat.le_of_lt hgt]

theorem generatorCoeff_zero (n : Nat) : generatorCoeff n 0 = 1#8 := by
  induction n with
  | zero => rfl
  | succ n ih => rw [generatorCoeff, generator_succ, genStep_getD, List.getD_cons_zero, BitVec.xor_zero]; exact ih

theorem expRom_ne_zero : ∀ i < 255, expRom i ≠ 0#8 := by decide +kernel

theorem gfMul_expRom {i : Nat} (h : i < 255) (a : Byte) : gfMul a (expRom i) = double^[i] a := by
  rw [gfMul_comm, gfMul_eq_iterate (expRom_ne_zero i h), logRom_expRom i h]

theorem generatorCoeff_succ {n : Nat} (h : n < 255) (k : Nat) :
    generatorCoeff (n + 1) (k + 1) = generatorCoeff n (k + 1) ^^^ double^[n] (generatorCoeff n k) := by
  have hmap := List.getD_map (n := k) (generator n) 0#8 fun c => gfMul c (expRom n)
  rw [zero_gfMul, gfMul_expRom h] at hmap
  rw [generatorCoeff, generator_succ, genStep_getD, List.getD_cons_succ, hmap]
  rfl

theorem xor_xor_cancel (a b c : Byte) : (a ^^^ b) ^^^ (c ^^^ a) = b ^^^ c := by
  rw [BitVec.xor_comm a b, BitVec.xor_comm c a, BitVec.xor_assoc, ← BitVec.xor_assoc a, BitVec.xor_self,
    BitVec.zero_xor]

/-- The left side of `generatorCoeff_ratio` for the next degree. -/
theorem generatorCoeff_ratio_succ {n k : Nat} (h : n < 255)
    (hratio : double^[k + 1] (generatorCoeff n (k + 1)) ^^^ generatorCoeff n (k + 1) =
      double^[n] (generatorCoeff n k) ^^^ double^[k] (generatorCoeff n k)) :
    double^[k + 1] (generatorCoeff (n + 1) (k + 1)) ^^^ generatorCoeff (n + 1) (k + 1) =
      double^[k] (generatorCoeff n k) ^^^ double^[n + k + 1] (generatorCoeff n k) := by
  rw [generatorCoeff_succ h]
  generalize generatorCoeff n (k + 1) = a, generatorCoeff n k = b at *
  calc double^[k + 1] (a ^^^ double^[n] b) ^^^ (a ^^^ double^[n] b)
      = (double^[k + 1] a ^^^ a) ^^^ (double^[n + k + 1] b ^^^ double^[n] b) := by
        rw [iterate_double_xor, ← Function.iterate_add_apply, show k + 1 + n = n + k + 1 by omega]
        ac_rfl
    _ = _ := by rw [hratio, xor_xor_cancel]

/-- The ratio of neighbouring coefficients, that of Gaussian binomials: `(q^(k+1) + 1) c_(k+1) = (q^n + q^k) c_k` with
`q` = 2. Times `q` is `double`, so the proof needs only that `double` is linear. -/
theorem generatorCoeff_ratio {n : Nat} (h : n ≤ 255) (k : Nat) :
    double^[k + 1] (generatorCoeff n (k + 1)) ^^^ generatorCoeff n (k + 1) =
      double^[n] (generatorCoeff n k) ^^^ double^[k] (generatorCoeff n k) := by
  induction n generalizing k with
  | zero =>
    have hzero (j : Nat) : generatorCoeff 0 (j + 1) = 0#8 := rfl
    cases k with
    | zero => rfl
    | succ j => simp only [hzero, iterate_double_zero]
  | succ n ih =>
    rw [generatorCoeff_ratio_succ h (ih (by omega) k)]
    cases k with
    | zero => simp only [generatorCoeff_zero, Nat.add_zero, BitVec.xor_comm]
    | succ j =>
      have hstep := congrArg double^[n + 1] (ih (by omega) j)
      rw [generatorCoeff_succ h]
      generalize generatorCoeff n (j + 1) = b, generatorCoeff n j = c at *
      simp only [iterate_double_xor, ← Function.iterate_add_apply] at *
      rw [show j + 1 + n = n + 1 + j by omega]
      calc double^[j + 1] b ^^^ double^[n + (j + 1) + 1] b
          = (double^[n + 1] b ^^^ double^[j + 1] b) ^^^ (double^[n + 1 + (j + 1)] b ^^^ double^[n + 1] b) := by
            rw [xor_xor_cancel, Nat.add_right_comm]
        _ = _ := by
            rw [hstep]
            ac_rfl

/-- Fewer than 255 doublings give different multiples of a non-zero byte. -/
theorem iterate_double_inj {a : Byte} (ha : a ≠ 0#8) {m n : Nat} (hm : m < 255) (hn : n < 255)
    (h : double^[m] a = double^[n] a) : m = n := by
  have hlog := logRom_lt a
  rw [← expRom_logRom ha, iterate_double_expRom (by omega), iterate_double_expRom (by omega), expRom_mod (by omega),
    expRom_mod (i := logRom a + n) (by omega)] at h
  have hmod := congrArg logRom h
  rw [logRom_expRom _ (Nat.mod_lt _ (by omega)), logRom_expRom _ (Nat.mod_lt _ (by omega))] at hmod
  omega

/-- Where a coefficient was 0 the one before it would be too, by their ratio. -/
theorem generatorCoeff_ne_zero {n k : Nat} (hn : n < 255) (hk : k ≤ n) : generatorCoeff n k ≠ 0#8 := by
  induction k with
  | zero => rw [generatorCoeff_zero]; decide
  | succ k ih =>
    intro hzero
    have hratio := generatorCoeff_ratio (Nat.le_of_lt hn) k
    rw [hzero, iterate_double_zero, BitVec.xor_self, eq_comm, BitVec.xor_eq_zero_iff] at hratio
    have := iterate_double_inj (ih (by omega)) hn (by omega) hratio
    omega

theorem ne_zero_of_mem_generator {n : Nat} (hn : n < 255) {c : Byte} (hc : c ∈ generator n) : c ≠ 0#8 := by
  obtain ⟨k, hk, rfl⟩ := List.getElem_of_mem hc
  have hcoeff := generatorCoeff_ne_zero hn (Nat.le_of_lt_succ (generator_length n ▸ hk))
  rwa [generatorCoeff, List.getD_eq_getElem _ _ hk] at hcoeff

theorem generator_head? (n : Nat) : (generator n).head? = some 1#8 := by
  have hcoeff := generatorCoeff_zero n
  rw [generatorCoeff, List.getD_eq_getElem _ _ (by rw [generator_length]; omega)] at hcoeff
  rw [List.head?_eq_getElem?, List.getElem?_eq_getElem (by rw [generator_length]; omega), hcoeff]

theorem eq_ofNat_map_toNat (p : List Byte) : p = (p.map BitVec.toNat).map (BitVec.ofNat 8) := by
  rw [List.map_map]
  exact (List.map_id'' (fun c => BitVec.ofNat_toNat ..) p).symm

/-- Settles O19: the roots come in round by round, the ratio of neighbouring coefficients shows that none is 0, and the
vector is evaluated once, its logarithms read off its values. -/
theorem generatorPolynomials : Obligations.GeneratorPolynomials := by
  refine ⟨fun n => ⟨generator_length n, generator_head? n⟩, fun n i => evalPoly_generator_expRom,
    fun n _ hn c => ne_zero_of_mem_generator (by omega), by decide +kernel, by decide +kernel,
    (and_iff_right_of_imp fun hvalues => ?logs).2 ?values⟩
  case logs => rw [eq_ofNat_map_toNat (generator 68), hvalues]; decide +kernel
  case values => decide +kernel

/-! ### The division register (R703) -/

/-- The test on the feedback only saves work: 0 times the generator adds nothing. -/
theorem rsStep_cons {g as : List Byte} (hg : g.length = as.length + 2) (a d : Byte) :
    rsStep g (a :: as) d = List.zipWith (fun x c => x ^^^ gfMul (d ^^^ a) c) (as ++ [0#8]) g.tail := by
  show (if d ^^^ a = 0#8 then as ++ [0#8] else _) = _
  by_cases hfb : d ^^^ a = 0#8
  · rw [if_pos hfb]
    refine List.ext_getElem (by simp [hg]) fun i _ _ => ?_
    simp [hfb]
  · exact if_neg hfb

theorem rsStep_xor {g r r' : List Byte} (hg : g.length = r.length + 1) (hr : 0 < r.length) (hr' : r'.length = r.length)
    (d d' : Byte) : rsStep g (List.zipWith (fun x y => x ^^^ y) r r') (d ^^^ d') =
      List.zipWith (fun x y => x ^^^ y) (rsStep g r d) (rsStep g r' d') := by
  obtain ⟨a, as, rfl⟩ := List.exists_cons_of_length_pos hr
  obtain ⟨b, bs, rfl⟩ := List.exists_cons_of_length_pos (hr' ▸ hr)
  have hlen : bs.length = as.length := by simpa using hr'
  have hg : g.length = as.length + 2 := hg
  rw [List.zipWith_cons_cons, rsStep_cons (by simpa [hlen] using hg), rsStep_cons hg, rsStep_cons (by omega)]
  have happend : List.zipWith (fun x y => x ^^^ y) as bs ++ [0#8] =
      List.zipWith (fun x y => x ^^^ y) (as ++ [0#8]) (bs ++ [0#8]) := by
    rw [List.zipWith_append hlen.symm]; rfl
  rw [happend]
  refine List.ext_getElem (by simp; omega) fun i _ _ => ?_
  simp only [List.getElem_zipWith, xor_gfMul]
  ac_rfl

/-- The register after a block is linear in the register before it and the block. -/
theorem foldl_rsStep_xor {n : Nat} {g : List Byte} (hn : 0 < n) (hg : g.length = n + 1) {a b : List Byte}
    (hab : a.length = b.length) {r r' : List Byte} (hr : r.length = n) (hr' : r'.length = n) :
    (List.zipWith (fun x y => x ^^^ y) a b).foldl (rsStep g) (List.zipWith (fun x y => x ^^^ y) r r') =
      List.zipWith (fun x y => x ^^^ y) (a.foldl (rsStep g) r) (b.foldl (rsStep g) r') := by
  induction a generalizing b r r' with
  | nil => rw [List.eq_nil_of_length_eq_zero hab.symm]; rfl
  | cons c a ih =>
    obtain ⟨d, b, rfl⟩ := List.exists_cons_of_length_pos (l := b) (by simp [← hab])
    rw [List.zipWith_cons_cons, List.foldl_cons, rsStep_xor (by omega) (by omega) (by omega)]
    exact ih (Nat.succ.inj hab) ((rsStep_length c (by omega) (by omega)).trans hr)
      ((rsStep_length d (by omega) (by omega)).trans hr')

theorem rsStep_zero {n : Nat} (hn : 0 < n) (g : List Byte) :
    rsStep g (List.replicate n 0#8) 0#8 = List.replicate n 0#8 := by
  obtain ⟨k, rfl⟩ := Nat.exists_eq_add_of_le' hn
  simp [rsStep, List.replicate_succ, ← List.replicate_succ']

theorem rsEncode_zero_cons {n : Nat} (hn : 0 < n) (g ds : List Byte) :
    rsEncode n g (0#8 :: ds) = rsEncode n g ds := by
  rw [rsEncode, List.foldl_cons, rsStep_zero hn, rsEncode]

theorem rsEncode_replicate_zero {n : Nat} (hn : 0 < n) (g : List Byte) (k : Nat) :
    rsEncode n g (List.replicate k 0#8) = List.replicate n 0#8 := by
  induction k with
  | zero => rfl
  | succ k ih => rw [List.replicate_succ, rsEncode_zero_cons hn, ih]

theorem rsEncode_one {n : Nat} {g : List Byte} (hn : 0 < n) (hg : g.length = n + 1) : rsEncode n g [1#8] = g.tail := by
  obtain ⟨k, rfl⟩ := Nat.exists_eq_add_of_le' hn
  rw [rsEncode, List.foldl_cons, List.foldl_nil, List.replicate_succ, rsStep_cons (by simpa using hg)]
  refine List.ext_getElem (by simp [hg]) fun i _ _ => ?_
  simp [List.getElem_append, one_gfMul]

/-- Settles O21: the register is linear step by step, and zeros and the block `[1]` run through it. -/
theorem rsEncodeIsLinear : Obligations.RsEncodeIsLinear := by
  intro n g hn hg
  refine ⟨fun a b hab => ?_, rsEncode_replicate_zero hn g, rsEncode_zero_cons hn g, rsEncode_one hn hg⟩
  have hlinear := foldl_rsStep_xor hn hg hab (r := List.replicate n 0#8) (r' := List.replicate n 0#8)
    (by simp) (by simp)
  simpa [rsEncode] using hlinear

/-! ### The division (R704) -/

theorem remainderStep_cons (g q : List Byte) (c : Byte) :
    remainderStep g (c :: q) = List.zipWith (fun x y => x ^^^ y) q
      ((g.tail.map fun y => gfMul c y) ++ List.replicate q.length 0#8) := by
  simp only [remainderStep]
  by_cases hc : c = 0#8
  · rw [if_pos hc]
    refine List.ext_getElem (by simp) fun i _ _ => ?_
    simp [hc]
  · rw [if_neg hc]

/-- A step of the division, where the register is added to the coefficients it stands for, is a step of the register. -/
theorem remainderStep_register {g q as : List Byte} {k : Nat} (hg : g.length = as.length + 2)
    (hq : q.length = as.length + 1 + k) (a d : Byte) :
    remainderStep g (List.zipWith (fun x y => x ^^^ y) (d :: q) (a :: as ++ List.replicate (k + 1) 0#8)) =
      List.zipWith (fun x y => x ^^^ y) q (rsStep g (a :: as) d ++ List.replicate k 0#8) := by
  have htail : g.tail.length = as.length + 1 := by simp [hg]
  have hsplit : as ++ List.replicate (k + 1) 0#8 = (as ++ [0#8]) ++ List.replicate k 0#8 := by
    rw [List.append_assoc, List.replicate_succ, List.singleton_append]
  rw [List.cons_append, List.zipWith_cons_cons, remainderStep_cons, rsStep_cons hg, hsplit]
  refine List.ext_getElem (by simp; omega) fun i hi _ => ?_
  have hlt : i < as.length + 1 + k := by simp at hi; omega
  simp only [List.getElem_zipWith, List.getElem_append, List.getElem_map, List.length_map, List.length_append,
    List.length_zipWith, List.length_singleton, htail, Nat.min_self, List.getElem_replicate]
  by_cases hin : i < as.length + 1
  · simp only [hin, dif_pos, BitVec.xor_assoc]
  · simp only [hin, dif_neg, not_false_eq_true, BitVec.xor_zero]

theorem foldl_rsStep_length {n : Nat} {g : List Byte} (hn : 0 < n) (hg : g.length = n + 1) (ds : List Byte)
    {r : List Byte} (hr : r.length = n) : (ds.foldl (rsStep g) r).length = n := by
  induction ds generalizing r with
  | nil => exact hr
  | cons d ds ih => exact ih ((rsStep_length d (by omega) (by omega)).trans hr)

/-- The register left by a block is the remainder of the block with the register before it added to its first
coefficients. -/
theorem rsRemainder_register {n : Nat} {g : List Byte} (hn : 0 < n) (hg : g.length = n + 1) (d : List Byte)
    {r : List Byte} (hr : r.length = n) :
    rsRemainder g d.length (List.zipWith (fun x y => x ^^^ y) (d ++ d.foldl (rsStep g) r)
      (r ++ List.replicate d.length 0#8)) = List.replicate n 0#8 := by
  induction d generalizing r with
  | nil =>
    refine List.ext_getElem (by simp [rsRemainder, hr]) fun i _ _ => ?_
    simp [rsRemainder]
  | cons c d ih =>
    obtain ⟨a, as, rfl⟩ := List.exists_cons_of_length_pos (hr ▸ hn)
    have hr' : (rsStep g (a :: as) c).length = n := (rsStep_length c (by omega) (by omega)).trans hr
    have hlen : (d.foldl (rsStep g) (rsStep g (a :: as) c)).length = n := foldl_rsStep_length hn hg d hr'
    rw [List.length_cons, rsRemainder, List.foldl_cons, List.cons_append, remainderStep_register]
    · exact ih hr'
    · rw [hg, ← hr, List.length_cons]
    · rw [List.length_append, hlen, ← hr, List.length_cons, Nat.add_comm]

theorem zipWith_xor_zero (p : List Byte) :
    List.zipWith (fun x y => x ^^^ y) p (List.replicate p.length 0#8) = p := by
  refine List.ext_getElem (by simp) fun i _ _ => ?_
  simp

/-- Settles O20: the block is divided step by step as the register runs, from the register of zeros. -/
theorem rsEncodeIsSystematic : Obligations.RsEncodeIsSystematic := by
  intro n g d hn hg _
  have hdiv := rsRemainder_register hn hg d (r := List.replicate n 0#8) List.length_replicate
  have hlen : (d ++ rsEncode n g d).length = n + d.length := by
    rw [List.length_append, rsEncode_length hg hn, Nat.add_comm]
  rwa [List.replicate_append_replicate, ← rsEncode, ← hlen, zipWith_xor_zero] at hdiv

end Sys2Proof.Machine
end

section
/-! SUPPORT. The Reed-Solomon commands (43_reed_solomon R710, R711, R720): the tiling of the stream by the blocks
(R721), what `GEN_POLY` and `RS_ENCODE` store, and what the block loop of `RS_ALL` leaves in `ECB` and `RSR`. -/

-- One theorem at a time: each proof in flight holds a thread's whole stack.
set_option Elab.async false

namespace Sys2Proof.Machine

/-! ### The blocks of an entry (R721) -/

/-- A block starts after the codewords of the blocks before it. -/
theorem Entry.blkStart_eq (e : Entry) (b : Nat) :
    e.blkStart b = min b e.blk1.toNat * e.k1.toNat + (b - e.blk1.toNat) * e.k2.toNat := by
  unfold Entry.blkStart
  split
  · next h => rw [Nat.min_eq_left (by omega), show b - e.blk1.toNat = 0 by omega, Nat.zero_mul, Nat.add_zero]
  · next h => rw [Nat.min_eq_right (by omega)]

theorem Entry.blkStart_succ (e : Entry) (b : Nat) : e.blkStart (b + 1) = e.blkStart b + e.blkLen b := by
  simp only [Entry.blkStart_eq, ← sum_blkLen, List.sum_range_succ]

theorem Entry.blkStart_mono (e : Entry) : Monotone e.blkStart :=
  monotone_nat_of_le_succ fun b => e.blkStart_succ b ▸ Nat.le_add_right _ _

theorem Entry.Sound.blkStart_nblk {e : Entry} (h : e.Sound) : e.blkStart e.nblk.toNat = e.dataCw.toNat := by
  rw [Entry.blkStart_eq, h.nblk_eq, h.dataCw_eq, Nat.min_eq_right (by omega), Nat.add_sub_cancel_left]

theorem Entry.Sound.block_end_le {e : Entry} (h : e.Sound) {b : Nat} (hb : b < e.nblk.toNat) :
    e.blkStart b + e.blkLen b ≤ e.dataCw.toNat := by
  rw [← e.blkStart_succ, ← h.blkStart_nblk]
  exact e.blkStart_mono hb

theorem capRows_k1_pos : ∀ row ∈ capRows, 1 ≤ (entryOf 1 0#2 row).k1.toNat := by decide +kernel

/-- Settles O25: a block starts where the one before ends, and the last ends where the stream does. -/
theorem blocksTileTheStream : Obligations.BlocksTileTheStream := by
  intro v e row hrow x
  have hsound : x.Sound := entryOf_sound hrow
  have hmem := (capRow?_eq_some hrow).2
  have hk1 : 1 ≤ x.k1.toNat := capRows_k1_pos row hmem
  obtain ⟨-, -, hpos, -, -, -, -, hkMax⟩ := capRows_bounds row hmem
  have hpos : 1 ≤ x.nblk.toNat := hpos
  have hkMax : x.kMax ≤ 123 := hkMax
  refine ⟨by rw [x.blkStart_eq]; simp, fun b _ => x.blkStart_succ b, ?_, fun b _ => rfl, fun b hb =>
    ⟨?_, (hsound.blkLen_le hb).trans hkMax⟩⟩
  · rw [← x.blkStart_succ, Nat.sub_add_cancel hpos, hsound.blkStart_nblk]
  · have hn := hsound.nblk_eq
    have hgroup := hsound.group2
    unfold Entry.blkLen
    split <;> omega

/-! ### Element reads after a list write -/

/-- The elements a list write covers are the list. -/
theorem Memory.read?_writeList_in (m : Memory) {w : Window} {i k : Nat} {vals : List Byte} (hk : k < vals.length)
    (hsize : i + vals.length ≤ w.size) : (m.writeList w i vals).read? w (i + k) = vals[k]? := by
  rw [Memory.read?_writeList, if_pos ⟨rfl, by omega, by omega, by omega⟩, Nat.add_sub_cancel_left]

theorem Memory.read?_writeList_zero (m : Memory) {w : Window} {k : Nat} {vals : List Byte} (hk : k < vals.length)
    (hsize : vals.length ≤ w.size) : (m.writeList w 0 vals).read? w k = vals[k]? := by
  simpa using m.read?_writeList_in (i := 0) hk (by omega)

/-- A list write leaves the elements outside its range, and the other windows, alone. -/
theorem Memory.read?_writeList_out (m : Memory) {w w' : Window} {i k : Nat} {vals : List Byte}
    (h : w' = w → k < i ∨ i + vals.length ≤ k) : (m.writeList w i vals).read? w' k = m.read? w' k := by
  rw [Memory.read?_writeList, if_neg]
  rintro ⟨rfl, hlow, hhigh, -⟩
  have := h rfl
  omega

/-! ### One generator, one block (R710, R711) -/

section
variable {n : Nat} (hn : n ≤ Config.ecMax) (s : State)
include hn

theorem State.storeGenerator_genLen_toNat : (s.storeGenerator n).genLen.toNat = n := by
  rw [State.storeGenerator_genLen, BitVec.toNat_ofNat, Nat.mod_eq_of_lt]
  exact Nat.lt_of_le_of_lt hn (by decide)

theorem State.storeGenerator_read?_gen {j : Nat} (hj : j ≤ n) :
    (s.storeGenerator n).mem.read? .gen j = (generator n)[j]? :=
  s.mem.read?_writeList_zero (by rw [generator_length]; omega)
    (by rw [generator_length]; exact Nat.succ_le_succ hn)

end

theorem State.storeGenerator_read?_other (s : State) {n : Nat} {w : Window} {k : Nat} (h : w = .gen → n < k) :
    (s.storeGenerator n).mem.read? w k = s.mem.read? w k :=
  s.mem.read?_writeList_out fun hw => .inr (by rw [generator_length, Nat.zero_add]; exact h hw)

/-- Settles O22: the generator is written from element 0 on. -/
theorem genPolyStoresTheGenerator : Obligations.GenPolyStoresTheGenerator := by
  intro s n he h₁ h₂
  exact ⟨_, (CommandEffect.genPoly ⟨h₁, h₂⟩).exec_eq he he, s.storeGenerator_genLen_toNat h₂, rfl,
    fun j => s.storeGenerator_read?_gen h₂, fun w k h => s.storeGenerator_read?_other (by tauto)⟩

/-- Settles O23: the range and the polynomial are read as they are, and the remainder is written from element 0 on. -/
theorem rsEncodeFillsRsr : Obligations.RsEncodeFillsRsr := by
  intro s o l ds g he hgen hm hrange h₁ h₂ hds hbs hg hgread
  have hread : s.mem.readList .bs o.toNat l.toNat = .ok ds := (Memory.readList_eq_ok hm hrange).2 ⟨hds, hbs⟩
  have hpoly : s.mem.readList .gen 0 (s.genLen.toNat + 1) = .ok g :=
    (Memory.readList_eq_ok hm (by rw [Nat.zero_add]; exact Nat.succ_le_succ h₂)).2
      ⟨hg, fun k hk => by rw [Nat.zero_add, hgread k (by omega)]⟩
  have hlen := rsEncode_length (ds := ds) hg h₁
  refine ⟨_, (CommandEffect.rsEncode hrange hgen hread hpoly).exec_eq he he, rfl,
    fun j hj => s.mem.read?_writeList_zero (hlen.symm ▸ hj) (hlen.symm ▸ h₂), fun w k h =>
    s.mem.read?_writeList_out fun hw => .inr ?_⟩
  rw [hlen, Nat.zero_add]
  exact h.resolve_left (not_not_intro hw)

/-! ### Every block (R720) -/

theorem rsBlocks_ok {e : Entry} {g : List Byte} {bs : List Nat} {m : Memory}
    (h : ∀ b ∈ bs, ∃ ds, m.readList .bs (e.blkStart b) (e.blkLen b) = .ok ds) : ∃ m', rsBlocks e g bs m = .ok m' := by
  induction bs generalizing m with
  | nil => exact ⟨m, rfl⟩
  | cons b bs ih =>
    obtain ⟨ds, hds⟩ := h b List.mem_cons_self
    simp only [rsBlocks, hds]
    refine ih fun c hc => ?_
    rw [Memory.readList_writeList_ne (by decide), Memory.readList_writeList_ne (by decide)]
    exact h c (List.mem_cons_of_mem _ hc)

section
variable {e : Entry} {g : List Byte} (hg : g.length = e.ecLen.toNat + 1) (hpos : 0 < e.ecLen.toNat)
include hg hpos

/-- The loop writes no element of `RSR` past the codewords of one block, and none of `ECB` past those of its blocks. -/
theorem rsBlocks_read? {bs : List Nat} {m m' : Memory} (h : rsBlocks e g bs m = .ok m') {w : Window} {k : Nat}
    (hrsr : w = .rsr → e.ecLen.toNat ≤ k) (hecb : w = .ecb → ∀ b ∈ bs, b * e.ecLen.toNat + e.ecLen.toNat ≤ k) :
    m'.read? w k = m.read? w k := by
  induction bs generalizing m with
  | nil => rw [Except.ok.inj h]
  | cons b bs ih =>
    simp only [rsBlocks] at h
    split at h
    · cases h
    · next ds _ =>
      have hlen := rsEncode_length (ds := ds) hg hpos
      rw [ih h fun hw c hc => hecb hw c (List.mem_cons_of_mem _ hc),
        Memory.read?_writeList_out _ fun hw => .inr (by rw [hlen, Nat.zero_add]; exact hrsr hw),
        Memory.read?_writeList_out _ fun hw => .inr (by rw [hlen]; exact hecb hw b List.mem_cons_self)]

/-- The loop ends with the codewords of its last block in `RSR`. -/
theorem rsBlocks_rsr (hle : e.ecLen.toNat ≤ Config.rsrCap) {bs : List Nat} {b : Nat}
    (hb : b * e.ecLen.toNat + e.ecLen.toNat ≤ Config.ecbCap) {m m' : Memory} (h : rsBlocks e g (bs ++ [b]) m = .ok m')
    {j : Nat} (hj : j < e.ecLen.toNat) : m'.read? .rsr j = m'.read? .ecb (b * e.ecLen.toNat + j) := by
  induction bs generalizing m with
  | nil =>
    simp only [List.nil_append, rsBlocks] at h
    split at h
    · cases h
    · next ds _ =>
      have hlen := rsEncode_length (ds := ds) hg hpos
      rw [← Except.ok.inj h, Memory.read?_writeList_zero _ (hlen.symm ▸ hj) (hlen.symm ▸ hle),
        Memory.read?_writeList_out _ (w := .rsr) (w' := .ecb) nofun,
        Memory.read?_writeList_in _ (hlen.symm ▸ hj) (hlen.symm ▸ hb)]
  | cons c bs ih =>
    simp only [List.cons_append, rsBlocks] at h
    split at h
    · cases h
    · exact ih h

end

theorem Entry.Sound.readList_block {e : Entry} (h : e.Sound) {m : Memory} (hm : m.wf = true)
    (hbs : m.Written .bs e.dataCw.toNat) {b : Nat} (hb : b < e.nblk.toNat) :
    ∃ ds, m.readList .bs (e.blkStart b) (e.blkLen b) = .ok ds := by
  have hend := h.block_end_le hb
  exact Memory.readList_ok hm (hend.trans h.dataCw_le) fun k hk => hbs _ (by omega)

/-- The loop over all blocks writes `ECB` below the end of the last block and `RSR` below the length of a code. -/
theorem Entry.Sound.rsAll_read? {e : Entry} (h : e.Sound) {m m' : Memory}
    (hrun : rsBlocks e (generator e.ecLen.toNat) (List.range e.nblk.toNat) m = .ok m') (w : Window) (k : Nat)
    (hrsr : w = .rsr → e.ecLen.toNat ≤ k) (hecb : w = .ecb → e.nblk.toNat * e.ecLen.toNat ≤ k) :
    m'.read? w k = m.read? w k := by
  refine rsBlocks_read? (generator_length _) h.ecLen_pos hrun hrsr fun hw b hb => ?_
  have hblock := Nat.mul_le_mul_right e.ecLen.toNat (List.mem_range.1 hb)
  rw [Nat.succ_mul] at hblock
  exact hblock.trans (hecb hw)

/-- What the loop over all blocks leaves of block `b`, in elements. -/
theorem Entry.Sound.rsAll_block {e : Entry} (h : e.Sound) {m m' : Memory} (hm : m.wf = true)
    (hrun : rsBlocks e (generator e.ecLen.toNat) (List.range e.nblk.toNat) m = .ok m') {b : Nat}
    (hb : b < e.nblk.toNat) : ∃ ds : List Byte, ds.length = e.blkLen b ∧
      (∀ k < e.blkLen b, m.read? .bs (e.blkStart b + k) = ds[k]?) ∧
      ∀ j < e.ecLen.toNat, m'.read? .ecb (b * e.ecLen.toNat + j) =
          (rsEncode e.ecLen.toNat (generator e.ecLen.toNat) ds)[j]? ∧
        (b + 1 = e.nblk.toNat → m'.read? .rsr j = m'.read? .ecb (b * e.ecLen.toNat + j)) := by
  have hm' := rsBlocks_wf hrun hm
  have hcap := h.block_le hb
  have hend : e.blkStart b + e.blkLen b ≤ Window.size .bs := (h.block_end_le hb).trans h.dataCw_le
  obtain ⟨ds, hds, hecb⟩ := h.rsAll_encoded hm hrun b hb
  obtain ⟨hlen, hread⟩ := (Memory.readList_eq_ok hm' hend).1 hds
  obtain ⟨-, hcode⟩ := (Memory.readList_eq_ok hm' hcap).1 hecb
  refine ⟨ds, hlen, fun k hk => ?_, fun j hj => ⟨hcode j hj, fun hlast => ?_⟩⟩
  · rw [← hread k hk, h.rsAll_read? hrun .bs _ nofun nofun]
  · rw [← hlast, List.range_succ] at hrun
    exact rsBlocks_rsr (generator_length _) h.ecLen_pos (h.ecLen_le) hcap hrun hj

/-- Settles O24: the blocks tile a written stream, so the loop reads them all; it leaves each encoded in `ECB` and the
last in `RSR`, and writes nothing else. -/
theorem rsAllEncodesEveryBlock : Obligations.RsAllEncodesEveryBlock := by
  intro s he hsel hbs hm hentry hwritten
  have hsound := hentry.sound
  have hm₁ : ((s.setStatus s.status.invEc).storeGenerator s.entry.ecLen.toNat).mem.wf = true :=
    Memory.wf_writeList _ _ _ hm
  have hother (w : Window) (k : Nat) := (s.setStatus s.status.invEc).storeGenerator_read?_other
    (n := s.entry.ecLen.toNat) (w := w) (k := k)
  have hgen {j : Nat} := (s.setStatus s.status.invEc).storeGenerator_read?_gen hsound.ecLen_le (j := j)
  obtain ⟨m, hrun⟩ := rsBlocks_ok (g := generator s.entry.ecLen.toNat) fun b hb =>
    hsound.readList_block hm₁ (fun i hi => (hother .bs i nofun).symm ▸ hwritten i hi) (List.mem_range.1 hb)
  refine ⟨_, (CommandEffect.rsAll hsel hbs hrun).exec_eq he he,
    (s.setStatus s.status.invEc).storeGenerator_genLen_toNat hsound.ecLen_le, rfl,
    fun j hj => (hsound.rsAll_read? hrun .gen j nofun nofun).trans (hgen hj), fun b hb => ?_,
    fun w k hwgen hwrsr hwecb => (hsound.rsAll_read? hrun w k hwrsr hwecb).trans (hother w k hwgen)⟩
  obtain ⟨ds, hlen, hread, hcode⟩ := hsound.rsAll_block hm₁ hrun hb
  exact ⟨ds, hlen, fun k hk => (hother .bs _ nofun).symm.trans (hread k hk), hcode⟩

end Sys2Proof.Machine
end

section
/-! SUPPORT. The interleaver (44_interleave R801, R802, R810): where the emitting order has each codeword, and that it
names only codewords of the stream and of the blocks' codes. -/

-- One theorem at a time: each proof in flight holds a thread's whole stack.
set_option Elab.async false

namespace Sys2Proof.Machine

/-! ### Listed reads -/

/-- Listed reads of written elements answer. -/
theorem Memory.readAt_ok {m : Memory} {w : Window} {is : List Nat} (h : ∀ i ∈ is, (m.read? w i).isSome = true) :
    ∃ vals, m.readAt w is = .ok vals := by
  refine ⟨is.map fun i => (m.read? w i).getD 0#8, Memory.readAt_eq_ok.2 ?_⟩
  rw [List.map_map]
  refine List.map_congr_left fun i hi => ?_
  obtain ⟨b, hb⟩ := Option.isSome_iff_exists.1 (h i hi)
  simp [hb]

theorem Memory.readAt_length {m : Memory} {w : Window} {is : List Nat} {vals : List Byte}
    (h : m.readAt w is = .ok vals) : vals.length = is.length := by
  simpa using (congrArg List.length (Memory.readAt_eq_ok.1 h)).symm

/-- The value read at place `k` of the list is the element named there. -/
theorem Memory.readAt_getElem? {m : Memory} {w : Window} {is : List Nat} {vals : List Byte}
    (h : m.readAt w is = .ok vals) {k i : Nat} (hk : is[k]? = some i) : k < vals.length ∧ vals[k]? = m.read? w i := by
  have hget := congrArg (fun l : List (Option Byte) => l[k]?) (Memory.readAt_eq_ok.1 h)
  have hlt : k < vals.length := Memory.readAt_length h ▸ (List.getElem?_eq_some_iff.1 hk).1
  exact ⟨hlt, by simpa [hk, hlt] using hget.symm⟩

/-! ### The emitting orders (R801, R802) -/

/-- After `j` rows of `n` items each, row `j` follows, whatever the length of it and of the rows after it. -/
theorem getElem?_flatMap_range {α : Type} {f : Nat → List α} {j k n i : Nat} (hlen : ∀ c < j, (f c).length = n)
    (hj : j < k) (hi : i < (f j).length) : ((List.range k).flatMap f)[j * n + i]? = (f j)[i]? := by
  obtain ⟨r, rfl⟩ : ∃ r, k = j + (r + 1) := ⟨k - j - 1, by omega⟩
  have hfront : ((List.range j).flatMap f).length = j * n := by
    rw [List.length_flatMap, List.map_congr_left fun c hc => hlen c (List.mem_range.1 hc)]
    simp
  rw [List.range_add, List.flatMap_append, List.getElem?_append_right (by omega), hfront, Nat.add_sub_cancel_left,
    List.range_succ_eq_map, List.map_cons, List.flatMap_cons, Nat.add_zero, List.getElem?_append_left hi]

/-- The blocks that have a data codeword in column `col`. -/
def Entry.blocksAt (e : Entry) (col : Nat) : List Nat :=
  (List.range e.nblk.toNat).filter fun b => decide (col < e.blkLen b)

theorem Entry.dataOrder_eq (e : Entry) :
    e.dataOrder = (List.range e.kMax).flatMap fun col => (e.blocksAt col).map fun b => e.blkStart b + col := rfl

/-- R802's closed form: where data codeword `col` of block `b` stands. -/
def Entry.dataPlace (e : Entry) (b col : Nat) : Nat :=
  if col < e.k1.toNat then col * e.nblk.toNat + b else e.k1.toNat * e.nblk.toNat + (b - e.blk1.toNat)

/-- The blocks of the second group are one codeword longer than those of the first (R503). -/
theorem State.EntrySelected.k2_eq {s : State} (h : s.EntrySelected) (hblk2 : s.entry.blk2.toNat ≠ 0) :
    s.entry.k2.toNat = s.entry.k1.toNat + 1 := by
  obtain ⟨v, e, row, hrow, he⟩ := h
  rw [he] at hblk2 ⊢
  exact ((capRows_bounds row (capRow?_eq_some hrow).2).1 fun h => hblk2 (congrArg BitVec.toNat h)).1

section
variable {e : Entry} (h : e.Sound) (hk2 : e.blk2.toNat ≠ 0 → e.k2.toNat = e.k1.toNat + 1)
include h

/-- In a common column every block has a codeword. -/
theorem Entry.Sound.blocksAt_common {col : Nat} (hcol : col < e.k1.toNat) :
    e.blocksAt col = List.range e.nblk.toNat := by
  refine List.filter_eq_self.2 fun b hb => decide_eq_true ?_
  have hb := List.mem_range.1 hb
  have hn := h.nblk_eq
  have hgroup := h.group2
  unfold Entry.blkLen
  split <;> omega

include hk2

/-- After the common columns only the second group has codewords. -/
theorem Entry.Sound.blocksAt_last : e.blocksAt e.k1.toNat = List.range' e.blk1.toNat e.blk2.toNat := by
  have hfirst : (List.range' 0 e.blk1.toNat).filter (fun b => decide (e.k1.toNat < e.blkLen b)) = [] := by
    refine List.filter_eq_nil_iff.2 fun b hb => ?_
    have hb : b < e.blk1.toNat := by simpa using hb
    simp [Entry.blkLen, hb]
  have hsecond : (List.range' e.blk1.toNat e.blk2.toNat).filter (fun b => decide (e.k1.toNat < e.blkLen b)) =
      List.range' e.blk1.toNat e.blk2.toNat := by
    refine List.filter_eq_self.2 fun b hb => decide_eq_true ?_
    have hb := List.mem_range'_1.1 hb
    rw [Entry.blkLen, if_neg (by omega), hk2 (by omega)]
    exact Nat.lt_succ_self _
  have hsplit := List.range'_append_1 (s := 0) (m := e.blk1.toNat) (n := e.blk2.toNat)
  rw [Nat.zero_add] at hsplit
  rw [Entry.blocksAt, h.nblk_eq, List.range_eq_range', ← hsplit, List.filter_append, hfirst, hsecond, List.nil_append]

/-- The emitting order has each data codeword at the place of the closed form. -/
theorem Entry.Sound.dataOrder_getElem? {b col : Nat} (hb : b < e.nblk.toNat) (hcol : col < e.blkLen b) :
    e.dataOrder[e.dataPlace b col]? = some (e.blkStart b + col) := by
  have hlen : ∀ c < e.k1.toNat, ((e.blocksAt c).map fun b => e.blkStart b + c).length = e.nblk.toNat := by
    intro c hc
    rw [List.length_map, h.blocksAt_common hc, List.length_range]
  have hkMax : col < e.kMax := Nat.lt_of_lt_of_le hcol (h.blkLen_le hb)
  rw [Entry.dataOrder_eq, Entry.dataPlace]
  split
  · next hc =>
    rw [getElem?_flatMap_range (fun c hc' => hlen c (by omega)) hkMax (by rwa [hlen col hc]), h.blocksAt_common hc]
    simp [hb]
  · next hc =>
    have hn := h.nblk_eq
    have hb1 : e.blk1.toNat ≤ b := Nat.le_of_not_lt fun hlt => hc (by simpa [Entry.blkLen, hlt] using hcol)
    have hblk : b - e.blk1.toNat < e.blk2.toNat := by omega
    have hcol : col = e.k1.toNat := by
      rw [Entry.blkLen, if_neg hb1.not_gt, hk2 (by omega)] at hcol
      omega
    subst hcol
    rw [getElem?_flatMap_range hlen hkMax (by simpa [h.blocksAt_last hk2] using hblk), h.blocksAt_last hk2,
      List.getElem?_map, List.getElem?_range' hblk]
    simp [hb1]

end

/-- The order names only codewords of the stream. -/
theorem Entry.Sound.mem_dataOrder_lt {e : Entry} (h : e.Sound) {i : Nat} (hi : i ∈ e.dataOrder) :
    i < e.dataCw.toNat := by
  obtain ⟨col, -, hi⟩ := List.mem_flatMap.1 hi
  obtain ⟨b, hb, rfl⟩ := List.mem_map.1 hi
  obtain ⟨hb, hcol⟩ := List.mem_filter.1 hb
  have hend := h.block_end_le (List.mem_range.1 hb)
  have hcol := of_decide_eq_true hcol
  omega

theorem Entry.ecOrder_getElem? (e : Entry) {b col : Nat} (hb : b < e.nblk.toNat) (hcol : col < e.ecLen.toNat) :
    e.ecOrder[col * e.nblk.toNat + b]? = some (b * e.ecLen.toNat + col) := by
  rw [Entry.ecOrder, getElem?_flatMap_range (fun c _ => by simp) hcol (by simpa using hb)]
  simp [hb]

/-- The order names only codewords of the blocks' codes. -/
theorem Entry.mem_ecOrder_lt (e : Entry) {i : Nat} (hi : i ∈ e.ecOrder) : i < e.nblk.toNat * e.ecLen.toNat := by
  obtain ⟨col, hcol, hi⟩ := List.mem_flatMap.1 hi
  obtain ⟨b, hb, rfl⟩ := List.mem_map.1 hi
  have hcol := List.mem_range.1 hcol
  have hblock := Nat.mul_le_mul_right e.ecLen.toNat (List.mem_range.1 hb)
  rw [Nat.succ_mul] at hblock
  omega

/-! ### The command (R810) -/

/-- Settles O26: the data and EC codewords are listed in the emitting orders, which have each at its closed form, and are
written one after the other from element 0 on. -/
theorem interleaveIsTheClosedForm : Obligations.InterleaveIsTheClosedForm := by
  intro s he hsel hbs hec hentry hdata hcode
  have hsound := hentry.sound
  obtain ⟨ds, hds⟩ := Memory.readAt_ok fun i hi => hdata i (hsound.mem_dataOrder_lt hi)
  obtain ⟨es, hes⟩ := Memory.readAt_ok fun i hi => hcode i (s.entry.mem_ecOrder_lt hi)
  have hdlen : ds.length = s.entry.dataCw.toNat := (Memory.readAt_length hds).trans hsound.dataOrder_length
  have htotal : s.entry.totalCw.toNat = (ds ++ es).length := hsound.interleaved_length hds hes
  have hilv {k : Nat} (hk : k < (ds ++ es).length) := s.mem.read?_writeList_zero (w := .ilv) hk
    (htotal ▸ hsound.totalCw_le)
  refine ⟨_, (CommandEffect.interleave hsel hbs hec hds hes).exec_eq he he, rfl, fun b col hb hcol => ?_,
    fun b col hb hcol => ?_, hsound.totalCw_eq.symm, fun w k hwk => ?_⟩
  · obtain ⟨hk, hval⟩ := Memory.readAt_getElem? hds (hsound.dataOrder_getElem? hentry.k2_eq hb hcol)
    have hk' : s.entry.dataPlace b col < (ds ++ es).length := by rw [List.length_append]; omega
    exact (hilv hk').trans ((List.getElem?_append_left hk).trans hval)
  · obtain ⟨hk, hval⟩ := Memory.readAt_getElem? hes (s.entry.ecOrder_getElem? hb hcol)
    rw [Nat.add_assoc, ← hdlen]
    refine (hilv (by rw [List.length_append]; omega)).trans ?_
    rw [List.getElem?_append_right (Nat.le_add_right _ _), Nat.add_sub_cancel_left, hval]
  · exact s.mem.read?_writeList_out fun hw => .inr (by
      rw [Nat.zero_add, ← htotal]; exact hwk.resolve_left (not_not_intro hw))

end Sys2Proof.Machine
end

section
/-! SUPPORT. The matrix builder (45_matrix R900 to R930): the listed words, where the alignment centres can be, which
modules each pattern writes and with what value, and that together they write the reserved modules. -/

-- One theorem at a time: each proof in flight holds a thread's whole stack.
set_option Elab.async false

namespace Sys2Proof.Machine

/-! ### The words (R915 to R921) -/

theorem versionWord_codeword : ∀ v < 64,
    (versionWord v).toNat / 2 ^ 12 = v ∧ bchReduce 0x1F25 12 6 (versionWord v).toNat = 0 := by
  decide +kernel

/-- Settles O9: the 64 words are divided one by one, the listed ones computed. -/
theorem versionAndFormatWords : Obligations.VersionAndFormatWords :=
  ⟨versionWord_codeword, by decide +kernel, by decide +kernel, by decide +kernel, by decide +kernel, by decide +kernel,
    by decide +kernel, by decide +kernel, by decide +kernel⟩

/-! ### Distances and sides -/

theorem natAbs_sub_eq_gap (a b : Nat) : ((a : Int) - b).natAbs = gap a b := by
  unfold gap
  omega

theorem side_ge {v : Nat} (h : 1 ≤ v) : 21 ≤ side v := by
  unfold side
  omega

theorem side_ge_of_seven_le {v : Nat} (h : 7 ≤ v) : 45 ≤ side v := by
  unfold side
  omega

/-! ### Alignment coordinates and centres (R906, R907) -/

/-- A coordinate is even, and it is 6, or `S - 7`, or far from both; the last one is `S - 7`. -/
theorem alignRom_coord : ∀ v ≤ 40, ∀ a ∈ alignRom v, a % 2 = 0 ∧
    (a = 6 ∨ a + 7 = side v ∨ 18 ≤ a ∧ a + 23 ≤ side v) ∧ (alignRom v).getLastD 0 + 7 = side v ∧ 25 ≤ side v := by
  decide +kernel

theorem alignRom_apart : ∀ v ≤ 40, ∀ a ∈ alignRom v, ∀ b ∈ alignRom v, gap a b ≤ 4 → a = b := by
  decide +kernel

theorem mem_centres {v x y : Nat} :
    (x, y) ∈ centres v ↔ x ∈ alignRom v ∧ y ∈ alignRom v ∧ meetsFinder v x y = false := by
  simp [centres, and_assoc]

/-- The pairs of coordinates whose box meets a finder area are the three corners. -/
theorem meetsFinder_iff {v : Nat} (hv : v ≤ 40) {x y : Nat} (hx : x ∈ alignRom v) (hy : y ∈ alignRom v) :
    meetsFinder v x y = true ↔
      (x, y) = (6, 6) ∨ (x, y) = (6, (alignRom v).getLastD 0) ∨ (x, y) = ((alignRom v).getLastD 0, 6) := by
  obtain ⟨-, hx, hlast, hside⟩ := alignRom_coord v hv x hx
  obtain ⟨-, hy, -⟩ := alignRom_coord v hv y hy
  simp only [meetsFinder, decide_eq_true_eq, Prod.mk.injEq]
  grind

theorem mem_centres_iff {v : Nat} (hv : v ≤ 40) {x y : Nat} :
    (x, y) ∈ centres v ↔ x ∈ alignRom v ∧ y ∈ alignRom v ∧ (x, y) ≠ (6, 6) ∧ (x, y) ≠ (6, (alignRom v).getLastD 0) ∧
      (x, y) ≠ ((alignRom v).getLastD 0, 6) := by
  rw [mem_centres]
  refine and_congr_right fun hx => and_congr_right fun hy => ?_
  rw [← Bool.not_eq_true, meetsFinder_iff hv hx hy, not_or, not_or]

theorem centres_length : ∀ v ≤ 40, (centres v).length = (alignRom v).length ^ 2 - 3 := by
  decide +kernel

theorem centre_even {v : Nat} (hv : v ≤ 40) {p : Nat × Nat} (hp : p ∈ centres v) : p.1 % 2 = 0 ∧ p.2 % 2 = 0 := by
  obtain ⟨hx, hy, -⟩ := mem_centres.1 hp
  exact ⟨(alignRom_coord v hv _ hx).1, (alignRom_coord v hv _ hy).1⟩

/-- A centre is on row 6 or on column 6, away from the corners, or inside. -/
theorem centre_cases {v : Nat} (hv : v ≤ 40) {p : Nat × Nat} (hp : p ∈ centres v) :
    p.1 = 6 ∧ 18 ≤ p.2 ∧ p.2 + 23 ≤ side v ∨ p.2 = 6 ∧ 18 ≤ p.1 ∧ p.1 + 23 ≤ side v ∨
      (18 ≤ p.1 ∧ p.1 + 7 ≤ side v) ∧ 18 ≤ p.2 ∧ p.2 + 7 ≤ side v := by
  obtain ⟨x, y⟩ := p
  obtain ⟨hx, hy, htopLeft, htopRight, hbottomLeft⟩ := (mem_centres_iff hv).1 hp
  obtain ⟨-, hx, hlast, hside⟩ := alignRom_coord v hv x hx
  obtain ⟨-, hy, -⟩ := alignRom_coord v hv y hy
  grind

theorem inBox_iff {p : Nat × Nat} {r c : Nat} : inBox p r c = true ↔ gap r p.1 ≤ 2 ∧ gap c p.2 ≤ 2 := by
  simp [inBox]

/-- A module is in the box of at most one centre. -/
theorem centre_unique {v : Nat} (hv : v ≤ 40) {p q : Nat × Nat} (hp : p ∈ centres v) (hq : q ∈ centres v) {r c : Nat}
    (hpbox : inBox p r c = true) (hqbox : inBox q r c = true) : p = q := by
  obtain ⟨hpx, hpy, -⟩ := mem_centres.1 hp
  obtain ⟨hqx, hqy, -⟩ := mem_centres.1 hq
  rw [inBox_iff] at hpbox hqbox
  have hrow : gap p.1 q.1 ≤ 4 := by unfold gap at *; omega
  have hcol : gap p.2 q.2 ≤ 4 := by unfold gap at *; omega
  exact Prod.ext (alignRom_apart v hv _ hpx _ hqx hrow) (alignRom_apart v hv _ hpy _ hqy hcol)

/-! ### Where each pattern writes (R902 to R910) -/

theorem isDarkModule_iff {v r c : Nat} : isDarkModule v r c = true ↔ r = side v - 8 ∧ c = 8 := by
  simp [isDarkModule]

theorem isSeparator_iff {v r c : Nat} : isSeparator v r c = true ↔
    (r = 7 ∧ c ≤ 7) ∨ (c = 7 ∧ r ≤ 7) ∨ (r = 7 ∧ side v - 8 ≤ c) ∨ (c = side v - 8 ∧ r ≤ 7) ∨
      (r = side v - 8 ∧ c ≤ 7) ∨ (c = 7 ∧ side v - 8 ≤ r) := by
  simp [isSeparator]

theorem formatA_column {i : Nat} (h : i ≤ 5) : formatA i = (i, 8) := if_pos h

theorem formatA_row {i : Nat} (h : 9 ≤ i) : formatA i = (8, 14 - i) := by
  rw [formatA, if_neg (by omega), if_neg (by omega), if_neg (by omega), if_neg (by omega)]

theorem formatB_row {v i : Nat} (h : i ≤ 7) : formatB v i = (8, side v - 1 - i) := if_pos h

theorem formatB_column {v i : Nat} (h : 8 ≤ i) : formatB v i = (side v - 15 + i, 8) := if_neg (by omega)

/-- The format modules are on row 8 and column 8 beside the finders. -/
theorem isFormat_iff {v : Nat} (hv : 1 ≤ v) {r c : Nat} : isFormat v r c = true ↔
    c = 8 ∧ (r ≤ 5 ∨ r = 7 ∨ r = 8 ∨ side v - 7 ≤ r ∧ r < side v) ∨
      r = 8 ∧ (c ≤ 5 ∨ c = 7 ∨ side v - 8 ≤ c ∧ c < side v) := by
  have hS := side_ge hv
  simp only [isFormat, List.any_eq_true, List.mem_range, Bool.or_eq_true, decide_eq_true_eq]
  constructor
  · rintro ⟨i, hi, h | h⟩
    · unfold formatA at h
      grind
    · unfold formatB at h
      grind
  · rintro (⟨rfl, h | rfl | rfl | h⟩ | ⟨rfl, h | rfl | h⟩)
    · exact ⟨r, by omega, .inl (formatA_column h)⟩
    · exact ⟨6, by omega, .inl rfl⟩
    · exact ⟨7, by omega, .inl rfl⟩
    · refine ⟨r + 15 - side v, by omega, .inr ?_⟩
      rw [formatB_column (by omega), show side v - 15 + (r + 15 - side v) = r by omega]
    · refine ⟨14 - c, by omega, .inl ?_⟩
      rw [formatA_row (by omega), show 14 - (14 - c) = c by omega]
    · exact ⟨8, by omega, .inl rfl⟩
    · refine ⟨side v - 1 - c, by omega, .inr ?_⟩
      rw [formatB_row (by omega), show side v - 1 - (side v - 1 - c) = c by omega]

/-- The two 3 x 6 blocks of the version word (R908). -/
def InVersionBlock (v r c : Nat) : Prop :=
  7 ≤ v ∧ (r ≤ 5 ∧ side v - 11 ≤ c ∧ c ≤ side v - 9 ∨ c ≤ 5 ∧ side v - 11 ≤ r ∧ r ≤ side v - 9)

theorem InVersionBlock.side_ge {v r c : Nat} (h : InVersionBlock v r c) : 45 ≤ side v :=
  side_ge_of_seven_le h.1

theorem versionBitAt_eq_none_iff {v r c : Nat} : versionBitAt v r c = none ↔ ¬ InVersionBlock v r c := by
  unfold versionBitAt InVersionBlock
  dsimp only
  split_ifs <;> simp only [true_iff, false_iff] <;> omega

theorem versionBitAt_eq_none {v r c : Nat} (h : 45 ≤ side v → ¬ (r ≤ 5 ∧ side v - 11 ≤ c ∧ c ≤ side v - 9) ∧
    ¬ (c ≤ 5 ∧ side v - 11 ≤ r ∧ r ≤ side v - 9)) : versionBitAt v r c = none := by
  refine versionBitAt_eq_none_iff.2 fun hblock => ?_
  obtain ⟨hupper, hlower⟩ := h hblock.side_ge
  exact hblock.2.elim hupper hlower

theorem timingAt_eq_none_iff {v r c : Nat} : timingAt v r c = none ↔
    ¬ (r = 6 ∧ 8 ≤ c ∧ c ≤ side v - 9) ∧ ¬ (c = 6 ∧ 8 ≤ r ∧ r ≤ side v - 9) := by
  unfold timingAt
  split_ifs <;> simp only [true_iff, false_iff] <;> omega

theorem finderAt_eq_none_iff {r0 c0 r c : Nat} : finderAt r0 c0 r c = none ↔
    ¬ (r0 ≤ r ∧ r ≤ r0 + 6 ∧ c0 ≤ c ∧ c ≤ c0 + 6) := by
  unfold finderAt
  split_ifs <;> simp only [true_iff, false_iff] <;> omega

theorem alignmentAt_eq_none_iff {cs : List (Nat × Nat)} {r c : Nat} :
    alignmentAt cs r c = none ↔ ∀ p ∈ cs, inBox p r c = false := by
  simp [alignmentAt]

theorem alignmentAt_eq {v : Nat} (hv : v ≤ 40) {p : Nat × Nat} (hp : p ∈ centres v) {r c : Nat}
    (hbox : inBox p r c = true) :
    alignmentAt (centres v) r c = some (if max (gap r p.1) (gap c p.2) = 1 then .light else .dark) := by
  obtain ⟨q, hq⟩ : ∃ q, (centres v).find? (fun q => inBox q r c) = some q :=
    Option.isSome_iff_exists.1 (List.find?_isSome.2 ⟨p, hp, hbox⟩)
  have hqp : q = p := centre_unique hv (List.mem_of_find?_eq_some hq) hp
    (List.find?_some (p := fun q => inBox q r c) hq) hbox
  rw [alignmentAt, hq, hqp, Option.map_some]

/-- The patterns in the order of their priority: the first one that writes the module decides. -/
theorem patternAt_eq_or (v : Nat) (cs : List (Nat × Nat)) (r c : Nat) : patternAt v cs r c =
    (if isDarkModule v r c then some .dark else none).or ((if isFormat v r c then some .unset else none).or
      (((versionBitAt v r c).map fun i => shade ((versionWord v).getLsbD i)).or ((alignmentAt cs r c).or
        ((timingAt v r c).or ((if isSeparator v r c then some .light else none).or
          ((finderCorners v).findSome? fun p => finderAt p.1 p.2 r c)))))) := by
  unfold patternAt
  split
  · rfl
  split
  · rfl
  cases versionBitAt v r c with
  | some i => rfl
  | none =>
    cases alignmentAt cs r c with
    | some x => rfl
    | none =>
      cases timingAt v r c with
      | some x => rfl
      | none => cases isSeparator v r c <;> rfl

/-! ### Reserved marks (R901, R911) -/

/-- R911's clauses but the last: the finder areas with the format strips, the timing lines, the version blocks. -/
def InFixedArea (v r c : Nat) : Prop :=
  (r ≤ 8 ∧ c ≤ 8) ∨ (r ≤ 8 ∧ side v - 8 ≤ c) ∨ (side v - 8 ≤ r ∧ c ≤ 8) ∨ r = 6 ∨ c = 6 ∨ InVersionBlock v r c

theorem reserved_iff {v : Nat} {cs : List (Nat × Nat)} {r c : Nat} :
    reserved v cs r c = true ↔ InFixedArea v r c ∨ ∃ p ∈ cs, inBox p r c = true := by
  simp only [reserved, InFixedArea, InVersionBlock, Bool.or_eq_true, decide_eq_true_eq, List.any_eq_true]

/-- The patterns write exactly the modules R911 calls reserved. -/
theorem patternAt_eq_none_iff {v : Nat} (hv : 1 ≤ v) {cs : List (Nat × Nat)} {r c : Nat} (hr : r < side v)
    (hc : c < side v) : patternAt v cs r c = none ↔ reserved v cs r c = false := by
  have hS := side_ge hv
  rw [← Bool.not_eq_true, reserved_iff, not_or]
  simp only [patternAt_eq_or, Option.or_eq_none_iff, ite_eq_right_iff, reduceCtorEq, imp_false, Option.map_eq_none_iff,
    isDarkModule_iff, isFormat_iff hv, versionBitAt_eq_none_iff, alignmentAt_eq_none_iff, timingAt_eq_none_iff,
    isSeparator_iff, finderCorners, List.findSome?_eq_none_iff, List.forall_mem_cons, finderAt_eq_none_iff]
  constructor
  · rintro ⟨hdark, hformat, hversion, halign, ⟨hrow, hcol⟩, hsep, hfinder₁, hfinder₂, hfinder₃, -⟩
    refine ⟨?_, by simpa using halign⟩
    unfold InFixedArea
    grind
  · rintro ⟨hfixed, halign⟩
    have hside := InVersionBlock.side_ge (v := v) (r := r) (c := c)
    unfold InFixedArea at hfixed
    refine ⟨?_, ?_, ?_, by simpa using halign, ⟨?_, ?_⟩, ?_, ?_, ?_, ?_, by simp⟩ <;> grind

/-! ### Cells (R132, R901) -/

theorem builtCell_of_pattern {v : Nat} {cs : List (Nat × Nat)} {r c : Nat} {x : CellValue} (hr : r < side v)
    (hc : c < side v) (h : patternAt v cs r c = some x) : builtCell v cs r c = cell x true := by
  rw [builtCell, if_pos ⟨hr, hc⟩, h]

theorem builtCell_of_no_pattern {v : Nat} {cs : List (Nat × Nat)} {r c : Nat} (h : patternAt v cs r c = none) :
    builtCell v cs r c = 2#8 := by
  rw [builtCell, h]
  exact ite_self _

theorem builtCell_outside {v : Nat} {cs : List (Nat × Nat)} {r c : Nat} (h : side v ≤ r ∨ side v ≤ c) :
    builtCell v cs r c = 2#8 :=
  if_neg (by omega)

theorem cell_true_getLsbD_two (x : CellValue) : (cell x true).getLsbD 2 = true := by
  cases x <;> rfl

theorem builtCell_getLsbD_two {v : Nat} (hv : 1 ≤ v) {cs : List (Nat × Nat)} {r c : Nat} (hr : r < side v)
    (hc : c < side v) : (builtCell v cs r c).getLsbD 2 = reserved v cs r c := by
  have hnone := patternAt_eq_none_iff hv (cs := cs) hr hc
  cases hpat : patternAt v cs r c with
  | none =>
    rw [builtCell_of_no_pattern hpat, hnone.1 hpat]
    rfl
  | some x =>
    rw [builtCell_of_pattern hr hc hpat, cell_true_getLsbD_two]
    exact (Bool.eq_false_imp_eq_true.1 fun h => absurd (hnone.2 h) (by simp [hpat])).symm

/-- Settles O30: BUILD's patterns write exactly the modules the predicate names. -/
theorem reservedMarksAreThePredicate : Obligations.ReservedMarksAreThePredicate := by
  intro v r c hv _ hr hc
  have hmark := builtCell_getLsbD_two hv (cs := centres v) hr hc
  refine ⟨?_, hmark, fun hfree => ?_⟩
  · rw [hmark, reserved_iff]
    simp only [InFixedArea, InVersionBlock, inBox_iff, natAbs_sub_eq_gap, or_assoc, side]
  · exact builtCell_of_no_pattern ((patternAt_eq_none_iff hv hr hc).2 (hmark.symm.trans hfree))

/-! ### Finders, separators, timing (R902, R903, R904) -/

theorem cell_light_or_dark (p : Prop) [Decidable p] :
    cell (if p then .light else .dark) true = if p then 4#8 else 5#8 := by
  split <;> rfl

theorem cell_shade (b : Bool) : cell (shade b) true = if b then 5#8 else 4#8 := by
  cases b <;> rfl

/-- Off the version blocks, the format strips and the dark module the patterns written before them decide. -/
theorem patternAt_of_no_later {v : Nat} (hv : 1 ≤ v) {cs : List (Nat × Nat)} {r c : Nat}
    (hrow : r = 8 → c = 6 ∨ 8 < c ∧ c < side v - 8) (hcol : c = 8 → r = 6 ∨ 8 < r ∧ r < side v - 8)
    (hversion : versionBitAt v r c = none) : patternAt v cs r c =
      (alignmentAt cs r c).or ((timingAt v r c).or ((if isSeparator v r c then some .light else none).or
        ((finderCorners v).findSome? fun p => finderAt p.1 p.2 r c))) := by
  have hS := side_ge hv
  have hdark : ¬ isDarkModule v r c = true := by rw [isDarkModule_iff]; omega
  have hformat : ¬ isFormat v r c = true := by rw [isFormat_iff hv]; omega
  rw [patternAt_eq_or, if_neg hdark, if_neg hformat, hversion]
  rfl

/-- In the 8 x 8 areas of the finders only they and the separators write. -/
theorem patternAt_finderArea {v : Nat} (hv : 1 ≤ v) (hmax : v ≤ 40) {r c : Nat}
    (harea : (r ≤ 7 ∧ c ≤ 7) ∨ (r ≤ 7 ∧ side v - 8 ≤ c) ∨ (side v - 8 ≤ r ∧ c ≤ 7)) :
    patternAt v (centres v) r c = (if isSeparator v r c then some .light else none).or
      ((finderCorners v).findSome? fun p => finderAt p.1 p.2 r c) := by
  have hS := side_ge hv
  have halign : alignmentAt (centres v) r c = none := alignmentAt_eq_none_iff.2 fun p hp => by
    have hcentre := centre_cases hmax hp
    grind [inBox_iff, gap]
  have htiming : timingAt v r c = none := timingAt_eq_none_iff.2 (by grind)
  rw [patternAt_of_no_later hv (by grind) (by grind) (versionBitAt_eq_none (by grind)), halign, htiming, Option.none_or,
    Option.none_or]

theorem finderAt_add {r0 c0 dr dc : Nat} (hdr : dr < 7) (hdc : dc < 7) : finderAt r0 c0 (r0 + dr) (c0 + dc) =
    some (if max (gap dr 3) (gap dc 3) = 2 then .light else .dark) := by
  have hrow : gap (r0 + dr) (r0 + 3) = gap dr 3 := by unfold gap; omega
  have hcol : gap (c0 + dc) (c0 + 3) = gap dc 3 := by unfold gap; omega
  rw [finderAt, if_pos (by omega), hrow, hcol]

theorem findSome?_finderCorners {v : Nat} (hv : 1 ≤ v) {p : Nat × Nat} (hp : p ∈ finderCorners v) {dr dc : Nat}
    (hdr : dr < 7) (hdc : dc < 7) :
    ((finderCorners v).findSome? fun q => finderAt q.1 q.2 (p.1 + dr) (p.2 + dc)) =
      some (if max (gap dr 3) (gap dc 3) = 2 then .light else .dark) := by
  have hS := side_ge hv
  simp only [finderCorners, List.findSome?_cons, List.mem_cons, List.not_mem_nil, or_false] at hp ⊢
  obtain rfl | rfl | rfl := hp
  · rw [finderAt_add hdr hdc]
  · rw [finderAt_eq_none_iff.2 (by omega), finderAt_add hdr hdc]
  · rw [finderAt_eq_none_iff.2 (by omega), finderAt_eq_none_iff.2 (by omega), finderAt_add hdr hdc]

theorem builtCell_finder {v : Nat} (hv : 1 ≤ v) (hmax : v ≤ 40) {p : Nat × Nat} (hp : p ∈ finderCorners v) {dr dc : Nat}
    (hdr : dr < 7) (hdc : dc < 7) : builtCell v (centres v) (p.1 + dr) (p.2 + dc) =
      if max (gap dr 3) (gap dc 3) = 2 then 4#8 else 5#8 := by
  have hS := side_ge hv
  have hcorner : p = (0, 0) ∨ p = (0, side v - 7) ∨ p = (side v - 7, 0) := by simpa [finderCorners] using hp
  rw [← cell_light_or_dark]
  refine builtCell_of_pattern (by grind) (by grind) ?_
  rw [patternAt_finderArea hv hmax (by grind), if_neg (by rw [isSeparator_iff]; grind), Option.none_or,
    findSome?_finderCorners hv hp hdr hdc]

theorem builtCell_separator {v : Nat} (hv : 1 ≤ v) (hmax : v ≤ 40) {r c : Nat} (hr : r < side v) (hc : c < side v)
    (h : isSeparator v r c = true) : builtCell v (centres v) r c = 4#8 := by
  refine builtCell_of_pattern (x := .light) hr hc ?_
  rw [patternAt_finderArea hv hmax (by grind [isSeparator_iff]), if_pos h, Option.some_or]

/-- On a timing pattern an alignment pattern has the shade the timing pattern has there: its centre is on that line and
even, its ring at odd places. -/
theorem alignment_agrees_with_timing {v : Nat} (hmax : v ≤ 40) {r c : Nat} {x : CellValue}
    (h : timingAt v r c = some x) {p : Nat × Nat} (hp : p ∈ centres v) (hbox : inBox p r c = true) :
    (if max (gap r p.1) (gap c p.2) = 1 then CellValue.light else .dark) = x := by
  have hcentre := centre_cases hmax hp
  have heven := centre_even hmax hp
  rw [inBox_iff] at hbox
  unfold timingAt shade at h
  unfold gap at hbox ⊢
  grind

theorem patternAt_of_timing {v : Nat} (hv : 1 ≤ v) (hmax : v ≤ 40) {r c : Nat} {x : CellValue}
    (h : timingAt v r c = some x) : patternAt v (centres v) r c = some x := by
  have hS := side_ge hv
  have hline : r = 6 ∧ (8 ≤ c ∧ c ≤ side v - 9) ∨ c = 6 ∧ (8 ≤ r ∧ r ≤ side v - 9) := by
    by_contra hnot
    rw [timingAt_eq_none_iff.2 (not_or.1 hnot)] at h
    cases h
  rw [patternAt_of_no_later hv (by omega) (by omega) (versionBitAt_eq_none (by omega)), h, Option.some_or]
  by_cases hbox : ∃ p ∈ centres v, inBox p r c = true
  · obtain ⟨p, hp, hbox⟩ := hbox
    rw [alignmentAt_eq hmax hp hbox, alignment_agrees_with_timing hmax h hp hbox, Option.some_or]
  · rw [alignmentAt_eq_none_iff.2 (by simpa using hbox), Option.none_or]

/-- Settles O28: each module of the three patterns is written by that pattern alone, but for the alignment patterns
on the timing lines, which agree with them. -/
theorem finderSeparatorTiming : Obligations.FinderSeparatorTiming := by
  intro v hv hmax S built
  have hS : 21 ≤ S := side_ge hv
  refine ⟨fun p hp dr dc hdr hdc => ?finder, fun i hi => ?separator, fun i hi hiS => ?timing⟩
  case finder =>
    have hcentre (d : Nat) : ((d : Int) - 3).natAbs = gap d 3 := natAbs_sub_eq_gap d 3
    rw [hcentre, hcentre]
    exact builtCell_finder hv hmax hp hdr hdc
  case separator =>
    have hsep {r c : Nat} (hr : r < S) (hc : c < S) (h : _) : built r c = 4#8 :=
      builtCell_separator hv hmax hr hc (isSeparator_iff.2 h)
    have hside : side v = S := rfl
    refine ⟨hsep ?_ ?_ ?_, hsep ?_ ?_ ?_, hsep ?_ ?_ ?_, hsep ?_ ?_ ?_, hsep ?_ ?_ ?_, hsep ?_ ?_ ?_⟩ <;> omega
  case timing =>
    have hcell {r c : Nat} (hr : r < S) (hc : c < S) (h : timingAt v r c = some (shade (i % 2 == 0))) :
        built r c = if i % 2 = 0 then 5#8 else 4#8 := by
      refine (builtCell_of_pattern hr hc (patternAt_of_timing hv hmax h)).trans ?_
      simp [cell_shade]
    have hrow := hcell (r := 6) (c := i) (by omega) (by omega) (if_pos ⟨rfl, hi, hiS⟩)
    refine ⟨hrow, (hcell (by omega) (by omega) ?_).trans hrow.symm⟩
    rw [timingAt, if_neg (by omega), if_pos ⟨rfl, hi, hiS⟩]

/-! ### Alignment patterns, version blocks, format strips, dark module (R905 to R910) -/

theorem patternAt_of_inBox {v : Nat} (hv : 1 ≤ v) (hmax : v ≤ 40) {p : Nat × Nat} (hp : p ∈ centres v) {r c : Nat}
    (hbox : inBox p r c = true) :
    patternAt v (centres v) r c = some (if max (gap r p.1) (gap c p.2) = 1 then .light else .dark) := by
  have hcentre := centre_cases hmax hp
  have hnear := inBox_iff.1 hbox
  unfold gap at hnear
  rw [patternAt_of_no_later hv (by omega) (by omega) (versionBitAt_eq_none (by omega)), alignmentAt_eq hmax hp hbox,
    Option.some_or]

theorem builtCell_alignment {v : Nat} (hv : 1 ≤ v) (hmax : v ≤ 40) {p : Nat × Nat} (hp : p ∈ centres v) {r c : Nat}
    (hbox : inBox p r c = true) :
    builtCell v (centres v) r c = if max (gap r p.1) (gap c p.2) = 1 then 4#8 else 5#8 := by
  have hcentre := centre_cases hmax hp
  have hnear := inBox_iff.1 hbox
  unfold gap at hnear
  rw [← cell_light_or_dark]
  exact builtCell_of_pattern (by omega) (by omega) (patternAt_of_inBox hv hmax hp hbox)

theorem versionBitAt_upper {v i : Nat} (hv : 7 ≤ v) (hi : i < 18) :
    versionBitAt v (i / 3) (side v - 11 + i % 3) = some i := by
  have hS := side_ge_of_seven_le hv
  unfold versionBitAt
  dsimp only
  rw [if_neg (by omega), if_pos (by omega)]
  congr 1
  omega

theorem versionBitAt_lower {v i : Nat} (hv : 7 ≤ v) (hi : i < 18) :
    versionBitAt v (side v - 11 + i % 3) (i / 3) = some i := by
  have hS := side_ge_of_seven_le hv
  unfold versionBitAt
  dsimp only
  rw [if_neg (by omega), if_neg (by omega), if_pos (by omega)]
  congr 1
  omega

theorem builtCell_versionBit {v : Nat} (hv : 1 ≤ v) {cs : List (Nat × Nat)} {r c i : Nat}
    (h : versionBitAt v r c = some i) : builtCell v cs r c = if (versionWord v).getLsbD i then 5#8 else 4#8 := by
  have hblock : InVersionBlock v r c := by
    by_contra hnot
    rw [versionBitAt_eq_none_iff.2 hnot] at h
    cases h
  have hside := hblock.side_ge
  obtain ⟨-, hblock⟩ := hblock
  have hdark : ¬ isDarkModule v r c = true := by rw [isDarkModule_iff]; omega
  have hformat : ¬ isFormat v r c = true := by rw [isFormat_iff hv]; omega
  rw [← cell_shade]
  refine builtCell_of_pattern (by omega) (by omega) ?_
  rw [patternAt, if_neg hdark, if_neg hformat, h]

theorem builtCell_format {v : Nat} (hv : 1 ≤ v) {cs : List (Nat × Nat)} {r c : Nat} (h : isFormat v r c = true) :
    builtCell v cs r c = 6#8 := by
  have hS := side_ge hv
  have hplace := (isFormat_iff hv).1 h
  have hdark : ¬ isDarkModule v r c = true := by rw [isDarkModule_iff]; omega
  refine builtCell_of_pattern (x := .unset) (by omega) (by omega) ?_
  rw [patternAt, if_neg hdark, if_pos h]

theorem isFormat_formatA {v i : Nat} (hi : i < 15) : isFormat v (formatA i).1 (formatA i).2 = true :=
  List.any_eq_true.2 ⟨i, List.mem_range.2 hi, by simp⟩

theorem isFormat_formatB {v i : Nat} (hi : i < 15) : isFormat v (formatB v i).1 (formatB v i).2 = true :=
  List.any_eq_true.2 ⟨i, List.mem_range.2 hi, by simp⟩

theorem builtCell_darkModule {v : Nat} (hv : 1 ≤ v) {cs : List (Nat × Nat)} :
    builtCell v cs (side v - 8) 8 = 5#8 := by
  have hS := side_ge hv
  exact builtCell_of_pattern (x := .dark) (by omega) (by omega) (if_pos (isDarkModule_iff.2 ⟨rfl, rfl⟩))

/-- Settles O29: the centres are apart from each other and from the patterns written later, which are apart from each
other. -/
theorem alignmentVersionFormatDark : Obligations.AlignmentVersionFormatDark := by
  refine ⟨rfl, rfl, fun v hv hmax => ?_⟩
  intro S built last
  refine ⟨fun x y => mem_centres_iff hmax, centres_length v hmax, fun x y dr dc hp hdr hdc => ?alignment,
    fun h7 i hi => ?version, fun i => formatA_column, rfl, rfl, rfl, fun i hi _ => formatA_row hi,
    fun i => formatB_row, fun i hi _ => formatB_column hi, fun i hi => ?format, builtCell_darkModule hv⟩
  case alignment =>
    have hcentre := centre_cases hmax hp
    have hoffset {x d : Nat} (hx : 6 ≤ x) : gap (x + d - 2) x = ((d : Int) - 2).natAbs := by
      unfold gap
      omega
    have hrow := hoffset (x := x) (d := dr) (by omega)
    have hcol := hoffset (x := y) (d := dc) (by omega)
    rw [← hrow, ← hcol]
    exact builtCell_alignment hv hmax hp (inBox_iff.2 ⟨hrow.trans_le (by omega), hcol.trans_le (by omega)⟩)
  case version =>
    have hupper := builtCell_versionBit hv (cs := centres v) (versionBitAt_upper h7 hi)
    exact ⟨hupper, (builtCell_versionBit hv (versionBitAt_lower h7 hi)).trans hupper.symm⟩
  case format => exact ⟨builtCell_format hv (isFormat_formatA hi), builtCell_format hv (isFormat_formatB hi)⟩

/-! ### The command (R930) -/

theorem builtCells_getElem? {v r c : Nat} (hr : r < Config.sideMax) (hc : c < Config.sideMax) :
    (builtCells v)[r * Config.sideMax + c]? = some (builtCell v (centres v) r c) := by
  have hr : r < 177 := hr
  have hc : c < 177 := hc
  have hrow : (r * 177 + c) / 177 = r := by omega
  have hcol : (r * 177 + c) % 177 = c := by omega
  have hlt : r * 177 + c < 31329 := by omega
  simp [builtCells, hlt, hrow, hcol]

/-- Settles O27: the built cells are listed row by row and written from element 0 on, and fill the window. -/
theorem buildWritesEveryCell : Obligations.BuildWritesEveryCell := by
  refine ⟨fun s he hsel => ⟨_, (CommandEffect.build hsel).exec_eq he he, rfl, fun r c hr hc => ?_, fun w hw => ?_⟩,
    fun v r c => builtCell_outside⟩
  · have hlen : r * 177 + c < (builtCells s.entry.ver.toNat).length := by
      rw [builtCells_length]
      show _ < 31329
      omega
    exact (s.mem.read?_writeList_zero (w := .mat) hlen (builtCells_length _).le).trans (builtCells_getElem? hr hc)
  · exact Memory.window_writeList_ne hw s.mem 0 _

end Sys2Proof.Machine
end

section
/-! SUPPORT. The zigzag order (45_matrix R940, R943): its column pairs cut the columns other than 6, and each
sweep visits the rows of its pair once. -/

-- One theorem at a time: each proof in flight holds a thread's whole stack.
set_option Elab.async false

namespace Sys2Proof.Machine

/-! ### The column pairs (R940) -/

theorem pos_of_mem_rightColumns {fuel right c : Nat} (h : c ∈ rightColumns fuel right) : 1 ≤ c := by
  induction fuel generalizing right with
  | zero => cases h
  | succ fuel ih =>
    simp only [rightColumns] at h
    split at h
    · cases h
    · obtain rfl | h := List.mem_cons.1 h
      · split <;> omega
      · exact ih h

/-- Each pair is left of the one before it. -/
theorem rightColumns_pairwise (fuel right : Nat) : (rightColumns fuel right).Pairwise fun a b => b + 2 ≤ a := by
  induction fuel generalizing right with
  | zero => exact .nil
  | succ fuel ih =>
    simp only [rightColumns]
    split
    · exact .nil
    · refine .cons (fun c hc => ?_) (ih _)
      have hpos := pos_of_mem_rightColumns hc
      have hle := le_of_mem_rightColumns hc
      omega

/-- The right columns are the even ones from 8 on, then 5, 3 and 1. -/
theorem mem_rightColumns {fuel right : Nat} (hfuel : right ≤ 2 * fuel)
    (hright : (right = 0 ∨ 6 ≤ right) ∧ right % 2 = 0 ∨ right ≤ 5 ∧ right % 2 = 1) {c : Nat} :
    c ∈ rightColumns fuel right ↔ c ≤ right ∧ (8 ≤ c ∧ c % 2 = 0 ∨ c ≤ 5 ∧ c % 2 = 1) := by
  induction fuel generalizing right with
  | zero =>
    simp only [rightColumns, List.not_mem_nil, false_iff]
    omega
  | succ fuel ih =>
    simp only [rightColumns]
    split
    · simp only [List.not_mem_nil, false_iff]
      omega
    · rw [List.mem_cons, ih (by split <;> omega) (by split <;> omega)]
      split <;> omega

/-- The pairs of a symbol cover every column but 6. -/
theorem exists_rightColumn {v c : Nat} (hv : 1 ≤ v) (hc : c < side v) (h6 : c ≠ 6) :
    ∃ right ∈ rightColumns (side v) (side v - 1), c = right ∨ c = right - 1 := by
  have hS := side_ge hv
  have hodd : side v % 2 = 1 := by unfold side; omega
  have hmem {right : Nat} : right ∈ rightColumns (side v) (side v - 1) ↔
      right ≤ side v - 1 ∧ (8 ≤ right ∧ right % 2 = 0 ∨ right ≤ 5 ∧ right % 2 = 1) :=
    mem_rightColumns (by omega) (by omega)
  by_cases hright : 8 ≤ c ∧ c % 2 = 0 ∨ c ≤ 5 ∧ c % 2 = 1
  · exact ⟨c, hmem.2 ⟨by omega, hright⟩, .inl rfl⟩
  · exact ⟨c + 1, hmem.2 ⟨by omega, by omega⟩, .inr rfl⟩

/-! ### One sweep (R940) -/

/-- The row a sweep visits at place `vert`: from the bottom in an upward sweep, from the top in a downward one. -/
def sweepRow (v right vert : Nat) : Nat := if ((right + 1) &&& 2) == 0 then side v - 1 - vert else vert

theorem sweep_eq (v : Nat) (cs : List (Nat × Nat)) (right : Nat) : sweep v cs right =
    ((List.range (side v)).flatMap fun vert =>
      [(sweepRow v right vert, right), (sweepRow v right vert, right - 1)]).filter
        fun p => !reserved v cs p.1 p.2 := rfl

theorem sweepRow_lt {v right vert : Nat} (h : vert < side v) : sweepRow v right vert < side v := by
  unfold sweepRow
  split <;> omega

theorem sweepRow_sweepRow {v right vert : Nat} (h : vert < side v) :
    sweepRow v right (sweepRow v right vert) = vert := by
  unfold sweepRow
  split <;> omega

theorem mem_sweep {v : Nat} {cs : List (Nat × Nat)} {right r c : Nat} : (r, c) ∈ sweep v cs right ↔
    r < side v ∧ (c = right ∨ c = right - 1) ∧ reserved v cs r c = false := by
  rw [sweep_eq, List.mem_filter, List.mem_flatMap, Bool.not_eq_true', ← and_assoc]
  refine and_congr_left fun _ => ⟨?_, fun ⟨hr, hc⟩ => ?_⟩
  · rintro ⟨vert, hvert, hp⟩
    have hrow := sweepRow_lt (right := right) (List.mem_range.1 hvert)
    simp only [List.mem_cons, List.not_mem_nil, or_false, Prod.mk.injEq] at hp
    obtain ⟨rfl, hc⟩ | ⟨rfl, hc⟩ := hp
    · exact ⟨hrow, .inl hc⟩
    · exact ⟨hrow, .inr hc⟩
  · refine ⟨sweepRow v right r, List.mem_range.2 (sweepRow_lt hr), ?_⟩
    rw [sweepRow_sweepRow hr]
    simpa using hc

theorem sweep_nodup {v : Nat} {cs : List (Nat × Nat)} {right : Nat} (hright : 1 ≤ right) :
    (sweep v cs right).Nodup := by
  rw [sweep_eq]
  refine .filter _ (List.nodup_flatMap.2 ⟨fun vert _ => ?_,
    List.nodup_range.pairwise_of_forall_ne fun a ha b hb hab => ?_⟩)
  · have hne : right ≠ right - 1 := by omega
    simpa using hne
  · have hrow : sweepRow v right a ≠ sweepRow v right b := fun h => hab (by
      rw [← sweepRow_sweepRow (right := right) (List.mem_range.1 ha), h, sweepRow_sweepRow (List.mem_range.1 hb)])
    simp [Function.onFun, hrow.symm]

/-! ### The whole order (R940, R943) -/

theorem mem_zigzag {v : Nat} (hv : 1 ≤ v) {r c : Nat} : (r, c) ∈ zigzag v ↔
    r < side v ∧ c < side v ∧ reserved v (centres v) r c = false := by
  constructor
  · intro h
    obtain ⟨hr, hc⟩ := mem_zigzag_lt h
    obtain ⟨right, -, h⟩ := List.mem_flatMap.1 h
    obtain ⟨-, -, hfree⟩ := mem_sweep.1 h
    exact ⟨hr, hc, hfree⟩
  · rintro ⟨hr, hc, hfree⟩
    have h6 : c ≠ 6 := by
      rintro rfl
      exact Bool.eq_false_iff.1 hfree (reserved_iff.2 (.inl (by simp [InFixedArea])))
    obtain ⟨right, hright, hcol⟩ := exists_rightColumn hv hc h6
    exact List.mem_flatMap.2 ⟨right, hright, mem_sweep.2 ⟨hr, hcol, hfree⟩⟩

theorem zigzag_nodup (v : Nat) : (zigzag v).Nodup := by
  refine List.nodup_flatMap.2 ⟨fun right h => sweep_nodup (pos_of_mem_rightColumns h), ?_⟩
  refine (rightColumns_pairwise _ _).imp fun {a b} hab => List.disjoint_left.2 fun p ha hb => ?_
  obtain ⟨-, ha, -⟩ := mem_sweep.1 ha
  obtain ⟨-, hb, -⟩ := mem_sweep.1 hb
  omega

/-- The data modules of the symbol, row by row. -/
def dataModules (v : Nat) : List (Nat × Nat) :=
  (List.range (side v)).flatMap fun r =>
    ((List.range (side v)).filter fun c => !reserved v (centres v) r c).map fun c => (r, c)

theorem dataModules_nodup (v : Nat) : (dataModules v).Nodup := by
  refine List.nodup_flatMap.2 ⟨fun r _ => (List.nodup_range.filter _).map fun a b h => (Prod.mk.inj h).2, ?_⟩
  refine List.nodup_range.pairwise_of_forall_ne fun a _ b _ hab => List.disjoint_left.2 fun p ha hb => ?_
  obtain ⟨_, -, rfl⟩ := List.mem_map.1 ha
  obtain ⟨_, -, h⟩ := List.mem_map.1 hb
  exact hab (Prod.mk.inj h).1.symm

theorem zigzag_perm_dataModules {v : Nat} (hv : 1 ≤ v) : (zigzag v).Perm (dataModules v) := by
  refine (List.perm_ext_iff_of_nodup (zigzag_nodup v) (dataModules_nodup v)).2 fun ⟨r, c⟩ => ?_
  simp [mem_zigzag hv, dataModules]

theorem zigzag_length_eq_sum {v : Nat} (hv : 1 ≤ v) : (zigzag v).length = ((List.range (side v)).map fun r =>
    (List.range (side v)).countP fun c => !reserved v (centres v) r c).sum := by
  rw [(zigzag_perm_dataModules hv).length_eq, dataModules, List.length_flatMap]
  simp [List.countP_eq_length_filter]

theorem zigzag_one_end : (zigzag 1).drop 202 = [(10, 1), (10, 0), (11, 1), (11, 0), (12, 1), (12, 0)] := by
  decide +kernel

theorem zigzag_seven_end : (zigzag 7).drop 1566 = [(33, 1), (33, 0)] := by
  decide +kernel

theorem length_of_drop_eq {l r : List (Nat × Nat)} {n k : Nat} (h : l.drop n = r) (hr : r.length = k + 1) :
    l.length = n + (k + 1) := by
  have hlen := congrArg List.length h
  rw [List.length_drop] at hlen
  omega

/-- Settles O31: the column pairs cut the columns other than 6, each sweep visits the rows of its pair once; the listed
ends are computed. -/
theorem zigzagIsEveryDataModuleOnce : Obligations.ZigzagIsEveryDataModuleOnce :=
  ⟨fun v hv _ => ⟨zigzag_nodup v, fun _ _ => mem_zigzag hv⟩, fun _ hv _ => zigzag_length_eq_sum hv,
    by decide +kernel, by decide +kernel, zigzag_one_end, length_of_drop_eq zigzag_one_end rfl, by decide +kernel,
    zigzag_seven_end, length_of_drop_eq zigzag_seven_end rfl⟩

end Sys2Proof.Machine
end

section
/-! SUPPORT. The number of data modules (45_matrix R912): the reserved modules are cut into rectangles that lie apart,
whose areas are added up; and the zigzag cursor (R941, R942), whose registers the count fits. -/

-- One theorem at a time: each proof in flight holds a thread's whole stack.
set_option Elab.async false

namespace Sys2Proof.Machine

/-! ### Rectangles of modules -/

/-- A rectangle of modules: its first row and column, its rows and its columns. -/
structure Rect where
  top    : Nat
  left   : Nat
  height : Nat
  width  : Nat

namespace Rect

/-- The modules of the rectangle. -/
def cells (q : Rect) : Finset (Nat × Nat) := Finset.Ico q.top (q.top + q.height) ×ˢ Finset.Ico q.left (q.left + q.width)

/-- How many modules it has. -/
def area (q : Rect) : Nat := q.height * q.width

/-- One lies wholly above or wholly left of the other. -/
def Apart (p q : Rect) : Prop :=
  p.top + p.height ≤ q.top ∨ q.top + q.height ≤ p.top ∨ p.left + p.width ≤ q.left ∨ q.left + q.width ≤ p.left

/-- It lies in a square of `n` rows and columns at the origin. -/
def Inside (q : Rect) (n : Nat) : Prop := q.top + q.height ≤ n ∧ q.left + q.width ≤ n

theorem mem_cells {q : Rect} {r c : Nat} : (r, c) ∈ q.cells ↔
    (q.top ≤ r ∧ r < q.top + q.height) ∧ q.left ≤ c ∧ c < q.left + q.width := by
  simp [cells]

theorem card_cells (q : Rect) : q.cells.card = q.area := by
  simp [cells, area]

theorem Apart.disjoint {p q : Rect} (h : p.Apart q) : Disjoint p.cells q.cells := by
  refine Finset.disjoint_left.2 fun x hp hq => ?_
  rw [mem_cells] at hp hq
  unfold Apart at h
  omega

theorem Inside.subset {q : Rect} {n : Nat} (h : q.Inside n) : q.cells ⊆ Finset.range n ×ˢ Finset.range n := by
  rintro ⟨r, c⟩ hx
  rw [mem_cells] at hx
  obtain ⟨hrows, hcolumns⟩ := h
  exact Finset.mem_product.2 ⟨Finset.mem_range.2 (by omega), Finset.mem_range.2 (by omega)⟩

/-- The modules of some rectangles. -/
def cover : List Rect → Finset (Nat × Nat)
  | [] => ∅
  | q :: rects => q.cells ∪ cover rects

theorem mem_cover {rects : List Rect} {x : Nat × Nat} : x ∈ cover rects ↔ ∃ q ∈ rects, x ∈ q.cells := by
  induction rects with
  | nil => simp [cover]
  | cons p rects ih => simp [cover, ih]

theorem card_cover {rects : List Rect} (h : rects.Pairwise fun p q => Disjoint p.cells q.cells) :
    (cover rects).card = (rects.map area).sum := by
  induction rects with
  | nil => rfl
  | cons p rects ih =>
    obtain ⟨hp, h⟩ := List.pairwise_cons.1 h
    have hrest : Disjoint p.cells (cover rects) := Finset.disjoint_left.2 fun x hx hcover => by
      obtain ⟨q, hq, hxq⟩ := mem_cover.1 hcover
      exact Finset.disjoint_left.1 (hp q hq) hx hxq
    rw [cover, Finset.card_union_of_disjoint hrest, card_cells, ih h, List.map_cons, List.sum_cons]

end Rect

/-! ### The reserved modules as rectangles (R911, R912) -/

/-- The finder areas with their format strips, the timing lines between them and the version blocks. -/
def fixedRects (v : Nat) : List Rect :=
  [⟨0, 0, 9, 9⟩, ⟨0, side v - 8, 9, 8⟩, ⟨side v - 8, 0, 8, 9⟩, ⟨6, 9, 1, side v - 17⟩, ⟨9, 6, side v - 17, 1⟩] ++
    if 7 ≤ v then [⟨0, side v - 11, 6, 3⟩, ⟨side v - 11, 0, 3, 6⟩] else []

/-- The box of a centre, without the timing line it may stand on. -/
def alignmentRects (p : Nat × Nat) : List Rect :=
  if p.1 = 6 then [⟨4, p.2 - 2, 2, 5⟩, ⟨7, p.2 - 2, 2, 5⟩]
  else if p.2 = 6 then [⟨p.1 - 2, 4, 5, 2⟩, ⟨p.1 - 2, 7, 5, 2⟩]
  else [⟨p.1 - 2, p.2 - 2, 5, 5⟩]

/-- Rectangles that lie apart and make up the reserved modules of the symbol. -/
def reservedRects (v : Nat) : List Rect := fixedRects v ++ (centres v).flatMap alignmentRects

section
variable {v : Nat} (hv : 1 ≤ v)
include hv

theorem mem_cover_fixedRects {r c : Nat} (hr : r < side v) (hc : c < side v) :
    (r, c) ∈ Rect.cover (fixedRects v) ↔ InFixedArea v r c := by
  have hS := side_ge hv
  have hblocks : 7 ≤ v → 45 ≤ side v := side_ge_of_seven_le
  unfold fixedRects InFixedArea InVersionBlock
  split_ifs <;> simp only [List.cons_append, List.nil_append, List.append_nil, Rect.cover, Finset.mem_union,
    Finset.notMem_empty, or_false, Rect.mem_cells] <;> grind

theorem fixedRects_pairwise : (fixedRects v).Pairwise Rect.Apart := by
  have hS := side_ge hv
  have hblocks : 7 ≤ v → 45 ≤ side v := side_ge_of_seven_le
  unfold fixedRects
  split_ifs <;> simp [Rect.Apart] <;> omega

theorem fixedRects_inside : ∀ q ∈ fixedRects v, q.Inside (side v) := by
  have hS := side_ge hv
  have hblocks : 7 ≤ v → 45 ≤ side v := side_ge_of_seven_le
  unfold fixedRects
  split_ifs <;> simp [Rect.Inside] <;> omega

end

theorem alignmentRects_pairwise {p : Nat × Nat} : (alignmentRects p).Pairwise Rect.Apart := by
  unfold alignmentRects
  split_ifs <;> simp [Rect.Apart]

section
variable {v : Nat} (hmax : v ≤ 40) {p : Nat × Nat} (hp : p ∈ centres v)
include hmax hp

theorem mem_cover_alignmentRects {r c : Nat} :
    (r, c) ∈ Rect.cover (alignmentRects p) ↔ inBox p r c = true ∧ r ≠ 6 ∧ c ≠ 6 := by
  have hcentre := centre_cases hmax hp
  rw [inBox_iff]
  unfold alignmentRects gap
  split_ifs <;> simp only [Rect.cover, Finset.mem_union, Finset.notMem_empty, or_false, Rect.mem_cells] <;> omega

theorem alignmentRects_inside : ∀ q ∈ alignmentRects p, q.Inside (side v) := by
  have hcentre := centre_cases hmax hp
  unfold alignmentRects
  split_ifs <;> simp [Rect.Inside] <;> omega

end

theorem alignRom_nodup : ∀ v ≤ 40, (alignRom v).Nodup := by
  decide +kernel

theorem centres_nodup {v : Nat} (hmax : v ≤ 40) : (centres v).Nodup :=
  .filter _ ((alignRom_nodup v hmax).product (alignRom_nodup v hmax))

/-- Off the timing lines an alignment box is apart from the other reserved modules. -/
theorem not_inFixedArea_of_inBox {v : Nat} (hmax : v ≤ 40) {p : Nat × Nat} (hp : p ∈ centres v) {r c : Nat}
    (hbox : inBox p r c = true) (hr : r ≠ 6) (hc : c ≠ 6) : ¬ InFixedArea v r c := by
  have hcentre := centre_cases hmax hp
  rw [inBox_iff] at hbox
  unfold gap at hbox
  unfold InFixedArea InVersionBlock
  omega

section
variable {v : Nat} (hv : 1 ≤ v) (hmax : v ≤ 40)
include hv hmax

/-- The rectangles cover exactly the reserved modules of the symbol. -/
theorem mem_cover_reservedRects {r c : Nat} (hr : r < side v) (hc : c < side v) :
    (r, c) ∈ Rect.cover (reservedRects v) ↔ reserved v (centres v) r c = true := by
  have hsplit : (r, c) ∈ Rect.cover (reservedRects v) ↔
      (r, c) ∈ Rect.cover (fixedRects v) ∨ ∃ p ∈ centres v, (r, c) ∈ Rect.cover (alignmentRects p) := by
    simp only [Rect.mem_cover, reservedRects, List.mem_append, List.mem_flatMap]
    grind
  rw [hsplit, mem_cover_fixedRects hv hr hc, reserved_iff]
  by_cases hline : r = 6 ∨ c = 6
  · have hfixed : InFixedArea v r c := by unfold InFixedArea; omega
    exact iff_of_true (.inl hfixed) (.inl hfixed)
  · refine or_congr_right (exists_congr fun p => and_congr_right fun hp => ?_)
    rw [mem_cover_alignmentRects hmax hp]
    exact and_iff_left (by omega)

theorem reservedRects_inside : ∀ q ∈ reservedRects v, q.Inside (side v) := by
  intro q hq
  obtain hq | hq := List.mem_append.1 hq
  · exact fixedRects_inside hv q hq
  · obtain ⟨p, hp, hq⟩ := List.mem_flatMap.1 hq
    exact alignmentRects_inside hmax hp q hq

theorem reservedRects_pairwise : (reservedRects v).Pairwise fun p q => Disjoint p.cells q.cells := by
  refine List.pairwise_append.2 ⟨(fixedRects_pairwise hv).imp Rect.Apart.disjoint, List.pairwise_flatMap.2 ⟨fun p _ =>
    alignmentRects_pairwise.imp Rect.Apart.disjoint, ?_⟩, fun q hq q' hq' => ?_⟩
  · refine (centres_nodup hmax).pairwise_of_forall_ne fun p hp p' hp' hne q hq q' hq' =>
      Finset.disjoint_left.2 fun ⟨r, c⟩ hx hx' => hne ?_
    obtain ⟨hbox, -⟩ := (mem_cover_alignmentRects hmax hp).1 (Rect.mem_cover.2 ⟨q, hq, hx⟩)
    obtain ⟨hbox', -⟩ := (mem_cover_alignmentRects hmax hp').1 (Rect.mem_cover.2 ⟨q', hq', hx'⟩)
    exact centre_unique hmax hp hp' hbox hbox'
  · refine Finset.disjoint_left.2 fun ⟨r, c⟩ hx hx' => ?_
    obtain ⟨p, hp, hq'⟩ := List.mem_flatMap.1 hq'
    have hin := (fixedRects_inside hv q hq).subset hx
    simp only [Finset.mem_product, Finset.mem_range] at hin
    have hfixed := (mem_cover_fixedRects hv hin.1 hin.2).1 (Rect.mem_cover.2 ⟨q, hq, hx⟩)
    obtain ⟨hbox, hrow, hcol⟩ := (mem_cover_alignmentRects hmax hp).1 (Rect.mem_cover.2 ⟨q', hq', hx'⟩)
    exact not_inFixedArea_of_inBox hmax hp hbox hrow hcol hfixed

/-- The data modules and the rectangles' areas make up the symbol (R912). -/
theorem zigzag_length_add_area :
    (zigzag v).length + ((reservedRects v).map Rect.area).sum = side v * side v := by
  have hcover : Rect.cover (reservedRects v) ⊆ Finset.range (side v) ×ˢ Finset.range (side v) := fun x hx => by
    obtain ⟨q, hq, hx⟩ := Rect.mem_cover.1 hx
    exact (reservedRects_inside hv hmax q hq).subset hx
  have hzigzag : (zigzag v).toFinset =
      (Finset.range (side v) ×ˢ Finset.range (side v)) \ Rect.cover (reservedRects v) := by
    ext ⟨r, c⟩
    simp only [List.mem_toFinset, mem_zigzag hv, Finset.mem_sdiff, Finset.mem_product, Finset.mem_range, ← and_assoc]
    refine and_congr_right fun ⟨hr, hc⟩ => ?_
    rw [mem_cover_reservedRects hv hmax hr hc, Bool.not_eq_true]
  rw [← List.toFinset_card_of_nodup (zigzag_nodup v), hzigzag, ← Rect.card_cover (reservedRects_pairwise hv hmax),
    Finset.card_sdiff_add_card_eq_card hcover, Finset.card_product, Finset.card_range]

end

/-- The number of data modules by the areas. -/
def dataModuleCount (v : Nat) : Nat := side v * side v - ((reservedRects v).map Rect.area).sum

theorem zigzag_length {v : Nat} (hv : 1 ≤ v) (hmax : v ≤ 40) : (zigzag v).length = dataModuleCount v :=
  Nat.eq_sub_of_add_eq (zigzag_length_add_area hv hmax)

theorem dataModuleCount_table : ((List.range 40).map fun k => dataModuleCount (k + 1)) =
    [208, 359, 567, 807, 1079, 1383, 1568, 1936, 2336, 2768, 3232, 3728,
     4256, 4651, 5243, 5867, 6523, 7211, 7931, 8683, 9252, 10068, 10916, 11796,
     12708, 13652, 14628, 15371, 16411, 17483, 18587, 19723, 20891, 22091, 23008, 24272,
     25568, 26896, 28256, 29648] := by
  decide +kernel

theorem dataModuleCount_div_eight : ∀ u < 40, ∀ b ∈ baseRows[u]?, dataModuleCount (u + 1) / 8 = b.1 := by
  decide +kernel

/-- Settles O60: the data modules are those outside disjoint rectangles, whose areas are added up for each version. -/
theorem dataModulesHoldTheCodewords : Obligations.DataModulesHoldTheCodewords := by
  have hlen {k : Nat} (hk : k ∈ List.range 40) : (zigzag (k + 1)).length = dataModuleCount (k + 1) :=
    zigzag_length (Nat.le_add_left 1 k) (List.mem_range.1 hk)
  refine ⟨by decide +kernel, ?count, ?remainder, fun v hv hmax => ?codewords⟩
  case count =>
    refine (List.map_congr_left fun k hk => ?_).trans dataModuleCount_table
    have hside : 21 + 4 * k = side (k + 1) := by unfold side; omega
    rw [hside, ← zigzag_length_eq_sum (Nat.le_add_left 1 k), hlen hk]
  case remainder =>
    refine (List.map_congr_left fun k hk => congrArg (· % 8) (hlen hk)).trans ?_
    exact (List.map_map ..).symm.trans (congrArg (List.map (· % 8)) dataModuleCount_table)
  case codewords =>
    obtain ⟨u, rfl⟩ := Nat.exists_eq_add_of_le' hv
    have hbase := List.getElem?_eq_getElem (show u < baseRows.length from hmax)
    exact ⟨_, _, _, hbase, (congrArg (· / 8) (zigzag_length hv hmax)).trans (dataModuleCount_div_eight u hmax _ hbase)⟩

/-! ### The cursor (R941, R942) -/

theorem zigzag_length_lt {v : Nat} (hv : 1 ≤ v) (hmax : v ≤ 40) : (zigzag v).length < 2 ^ 15 := by
  have hlen := zigzag_length_add_area hv hmax
  have hside : side v ≤ 177 := by unfold side; omega
  have hsquare := Nat.mul_le_mul hside hside
  omega

/-- Settles O32: the coordinates fit the cursor's registers, for the symbol is at most 177 x 177. -/
theorem zigzagCursorWalksTheOrder : Obligations.ZigzagCursorWalksTheOrder := by
  refine ⟨fun s he hmat => (CommandEffect.zzReset hmat).exec_eq he he, fun s r c he hzz hv hmax hpos => ?_,
    fun s he hzz hend => (CommandEffect.zzDone hzz (List.getElem?_eq_none hend.ge)).exec_eq he he⟩
  obtain ⟨hr, hc⟩ := mem_zigzag_lt (List.mem_of_getElem? hpos)
  obtain ⟨hidx, -⟩ := List.getElem?_eq_some_iff.1 hpos
  have hlen := zigzag_length_lt hv hmax
  have hside : side s.entry.ver.toNat ≤ 177 := by unfold side; omega
  exact ⟨_, (CommandEffect.zzNext hzz hpos).exec_eq he he, Nat.mod_eq_of_lt (by omega), Nat.mod_eq_of_lt (by omega),
    Nat.mod_eq_of_lt (by omega), rfl⟩

end Sys2Proof.Machine
end

section
/-! SUPPORT. The four penalty rules (46_mask R1011 to R1014): the runs of a line are the groups it splits into, the
blocks and the finder-like patterns are counted over their starts, the balance is the source's formula. -/

-- One theorem at a time: each proof in flight holds a thread's whole stack.
set_option Elab.async false

namespace Sys2Proof.Machine

/-! ### Runs (R1011) -/

/-- The groups still to come from a line split in mid-run: the finished ones, then the runs of the rest. -/
theorem splitBy_loop_runPenalty (as : List Bool) (a : Bool) (run : List Bool) (done : List (List Bool)) :
    ((List.splitBy.loop (· == ·) as a run done).map fun g => runPenalty g.length).sum =
      (done.map fun g => runPenalty g.length).sum + runsFrom a (run.length + 1) as := by
  induction as generalizing a run done with
  | nil => simp [List.splitBy.loop, runsFrom]
  | cons b as ih =>
    by_cases h : b = a
    · subst h
      simp [List.splitBy.loop, runsFrom, ih]
    · have hab : (a == b) = false := by simpa using Ne.symm h
      simp [List.splitBy.loop, runsFrom, hab, h, ih]
      omega

theorem rule1Line_eq_splitBy (a : List Bool) :
    rule1Line a = ((a.splitBy (· == ·)).map fun run => runPenalty run.length).sum := by
  cases a with
  | nil => rfl
  | cons a as => simp [List.splitBy, rule1Line, splitBy_loop_runPenalty]

/-- Settles O34: splitting a line where its value changes closes a group exactly where `runsFrom` closes a run. -/
theorem ruleOneCountsMaximalRuns : Obligations.RuleOneCountsMaximalRuns :=
  ⟨rule1Line_eq_splitBy, fun _ => rfl⟩

/-! ### Counting over ranges -/

theorem countP_range_eq_card {p : Nat → Bool} {P : Nat → Prop} [DecidablePred P] {n : Nat}
    (h : ∀ i < n, p i = true ↔ P i) : (List.range n).countP p = ((Finset.range n).filter P).card := by
  have hcount : (List.range n).countP p = ((Finset.range n).filter fun i => p i = true).card := by
    rw [Finset.card_def, Finset.filter_val, ← Multiset.countP_eq_card_filter]
    simp [Multiset.range]
  rw [hcount, Finset.filter_congr fun i hi => h i (Finset.mem_range.1 hi)]

/-- A count over pairs, row by row. -/
theorem sum_countP_eq_card {p : Nat → Nat → Bool} {P : Nat × Nat → Prop} [DecidablePred P] {n : Nat}
    (h : ∀ r < n, ∀ c < n, p r c = true ↔ P (r, c)) :
    ((List.range n).map fun r => (List.range n).countP (p r)).sum =
      ((Finset.range n ×ˢ Finset.range n).filter P).card := by
  have hrow : ∀ r ∈ List.range n,
      (List.range n).countP (p r) = ((Finset.range n).filter fun c => P (r, c)).card := fun r hr =>
    countP_range_eq_card (h r (List.mem_range.1 hr))
  rw [List.map_congr_left hrow, Finset.card_filter, Finset.sum_product]
  simp only [Finset.card_filter]
  rfl

/-! ### Blocks (R1012) -/

/-- The value of module `(r, c)`. -/
def moduleValue (rows : List (List Bool)) (r c : Nat) : Bool := (rows.getD r []).getD c false

theorem moduleValue_eq {rows : List (List Bool)} (h : ∀ row ∈ rows, row.length = rows.length) {r c : Nat}
    (hr : r < rows.length) (hc : c < rows.length) :
    (rows[r]?.bind fun row => row[c]?) = some (moduleValue rows r c) := by
  have hrow : c < rows[r].length := (h _ (List.getElem_mem hr)).symm ▸ hc
  simp [moduleValue, hr, hrow]

/-- The block with its top left module at `(r, c)` has one value. -/
def isBlock (rows : List (List Bool)) (r c : Nat) : Bool :=
  moduleValue rows r c == moduleValue rows r (c + 1) && moduleValue rows r c == moduleValue rows (r + 1) c &&
    moduleValue rows r c == moduleValue rows (r + 1) (c + 1)

theorem isBlock_iff {rows : List (List Bool)} (h : ∀ row ∈ rows, row.length = rows.length) {r c : Nat}
    (hr : r + 1 < rows.length) (hc : c + 1 < rows.length) : isBlock rows r c = true ↔
      ∃ b, (rows[r]?.bind fun row => row[c]?) = some b ∧ (rows[r]?.bind fun row => row[c + 1]?) = some b ∧
        (rows[r + 1]?.bind fun row => row[c]?) = some b ∧ (rows[r + 1]?.bind fun row => row[c + 1]?) = some b := by
  have hr' := Nat.lt_of_succ_lt hr
  have hc' := Nat.lt_of_succ_lt hc
  rw [moduleValue_eq h hr' hc', moduleValue_eq h hr' hc, moduleValue_eq h hr hc', moduleValue_eq h hr hc]
  simp only [isBlock, Bool.and_eq_true, beq_iff_eq, Option.some.injEq, exists_eq_left, and_assoc,
    eq_comm (a := moduleValue rows r c)]

/-! ### Finder-like patterns (R1013) -/

/-- R1013's `g`: module `k` of a line, light out of bounds. -/
def lineModule (a : List Bool) (k : Int) : Bool := if 0 ≤ k then a.getD k.toNat false else false

theorem lineModule_add (a : List Bool) (s d : Nat) : lineModule a ((s : Int) + d) = a.getD (s + d) false :=
  if_pos (by omega)

theorem lineModule_sub (a : List Bool) (s d : Nat) :
    lineModule a ((s : Int) - d) = !(decide (s < d) || !(a.getD (s - d) false)) := by
  by_cases h : s < d
  · rw [lineModule, if_neg (by omega), decide_eq_true h]
    rfl
  · rw [lineModule, if_pos (by omega), decide_eq_false h, show ((s : Int) - d).toNat = s - d by omega, Bool.false_or,
      Bool.not_not]

theorem lightBefore_iff (a : List Bool) (s : Nat) : lightBefore a s = true ↔
    lineModule a ((s : Int) - 4) = false ∧ lineModule a ((s : Int) - 3) = false ∧
      lineModule a ((s : Int) - 2) = false ∧ lineModule a ((s : Int) - 1) = false := by
  have h4 := lineModule_sub a s 4
  have h3 := lineModule_sub a s 3
  have h2 := lineModule_sub a s 2
  have h1 := lineModule_sub a s 1
  simp only [Nat.cast_ofNat, Nat.cast_one] at h4 h3 h2 h1
  rw [h4, h3, h2, h1]
  simp only [lightBefore, List.all_cons, List.all_nil, Bool.and_true, Bool.and_eq_true, Bool.not_eq_false']
  tauto

theorem lightFrom_iff (a : List Bool) (s : Nat) : lightFrom a (s + 7) = true ↔
    lineModule a ((s : Int) + 7) = false ∧ lineModule a ((s : Int) + 8) = false ∧
      lineModule a ((s : Int) + 9) = false ∧ lineModule a ((s : Int) + 10) = false := by
  have h7 := lineModule_add a s 7
  have h8 := lineModule_add a s 8
  have h9 := lineModule_add a s 9
  have h10 := lineModule_add a s 10
  simp only [Nat.cast_ofNat] at h7 h8 h9 h10
  rw [h7, h8, h9, h10]
  simp [lightFrom]

theorem finderLike_iff (a : List Bool) (s : Nat) : (a.drop s).take 7 = finderLike ↔
    ∀ k : Nat, k < 7 → a[s + k]? = finderLike[k]? := by
  constructor
  · intro h k hk
    rw [← h, List.getElem?_take_of_lt hk, List.getElem?_drop]
  · refine fun h => List.ext_getElem? fun k => ?_
    by_cases hk : k < 7
    · rw [List.getElem?_take_of_lt hk, List.getElem?_drop, h k hk]
    · rw [List.getElem?_take_eq_none (Nat.le_of_not_lt hk), List.getElem?_eq_none (Nat.le_of_not_lt hk)]

/-- An occurrence of the pattern with light modules before or after it starts at `s`. -/
def isFinderLike (a : List Bool) (s : Nat) : Bool :=
  (a.drop s).take 7 == finderLike && (lightBefore a s || lightFrom a (s + 7))

theorem isFinderLike_iff (a : List Bool) (s : Nat) : isFinderLike a s = true ↔
    (∀ k : Nat, k < 7 → a[s + k]? = finderLike[k]?) ∧
      ((lineModule a ((s : Int) - 4) = false ∧ lineModule a ((s : Int) - 3) = false ∧
          lineModule a ((s : Int) - 2) = false ∧ lineModule a ((s : Int) - 1) = false) ∨
        (lineModule a ((s : Int) + 7) = false ∧ lineModule a ((s : Int) + 8) = false ∧
          lineModule a ((s : Int) + 9) = false ∧ lineModule a ((s : Int) + 10) = false)) := by
  rw [isFinderLike, Bool.and_eq_true, Bool.or_eq_true, beq_iff_eq, finderLike_iff, lightBefore_iff, lightFrom_iff]

/-- Settles O35: both rules count their starts, and at a start the tests are the listed ones. -/
theorem rulesTwoAndThreeCount : Obligations.RulesTwoAndThreeCount := by
  refine ⟨fun rows h => ?blocks, fun a _ => ?patterns, fun _ => ⟨rfl, rfl⟩⟩
  case blocks =>
    exact congrArg (3 * ·) (sum_countP_eq_card (p := isBlock rows) fun r hr c hc =>
      isBlock_iff h (by omega) (by omega))
  case patterns =>
    exact congrArg (40 * ·) (countP_range_eq_card (p := isFinderLike a) fun s _ => isFinderLike_iff a s)

/-! ### The balance (R1014) -/

theorem natCast_gap (a b : Nat) : (gap a b : Int) = |(a : Int) - b| := by
  rw [← natAbs_sub_eq_gap, Int.natCast_natAbs]

theorem rule4_eq (dark S : Nat) :
    (rule4 dark S : Int) =
      40 * min |((20 * dark / (S * S) : Nat) : Int) - 10| |((20 * dark / (S * S) : Nat) : Int) - 9| := by
  have h (k : Nat) : ((40 * min (gap k 10) (gap k 9) : Nat) : Int) = 40 * min |(k : Int) - 10| |(k : Int) - 9| := by
    push_cast [natCast_gap]
    rfl
  exact h _

/-- The source's formula: its distances to 50 are five times those of `k` to 10 and 9. -/
theorem min_abs_five_mul (k : Int) : min |5 * k - 50| |5 * k + 5 - 50| / 5 = min |k - 10| |k - 9| := by
  have h10 : |5 * k - 50| = 5 * |k - 10| := by
    rw [show 5 * k - 50 = 5 * (k - 10) by ring, abs_mul, abs_of_pos (by decide)]
  have h9 : |5 * k + 5 - 50| = 5 * |k - 9| := by
    rw [show 5 * k + 5 - 50 = 5 * (k - 9) by ring, abs_mul, abs_of_pos (by decide)]
  rw [h10, h9, ← mul_min_of_nonneg _ _ (by decide), Int.mul_ediv_cancel_left _ (by decide)]

theorem rule4_eq_zero_iff {dark S : Nat} (hS : 1 ≤ S) :
    rule4 dark S = 0 ↔ 45 * (S * S) ≤ 100 * dark ∧ 100 * dark < 55 * (S * S) := by
  have hpos : 0 < S * S := Nat.mul_pos hS hS
  have hzero (k : Nat) : 40 * min (gap k 10) (gap k 9) = 0 ↔ 9 ≤ k ∧ k < 11 := by
    unfold gap
    omega
  refine (hzero _).trans ?_
  rw [Nat.le_div_iff_mul_le hpos, Nat.div_lt_iff_lt_mul hpos]
  omega

/-- Settles O36: `k` counts steps of 5 percent, and the distances of the two ends of its step to 50 are multiples
of 5. -/
theorem ruleFourIsTheBalance : Obligations.RuleFourIsTheBalance := by
  refine fun dark S hS _ => ⟨⟨rule4_eq dark S, ?_⟩, ?_, rule4_eq_zero_iff hS⟩
  · rw [min_abs_five_mul]
    exact rule4_eq dark S
  · rw [Nat.div_div_eq_div_mul, Nat.mul_comm (S * S) 5, show 100 * dark = 5 * (20 * dark) by omega,
      Nat.mul_div_mul_left _ _ (by decide)]

end Sys2Proof.Machine
end

section
/-! SUPPORT. The bounds of the penalties (46_mask R1016): rule by rule for one line, one symbol, one dark count, and
from them for a symbol of at most 177 rows. -/

-- One theorem at a time: each proof in flight holds a thread's whole stack.
set_option Elab.async false

namespace Sys2Proof.Machine

/-! ### One line -/

/-- A run of `run` modules costs at most `run - 2`. -/
theorem runsFrom_le (a : Bool) (run : Nat) (as : List Bool) : runsFrom a run as ≤ run + as.length - 2 := by
  have hrun (n : Nat) : runPenalty n ≤ n - 2 := by
    unfold runPenalty
    split
    · simp only [Config.n1]
      omega
    · omega
  induction as generalizing a run with
  | nil => exact hrun run
  | cons b as ih =>
    rw [runsFrom, List.length_cons]
    split
    · exact (ih a (run + 1)).trans (by omega)
    · have hlast := hrun run
      have hrest := ih b 1
      omega

theorem rule1Line_le (a : List Bool) : rule1Line a ≤ a.length - 2 := by
  cases a with
  | nil => exact Nat.zero_le _
  | cons a as => exact (runsFrom_le a 1 as).trans (by rw [List.length_cons]; omega)

theorem rule3Line_le (a : List Bool) : rule3Line a ≤ 40 * (a.length - 6) :=
  Nat.mul_le_mul_left 40 (List.countP_le_length.trans List.length_range.le)

/-! ### One symbol -/

theorem columnsOf_length (rows : List (List Bool)) : (columnsOf rows).length = rows.length := by
  simp [columnsOf]

theorem length_of_mem_columnsOf {rows : List (List Bool)} {l : List Bool} (h : l ∈ columnsOf rows) :
    l.length = rows.length := by
  obtain ⟨c, -, rfl⟩ := List.mem_map.1 h
  exact List.length_map _

section
variable {rows : List (List Bool)} (h : ∀ row ∈ rows, row.length = rows.length)
include h

theorem length_of_mem_lines {l : List Bool} (hl : l ∈ rows ++ columnsOf rows) : l.length = rows.length :=
  (List.mem_append.1 hl).elim (h l) length_of_mem_columnsOf

/-- The sum over the lines of a rule that costs a line at most `b`. -/
theorem sum_lines_le {f : List Bool → Nat} {b : Nat} (hf : ∀ l : List Bool, l.length = rows.length → f l ≤ b) :
    ((rows ++ columnsOf rows).map f).sum ≤ 2 * rows.length * b := by
  have hsum : ((rows ++ columnsOf rows).map f).sum ≤ ((rows ++ columnsOf rows).map f).length • b :=
    List.sum_le_card_nsmul _ _ fun x hx => by
      obtain ⟨l, hl, rfl⟩ := List.mem_map.1 hx
      exact hf l (length_of_mem_lines h hl)
  rwa [List.length_map, List.length_append, columnsOf_length, ← Nat.two_mul, smul_eq_mul] at hsum

theorem sum_rule1Line_le : ((rows ++ columnsOf rows).map rule1Line).sum ≤ 2 * rows.length * (rows.length - 2) :=
  sum_lines_le h fun l hl => hl ▸ rule1Line_le l

theorem sum_rule3Line_le :
    ((rows ++ columnsOf rows).map rule3Line).sum ≤ 2 * rows.length * (40 * (rows.length - 6)) :=
  sum_lines_le h fun l hl => hl ▸ rule3Line_le l

theorem sum_dark_le : (rows.map fun row => row.countP id).sum ≤ rows.length * rows.length := by
  have hsum : (rows.map fun row => row.countP id).sum ≤ (rows.map fun row => row.countP id).length • rows.length :=
    List.sum_le_card_nsmul _ _ fun x hx => by
      obtain ⟨row, hrow, rfl⟩ := List.mem_map.1 hx
      exact List.countP_le_length.trans (h row hrow).le
  rwa [List.length_map, smul_eq_mul] at hsum

end

theorem rule2_le (rows : List (List Bool)) : rule2 rows ≤ 3 * ((rows.length - 1) * (rows.length - 1)) := by
  refine Nat.mul_le_mul_left 3 ((sum_countP_eq_card (p := isBlock rows)
    (P := fun p => isBlock rows p.1 p.2 = true) fun _ _ _ _ => Iff.rfl).trans_le ?_)
  refine (Finset.card_filter_le _ _).trans_eq ?_
  rw [Finset.card_product, Finset.card_range]

theorem rule4_le {dark S : Nat} (h : dark ≤ S * S) : rule4 dark S ≤ 400 := by
  have hk : 20 * dark / (S * S) ≤ 20 := Nat.div_le_of_le_mul (by rw [Nat.mul_comm]; exact Nat.mul_le_mul_right 20 h)
  have hmin : ∀ k ≤ 20, 40 * min (gap k 10) (gap k 9) ≤ 400 := by decide
  exact hmin _ hk

/-! ### The registers (R1016, 10_state R120) -/

/-- Settles O37: the bounds grow with the side, so those of 177 rows hold, and their sum is below `2^22`. -/
theorem scoreIsBounded : Obligations.ScoreIsBounded := by
  intro rows _ hmax h p1 p3 dark
  have h1 : p1 ≤ 61950 :=
    (sum_rule1Line_le h).trans (Nat.mul_le_mul (show 2 * rows.length ≤ 354 by omega) (show _ ≤ 175 by omega))
  have h2 : rule2 rows ≤ 92928 :=
    (rule2_le rows).trans (Nat.mul_le_mul_left 3 (Nat.mul_le_mul (show _ ≤ 176 by omega) (show _ ≤ 176 by omega)))
  have h3 : p3 ≤ 2421360 :=
    (sum_rule3Line_le h).trans (Nat.mul_le_mul (show 2 * rows.length ≤ 354 by omega) (show _ ≤ 6840 by omega))
  have h4 : rule4 dark rows.length ≤ 400 := rule4_le (sum_dark_le h)
  have hdark : dark ≤ 31329 := (sum_dark_le h).trans (Nat.mul_le_mul hmax hmax)
  have hsum : p1 + rule2 rows + p3 + rule4 dark rows.length ≤ 61950 + 92928 + 2421360 + 400 :=
    Nat.add_le_add (Nat.add_le_add (Nat.add_le_add h1 h2) h3) h4
  have hword {n b : Nat} (hn : n ≤ b) (hb : b < 2 ^ 32) : (BitVec.ofNat 32 n).toNat = n :=
    BitVec.toNat_ofNat n 32 ▸ Nat.mod_eq_of_lt (hn.trans_lt hb)
  have htotal : (scoreOf rows).ptotal.toNat = p1 + rule2 rows + p3 + rule4 dark rows.length :=
    hword hsum (by decide)
  exact ⟨h1, h2, h3, h4, hdark, hword h1 (by decide), hword h2 (by decide), hword h3 (by decide), hword h4 (by decide),
    BitVec.toNat_ofNat dark 15 ▸ Nat.mod_eq_of_lt (hdark.trans_lt (by decide)), htotal,
    htotal.trans_lt (hsum.trans_lt (by decide))⟩

end Sys2Proof.Machine
end

section
/-! SUPPORT. Placement (46_mask R1001 to R1005): the data modules and the format modules lie apart, so each shows what
is written there, and every other cell stays that of `MAT`. -/

-- One theorem at a time: each proof in flight holds a thread's whole stack.
set_option Elab.async false

namespace Sys2Proof.Machine

/-! ### Writes over cells -/

/-- An overlay shows each of its writes when no index is written twice. -/
theorem overlay_getElem?_of_mem {cells : List Byte} {ws : List (Nat × Byte)} {k : Nat} {b : Byte}
    (hnodup : (ws.map Prod.fst).Nodup) (hmem : (k, b) ∈ ws) (hk : k < cells.length) :
    (overlay cells ws)[k]? = some b := by
  induction ws generalizing cells with
  | nil => cases hmem
  | cons w ws ih =>
    obtain ⟨hnot, hnodup⟩ := List.nodup_cons.1 hnodup
    show (overlay (cells.set w.1 w.2) ws)[k]? = some b
    obtain rfl | hmem := List.mem_cons.1 hmem
    · rw [overlay_getElem?_of_notMem fun w hw hwk => hnot (List.mem_map.2 ⟨w, hw, hwk⟩), List.getElem?_set_self hk]
    · exact ih hnodup hmem (by rwa [List.length_set])

theorem cellIndex_inj {p q : Nat × Nat} (hp : p.2 < 177) (hq : q.2 < 177) (h : cellIndex p = cellIndex q) : p = q := by
  unfold cellIndex at h
  simp only [Config.sideMax] at h
  exact Prod.ext (by omega) (by omega)

theorem Memory.Written.readList {m : Memory} {w : Window} {n : Nat} (h : m.Written w n) (hm : m.wf = true)
    (hn : n ≤ w.size) : ∃ vals, m.readList w 0 n = .ok vals :=
  Memory.readList_ok hm ((Nat.zero_add n).trans_le hn) fun k hk => h (0 + k) ((Nat.zero_add k).trans_lt hk)

/-! ### The data modules -/

theorem dataWrites_map_fst (m : BitVec 3) (ilv : Array Byte) (t : Nat) (ps : List (Nat × Nat)) :
    (dataWrites m ilv t ps).map Prod.fst = ps.map cellIndex := by
  induction ps generalizing t with
  | nil => rfl
  | cons p ps ih => simp [dataWrites, ih]

theorem cell_shade_data (b : Bool) : cell (shade b) false = if b = true then 1#8 else 0#8 := by
  cases b <;> rfl

/-- The write of the module at place `n` of the order. -/
theorem mem_dataWrites (m : BitVec 3) (ilv : Array Byte) (t : Nat) {ps : List (Nat × Nat)} {n : Nat} {p : Nat × Nat}
    (h : ps[n]? = some p) :
    (cellIndex p, cell (shade (ilvBit ilv (t + n) ^^ maskBit m p.1 p.2)) false) ∈ dataWrites m ilv t ps := by
  induction ps generalizing t n with
  | nil => cases h
  | cons q ps ih =>
    cases n with
    | zero =>
      cases h
      exact List.mem_cons_self
    | succ n =>
      have hmem := ih (t + 1) (n := n) h
      rw [show t + 1 + n = t + (n + 1) by omega] at hmem
      exact List.mem_cons_of_mem _ hmem

/-- Bit `n` of the stream is that of the byte read at `n / 8`, most significant bit first. -/
theorem ilvBit_of_read {mem : Memory} (hm : mem.wf = true) {len : Nat} (hlen : len ≤ Window.size .ilv) {ilv : List Byte}
    (h : mem.readList .ilv 0 len = .ok ilv) {n : Nat} (hn : n < 8 * len) :
    (mem.read? .ilv (n / 8)).map (fun b => b.getLsbD (7 - n % 8)) = some (ilvBit ilv.toArray n) := by
  obtain ⟨hilv, hget⟩ := (Memory.readList_eq_ok hm (by omega)).1 h
  have hbyte := hget (n / 8) (by omega)
  have hlt : n / 8 < ilv.length := by omega
  rw [Nat.zero_add] at hbyte
  simp [hbyte, ilvBit, hlt]

/-- Past the last codeword the bit is 0 (R1003). -/
theorem ilvBit_past {ilv : List Byte} {n : Nat} (h : 8 * ilv.length ≤ n) : ilvBit ilv.toArray n = false := by
  have hge : ilv.length ≤ n / 8 := by omega
  simp [ilvBit, hge]

/-! ### The format modules -/

/-- The modules of both copies of the format word (R909). -/
def formatModules (v : Nat) : List (Nat × Nat) := (List.range 15).flatMap fun i => [formatA i, formatB v i]

theorem mem_formatModules {v : Nat} {p : Nat × Nat} :
    p ∈ formatModules v ↔ ∃ i < 15, p ∈ [formatA i, formatB v i] := by
  simp [formatModules]

theorem formatA_inj : ∀ i < 15, ∀ j < 15, formatA i = formatA j → i = j := by
  decide

/-- The first copy is in the top left 9 x 9 modules. -/
theorem formatA_le : ∀ i < 15, (formatA i).1 ≤ 8 ∧ (formatA i).2 ≤ 8 := by
  decide

theorem isFormat_of_mem {v : Nat} {p : Nat × Nat} (h : p ∈ formatModules v) : isFormat v p.1 p.2 = true := by
  obtain ⟨i, hi, hp⟩ := mem_formatModules.1 h
  obtain rfl | hp := List.mem_cons.1 hp
  · exact isFormat_formatA hi
  · obtain rfl := List.mem_singleton.1 hp
    exact isFormat_formatB hi

theorem formatWrites_map_fst (v : Nat) (f : BitVec 15) :
    (formatWrites v f).map Prod.fst = (formatModules v).map cellIndex := by
  simp [formatWrites, formatModules, List.map_flatMap]

theorem mem_formatWrites {v i : Nat} {f : BitVec 15} {p : Nat × Nat} (hi : i < 15) (hp : p ∈ [formatA i, formatB v i]) :
    (cellIndex p, cell (shade (f.getLsbD i)) true) ∈ formatWrites v f := by
  refine List.mem_flatMap.2 ⟨i, List.mem_range.2 hi, ?_⟩
  simp only [List.mem_cons, List.not_mem_nil, or_false] at hp ⊢
  exact hp.imp (fun h => by rw [h]) (fun h => by rw [h])

/-! ### The candidate's cells -/

section
variable {v : Nat} (hv : 1 ≤ v)
include hv

theorem formatB_inj {i j : Nat} (h : formatB v i = formatB v j) (hi : i < 15) (hj : j < 15) : i = j := by
  have hS := side_ge hv
  unfold formatB at h
  split_ifs at h <;> simp only [Prod.mk.injEq] at h <;> omega

/-- The second copy is outside the top left 9 x 9 modules. -/
theorem formatB_gt {i : Nat} (hi : i < 15) : 8 < (formatB v i).1 ∨ 8 < (formatB v i).2 := by
  have hS := side_ge hv
  unfold formatB
  split
  · exact .inr (show 8 < side v - 1 - i by omega)
  · exact .inl (show 8 < side v - 15 + i by omega)

theorem formatA_ne_formatB {i j : Nat} (hi : i < 15) (hj : j < 15) : formatA i ≠ formatB v j := fun h => by
  have hle := formatA_le i hi
  have hgt := formatB_gt hv hj
  rw [← h] at hgt
  omega

theorem formatModules_nodup : (formatModules v).Nodup := by
  refine List.nodup_flatMap.2 ⟨fun i hi => ?_, List.nodup_range.pairwise_of_forall_ne fun i hi j hj hij => ?_⟩
  · have hi := List.mem_range.1 hi
    simpa using formatA_ne_formatB hv hi hi
  · have hi := List.mem_range.1 hi
    have hj := List.mem_range.1 hj
    have hA : formatA i ≠ formatA j := fun h => hij (formatA_inj i hi j hj h)
    have hB : formatB v i ≠ formatB v j := fun h => hij (formatB_inj hv h hi hj)
    simp [Function.onFun, hA.symm, hB.symm, formatA_ne_formatB hv hj hi, (formatA_ne_formatB hv hi hj).symm]

theorem formatModule_lt {p : Nat × Nat} (h : p ∈ formatModules v) : p.1 < side v ∧ p.2 < side v := by
  have hS := side_ge hv
  have hplace := (isFormat_iff hv).1 (isFormat_of_mem h)
  omega

/-- The format modules are reserved, so no data module is one of them. -/
theorem zigzag_disjoint_formatModules : List.Disjoint (zigzag v) (formatModules v) := by
  intro p hdata hformat
  obtain ⟨-, -, hfree⟩ := (mem_zigzag hv).1 hdata
  have hplace := (isFormat_iff hv).1 (isFormat_of_mem hformat)
  refine Bool.eq_false_iff.1 hfree (reserved_iff.2 (.inl ?_))
  unfold InFixedArea
  omega

variable (hmax : v ≤ 40)
include hmax

theorem placedModule_lt {p : Nat × Nat} (h : p ∈ zigzag v ++ formatModules v) : p.1 < 177 ∧ p.2 < 177 := by
  have hlt : p.1 < side v ∧ p.2 < side v := (List.mem_append.1 h).elim mem_zigzag_lt (formatModule_lt hv)
  unfold side at hlt
  omega

variable (f : BitVec 15) (m : BitVec 3) (ilv : Array Byte)

/-- `PLACE` writes no cell twice. -/
theorem placedWrites_nodup : ((dataWrites m ilv 0 (zigzag v) ++ formatWrites v f).map Prod.fst).Nodup := by
  rw [List.map_append, dataWrites_map_fst, formatWrites_map_fst, ← List.map_append]
  refine List.Nodup.map_on (fun p hp q hq => ?_) ?_
  · exact cellIndex_inj (placedModule_lt hv hmax hp).2 (placedModule_lt hv hmax hq).2
  · exact (zigzag_nodup v).append (formatModules_nodup hv) (zigzag_disjoint_formatModules hv)

/-- Each cell `PLACE` writes shows what it writes there. -/
theorem placedCells_of_mem {ilv mat : List Byte} (hmat : mat.length = 31329) {p : Nat × Nat} {b : Byte}
    (hp : p ∈ zigzag v ++ formatModules v)
    (h : (cellIndex p, b) ∈ dataWrites m ilv.toArray 0 (zigzag v) ++ formatWrites v f) :
    (placedCells v f m ilv mat)[p.1 * 177 + p.2]? = some b := by
  have hlt := placedModule_lt hv hmax hp
  refine overlay_getElem?_of_mem (placedWrites_nodup hv hmax f m _) h ?_
  show p.1 * 177 + p.2 < _
  omega

/-- Data module `n` of the order shows bit `n` of the stream under the mask. -/
theorem placedCells_data {ilv mat : List Byte} (hmat : mat.length = 31329) {n : Nat} {p : Nat × Nat}
    (hn : (zigzag v)[n]? = some p) : (placedCells v f m ilv mat)[p.1 * 177 + p.2]? =
      some (if (ilvBit ilv.toArray n ^^ maskBit m p.1 p.2) = true then 1#8 else 0#8) := by
  have hwrite := mem_dataWrites m ilv.toArray 0 hn
  rw [Nat.zero_add, cell_shade_data] at hwrite
  exact placedCells_of_mem hv hmax f m hmat (List.mem_append_left _ (List.mem_of_getElem? hn))
    (List.mem_append_left _ hwrite)

/-- The modules of bit `i` of the format word show it. -/
theorem placedCells_format {ilv mat : List Byte} (hmat : mat.length = 31329) {i : Nat} (hi : i < 15) {p : Nat × Nat}
    (hp : p ∈ [formatA i, formatB v i]) : (placedCells v f m ilv mat)[p.1 * 177 + p.2]? =
      some (if f.getLsbD i then 5#8 else 4#8) := by
  rw [← cell_shade]
  exact placedCells_of_mem hv hmax f m hmat (List.mem_append_right _ (mem_formatModules.2 ⟨i, hi, hp⟩))
    (List.mem_append_right _ (mem_formatWrites hi hp))

/-- Every other cell is that of `MAT`. -/
theorem placedCells_other (ilv mat : List Byte) {p : Nat × Nat} (hc : p.2 < 177) (hdata : p ∉ zigzag v)
    (hformat : p ∉ formatModules v) : (placedCells v f m ilv mat)[p.1 * 177 + p.2]? = mat[p.1 * 177 + p.2]? := by
  refine overlay_getElem?_of_notMem fun w hw hindex => ?_
  have hkey := List.mem_map_of_mem (f := Prod.fst) hw
  rw [List.map_append, dataWrites_map_fst, formatWrites_map_fst, ← List.map_append] at hkey
  obtain ⟨q, hq, hqw⟩ := List.mem_map.1 hkey
  have hp : q = p := cellIndex_inj (placedModule_lt hv hmax hq).2 hc (hqw.trans hindex)
  exact (List.mem_append.1 hq).elim (hp ▸ hdata) (hp ▸ hformat)

end

/-! ### The command (R1005) -/

/-- The state `PLACE m` leaves with memory `mem`. -/
def State.placed (s : State) (m : BitVec 3) (mem : Memory) : State :=
  (((s.setMem mem).setFmt (formatWord s.entry.secl m)).setWmMask m).setStatus s.status.setPlaced

theorem State.placed_eq (s : State) (m : BitVec 3) (mem : Memory) : s.placed m mem =
    { s with mem := mem, fmtWord := formatWord s.entry.secl m, wmMask := m
             status := { s.status with scV := false, wmV := true } } := rfl

theorem placeMask_of_reads {s : State} {mat ilv : List Byte} (hmat : s.mem.readList .mat 0 Config.cellCap = .ok mat)
    (hilv : s.mem.readList .ilv 0 s.entry.totalCw.toNat = .ok ilv) (m : BitVec 3) : placeMask m s = .ok (s.placed m
      (s.mem.writeList .wm 0 (placedCells s.entry.ver.toNat (formatWord s.entry.secl m) m ilv mat))) := by
  simp only [placeMask, hmat, hilv, State.placed]

/-- Settles O33: the writes of `PLACE` name different cells, the data modules' in zigzag order and the format modules',
which are reserved. -/
theorem placeBuildsTheCandidate : Obligations.PlaceBuildsTheCandidate := by
  refine ⟨fun i j => ⟨beq_iff_eq, beq_iff_eq, beq_iff_eq, beq_iff_eq, beq_iff_eq, beq_iff_eq, beq_iff_eq, beq_iff_eq⟩,
    fun s m he hmat hilv hwf hv hmax htotal hmatWritten hilvWritten => ?_⟩
  obtain ⟨mat, hreadMat⟩ := hmatWritten.readList hwf le_rfl
  obtain ⟨ilv, hreadIlv⟩ := hilvWritten.readList hwf htotal
  obtain ⟨hmatLen, hmatGet⟩ := (Memory.readList_eq_ok hwf (w := .mat) le_rfl).1 hreadMat
  obtain ⟨hilvLen, -⟩ := (Memory.readList_eq_ok hwf ((Nat.zero_add _).trans_le htotal)).1 hreadIlv
  have hplace := CommandEffect.place hmat hilv (placeMask_of_reads hreadMat hreadIlv m)
  have hlen := (placedCells_length s.entry.ver.toNat (formatWord s.entry.secl m) m ilv mat).trans hmatLen
  have hread {r c : Nat} (hr : r < 177) (hc : c < 177) :=
    s.mem.read?_writeList_zero (w := .wm) (k := r * 177 + c) (by rw [hlen]; omega) hlen.le
  refine ⟨_, hplace.exec_eq he he, s.placed_eq m _, fun n r c hn => ?data, fun i hi p hp => ?format,
    fun r c hr hc hdata hformat => ?other, fun w hw => Memory.window_writeList_ne hw _ 0 _⟩
  case data =>
    obtain ⟨hr, hc⟩ := placedModule_lt hv hmax (List.mem_append_left _ (List.mem_of_getElem? hn))
    refine ⟨ilvBit ilv.toArray n, ilvBit_of_read hwf htotal hreadIlv, fun h => ilvBit_past (hilvLen.symm ▸ h), ?_⟩
    exact (hread hr hc).trans (placedCells_data hv hmax _ m hmatLen hn)
  case format =>
    obtain ⟨hr, hc⟩ := placedModule_lt hv hmax (List.mem_append_right _ (mem_formatModules.2 ⟨i, hi, hp⟩))
    exact (hread hr hc).trans (placedCells_format hv hmax _ m hmatLen hi hp)
  case other =>
    have hnot : (r, c) ∉ formatModules s.entry.ver.toNat := fun h => by
      obtain ⟨i, hi, hp⟩ := mem_formatModules.1 h
      exact (List.mem_cons.1 hp).elim (hformat i hi).1 fun h => (hformat i hi).2 (List.mem_singleton.1 h)
    have hcell := hmatGet (r * 177 + c) (by omega)
    rw [Nat.zero_add] at hcell
    exact (hread hr hc).trans ((placedCells_other hv hmax _ m ilv mat hc hdata hnot).trans hcell.symm)

end Sys2Proof.Machine
end

section
/-! SUPPORT. Scoring and selection (46_mask R1010, R1015, R1020, R1021): the lines scored are the rows and columns of
the symbol in `WM`; a selection is eight trials, the best of them and that one again. -/

-- One theorem at a time: each proof in flight holds a thread's whole stack.
set_option Elab.async false

namespace Sys2Proof.Machine

/-! ### The lines of a symbol (R1010) -/

/-- The columns are the transpose of the rows. -/
theorem columnsOf_getElem? {rows : List (List Bool)} (h : ∀ row ∈ rows, row.length = rows.length) {r c : Nat}
    (hr : r < rows.length) (hc : c < rows.length) :
    ((columnsOf rows)[c]?.bind fun l => l[r]?) = (rows[r]?.bind fun row => row[c]?) := by
  rw [moduleValue_eq h hr hc]
  simp [columnsOf, moduleValue, hr, hc]

theorem isDark_eq (b : Byte) : isDark b = decide (b.toNat % 4 = 1) := by
  revert b
  decide

theorem symbolRows_getElem? (cells : List Byte) {S r c : Nat} (hr : r < S) (hc : c < S) :
    ((symbolRows S cells)[r]?.bind fun row => row[c]?) = cells[r * 177 + c]?.map isDark := by
  simp [symbolRows, hr, List.getElem?_take_of_lt hc, List.getElem?_drop]

theorem side_le_of_ver_le {v : Nat} (h : v ≤ 40) : side v ≤ Config.sideMax := by
  unfold side
  simp only [Config.sideMax]
  omega

/-! ### The command (R1015) -/

/-- Settles O38: the rows read from `WM` are the symbol's, and `SCORE` stores their score. -/
theorem scoreScoresTheSymbol : Obligations.ScoreScoresTheSymbol := by
  refine ⟨fun rows h => ⟨columnsOf_length rows, fun _ => length_of_mem_columnsOf, fun r c => columnsOf_getElem? h⟩, ?_⟩
  intro s cells he hwm hwf hmax hread rows
  refine ⟨fun r c hr hc => ?_, ?_⟩
  · obtain ⟨-, hget⟩ := (Memory.readList_eq_ok hwf (w := .wm) le_rfl).1 hread
    have hcell := hget (r * 177 + c) (by omega)
    rw [Nat.zero_add] at hcell
    rw [hcell]
    exact (symbolRows_getElem? cells hr hc).trans (congrArg (Option.map · _) (funext isDark_eq))
  · have hscore : scoreMask s = .ok (((s.setScore (scoreOf rows)).setPen s.wmMask (scoreOf rows).ptotal).setStatus
        (s.status.setScored s.wmMask)) := by
      simp only [scoreMask, readRows_eq_symbolRows hwf hread (side_le_of_ver_le hmax)]
      rfl
    exact (CommandEffect.score hwm hscore).exec_eq he he

/-! ### Trials (R1020) -/

theorem State.Tries.score_eq {s : State} {x : Trial} (h : s.Tries x) (hwf : s.mem.wf = true)
    (hmax : s.entry.ver.toNat ≤ 40) : x.score = scoreOf (symbolRows (side s.entry.ver.toNat) x.cells) := by
  obtain ⟨rows, hrows, hscore⟩ := h.scored
  rw [readRows_eq_symbolRows (Memory.wf_writeList _ _ _ hwf)
    (Memory.readList_stored (w := .wm) hwf h.length.symm le_rfl) (side_le_of_ver_le hmax)] at hrows
  cases hrows
  exact hscore

theorem State.Tries.total {s : State} {x : Trial} (h : s.Tries x) (hwf : s.mem.wf = true)
    (hmax : s.entry.ver.toNat ≤ 40) : s.candidateTotal x.mask = some x.score.ptotal := by
  simp only [State.candidateTotal, h.candidate, h.score_eq hwf hmax]

/-- With `MAT` and `ILV` written, every mask can be tried. -/
theorem exists_trial {s : State} (hwf : s.mem.wf = true) (hmax : s.entry.ver.toNat ≤ 40)
    (htotal : s.entry.totalCw.toNat ≤ 3706) (hmat : s.mem.Written .mat Config.cellCap)
    (hilv : s.mem.Written .ilv s.entry.totalCw.toNat) (m : BitVec 3) : ∃ x : Trial, x.mask = m ∧ s.Tries x := by
  obtain ⟨mat, hreadMat⟩ := hmat.readList hwf le_rfl
  obtain ⟨ilv, hreadIlv⟩ := hilv.readList hwf htotal
  have hcand : s.candidate m = .ok (placedCells s.entry.ver.toNat (formatWord s.entry.secl m) m ilv mat) := by
    simp only [State.candidate, hreadMat, hreadIlv]
  have hlen := (placedCells_length s.entry.ver.toNat (formatWord s.entry.secl m) m ilv mat).trans
    ((Memory.readList_eq_ok hwf (w := .mat) le_rfl).1 hreadMat).1
  generalize placedCells s.entry.ver.toNat (formatWord s.entry.secl m) m ilv mat = cells at hcand hlen
  exact ⟨⟨m, cells, scoreOf (symbolRows (side s.entry.ver.toNat) cells)⟩, rfl, hcand, hlen, _,
    readRows_eq_symbolRows (Memory.wf_writeList _ _ _ hwf) (Memory.readList_stored (w := .wm) hwf hlen.symm le_rfl)
      (side_le_of_ver_le hmax), rfl⟩

section
variable {x : BitVec 3 → Trial} (hmask : ∀ m, (x m).mask = m)
include hmask

/-- Each tried mask's penalty is its trial's total, whatever is tried after it; the others are kept. -/
theorem State.afterTrials_pen_getElem (s : State) (ms : List (BitVec 3)) (m : BitVec 3) :
    (s.afterTrials (ms.map x)).pen[m.toNat]'m.isLt =
      if m ∈ ms then (x m).score.ptotal else s.pen[m.toNat]'m.isLt := by
  induction ms generalizing s with
  | nil => rfl
  | cons k ms ih =>
    rw [List.map_cons, State.afterTrials_cons, ih]
    by_cases hm : m ∈ ms
    · rw [if_pos hm, if_pos (List.mem_cons_of_mem k hm)]
    · rw [if_neg hm]
      simp only [State.afterTrial_pen, hmask]
      by_cases hk : m = k
      · subst hk
        rw [if_pos List.mem_cons_self, Vector.getElem_set_self]
      · have hne : k.toNat ≠ m.toNat := fun h => hk (BitVec.eq_of_toNat_eq h.symm)
        rw [if_neg (by simp [hk, hm]), Vector.getElem_set_ne _ m.isLt hne]

/-- The replacement rule of R1020 keeps the best trial, the lowest mask on a tie. -/
theorem bestTrial_bestOf {seen ms : List (BitVec 3)} {best : Option (BitVec 3 × Word)}
    (h : BestOf (fun m => some (x m).score.ptotal) seen best)
    (hsorted : (seen ++ ms).Pairwise (·.toNat < ·.toNat)) :
    BestOf (fun m => some (x m).score.ptotal) (seen ++ ms) (bestTrial best (ms.map x)) := by
  induction ms generalizing seen best with
  | nil => rwa [List.append_nil]
  | cons m ms ih =>
    have hhigh : ∀ k ∈ seen, k.toNat < m.toNat := fun k hk =>
      (List.pairwise_append.1 hsorted).2.2 k hk m List.mem_cons_self
    have hstep := ih (h.snoc hhigh rfl) (List.append_cons seen m ms ▸ hsorted)
    rw [List.append_cons]
    simpa only [bestTrial, List.map_cons, List.foldl_cons, hmask] using hstep

theorem map_mask_allMasks : (allMasks.map x).map Trial.mask = allMasks := by
  rw [List.map_map]
  exact (List.map_congr_left fun m _ => hmask m).trans (List.map_id _)

/-- With a trial of each mask and the best of them the selection is known. -/
theorem selectMask_of_tries {s : State} (hwf : s.mem.wf = true) (htries : ∀ m, s.Tries (x m)) {w : BitVec 3} {p : Word}
    (hbest : bestTrial none (allMasks.map x) = some (w, p)) :
    selectMask s = .ok (s.afterSelection (allMasks.map x) (x w)) := by
  refine selectMask_of_trials hwf (map_mask_allMasks hmask) (fun y hy => ?_) (htries w) ?_
  · obtain ⟨m, -, rfl⟩ := List.mem_map.1 hy
    exact htries m
  · rw [hbest, hmask, Option.getD_some]

/-- Of the eight masks there is a best one. -/
theorem exists_bestTrial : ∃ w, bestTrial none (allMasks.map x) = some (w, (x w).score.ptotal) ∧
    ∀ m, (x w).score.ptotal.toNat ≤ (x m).score.ptotal.toNat ∧
      (m.toNat < w.toNat → (x w).score.ptotal.toNat < (x m).score.ptotal.toNat) := by
  have hbest := bestTrial_bestOf hmask (seen := []) (ms := allMasks) (best := none) rfl (by decide)
  cases hb : bestTrial none (allMasks.map x) with
  | none =>
    rw [hb] at hbest
    exact absurd (show allMasks = [] from hbest) (by decide)
  | some wp =>
    obtain ⟨w, p⟩ := wp
    rw [hb] at hbest
    obtain ⟨-, hp, hmin⟩ := hbest
    obtain rfl := Option.some.inj hp
    exact ⟨w, rfl, fun m => hmin m (mem_allMasks m) _ rfl⟩

end

/-! ### What a selection leaves -/

section
variable (s : State) {xs : List Trial} (y : Trial)

theorem State.afterSelection_best {w : BitVec 3} {p : Word} (hb : bestTrial none xs = some (w, p)) :
    (s.afterSelection xs y).bestId = w ∧ (s.afterSelection xs y).bestPen = p := by
  obtain ⟨hid, hpen⟩ := State.afterTrial_best ((s.afterTrials xs).setBest w p) y
  simp only [State.afterSelection, hb, Option.getD_some, State.setStatus_bestId, State.setStatus_bestPen, hid, hpen,
    State.setBest_bestId, State.setBest_bestPen, and_self]

theorem State.afterSelection_score : (s.afterSelection xs y).score = y.score := by
  simp only [State.afterSelection, State.setStatus_score, State.afterTrial_score]

theorem State.afterSelection_wmMask : (s.afterSelection xs y).wmMask = y.mask := by
  simp only [State.afterSelection, State.setStatus_wmMask, State.afterTrial_wmMask]

theorem State.afterSelection_fmtWord : (s.afterSelection xs y).fmtWord = formatWord s.entry.secl y.mask := by
  simp only [State.afterSelection, State.setStatus_fmtWord, State.afterTrial_fmtWord, State.setBest_entry,
    State.entry_of_maskless (s.afterTrials_maskless xs)]

theorem State.afterSelection_readList {s : State} (hwf : s.mem.wf = true) {y : Trial}
    (hlen : y.cells.length = Config.cellCap) :
    (s.afterSelection xs y).mem.readList .wm 0 Config.cellCap = .ok y.cells := by
  simp only [State.afterSelection, State.setStatus_mem, State.afterTrial_mem, State.setBest_mem]
  exact Memory.readList_stored (w := .wm) (State.afterTrials_wf hwf xs) hlen.symm le_rfl

theorem State.afterSelection_pen :
    (s.afterSelection xs y).pen = (s.afterTrials xs).pen.set y.mask.toNat y.score.ptotal y.mask.isLt := by
  simp only [State.afterSelection, State.setStatus_pen, State.afterTrial_pen, State.setBest_pen]

end

/-- The winner's second trial finds the total it found before. -/
theorem State.afterSelection_pen_getElem {x : BitVec 3 → Trial} (hmask : ∀ m, (x m).mask = m) (s : State)
    (w m : BitVec 3) : (s.afterSelection (allMasks.map x) (x w)).pen[m.toNat]'m.isLt = (x m).score.ptotal := by
  simp only [State.afterSelection_pen, hmask]
  by_cases h : w = m
  · subst h
    rw [Vector.getElem_set_self]
  · have hne : w.toNat ≠ m.toNat := fun h' => h (BitVec.eq_of_toNat_eq h')
    rw [Vector.getElem_set_ne _ m.isLt hne, State.afterTrials_pen_getElem hmask, if_pos (mem_allMasks m)]

/-- What the selection writes, over a state that agrees with it on the rest. -/
theorem State.eq_of_maskless {s t : State} (h : t.maskless = s.maskless) :
    t = { s with status := t.status, mem := t.mem, wmMask := t.wmMask, fmtWord := t.fmtWord, score := t.score
                 bestId := t.bestId, bestPen := t.bestPen, pen := t.pen } := by
  cases s
  cases t
  simp only [State.maskless, State.mk.injEq] at h ⊢
  simp only [h, and_self]

/-! ### The command (R1020) -/

/-- Settles O39: the eight trials' totals stand in `PEN`, the loop's best is the least and lowest of them, and the
second trial of the winner leaves its symbol and its score. -/
theorem maskSelectPicksTheLowest : Obligations.MaskSelectPicksTheLowest := by
  intro s he hmat hilv hwf hmax htotal hmatW hilvW
  choose x hmask htries using exists_trial hwf hmax htotal hmatW hilvW
  obtain ⟨w, hbest, hmin⟩ := exists_bestTrial hmask
  have hselect := selectMask_of_tries hmask hwf htries hbest
  obtain ⟨hid, hpen⟩ := s.afterSelection_best (x w) hbest
  have hstatus := s.afterSelection_status (map_mask_allMasks hmask) (x w)
  have hpens := State.afterSelection_pen_getElem hmask s w
  have hscore := s.afterSelection_score (xs := allMasks.map x) (x w)
  have hwm := s.afterSelection_wmMask (xs := allMasks.map x) (x w)
  have hfmt := s.afterSelection_fmtWord (xs := allMasks.map x) (x w)
  have hread := State.afterSelection_readList (xs := allMasks.map x) hwf (htries w).length
  have hrest := s.afterSelection_maskless (allMasks.map x) (x w)
  generalize s.afterSelection (allMasks.map x) (x w) = t at hselect hid hpen hstatus hpens hscore hwm hfmt hread hrest
  have herr : t.status.err = 0#4 := by
    rw [hstatus]
    exact he
  have hpens (m : Fin 8) : t.pen[m] = (x (BitVec.ofFin m)).score.ptotal := hpens (BitVec.ofFin m)
  have htotals (m : BitVec 3) : s.candidateTotal m = some (x m).score.ptotal := by
    rw [← (htries m).total hwf hmax, hmask]
  have hcand := (htries w).candidate
  rw [hmask] at hwm hfmt hcand
  subst hid
  refine ⟨t, (x t.bestId).cells, (CommandEffect.maskSelect hmat hilv hselect).exec_eq he herr, fun m => ?_,
    fun m => ?_, ?_, ?_, hcand, hread, ?_, ?_, fun _ => State.window_of_maskless hrest⟩
  · rw [hpens, htotals]
  · rw [hpens, hpen]
    exact hmin (BitVec.ofFin m)
  · exact hpen.trans (hpens t.bestId.toFin).symm
  · rw [hscore, hpen]
  · rw [hscore, (htries t.bestId).score_eq hwf hmax]
    rfl
  · have hstate := State.eq_of_maskless hrest
    rw [hwm, hfmt, hstatus] at hstate
    exact hstate

end Sys2Proof.Machine
end
section
/-! SUPPORT. `CLEAR`, and that `ENCODE` completes (47_control R1101, R1110): every command of `ENCODE` finds what it
needs in the results of those before it. -/

-- One theorem at a time: each proof in flight holds a thread's whole stack.
set_option Elab.async false

namespace Sys2Proof.Machine

/-! ### `CLEAR` (R1101) -/

/-- What `CLEAR` does not keep reads as after reset. -/
theorem State.clearRequest_regWord (s : State) {r : Reg} (hcmd : r ≠ .cmd) (hcfg : r ≠ .cfg) (hlen : r ≠ .len) :
    s.clearRequest.regWord r = 0#32 := by
  rw [← reset_regWord r]
  cases r with
  | cmd => exact absurd rfl hcmd
  | cfg => exact absurd rfl hcfg
  | len => exact absurd rfl hlen
  | _ => rfl

/-- Settles O40: what `CLEAR` zeroes has the reset values, and it touches nothing else. -/
theorem clearStartsAFreshRequest : Obligations.ClearStartsAFreshRequest := fun s =>
  ⟨s.clearRequest, rfl, rfl, fun _ => s.clearRequest_regWord, rfl, rfl, rfl, rfl, rfl, rfl, rfl, rfl⟩

/-! ### What the results in place say -/

theorem Memory.Written.of_readList {m : Memory} (hm : m.wf = true) {w : Window} {n : Nat} (hn : n ≤ w.size)
    {vals : List Byte} (h : m.readList w 0 n = .ok vals) : m.Written w n := by
  obtain ⟨hlen, hget⟩ := (Memory.readList_eq_ok hm ((Nat.zero_add n).trans_le hn)).1 h
  intro k hk
  have hget := hget k hk
  rw [Nat.zero_add] at hget
  rw [hget, List.getElem?_eq_getElem (by omega)]
  rfl

theorem length_of_scanDigits {r : Ram} {n : Nat} {ds : List Nat} (h : scanDigits 0 [] (r.view 0 n) = .digits ds) :
    ds.length = n := by
  rw [scanDigits_length h, Ram.view_length, List.length_nil, Nat.zero_add]

namespace State.Done

variable {s : State}

theorem entrySelected (h : s.Done .select) : s.EntrySelected := by
  obtain ⟨v, row, hrow, -, hentry⟩ := h
  exact ⟨v, s.ecl, row, hrow, hentry⟩

/-- The entry is the requested level's, of the version the search finds. -/
theorem entry_eq (h : s.Done .select) : ∃ row, capRow? s.entry.ver.toNat s.ecl = some row ∧
    firstFit s.ecl s.len.toNat Config.verMax 1 = some s.entry.ver.toNat ∧
    s.entry = entryOf s.entry.ver.toNat s.ecl row := by
  obtain ⟨v, row, hrow, hfirst, hentry⟩ := h
  have hver : s.entry.ver.toNat = v := hentry ▸ entryOf_ver_toNat hrow
  subst hver
  exact ⟨row, hrow, hfirst, hentry⟩

/-- The header and the digits fit the selected entry. -/
theorem message_fits (h : s.Done .select) : 4 + s.entry.cci.toNat + contentBits s.len.toNat ≤ s.entry.capBits := by
  obtain ⟨row, hrow, hfirst, hentry⟩ := h.entry_eq
  obtain ⟨-, -, hfit, -⟩ := firstFit_eq_some hfirst
  obtain ⟨row', hrow', hbits⟩ := fits_iff.1 hfit
  obtain rfl := Option.some.inj (hrow.symm.trans hrow')
  rw [hentry, entryOf_cci_toNat, entryOf_capBits hrow]
  exact hbits

theorem written_bs (h : s.Done .compose) (hle : s.entry.dataCw.toNat ≤ Config.bsCap) :
    s.mem.Written .bs s.entry.dataCw.toNat := by
  obtain ⟨hfit, ds, n, hscan, hst, -⟩ := h
  rw [← length_of_scanDigits hscan] at hfit
  obtain ⟨⟨-, hwritten⟩, hend⟩ := composeStream_cursorOk hle hfit hst
  have hcap : 8 * s.entry.dataCw.toNat ≤ n := hend
  exact fun i hi => hwritten i (by show 8 * i < n; omega)

theorem blockEncoded (h : s.Done .rsAll) (he : s.entry.Sound) (hwf : s.mem.wf = true) :
    ∀ b < s.entry.nblk.toNat, s.mem.BlockEncoded s.entry b := by
  obtain ⟨-, -, hblocks⟩ := h
  exact he.rsAll_encoded hwf hblocks

theorem stream_eq (h : s.Done .interleave) (he : s.entry.Sound) (hwf : s.mem.wf = true) : ∃ ds es,
    s.mem.readAt .bs s.entry.dataOrder = .ok ds ∧ s.mem.readAt .ecb s.entry.ecOrder = .ok es ∧
    s.mem.readList .ilv 0 s.entry.totalCw.toNat = .ok (ds ++ es) := by
  obtain ⟨ds, es, hds, hes, hilv⟩ := h
  have hread := Memory.readList_stored (w := .ilv) hwf (he.interleaved_length hds hes) he.totalCw_le
  rw [hilv] at hread
  exact ⟨ds, es, hds, hes, hread⟩

theorem written_ilv (h : s.Done .interleave) (he : s.entry.Sound) (hwf : s.mem.wf = true) :
    s.mem.Written .ilv s.entry.totalCw.toNat := by
  obtain ⟨ds, es, -, -, hread⟩ := h.stream_eq he hwf
  exact .of_readList hwf he.totalCw_le hread

theorem readList_mat (h : s.Done .build) (hwf : s.mem.wf = true) :
    s.mem.readList .mat 0 Config.cellCap = .ok (builtCells s.entry.ver.toNat) := by
  obtain ⟨-, hmat⟩ := h
  have hread := Memory.readList_stored (w := .mat) hwf (builtCells_length s.entry.ver.toNat).symm le_rfl
  rwa [hmat] at hread

theorem written_mat (h : s.Done .build) (hwf : s.mem.wf = true) : s.mem.Written .mat Config.cellCap :=
  .of_readList hwf le_rfl (h.readList_mat hwf)

end State.Done

/-! ### A request that fits completes (R1110) -/

/-- A request that `ENCODE` can complete: some version holds it and its digits are digits. -/
structure State.Encodable (s : State) : Prop where
  wf     : s.mem.wf = true
  fits   : s.Fits
  digits : ∀ i < s.len.toNat, ∃ b, s.mem.read? .digits i = some b ∧ isDigit b

/-- No command of `ENCODE` changes the request. -/
theorem State.Encodable.keep {s t : State} {i : Instr} (h : s.Encodable) (hi : i ∈ encodeParts)
    (ht : exec i s = .next t) : t.Encodable := by
  have hf := exec_frame ht
  have hdigits : ∀ j ∈ encodeParts, Window.digits ∉ windowsWritten j := by decide
  have hread := Memory.read?_congr (hf.window .digits (hdigits i hi))
  refine ⟨exec_wf h.wf ht, ?_, ?_⟩
  · simpa only [State.Fits, hf.ecl, hf.len] using h.fits
  · simpa only [hf.len, hread] using h.digits

theorem State.Encodable.select_completes {s : State} (h : s.Encodable) (he : s.status.err = 0#4) :
    ∃ t, exec .select s = .next t ∧ t.status.err = 0#4 := by
  obtain ⟨v, h₁, h₂, hfit⟩ := h.fits
  obtain ⟨w, -, hfirst⟩ := exists_firstFit_le h₁ h₂ hfit
  obtain ⟨row, -, hexec⟩ := exec_select_ok he hfirst
  exact ⟨_, hexec, he⟩

theorem State.Encodable.compose_completes {s : State} (h : s.Encodable) (he : s.status.err = 0#4)
    (hsel : s.status.selV = true) (hd : s.Done .select) : ∃ t, exec .compose s = .next t ∧ t.status.err = 0#4 := by
  choose b hb hdigit using h.digits
  have hds (i : Nat) (hi : i < s.len.toNat) :
      (List.ofFn fun i : Fin s.len.toNat => (b i i.isLt).toNat - 0x30)[i]? = some ((b i hi).toNat - 0x30) := by
    simp [hi]
  obtain ⟨t, hexec, -, ht, -⟩ := composeWritesTheStream s _ he hsel h.wf hd.entrySelected.sound.dataCw_le
    hd.message_fits List.length_ofFn fun i hi => ⟨b i hi, hb i hi, hdigit i hi, hds i hi⟩
  exact ⟨t, hexec, by rw [ht]; exact he⟩

/-- A command of `ENCODE` completes when the results of those before it are in place. -/
theorem State.Encodable.completes {s : State} (h : s.Encodable) {i : Instr} (hi : i ∈ encodeParts)
    (he : s.status.err = 0#4) (hready : s.status.Ready i) (hdone : ∀ j ∈ encodeParts.takeWhile (· ≠ i), s.Done j) :
    ∃ t, exec i s = .next t ∧ t.status.err = 0#4 := by
  cases i with
  | select => exact h.select_completes he
  | compose => exact h.compose_completes he hready (hdone .select (by decide))
  | rsAll =>
    obtain ⟨hsel, hbs⟩ := hready
    have hentry := (hdone .select (by decide)).entrySelected
    obtain ⟨t, hexec, -, ht, -⟩ := rsAllEncodesEveryBlock s he hsel hbs h.wf hentry
      ((hdone .compose (by decide)).written_bs hentry.sound.dataCw_le)
    exact ⟨t, hexec, by rw [ht]; exact he⟩
  | interleave =>
    obtain ⟨hsel, hbs, hec⟩ := hready
    have hentry := (hdone .select (by decide)).entrySelected
    obtain ⟨t, hexec, ht, -⟩ := interleaveIsTheClosedForm s he hsel hbs hec hentry
      ((hdone .compose (by decide)).written_bs hentry.sound.dataCw_le)
      (hentry.sound.written_ecb h.wf ((hdone .rsAll (by decide)).blockEncoded hentry.sound h.wf))
    exact ⟨t, hexec, by rw [ht]; exact he⟩
  | build =>
    obtain ⟨t, hexec, ht, -⟩ := buildWritesEveryCell.1 s he hready
    exact ⟨t, hexec, by rw [ht]; exact he⟩
  | maskSelect =>
    obtain ⟨hmat, hilv⟩ := hready
    have hentry := (hdone .select (by decide)).entrySelected
    obtain ⟨t, -, hexec, -, -, -, -, -, -, -, ht, -⟩ := maskSelectPicksTheLowest s he hmat hilv h.wf hentry.ver_range.2
      hentry.sound.totalCw_le ((hdone .build (by decide)).written_mat h.wf)
      ((hdone .interleave (by decide)).written_ilv hentry.sound h.wf)
    exact ⟨t, hexec, by rw [ht]; exact he⟩
  | _ => exact absurd hi (by simp [encodeParts])

theorem encodeParts_nodup : encodeParts.Nodup := by decide

/-- The rest of `ENCODE`'s commands complete when the results of the first ones are in place. -/
theorem State.Encodable.execAll_completes {done is : List Instr} (hparts : done ++ is = encodeParts) {s : State}
    (h : s.Encodable) (he : s.status.err = 0#4) (hready : s.status.ReadyAll is) (hdone : ∀ j ∈ done, s.Done j) :
    ∃ t, execAll is s = .next t ∧ t.status.err = 0#4 := by
  induction is generalizing done s with
  | nil => exact ⟨s, rfl, he⟩
  | cons i is ih =>
    have hi : i ∈ encodeParts := hparts ▸ List.mem_append_right _ List.mem_cons_self
    obtain ⟨-, -, hpair⟩ := List.pairwise_append.1 (hparts.symm ▸ encodeParts_undisturbed)
    obtain ⟨-, -, hdistinct⟩ := List.pairwise_append.1 (hparts.symm ▸ encodeParts_nodup)
    have hbefore : encodeParts.takeWhile (· ≠ i) = done := by
      rw [← hparts, List.takeWhile_append_of_pos, List.takeWhile_cons_of_neg, List.append_nil]
      · simp
      · exact fun j hj => decide_eq_true (hdistinct j hj i List.mem_cons_self)
    obtain ⟨hready₀, hready⟩ := hready
    obtain ⟨u, hu, hue⟩ := h.completes hi he hready₀ (hbefore.symm ▸ hdone)
    have hwf := exec_wf h.wf hu
    obtain ⟨-, hstatus, hresult⟩ := (exec_next (ne_of_mem_encodeParts hi).2 hu).done hi h.wf hue
    have hdone' : ∀ j ∈ done ++ [i], u.Done j := by
      intro j hj
      obtain hj | hj := List.mem_append.1 hj
      · exact (hdone j hj).keep (hpair j hj i List.mem_cons_self) h.wf hwf (exec_frame hu)
      · exact List.mem_singleton.1 hj ▸ hresult
    obtain ⟨t, ht, hte⟩ := ih (done := done ++ [i]) ((List.append_cons done i is).symm.trans hparts) (h.keep hi hu) hue
      (hstatus ▸ hready) hdone'
    exact ⟨t, andThen_next.2 ⟨u, hu, ht⟩, hte⟩

theorem State.Encodable.execEncode_completes {s : State} (h : s.Encodable) (he : s.status.err = 0#4) :
    ∃ t, exec .encode s = .next t ∧ t.status.err = 0#4 := by
  rw [exec, execEncode_eq, unlessError_ok he]
  exact h.execAll_completes (done := []) rfl he s.status.readyAll_encodeParts nofun

end Sys2Proof.Machine
end
section
/-! SUPPORT. The result of a request (47_control R1110, R1120): the flags, the entry, and the symbol of the best mask,
all of whose modules are light or dark. -/

-- One theorem at a time: each proof in flight holds a thread's whole stack.
set_option Elab.async false

namespace Sys2Proof.Machine

/-! ### The modules of a candidate (R132, R1005) -/

theorem shade_ne_unset (b : Bool) : shade b ≠ .unset := by
  cases b <;> decide

theorem light_or_dark_ne_unset (p : Prop) [Decidable p] : (if p then CellValue.light else .dark) ≠ .unset := by
  split <;> decide

/-- No pattern but the format strips leaves a module unset. -/
theorem patternAt_ne_unset {v : Nat} {cs : List (Nat × Nat)} {r c : Nat} (hformat : isFormat v r c = false) :
    patternAt v cs r c ≠ some .unset := by
  have hversion : (versionBitAt v r c).map (fun i => shade ((versionWord v).getLsbD i)) ≠ some .unset := by
    simp [Option.map_eq_some_iff, shade_ne_unset]
  have halign : alignmentAt cs r c ≠ some .unset := by
    simp [alignmentAt, Option.map_eq_some_iff, light_or_dark_ne_unset]
  have htiming : timingAt v r c ≠ some .unset := by
    unfold timingAt
    split_ifs <;> simp [shade_ne_unset]
  have hfinder : ((finderCorners v).findSome? fun p => finderAt p.1 p.2 r c) ≠ some .unset := by
    intro h
    obtain ⟨p, -, hp⟩ := List.exists_of_findSome?_eq_some h
    unfold finderAt at hp
    split at hp
    · exact light_or_dark_ne_unset _ (Option.some.inj hp)
    · cases hp
  simp [patternAt_eq_or, hformat, Option.or_eq_some_iff, hversion, halign, htiming, hfinder]

theorem mem_formatModules_of_isFormat {v r c : Nat} (h : isFormat v r c = true) : (r, c) ∈ formatModules v := by
  obtain ⟨i, hi, h⟩ := List.any_eq_true.1 h
  refine mem_formatModules.2 ⟨i, List.mem_range.1 hi, ?_⟩
  simp only [Bool.or_eq_true, decide_eq_true_eq] at h
  simpa [eq_comm] using h

/-- `BUILD` leaves every reserved module but the format modules light or dark. -/
theorem builtCell_light_or_dark {v : Nat} (hv : 1 ≤ v) {r c : Nat} (hr : r < side v) (hc : c < side v)
    (hres : reserved v (centres v) r c = true) (hformat : isFormat v r c = false) :
    (builtCell v (centres v) r c).toNat % 4 ≤ 1 := by
  cases hpat : patternAt v (centres v) r c with
  | none =>
    rw [(patternAt_eq_none_iff hv hr hc).1 hpat] at hres
    cases hres
  | some x =>
    rw [builtCell_of_pattern hr hc hpat]
    cases x with
    | light | dark => decide
    | unset => exact absurd hpat (patternAt_ne_unset hformat)

/-- Every module of a candidate is light or dark. -/
theorem placedCells_light_or_dark {v : Nat} (hv : 1 ≤ v) (hmax : v ≤ 40) (f : BitVec 15) (m : BitVec 3)
    {ilv mat : List Byte} (hlen : mat.length = 31329) {r c : Nat} (hr : r < side v) (hc : c < side v)
    (hmat : mat[r * 177 + c]? = some (builtCell v (centres v) r c)) :
    ∃ b, (placedCells v f m ilv mat)[r * 177 + c]? = some b ∧ b.toNat % 4 ≤ 1 := by
  by_cases hdata : (r, c) ∈ zigzag v
  · obtain ⟨n, hn⟩ := List.getElem?_of_mem hdata
    have hcell := placedCells_data hv hmax f m (ilv := ilv) hlen hn
    exact ⟨_, hcell, by split <;> decide⟩
  by_cases hformat : (r, c) ∈ formatModules v
  · obtain ⟨i, hi, hp⟩ := mem_formatModules.1 hformat
    have hcell := placedCells_format hv hmax f m (ilv := ilv) hlen hi hp
    exact ⟨_, hcell, by split <;> decide⟩
  have hres : reserved v (centres v) r c = true := by
    by_contra hfree
    exact hdata ((mem_zigzag hv).2 ⟨hr, hc, Bool.not_eq_true _ ▸ hfree⟩)
  have hnot : isFormat v r c = false := Bool.eq_false_iff.2 fun h => hformat (mem_formatModules_of_isFormat h)
  have hcol : c < 177 := hc.trans_le (side_le_of_ver_le hmax)
  have hcell := placedCells_other hv hmax f m ilv mat hcol hdata hformat
  exact ⟨_, hcell.trans hmat, builtCell_light_or_dark hv hr hc hres hnot⟩

/-! ### The end of a request -/

/-- `STATUS` after a request that succeeds (R1110). -/
def Status.encoded : Status :=
  { Status.zero with selV := true, bsV := true, genV := true, ecV := true, ilvV := true, matV := true, wmV := true
                     scV := true, bestV := true, penv := 0xFF#8 }

/-- A request has ended with success: the flags are set and every command's result is in place. -/
structure State.Encoded (t : State) : Prop where
  wf     : t.mem.wf = true
  status : t.status = Status.encoded
  done   : ∀ i ∈ encodeParts, t.Done i

/-- An `ENCODE` that ends with no error has ended with success. -/
theorem State.Encoded.of_exec {s t : State} (hs : s.mem.wf = true) (h : exec .encode s = .next t)
    (ht : t.status.err = 0#4) : t.Encoded := by
  have he := err_eq_zero_of_exec (by decide) h ht
  have hwf := exec_wf hs h
  rw [exec, execEncode_eq, unlessError_ok he] at h
  obtain ⟨hstatus, hdone⟩ := execAll_done (fun _ hi => hi) encodeParts_undisturbed hs h ht
  rw [Status.foldl_after_encodeParts, he] at hstatus
  exact ⟨hwf, hstatus, hdone⟩

/-- `MASK_SELECT`'s result is in place: the best candidate's cells `cells` are in `WM` (46_mask R1020). -/
structure State.ShowsBest (t : State) (cells : List Byte) : Prop where
  totals    : ∀ m : Fin 8, t.candidateTotal (BitVec.ofFin m) = some t.pen[m]
  least     : ∀ m : Fin 8, t.bestPen.toNat ≤ t.pen[m].toNat ∧ (m < t.bestId.toFin → t.bestPen.toNat < t.pen[m].toNat)
  bestPen   : t.bestPen = t.pen[t.bestId.toFin]
  candidate : t.candidate t.bestId = .ok cells
  shown     : t.mem.readList .wm 0 Config.cellCap = .ok cells
  score     : t.score = scoreOf (symbolRows (side t.entry.ver.toNat) cells)
  wmMask    : t.wmMask = t.bestId
  fmtWord   : t.fmtWord = formatWord t.entry.secl t.bestId

namespace State.Encoded

variable {t : State} (h : t.Encoded)
include h

theorem select : t.Done .select := h.done .select (by decide)

theorem sound : t.entry.Sound := h.select.entrySelected.sound

theorem ver_range : 1 ≤ t.entry.ver.toNat ∧ t.entry.ver.toNat ≤ 40 := h.select.entrySelected.ver_range

theorem err : t.status.err = 0#4 := congrArg Status.err h.status

/-- The selection, run again, changes nothing. -/
theorem maskSelect : exec .maskSelect t = .next t := by
  have hready : t.status.Ready .maskSelect := ⟨congrArg Status.matV h.status, congrArg Status.ilvV h.status⟩
  have hafter : t.status.after .maskSelect = t.status := by
    rw [h.status]
    rfl
  have heffect := (h.done .maskSelect (by decide)).effect (by decide) hready
  rw [hafter] at heffect
  exact heffect.exec_eq h.err h.err

theorem showsBest : ∃ cells, t.ShowsBest cells := by
  obtain ⟨u, cells, hexec, htotals, hleast, hbest, -, hcand, hshown, hscore, hu, -⟩ := maskSelectPicksTheLowest t
    h.err (congrArg Status.matV h.status) (congrArg Status.ilvV h.status) h.wf h.ver_range.2 h.sound.totalCw_le
    ((h.done .build (by decide)).written_mat h.wf) ((h.done .interleave (by decide)).written_ilv h.sound h.wf)
  obtain rfl : t = u := Host.Outcome.next.inj (h.maskSelect.symm.trans hexec)
  exact ⟨cells, htotals, hleast, hbest, hcand, hshown, hscore, congrArg State.wmMask hu, congrArg State.fmtWord hu⟩

theorem candidate_eq : ∃ ds es, t.mem.readAt .bs t.entry.dataOrder = .ok ds ∧
    t.mem.readAt .ecb t.entry.ecOrder = .ok es ∧ ∀ m, t.candidate m =
      .ok (placedCells t.entry.ver.toNat (formatWord t.entry.secl m) m (ds ++ es) (builtCells t.entry.ver.toNat)) := by
  obtain ⟨ds, es, hds, hes, hilv⟩ := (h.done .interleave (by decide)).stream_eq h.sound h.wf
  refine ⟨ds, es, hds, hes, fun m => ?_⟩
  simp only [State.candidate, (h.done .build (by decide)).readList_mat h.wf, hilv]

/-- The symbol shown has no module unset. -/
theorem symbol_light_or_dark {r c : Nat} (hr : r < side t.entry.ver.toNat) (hc : c < side t.entry.ver.toNat) :
    ∃ b, t.mem.read? .wm (r * 177 + c) = some b ∧ b.toNat % 4 ≤ 1 := by
  obtain ⟨cells, hbest⟩ := h.showsBest
  obtain ⟨ds, es, -, -, hcand⟩ := h.candidate_eq
  obtain ⟨hv, hmax⟩ := h.ver_range
  have hside : side t.entry.ver.toNat ≤ 177 := side_le_of_ver_le hmax
  obtain rfl := Except.ok.inj ((hcand t.bestId).symm.trans hbest.candidate)
  obtain ⟨-, hread⟩ := (Memory.readList_eq_ok h.wf (w := .wm) le_rfl).1 hbest.shown
  have hcell := hread (r * 177 + c) (by show _ < 31329; omega)
  rw [Nat.zero_add] at hcell
  rw [hcell]
  exact placedCells_light_or_dark hv hmax _ _ (builtCells_length _) hr hc
    (builtCells_getElem? (hr.trans_le hside) (hc.trans_le hside))

end State.Encoded

theorem State.LaunchOk.encodable {s : State} (h : s.LaunchOk) (hwf : s.mem.wf = true) (hfits : s.Fits) : s.Encodable :=
  ⟨hwf, hfits, h.2⟩

theorem State.LaunchOk.err {s : State} (h : s.LaunchOk) : s.status.err = 0#4 := congrArg Status.err h.1

theorem State.LaunchOk.execEncode_succeeds {s : State} (h : s.LaunchOk) (hwf : s.mem.wf = true) (hfits : s.Fits) :
    ∃ t, exec .encode s = .next t ∧ t.Encoded := by
  obtain ⟨t, ht, hte⟩ := (h.encodable hwf hfits).execEncode_completes h.err
  exact ⟨t, ht, .of_exec hwf ht hte⟩

/-- Settles O41: each command finds what it needs in the results of those before it, and in the end all six results are
in place. -/
theorem encodeSucceeds : Obligations.EncodeSucceeds := by
  intro s hlaunch hwf hfits
  obtain ⟨t, ht, h⟩ := hlaunch.execEncode_succeeds hwf hfits
  have hf := exec_frame ht
  obtain ⟨row, hrow, hfirst, hentry⟩ := h.select.entry_eq
  obtain ⟨-, -, hfit, hleast⟩ := firstFit_eq_some hfirst
  obtain ⟨cells, hbest⟩ := h.showsBest
  obtain ⟨hv, hmax⟩ := h.ver_range
  rw [hf.ecl, hf.len] at hfit hleast
  refine ⟨t, ht, ⟨h.err, congrArg Status.bestV h.status⟩, h.status, hfit, hleast, hv, hmax, ?_,
    fun r c => h.symbol_light_or_dark, (h.done .interleave (by decide)).written_ilv h.sound h.wf, hbest.wmMask,
    fun m => (hbest.least m).1, hf.ecl, hf.len, hf.window .digits (by decide)⟩
  rw [hentry, ← hf.ecl]
  rfl

end Sys2Proof.Machine
end
section
/-! SUPPORT. A request decides its result (47_control R1121): of two states that hold the same request, the results in
place at the end are the same, command by command. -/

-- One theorem at a time: each proof in flight holds a thread's whole stack.
set_option Elab.async false

namespace Sys2Proof.Machine

/-! ### A request that does not fit (R520) -/

/-- While `ERR` is not 0 a list of commands other than `CLEAR` does nothing (60_exceptions R1203). -/
theorem execAll_ignored {is : List Instr} (his : .clear ∉ is) {s : State} (he : s.status.err ≠ 0#4) :
    execAll is s = .next s := by
  induction is with
  | nil => rfl
  | cons i is ih =>
    obtain ⟨hi, his⟩ := not_or.1 (mt List.mem_cons.2 his)
    rw [execAll, exec_ignored (Ne.symm hi) he]
    exact ih his

theorem execEncode_of_not_fits {s : State} (he : s.status.err = 0#4) (h : ¬ s.Fits) :
    exec .encode s = .next (s.withError errCapacityExceeded) := by
  have hnone : firstFit s.ecl s.len.toNat Config.verMax 1 = none :=
    firstFit_eq_none.2 fun v h₁ h₂ => Bool.eq_false_iff.2 fun hfit => h ⟨v, h₁, by omega, hfit⟩
  have hselect : exec .select s = .next (s.withError errCapacityExceeded) := by
    rw [exec, execSelect, unlessError_ok he, hnone]
    rfl
  rw [exec, execEncode_eq, unlessError_ok he]
  exact andThen_next.2 ⟨_, hselect, execAll_ignored (by decide) (show errCapacityExceeded ≠ 0#4 by decide)⟩

/-! ### Memories that agree on a range -/

theorem Memory.view_eq_of_agree {m m' : Memory} (hm : m.wf = true) (hm' : m'.wf = true) {w : Window} {n : Nat}
    (h : ∀ k < n, m'.read? w k = m.read? w k) : (m'.window w).view 0 n = (m.window w).view 0 n := by
  rw [Ram.view_eq ((Memory.wf_iff m').1 hm' w).1, Ram.view_eq ((Memory.wf_iff m).1 hm w).1]
  refine List.map_congr_left fun k hk => ?_
  rw [Memory.window_read? hm', Memory.window_read? hm, h k (by simpa using hk)]

theorem Memory.readAt_eq_of_agree {m m' : Memory} {w : Window} {is : List Nat} {vals vals' : List Byte}
    (h : ∀ i ∈ is, m'.read? w i = m.read? w i) (hm : m.readAt w is = .ok vals) (hm' : m'.readAt w is = .ok vals') :
    vals' = vals := by
  refine List.map_injective_iff.2 (Option.some_injective _) ?_
  rw [← Memory.readAt_eq_ok.1 hm', ← Memory.readAt_eq_ok.1 hm]
  exact List.map_congr_left h

theorem Memory.read?_eq_of_readList {m m' : Memory} (hm : m.wf = true) (hm' : m'.wf = true) {w : Window} {i n : Nat}
    (hn : i + n ≤ w.size) {vals : List Byte} (h : m.readList w i n = .ok vals) (h' : m'.readList w i n = .ok vals)
    {k : Nat} (hk : k < n) : m'.read? w (i + k) = m.read? w (i + k) := by
  obtain ⟨-, hget⟩ := (Memory.readList_eq_ok hm hn).1 h
  obtain ⟨-, hget'⟩ := (Memory.readList_eq_ok hm' hn).1 h'
  rw [hget k hk, hget' k hk]

/-- The order names codewords of the blocks' codes, by block and column. -/
theorem Entry.mem_ecOrder {e : Entry} {i : Nat} (hi : i ∈ e.ecOrder) :
    ∃ b < e.nblk.toNat, ∃ col < e.ecLen.toNat, i = b * e.ecLen.toNat + col := by
  obtain ⟨col, hcol, hi⟩ := List.mem_flatMap.1 hi
  obtain ⟨b, hb, rfl⟩ := List.mem_map.1 hi
  exact ⟨b, List.mem_range.1 hb, col, List.mem_range.1 hcol, rfl⟩

/-- Blocks encoded from one `BS` have the same codewords. -/
theorem Entry.Sound.readAt_ecb_eq {e : Entry} (he : e.Sound) {m m' : Memory} (hm : m.wf = true) (hm' : m'.wf = true)
    (hbs : m'.window .bs = m.window .bs) (henc : ∀ b < e.nblk.toNat, m.BlockEncoded e b)
    (henc' : ∀ b < e.nblk.toNat, m'.BlockEncoded e b) {es es' : List Byte} (hes : m.readAt .ecb e.ecOrder = .ok es)
    (hes' : m'.readAt .ecb e.ecOrder = .ok es') : es' = es := by
  refine Memory.readAt_eq_of_agree (fun i hi => ?_) hes hes'
  obtain ⟨b, hb, col, hcol, rfl⟩ := Entry.mem_ecOrder hi
  obtain ⟨ds, hds, hcode⟩ := henc b hb
  obtain ⟨ds', hds', hcode'⟩ := henc' b hb
  rw [Memory.readList_congr hbs, hds] at hds'
  obtain rfl := Except.ok.inj hds'
  exact Memory.read?_eq_of_readList hm hm' (he.block_le hb) hcode hcode' hcol

/-! ### Two ends of one request -/

/-- The two states hold the same request: level, length and digits. -/
structure State.SameRequest (s₁ s₂ : State) : Prop where
  ecl    : s₂.ecl = s₁.ecl
  len    : s₂.len = s₁.len
  digits : ∀ i < s₁.len.toNat, s₂.mem.read? .digits i = s₁.mem.read? .digits i

theorem State.SameRequest.fits_iff {s₁ s₂ : State} (h : s₁.SameRequest s₂) : s₂.Fits ↔ s₁.Fits := by
  simp only [State.Fits, h.ecl, h.len]

/-- `ENCODE` keeps its request. -/
theorem State.SameRequest.encode {s₁ s₂ t₁ t₂ : State} (h : s₁.SameRequest s₂) (h₁ : exec .encode s₁ = .next t₁)
    (h₂ : exec .encode s₂ = .next t₂) : t₁.SameRequest t₂ := by
  have hf₁ := exec_frame h₁
  have hf₂ := exec_frame h₂
  have hread₁ := Memory.read?_congr (hf₁.window .digits (by decide))
  have hread₂ := Memory.read?_congr (hf₂.window .digits (by decide))
  refine ⟨by rw [hf₂.ecl, h.ecl, hf₁.ecl], by rw [hf₂.len, h.len, hf₁.len], fun i hi => ?_⟩
  rw [hf₁.len] at hi
  rw [hread₂, hread₁, h.digits i hi]

/-- The best mask is no later than one found best among the same totals. -/
theorem State.ShowsBest.bestId_not_lt {t₁ t₂ : State} {c₁ c₂ : List Byte} (h₁ : t₁.ShowsBest c₁) (h₂ : t₂.ShowsBest c₂)
    (hpen : t₂.pen = t₁.pen) : ¬ t₁.bestId.toFin < t₂.bestId.toFin := by
  intro hlt
  have hstrict := (h₂.least t₁.bestId.toFin).2 hlt
  have hleast := (h₁.least t₂.bestId.toFin).1
  rw [hpen, ← h₁.bestPen] at hstrict
  rw [← hpen, ← h₂.bestPen] at hleast
  omega

theorem State.ShowsBest.bestId_eq {t₁ t₂ : State} {c₁ c₂ : List Byte} (h₁ : t₁.ShowsBest c₁) (h₂ : t₂.ShowsBest c₂)
    (hpen : t₂.pen = t₁.pen) : t₂.bestId = t₁.bestId :=
  BitVec.toFin_inj.1 (le_antisymm (not_lt.1 (h₁.bestId_not_lt h₂ hpen)) (not_lt.1 (h₂.bestId_not_lt h₁ hpen.symm)))

namespace State.Encoded

variable {t₁ t₂ : State} (h₁ : t₁.Encoded) (h₂ : t₂.Encoded) (hreq : t₁.SameRequest t₂)
include h₁ h₂ hreq

theorem entry_congr : t₂.entry = t₁.entry := by
  obtain ⟨v₁, row₁, hrow₁, hfirst₁, hentry₁⟩ := h₁.select
  obtain ⟨v₂, row₂, hrow₂, hfirst₂, hentry₂⟩ := h₂.select
  rw [hreq.ecl, hreq.len, hfirst₁] at hfirst₂
  obtain rfl := Option.some.inj hfirst₂
  rw [hreq.ecl, hrow₁] at hrow₂
  obtain rfl := Option.some.inj hrow₂
  rw [hentry₂, hentry₁, hreq.ecl]

/-- The scan finds the same digits, and their stream fills the same zeroed buffer. -/
theorem bs_congr : t₂.mem.window .bs = t₁.mem.window .bs := by
  have hentry := h₁.entry_congr h₂ hreq
  obtain ⟨hfit, ds, n₁, hscan₁, hst₁, -⟩ := h₁.done .compose (by decide)
  obtain ⟨-, ds₂, n₂, hscan₂, hst₂, -⟩ := h₂.done .compose (by decide)
  rw [hreq.len, Memory.view_eq_of_agree h₁.wf h₂.wf hreq.digits, hscan₁] at hscan₂
  obtain rfl := Scan.digits.inj hscan₂
  have hlen : ds.length = t₁.len.toNat := length_of_scanDigits hscan₁
  have hhead : (headBits t₁.entry.cci.toNat ds).length ≤ t₁.entry.capBits := by rwa [headBits_length, hlen]
  rw [← hlen, composeStream_eq _ h₁.sound.dataCw_le hhead] at hst₁
  rw [hreq.len, hentry, ← hlen, composeStream_eq _ h₁.sound.dataCw_le hhead] at hst₂
  obtain ⟨st, hst, hsame⟩ := appendBits_congr hst₁ (zeroed_sameBs h₁.wf h₂.wf)
  obtain rfl := Except.ok.inj (hst.symm.trans hst₂)
  exact hsame.bs

theorem stream_congr : ∃ vals, t₁.mem.readList .ilv 0 t₁.entry.totalCw.toNat = .ok vals ∧
    t₂.mem.readList .ilv 0 t₁.entry.totalCw.toNat = .ok vals := by
  have hentry := h₁.entry_congr h₂ hreq
  have hbs := h₁.bs_congr h₂ hreq
  obtain ⟨ds₁, es₁, hds₁, hes₁, hilv₁⟩ := (h₁.done .interleave (by decide)).stream_eq h₁.sound h₁.wf
  obtain ⟨ds₂, es₂, hds₂, hes₂, hilv₂⟩ := (h₂.done .interleave (by decide)).stream_eq h₂.sound h₂.wf
  have henc₁ := (h₁.done .rsAll (by decide)).blockEncoded h₁.sound h₁.wf
  have henc₂ := (h₂.done .rsAll (by decide)).blockEncoded h₂.sound h₂.wf
  rw [hentry] at hds₂ hes₂ hilv₂ henc₂
  rw [Memory.readAt_congr hbs, hds₁] at hds₂
  obtain rfl := Except.ok.inj hds₂
  obtain rfl := h₁.sound.readAt_ecb_eq h₁.wf h₂.wf hbs henc₁ henc₂ hes₁ hes₂
  exact ⟨_, hilv₁, hilv₂⟩

theorem candidate_congr (m : BitVec 3) : t₂.candidate m = t₁.candidate m := by
  have hentry := h₁.entry_congr h₂ hreq
  obtain ⟨vals, hilv₁, hilv₂⟩ := h₁.stream_congr h₂ hreq
  have hmat₁ := (h₁.done .build (by decide)).readList_mat h₁.wf
  have hmat₂ := (h₂.done .build (by decide)).readList_mat h₂.wf
  rw [hentry] at hmat₂
  simp only [State.candidate, hmat₁, hmat₂, hentry, hilv₁, hilv₂]

theorem pen_congr : t₂.pen = t₁.pen := by
  obtain ⟨cells₁, hbest₁⟩ := h₁.showsBest
  obtain ⟨cells₂, hbest₂⟩ := h₂.showsBest
  refine Vector.ext fun m hm => Option.some.inj ?_
  have htotal₁ := hbest₁.totals ⟨m, hm⟩
  have htotal₂ := hbest₂.totals ⟨m, hm⟩
  rw [State.candidateTotal, h₁.candidate_congr h₂ hreq, h₁.entry_congr h₂ hreq, ← State.candidateTotal] at htotal₂
  exact htotal₂.symm.trans htotal₁

theorem showsBest_congr : ∃ cells, t₁.ShowsBest cells ∧ t₂.ShowsBest cells ∧ t₂.bestId = t₁.bestId := by
  obtain ⟨cells₁, hbest₁⟩ := h₁.showsBest
  obtain ⟨cells₂, hbest₂⟩ := h₂.showsBest
  have hid := hbest₁.bestId_eq hbest₂ (h₁.pen_congr h₂ hreq)
  have hcand := hbest₂.candidate
  rw [h₁.candidate_congr h₂ hreq, hid, hbest₁.candidate] at hcand
  obtain rfl := Except.ok.inj hcand
  exact ⟨cells₁, hbest₁, hbest₂, hid⟩

theorem viWord_congr : t₂.viWord = t₁.viWord := by
  obtain ⟨hvi₁, -⟩ := h₁.done .build (by decide)
  obtain ⟨hvi₂, -⟩ := h₂.done .build (by decide)
  rw [hvi₂, hvi₁, h₁.entry_congr h₂ hreq]

end State.Encoded

/-- Settles O42: no version fits either request, and `SELECT` fails in both; or both succeed, and of each command the
result in place follows from the results before it. -/
theorem encodeDependsOnTheRequestOnly : Obligations.EncodeDependsOnTheRequestOnly := by
  intro s₁ s₂ t₁ hlaunch₁ hlaunch₂ hwf₁ hwf₂ hecl hlen hdigits hexec₁
  have hreq : s₁.SameRequest s₂ := ⟨hecl.symm, hlen.symm, fun i hi => (hdigits i hi).symm⟩
  by_cases hfits : s₁.Fits
  · obtain ⟨t, ht, h₁⟩ := hlaunch₁.execEncode_succeeds hwf₁ hfits
    obtain rfl : t = t₁ := Host.Outcome.next.inj (ht.symm.trans hexec₁)
    obtain ⟨t₂, hexec₂, h₂⟩ := hlaunch₂.execEncode_succeeds hwf₂ (hreq.fits_iff.2 hfits)
    replace hreq := hreq.encode hexec₁ hexec₂
    have hentry := h₁.entry_congr h₂ hreq
    obtain ⟨vals, hilv₁, hilv₂⟩ := h₁.stream_congr h₂ hreq
    obtain ⟨cells, hbest₁, hbest₂, hid⟩ := h₁.showsBest_congr h₂ hreq
    have hpen := h₁.pen_congr h₂ hreq
    have hilvSize := (Nat.zero_add _).trans_le h₁.sound.totalCw_le
    refine ⟨t₂, hexec₂, by rw [h₂.status, h₁.status], fun _ => ⟨hentry, hpen, hid, ?_, ?_, ?_, h₁.viWord_congr h₂ hreq,
      fun k hk => ?_, fun k hk => ?_⟩⟩
    · simp only [hbest₂.bestPen, hbest₁.bestPen, hpen, hid]
    · rw [hbest₂.score, hbest₁.score, hentry]
    · rw [hbest₂.fmtWord, hbest₁.fmtWord, hentry, hid]
    · have hread := Memory.read?_eq_of_readList h₁.wf h₂.wf hilvSize hilv₁ hilv₂ hk
      rwa [Nat.zero_add] at hread
    · have hread := Memory.read?_eq_of_readList h₁.wf h₂.wf (w := .wm) le_rfl hbest₁.shown hbest₂.shown hk
      rwa [Nat.zero_add] at hread
  · have hexec₂ := execEncode_of_not_fits hlaunch₂.err (mt hreq.fits_iff.1 hfits)
    obtain rfl := Host.Outcome.next.inj ((execEncode_of_not_fits hlaunch₁.err hfits).symm.trans hexec₁)
    refine ⟨_, hexec₂, ?_, fun he => absurd he (show errCapacityExceeded ≠ 0#4 by decide)⟩
    rw [State.withError_status, State.withError_status, hlaunch₁.1, hlaunch₂.1]

end Sys2Proof.Machine
end

section
/-! SUPPORT. What a command other than `ENCODE` answers while `ERR` is 0, said once (60_exceptions R1201 to R1204,
R1209): it raises no error, or fails for a cause of R1201's table and changes nothing else, or stops at a read of an
element never written. -/

-- One theorem at a time: each proof in flight holds a thread's whole stack.
set_option Elab.async false

namespace Sys2Proof.Machine

/-- A cause for which a command other than `ENCODE` fails: one of R1201's table, or a non-digit as `COMPOSE` finds it,
by its scan. -/
inductive Fails (s : State) : Instr → BitVec 4 → Prop
  | cause {i c} (h : Raises i s c) : Fails s i c
  | badDigit (hsel : s.status.selV = true)
      (hfit : 4 + s.entry.cci.toNat + contentBits s.len.toNat ≤ s.entry.capBits)
      (hscan : scanDigits 0 [] (Ram.view s.mem.digits 0 s.len.toNat) = .invalid) : Fails s .compose errInvalidDigit

/-- How a command other than `ENCODE` comes to stop: the checks it has passed, and, where no statement about the command
says that it completes, the read that failed. -/
inductive Stops (s : State) : Instr → Unwritten → Prop
  | digit {k} (hscan : scanDigits 0 [] (Ram.view s.mem.digits 0 s.len.toNat) = .stopped k) :
      Stops s .compose ⟨.digits, k⟩
  | composed {ds u} (hsel : s.status.selV = true)
      (hfit : 4 + s.entry.cci.toNat + contentBits s.len.toNat ≤ s.entry.capBits)
      (hscan : scanDigits 0 [] (Ram.view s.mem.digits 0 s.len.toNat) = .digits ds)
      (hst : composeStream s.entry s.len.toNat ds s.mem = .error u) : Stops s .compose u
  | appended {w x u} (hsel : s.status.selV = true) (hfit : s.cur.toNat + w.toNat ≤ s.entry.capBits)
      (hst : appendField w.toNat x.toNat s.stream = .error u) : Stops s (.bsAppend w x) u
  | terminated {u} (hsel : s.status.selV = true) (hst : terminate s.entry.capBits s.stream = .error u) :
      Stops s .bsTerminate u
  | padded {u} (hsel : s.status.selV = true) (hst : padStream s.entry.capBits s.stream = .error u) : Stops s .bsPad u
  | byte {o l u} (hds : s.mem.readList .bs o.toNat l.toNat = .error u) : Stops s (.rsEncode o l) u
  | coefficient {o l u} (hgen : s.status.genV = true) (hg : s.mem.readList .gen 0 (s.genLen.toNat + 1) = .error u) :
      Stops s (.rsEncode o l) u
  | block {u} (hsel : s.status.selV = true) (hbs : s.status.bsV = true) : Stops s .rsAll u
  | codeword {u} (hsel : s.status.selV = true) (hbs : s.status.bsV = true) (hec : s.status.ecV = true) :
      Stops s .interleave u
  | placed {m u} (hmat : s.status.matV = true) (hilv : s.status.ilvV = true) : Stops s (.place m) u
  | scored {u} (hwm : s.status.wmV = true) : Stops s .score u
  | selected {u} (hmat : s.status.matV = true) (hilv : s.status.ilvV = true) : Stops s .maskSelect u

/-- From `s` to `t` no error was raised and none cleared: the fault log and `ERR` are kept. -/
structure Unerring (s t : State) : Prop where
  log : t.faultLog = s.faultLog
  err : t.status.err = s.status.err

/-- What a command answers: it raises no error, fails with `ERR` and the fault log changed only, or stops. -/
inductive Answer (s : State) (i : Instr) : Result → Prop
  | done {t} (h : Unerring s t) : Answer s i (.next t)
  | failed {c} (h : Fails s i c) : Answer s i (raiseError c s)
  | stopped {u} (h : Stops s i u) : Answer s i (raiseUnwritten u s)

theorem Fails.code_ne_zero {s : State} {i : Instr} {c : BitVec 4} (h : Fails s i c) : c ≠ 0#4 := by
  cases h with
  | cause h => cases h <;> decide
  | badDigit => decide

/-! ### Selecting a mask raises no error -/

theorem tryMask_unerring {m : BitVec 3} {s t : State} (h : tryMask m s = .ok t) : Unerring s t := by
  obtain ⟨u, hplace, hscore⟩ := tryMask_eq_ok h
  obtain ⟨mat, ilv, -, -, rfl⟩ := placeMask_eq_ok hplace
  obtain ⟨rows, -, rfl⟩ := scoreMask_eq_ok hscore
  exact ⟨rfl, rfl⟩

theorem selectMask_unerring {s t : State} (h : selectMask s = .ok t) : Unerring s t :=
  selectMask_induct (P := Unerring s)
    (fun _ _ _ hs ht => ⟨(tryMask_unerring ht).log.trans hs.log, (tryMask_unerring ht).err.trans hs.err⟩)
    (fun _ _ _ hs => ⟨hs.log, hs.err⟩) (fun _ hs => ⟨hs.log, hs.err⟩) ⟨rfl, rfl⟩ h

/-! ### One rule per shared operation -/

namespace Answer

variable {s : State} {i : Instr}

theorem sticky {body : State → Result} (he : s.status.err = 0#4) (h : Answer s i (body s)) :
    Answer s i (unlessError s body) := by
  rwa [unlessError_ok he]

theorem require {ok : Bool} {k : Result} (hno : ok = false → Fails s i errSequence) (hk : ok = true → Answer s i k) :
    Answer s i (Machine.require ok s k) := by
  cases ok
  · exact .failed (hno rfl)
  · exact hk rfl

theorem raiseIf {p : Prop} [Decidable p] {c : BitVec 4} {k : Result} (hp : p → Fails s i c)
    (hk : ¬ p → Answer s i k) : Answer s i (if p then raiseError c s else k) := by
  split
  · next h => exact .failed (hp h)
  · next h => exact hk h

theorem orFault {α : Type} {r : Except Unwritten α} {k : α → Result} (hr : ∀ u, r = .error u → Stops s i u)
    (hk : ∀ a, r = .ok a → Answer s i (k a)) : Answer s i (Machine.orFault s r k) := by
  cases r with
  | error u => exact .stopped (hr u rfl)
  | ok a => exact hk a rfl

variable {r : Result} {t : State}

theorem next_cases (h : Answer s i r) (hr : r = .next t) :
    Unerring s t ∨ ∃ c, Fails s i c ∧ t = s.withError c := by
  cases h with
  | done h => exact .inl (Host.Outcome.next.inj hr ▸ h)
  | failed h => exact .inr ⟨_, h, raiseError_next hr⟩
  | stopped => cases hr

theorem fault_cases {f : Fault} (h : Answer s i r) (hr : r = .fault f) :
    ∃ u, Stops s i u ∧ f = .unwritten u (s.faultLog ++ [.unwritten u]) := by
  cases h with
  | stopped h => exact ⟨_, h, raiseUnwritten_fault hr⟩
  | done | failed => cases hr

theorem ne_refused (h : Answer s i r) (x : Refusal) : r ≠ .refused x := by
  cases h <;> nofun

end Answer

/-! ### The commands -/

theorem State.firstFit_eq_none_iff {s : State} :
    firstFit s.ecl s.len.toNat Config.verMax 1 = none ↔ ¬ s.Fits := by
  rw [firstFit_eq_none]
  constructor
  · rintro h ⟨v, h₁, h₂, hfit⟩
    exact Bool.eq_false_iff.1 (h v h₁ (by omega)) hfit
  · exact fun h v h₁ h₂ => Bool.eq_false_iff.2 fun hfit => h ⟨v, h₁, by omega, hfit⟩

variable {s : State} (he : s.status.err = 0#4)
include he

theorem execGfMul_answer (a b : BitVec 8) : Answer s (.gfMul a b) (execGfMul a b s) :=
  .sticky he (.done ⟨rfl, rfl⟩)

theorem execBsReset_answer : Answer s .bsReset (execBsReset s) := .sticky he (.done ⟨rfl, rfl⟩)

theorem execFmtCalc_answer (e : BitVec 2) (m : BitVec 3) : Answer s (.fmtCalc e m) (execFmtCalc e m s) :=
  .sticky he (.done ⟨rfl, rfl⟩)

theorem execVerCalc_answer (v : BitVec 6) : Answer s (.verCalc v) (execVerCalc v s) :=
  .sticky he <| .raiseIf (fun hv => .cause (.verOperand hv)) fun _ => .done ⟨rfl, rfl⟩

theorem execGenPoly_answer (n : BitVec 8) : Answer s (.genPoly n) (execGenPoly n s) :=
  .sticky he <| .raiseIf (fun hn => .cause (.genOperand hn)) fun _ => .done ⟨rfl, rfl⟩

theorem execBuild_answer : Answer s .build (execBuild s) :=
  .sticky he <| .require (fun hsel => .cause (.buildSequence hsel)) fun _ => .done ⟨rfl, rfl⟩

theorem execZzReset_answer : Answer s .zzReset (execZzReset s) :=
  .sticky he <| .require (fun hmat => .cause (.zzResetSequence hmat)) fun _ => .done ⟨rfl, rfl⟩

theorem execCapLookup_answer (v : BitVec 6) (e : BitVec 2) : Answer s (.capLookup v e) (execCapLookup v e s) := by
  refine .sticky he ?_
  split
  · next hrow =>
    have hv := mt (capRow?_isSome v.toNat e).2 (by simp [hrow])
    exact .failed (.cause (.notFound (by omega)))
  · exact .done ⟨rfl, rfl⟩

theorem execSelect_answer : Answer s .select (execSelect s) := by
  refine .sticky he ?_
  split
  · next hfirst => exact .failed (.cause (.capacity (State.firstFit_eq_none_iff.1 hfirst)))
  · next v hfirst =>
    obtain ⟨-, -, hfit, -⟩ := firstFit_eq_some hfirst
    obtain ⟨row, hrow, -⟩ := fits_iff.1 hfit
    rw [hrow]
    exact .done ⟨rfl, rfl⟩

theorem execCompose_answer : Answer s .compose (execCompose s) := by
  refine .sticky he (.require (fun hsel => .cause (.composeSequence hsel)) fun hsel =>
    .raiseIf (fun hlt => .cause (.composeOverflow hsel hlt)) fun hfit => ?_)
  have hfit := Nat.le_of_not_lt hfit
  split
  · next k hscan => exact .stopped (.digit hscan)
  · next hscan => exact .failed (.badDigit hsel hfit hscan)
  · next ds hscan => exact .orFault (fun _ hst => .composed hsel hfit hscan hst) fun _ _ => .done ⟨rfl, rfl⟩

theorem execBsAppend_answer (w : BitVec 5) (x : BitVec 16) : Answer s (.bsAppend w x) (execBsAppend w x s) := by
  refine .sticky he (.raiseIf (fun hw => .cause (.appendOperand hw)) fun hw => ?_)
  have hw : 1 ≤ w.toNat ∧ w.toNat ≤ 16 := by omega
  exact .require (fun hsel => .cause (.appendSequence hw hsel)) fun hsel =>
    .raiseIf (fun hlt => .cause (.appendOverflow hw hsel hlt)) fun hfit =>
    .orFault (fun _ hst => .appended hsel (Nat.le_of_not_lt hfit) hst) fun _ _ => .done ⟨rfl, rfl⟩

theorem execBsTerminate_answer : Answer s .bsTerminate (execBsTerminate s) :=
  .sticky he <| .require (fun hsel => .cause (.terminateSequence hsel)) fun hsel =>
    .orFault (fun _ hst => .terminated hsel hst) fun _ _ => .done ⟨rfl, rfl⟩

theorem execBsPad_answer : Answer s .bsPad (execBsPad s) :=
  .sticky he <| .require
    (fun hno => .cause (.padSequence ((Bool.and_eq_false_iff.1 hno).imp_right of_decide_eq_false))) fun hok =>
    .orFault (fun _ hst => .padded (Bool.and_eq_true_iff.1 hok).1 hst) fun _ _ => .done ⟨rfl, rfl⟩

theorem execRsEncode_answer (o : BitVec 12) (l : BitVec 8) : Answer s (.rsEncode o l) (execRsEncode o l s) :=
  .sticky he <| .raiseIf (fun hlt => .cause (.rsOperand hlt)) fun hrange =>
    .require (fun hgen => .cause (.rsSequence (Nat.le_of_not_lt hrange) hgen)) fun hgen =>
    .orFault (fun _ hds => .byte hds) fun _ _ => .orFault (fun _ hg => .coefficient hgen hg) fun _ _ => .done ⟨rfl, rfl⟩

theorem execRsAll_answer : Answer s .rsAll (execRsAll s) := by
  refine .sticky he (.require (fun hno => .cause (.rsAllSequence (Bool.and_eq_false_iff.1 hno))) fun hok => ?_)
  obtain ⟨hsel, hbs⟩ := Bool.and_eq_true_iff.1 hok
  exact .orFault (fun _ _ => .block hsel hbs) fun _ _ => .done ⟨rfl, rfl⟩

theorem execInterleave_answer : Answer s .interleave (execInterleave s) := by
  refine .sticky he (.require (fun hno => ?_) fun hok => ?_)
  · exact .cause (.interleaveSequence (or_assoc.1 ((Bool.and_eq_false_iff.1 hno).imp_left Bool.and_eq_false_iff.1)))
  simp only [Bool.and_eq_true] at hok
  obtain ⟨⟨hsel, hbs⟩, hec⟩ := hok
  exact .orFault (fun _ _ => .codeword hsel hbs hec) fun _ _ =>
    .orFault (fun _ _ => .codeword hsel hbs hec) fun _ _ => .done ⟨rfl, rfl⟩

theorem execZzNext_answer : Answer s .zzNext (execZzNext s) := by
  refine .sticky he (.require (fun hzz => .cause (.zzNextSequence hzz)) fun _ => ?_)
  split <;> exact .done ⟨rfl, rfl⟩

theorem execPlace_answer (m : BitVec 3) : Answer s (.place m) (execPlace m s) := by
  refine .sticky he (.require (fun hno => .cause (.placeSequence (Bool.and_eq_false_iff.1 hno))) fun hok => ?_)
  obtain ⟨hmat, hilv⟩ := Bool.and_eq_true_iff.1 hok
  refine .orFault (fun _ _ => .placed hmat hilv) fun t ht => .done ?_
  obtain ⟨mat, ilv, -, -, rfl⟩ := placeMask_eq_ok ht
  exact ⟨rfl, rfl⟩

theorem execScore_answer : Answer s .score (execScore s) := by
  refine .sticky he (.require (fun hwm => .cause (.scoreSequence hwm)) fun hwm => ?_)
  refine .orFault (fun _ _ => .scored hwm) fun t ht => .done ?_
  obtain ⟨rows, -, rfl⟩ := scoreMask_eq_ok ht
  exact ⟨rfl, rfl⟩

theorem execMaskSelect_answer : Answer s .maskSelect (execMaskSelect s) := by
  refine .sticky he (.require (fun hno => .cause (.maskSequence (Bool.and_eq_false_iff.1 hno))) fun hok => ?_)
  obtain ⟨hmat, hilv⟩ := Bool.and_eq_true_iff.1 hok
  exact .orFault (fun _ _ => .selected hmat hilv) fun _ ht => .done (selectMask_unerring ht)

/-- What a command other than `ENCODE` answers. -/
theorem exec_answer {i : Instr} (hi : i ≠ .encode) : Answer s i (exec i s) := by
  cases i with
  | nop | gfInit => exact .sticky he (.done ⟨rfl, rfl⟩)
  | gfMul a b => exact execGfMul_answer he a b
  | fmtCalc e m => exact execFmtCalc_answer he e m
  | bsReset => exact execBsReset_answer he
  | clear => exact .done ⟨rfl, he.symm⟩
  | capLookup v e => exact execCapLookup_answer he v e
  | select => exact execSelect_answer he
  | compose => exact execCompose_answer he
  | bsAppend w x => exact execBsAppend_answer he w x
  | bsTerminate => exact execBsTerminate_answer he
  | bsPad => exact execBsPad_answer he
  | genPoly n => exact execGenPoly_answer he n
  | rsEncode o l => exact execRsEncode_answer he o l
  | rsAll => exact execRsAll_answer he
  | interleave => exact execInterleave_answer he
  | build => exact execBuild_answer he
  | verCalc v => exact execVerCalc_answer he v
  | zzReset => exact execZzReset_answer he
  | zzNext => exact execZzNext_answer he
  | place m => exact execPlace_answer he m
  | score => exact execScore_answer he
  | maskSelect => exact execMaskSelect_answer he
  | encode => exact absurd rfl hi

end Sys2Proof.Machine
end

section
/-! SUPPORT. The causes of R1201's table (60_exceptions R1201 to R1204): a cause that holds is raised; `COMPOSE`'s scan
ends at a non-digit where the table says it does; a failed command changed only `ERR` and `LASTCMD`; while `ERR` is not
0 only `CLEAR` acts. And the platform's reset (70_reset_and_hazards R1300). -/

-- One theorem at a time: each proof in flight holds a thread's whole stack.
set_option Elab.async false

namespace Sys2Proof.Machine

/-! ### The scan of the digits (R620) -/

/-- The one-pass view of a canonical window reads its elements, and none past its end. -/
theorem Memory.view_eq_map_read? {m : Memory} (hm : m.wf = true) (w : Window) (n : Nat) :
    Ram.view (m.window w) 0 n = (List.range n).map (m.read? w) := by
  obtain ⟨hrising, hbound⟩ := (Memory.wf_iff m).1 hm w
  rw [Ram.view_eq hrising, ← List.range_eq_range']
  refine List.map_congr_left fun k _ => ?_
  rw [Memory.read?]
  split
  · rfl
  · next hk => exact Ram.read?_eq_none_of_ge hbound (Nat.le_of_not_lt hk)

theorem scanDigits_eq_invalid {i : Nat} {seen : List Nat} {vs : List (Option Byte)} :
    scanDigits i seen vs = .invalid ↔
      ∃ k : Nat, (∃ v, vs[k]? = some v ∧ isBadDigit v = true) ∧ ∀ j < k, ∃ b, vs[j]? = some (some b) ∧ isDigit b := by
  induction vs generalizing i seen with
  | nil => simp [scanDigits]
  | cons v vs ih =>
    cases v with
    | none =>
      refine iff_of_false nofun ?_
      rintro ⟨k, ⟨v, hv, hbad⟩, hbefore⟩
      cases k with
      | zero =>
        obtain rfl : none = v := by simpa using hv
        cases hbad
      | succ k => simpa using hbefore 0 (Nat.succ_pos k)
    | some c =>
      rw [scanDigits]
      by_cases hc : c.toNat < 0x30 ∨ 0x39 < c.toNat
      · rw [if_pos hc]
        exact iff_of_true rfl ⟨0, ⟨some c, rfl, by simpa [isBadDigit] using hc⟩, nofun⟩
      · have hdigit : isDigit c := by
          unfold isDigit
          omega
        rw [if_neg hc, ih]
        constructor
        · rintro ⟨k, hbad, hbefore⟩
          refine ⟨k + 1, hbad, fun j hj => ?_⟩
          cases j with
          | zero => exact ⟨c, rfl, hdigit⟩
          | succ j => exact hbefore j (Nat.lt_of_succ_lt_succ hj)
        · rintro ⟨k, ⟨v, hv, hbad⟩, hbefore⟩
          cases k with
          | zero =>
            obtain rfl : some c = v := by simpa using hv
            exact absurd (by simpa [isBadDigit] using hbad) hc
          | succ k => exact ⟨k, ⟨v, hv, hbad⟩, fun j hj => hbefore (j + 1) (Nat.succ_lt_succ hj)⟩

theorem scanDigits_eq_stopped {i k : Nat} {seen : List Nat} {vs : List (Option Byte)}
    (h : scanDigits i seen vs = .stopped k) : i ≤ k ∧ vs[k - i]? = some none := by
  induction vs generalizing i seen with
  | nil => cases h
  | cons v vs ih =>
    cases v with
    | none =>
      cases h
      simp
    | some c =>
      rw [scanDigits] at h
      split at h
      · cases h
      · obtain ⟨hle, hget⟩ := ih h
        rw [show k - i = k - (i + 1) + 1 by omega, List.getElem?_cons_succ]
        exact ⟨by omega, hget⟩

theorem State.view_digits_getElem? {s : State} (hm : s.mem.wf = true) {k : Nat} {v : Option Byte} :
    (Ram.view s.mem.digits 0 s.len.toNat)[k]? = some v ↔ k < s.len.toNat ∧ s.mem.read? .digits k = v := by
  have hview : Ram.view s.mem.digits 0 s.len.toNat = _ := Memory.view_eq_map_read? hm .digits s.len.toNat
  rw [hview, List.getElem?_map, Option.map_eq_some_iff]
  constructor
  · rintro ⟨j, hj, hv⟩
    obtain ⟨hlt, rfl⟩ := List.getElem?_eq_some_iff.1 hj
    simp only [List.length_range, List.getElem_range] at hlt hv
    exact ⟨hlt, hv⟩
  · rintro ⟨hlt, hv⟩
    exact ⟨k, List.getElem?_range hlt, hv⟩

/-- The scan ends at a non-digit exactly where the table says so. -/
theorem State.scanDigits_eq_invalid_iff {s : State} (hm : s.mem.wf = true) :
    scanDigits 0 [] (Ram.view s.mem.digits 0 s.len.toNat) = .invalid ↔ s.MeetsBadDigit := by
  simp only [scanDigits_eq_invalid, State.view_digits_getElem? hm]
  constructor
  · rintro ⟨k, ⟨v, ⟨hlt, rfl⟩, hbad⟩, hbefore⟩
    refine ⟨k, hlt, hbad, fun j hj => ?_⟩
    obtain ⟨b, ⟨-, hb⟩, hdigit⟩ := hbefore j hj
    exact ⟨b, hb, hdigit⟩
  · rintro ⟨k, hlt, hbad, hbefore⟩
    refine ⟨k, ⟨_, ⟨hlt, rfl⟩, hbad⟩, fun j hj => ?_⟩
    obtain ⟨b, hb, hdigit⟩ := hbefore j hj
    exact ⟨b, ⟨hj.trans hlt, hb⟩, hdigit⟩

/-- The scan stops at a digit below `LEN` that was never written. -/
theorem State.unwritten_of_scanDigits_stopped {s : State} (hm : s.mem.wf = true) {k : Nat}
    (h : scanDigits 0 [] (Ram.view s.mem.digits 0 s.len.toNat) = .stopped k) :
    k < s.len.toNat ∧ s.mem.read? .digits k = none :=
  (State.view_digits_getElem? hm).1 (scanDigits_eq_stopped h).2

/-! ### A cause is raised, and nothing else is (R1201, R1202) -/

/-- On canonical windows a command fails for the causes of the table only. -/
theorem Fails.raises {s : State} {i : Instr} {c : BitVec 4} (h : Fails s i c) (hm : s.mem.wf = true) :
    Raises i s c := by
  cases h with
  | cause h => exact h
  | badDigit hsel hfit hscan => exact .invalidDigit hsel hfit ((State.scanDigits_eq_invalid_iff hm).1 hscan)

/-- A cause of the table that holds is raised. -/
theorem Raises.exec_eq {i : Instr} {s : State} {c : BitVec 4} (h : Raises i s c) (he : s.status.err = 0#4)
    (hm : s.mem.wf = true) : exec i s = .next (s.withError c) := by
  cases h with
  | appendOperand h | genOperand h | rsOperand h | verOperand h =>
    rw [exec]
    refine (unlessError_ok he _).trans ?_
    exact if_pos h
  | appendSequence hw h =>
    rw [exec, execBsAppend, unlessError_ok he, if_neg (by omega), require_false h]
    rfl
  | rsSequence hrange h =>
    rw [exec, execRsEncode, unlessError_ok he, if_neg (Nat.not_lt.2 hrange), require_false h]
    rfl
  | terminateSequence h | composeSequence h | buildSequence h | zzResetSequence h | zzNextSequence h
  | scoreSequence h =>
    rw [exec]
    refine (unlessError_ok he _).trans ?_
    exact require_false h _ _
  | padSequence h =>
    rw [exec, execBsPad, unlessError_ok he, require_false (Bool.and_eq_false_iff.2 (h.imp_right decide_eq_false))]
    rfl
  | rsAllSequence h | placeSequence h | maskSequence h =>
    rw [exec]
    refine (unlessError_ok he _).trans ?_
    exact require_false (Bool.and_eq_false_iff.2 h) _ _
  | interleaveSequence h =>
    have hno := Bool.and_eq_false_iff.2 ((or_assoc.2 h).imp_left Bool.and_eq_false_iff.2)
    rw [exec, execInterleave, unlessError_ok he, require_false hno]
    rfl
  | notFound h =>
    rw [exec, execCapLookup, unlessError_ok he, capRow?_eq_none h]
    rfl
  | capacity h =>
    rw [exec, execSelect, unlessError_ok he, State.firstFit_eq_none_iff.2 h]
    rfl
  | appendOverflow hw hsel h =>
    rw [exec, execBsAppend, unlessError_ok he, if_neg (by omega), require_true hsel, if_pos h]
    rfl
  | composeOverflow hsel h =>
    rw [exec, execCompose, unlessError_ok he, require_true hsel, if_pos h]
    rfl
  | invalidDigit hsel hfit h =>
    rw [exec, execCompose, unlessError_ok he, require_true hsel, if_neg (Nat.not_lt.2 hfit),
      (State.scanDigits_eq_invalid_iff hm).2 h]
    rfl

theorem State.withError_injective {s : State} {c c' : BitVec 4} (h : s.withError c = s.withError c') : c = c' :=
  congrArg (fun s => s.status.err) h

/-- A command fails with code `c` exactly when `c` is the first cause of the table. -/
theorem exec_eq_withError_iff {i : Instr} {s : State} {c : BitVec 4} (hi : i ≠ .encode) (he : s.status.err = 0#4)
    (hm : s.mem.wf = true) : exec i s = .next (s.withError c) ↔ Raises i s c := by
  refine ⟨fun h => ?_, fun h => h.exec_eq he hm⟩
  obtain hdone | ⟨c', hfail, hc⟩ := (exec_answer he hi).next_cases h
  · exact absurd hdone.log (by simp)
  · exact State.withError_injective hc ▸ hfail.raises hm

/-! ### Failed commands (R1204) -/

theorem step_cmd {s : State} {w : Word} {rest : List HostMove} (hs : s.inbox = .write 0#20 32 w :: rest) :
    step s = runWord w (State.accept { s with inbox := rest } w) := by
  rw [step_eq_hostMove hs, hostMove, busWrite_cmd]

/-- A command word other than `ENCODE`'s that sets `ERR` has changed nothing else. -/
theorem runWord_failed {w : Word} {s t : State} (hw : decode w ≠ .ok .encode) (he : s.status.err = 0#4)
    (h : runWord w s = .next t) (ht : t.status.err ≠ 0#4) : t = s.withError t.status.err := by
  unfold runWord at h
  split at h
  · next i hdecode =>
    have hi : i ≠ .encode := fun hi => hw (hi ▸ hdecode)
    obtain hdone | ⟨c, -, rfl⟩ := (exec_answer he hi).next_cases h
    · exact absurd (hdone.err.trans he) ht
    · rfl
  · obtain rfl | ⟨-, rfl⟩ := illegalWord_next h
    · exact absurd he ht
    · rfl

/-! ### While `ERR` is not 0 (R1203) -/

/-- A word other than `CLEAR`'s is ignored. -/
theorem runWord_ignored {w : Word} (hw : w ≠ 1#32) {s : State} (he : s.status.err ≠ 0#4) : runWord w s = .next s := by
  unfold runWord
  split
  · next i hdecode =>
    refine exec_ignored ?_ he
    rintro rfl
    exact hw (decode_eq_ok_iff.1 hdecode).symm
  · exact unlessError_ignored he _

theorem runWord_clear (s : State) : runWord 1#32 s = .next s.clearRequest := by
  have hdecode : decode 1#32 = .ok .clear := decode_eq_ok_iff.2 rfl
  rw [runWord, hdecode]
  rfl

/-- Settles O45: every word but `CLEAR`'s is ignored, and host accesses do not look at `ERR`. -/
theorem errorsAreSticky : Obligations.ErrorsAreSticky := by
  refine fun s rest he => ⟨fun w hs hw => ?_, fun hs => ?_, fun d hs => ?_, fun d hs => ?_, fun z i d hz hi hs => ?_,
    fun r hs => ?_⟩
  · exact (step_cmd hs).trans (runWord_ignored hw he)
  · exact ⟨_, (step_cmd hs).trans (runWord_clear _), rfl, rfl, rfl, rfl, rfl⟩
  · exact ⟨_, (hostWritesStoreAndInvalidate s rest d).1 hs, (lowBits_eq d 2).symm, rfl⟩
  · exact ⟨_, (hostWritesStoreAndInvalidate s rest d).2.1 hs, (lowBits_eq d 13).symm, rfl⟩
  · obtain ⟨t, hstep, ht, hread, -⟩ := (hostWritesStoreAndInvalidate s rest d).2.2 z i hz hi hs
    exact ⟨t, hstep, ht, hread.trans (congrArg some (lowBits_eq d 8).symm)⟩
  · exact (busReadsHaveNoEffect.1 s rest).1 r hs

/-! ### The platform's reset (R1300) -/

/-- Settles O54: the move is the reset state with the model's own fields kept. -/
theorem platformResetResets : Obligations.PlatformResetResets := fun s rest hs =>
  ⟨State.platformReset { s with inbox := rest }, step_eq_hostMove hs, reset_regWord, Memory.read?_empty, rfl⟩

end Sys2Proof.Machine
end

section
/-! SUPPORT. How `ENCODE` ends (47_control R1110, 60_exceptions R1204), and what a step does to the fault log (R1209):
`SELECT` and `COMPOSE` are the only commands of `ENCODE` that can fail, the others find the flags they need. -/

-- One theorem at a time: each proof in flight holds a thread's whole stack.
set_option Elab.async false

namespace Sys2Proof.Machine

/-! ### The flags after a command of `ENCODE`, whatever memory holds -/

theorem tryMasks_status {ms : List (BitVec 3)} {best b : Option (BitVec 3 × Word)} {s t : State}
    (h : tryMasks ms best s = .ok (t, b)) : t.status = ms.foldl (fun x m => x.setPlaced.setScored m) s.status := by
  induction ms generalizing best s with
  | nil =>
    cases h
    rfl
  | cons m ms ih =>
    obtain ⟨s₁, htry, h⟩ := tryMasks_cons h
    rw [ih h, tryMask_status htry, List.foldl_cons]

theorem selectMask_status {s t : State} (h : selectMask s = .ok t) : t.status = s.status.selected := by
  obtain ⟨s₁, best, s₂, hloop, hwin, rfl⟩ := selectMask_eq_ok h
  rw [State.setStatus_status, tryMask_status hwin, State.setBest_status, tryMasks_status hloop, Status.selected_eq]

/-- A command of `ENCODE` that leaves no error sets its flags. -/
theorem CommandEffect.status_eq_after {i : Instr} {s t : State} (h : CommandEffect s i t) (hi : i ∈ encodeParts)
    (ht : t.status.err = 0#4) : t.status = s.status.after i := by
  cases h with
  | ignored hne => exact absurd ht hne
  | failed c _ hc => exact absurd ht (err_ne_zero_of_code hc)
  | select | compose | rsAll | interleave | build => rfl
  | maskSelect _ _ hu => exact selectMask_status hu
  | _ => exact absurd hi (by simp [encodeParts])

/-! ### Which commands of `ENCODE` can fail -/

/-- The commands of `ENCODE` after `SELECT` and `COMPOSE` (47_control R1110). -/
def lateParts : List Instr := [.rsAll, .interleave, .build, .maskSelect]

theorem mem_encodeParts_of_late {i : Instr} (hi : i ∈ lateParts) : i ∈ encodeParts :=
  List.mem_append_right [Instr.select, .compose] hi

/-- After `COMPOSE` the flags every later command needs are there, so none fails. -/
theorem Fails.not_ready {s : State} {i : Instr} {c : BitVec 4} (h : Fails s i c)
    (hi : i ∈ lateParts) : ¬ s.status.Ready i := by
  cases h with
  | badDigit => exact absurd hi (by decide)
  | cause h =>
    cases h with
    | rsAllSequence h | interleaveSequence h | buildSequence h | maskSequence h =>
      intro hready
      simp only [Status.Ready] at hready
      simp [hready] at h
    | _ => exact absurd hi (by simp [lateParts])

theorem execAll_err_eq_zero {is : List Instr} (his : ∀ i ∈ is, i ∈ lateParts) {s t : State}
    (he : s.status.err = 0#4) (hready : s.status.ReadyAll is) (h : execAll is s = .next t) : t.status.err = 0#4 := by
  induction is generalizing s with
  | nil =>
    cases h
    exact he
  | cons i is ih =>
    obtain ⟨hi, his⟩ := List.forall_mem_cons.1 his
    obtain ⟨hnow, hready⟩ := hready
    obtain ⟨u, hu, h⟩ := andThen_next.1 h
    have hpart := mem_encodeParts_of_late hi
    have hne := (ne_of_mem_encodeParts hpart).2
    obtain hdone | ⟨c, hfail, -⟩ := (exec_answer he hne).next_cases hu
    · have hue := hdone.err.trans he
      exact ih his hue ((exec_next hne hu).status_eq_after hpart hue ▸ hready) h
    · exact absurd hnow (hfail.not_ready hi)

/-- In a state whose entry is selected and holds the message, `COMPOSE` fails at a non-digit only. -/
theorem Fails.eq_invalidDigit {s : State} {c : BitVec 4} (h : Fails s .compose c) (hsel : s.status.selV = true)
    (hfit : 4 + s.entry.cci.toNat + contentBits s.len.toNat ≤ s.entry.capBits) : c = errInvalidDigit := by
  cases h with
  | badDigit => rfl
  | cause h =>
    cases h with
    | composeSequence h => exact absurd hsel (Bool.eq_false_iff.1 h)
    | composeOverflow _ h => exact absurd hfit (Nat.not_le.2 h)
    | invalidDigit => rfl

/-! ### How `ENCODE` ends -/

/-- `SELECT` takes `s` to `u`: an entry that holds the message is loaded, and the request is kept. -/
structure State.Selects (s u : State) : Prop where
  runs   : exec .select s = .next u
  status : u.status = s.status.after .select
  fit    : 4 + u.entry.cci.toNat + contentBits u.len.toNat ≤ u.entry.capBits
  mem    : u.mem = s.mem
  len    : u.len = s.len

theorem State.exists_selects {s : State} (he : s.status.err = 0#4) (hfits : s.Fits) : ∃ u, s.Selects u := by
  obtain ⟨v, row, hrow, hbits, -, hselect⟩ := execSelect_of_fits he hfits
  refine ⟨_, hselect, rfl, ?_, rfl, rfl⟩
  rw [State.selectEntry_entry, State.selectEntry_len, entryOf_cci_toNat, entryOf_capBits hrow]
  exact hbits

namespace State.Selects

variable {s u : State} (h : s.Selects u)
include h

theorem selV : u.status.selV = true := congrArg Status.selV h.status

theorem err (he : s.status.err = 0#4) : u.status.err = 0#4 := by
  rw [h.status, Status.after_err, he]

/-- The scan meets the same digits before `SELECT` and after it. -/
theorem meetsBadDigit_iff : u.MeetsBadDigit ↔ s.MeetsBadDigit := by
  simp only [State.MeetsBadDigit, h.mem, h.len]

/-- `ENCODE` goes on with the commands after `SELECT`. -/
theorem execEncode_eq (he : s.status.err = 0#4) :
    exec .encode s = execAll (.compose :: lateParts) u := by
  rw [exec, Machine.execEncode_eq, unlessError_ok he, encodeParts, execAll, h.runs]
  rfl

end State.Selects

/-- How an `ENCODE` run with `ERR` 0 ends, if it does not stop: without error; in `SELECT`, as no version fits; or in
`COMPOSE`, at a non-digit, after `SELECT` has loaded an entry. -/
inductive EncodeEnd (s t : State) : Prop
  | done (h : t.status.err = 0#4)
  | tooLong (hfits : ¬ s.Fits) (h : t = s.withError errCapacityExceeded)
  | badDigit {u : State} (hfits : s.Fits) (hu : s.Selects u) (hfail : Fails u .compose errInvalidDigit)
      (h : t = u.withError errInvalidDigit)

/-- A failed command ends a list of commands other than `CLEAR`. -/
theorem execAll_of_failed {i : Instr} {is : List Instr} (his : .clear ∉ is) {s : State} {c : BitVec 4} (hc : c ≠ 0#4)
    (h : exec i s = .next (s.withError c)) : execAll (i :: is) s = .next (s.withError c) :=
  andThen_next.2 ⟨_, h, execAll_ignored his hc⟩

theorem State.Selects.encodeEnd {s t u : State} (hu : s.Selects u) (he : s.status.err = 0#4) (hfits : s.Fits)
    (h : exec .encode s = .next t) : EncodeEnd s t := by
  rw [hu.execEncode_eq he] at h
  have hue := hu.err he
  obtain ⟨x, hcompose, hrest⟩ := andThen_next.1 h
  obtain hdone | ⟨c, hfail, rfl⟩ := (exec_answer hue (by decide)).next_cases hcompose
  · have hx := hdone.err.trans hue
    have hready : x.status.ReadyAll lateParts := by
      rw [(exec_next (by decide) hcompose).status_eq_after (by decide) hx, hu.status]
      exact s.status.readyAll_encodeParts.2.2
    exact .done (execAll_err_eq_zero (fun _ hi => hi) hx hready hrest)
  · obtain rfl := hfail.eq_invalidDigit hu.selV hu.fit
    exact .badDigit hfits hu hfail
      (Host.Outcome.next.inj (h.symm.trans (execAll_of_failed (by decide) hfail.code_ne_zero hcompose)))

theorem execEncode_next {s t : State} (he : s.status.err = 0#4) (h : exec .encode s = .next t) : EncodeEnd s t := by
  by_cases hfits : s.Fits
  · obtain ⟨u, hu⟩ := State.exists_selects he hfits
    exact hu.encodeEnd he hfits h
  · exact .tooLong hfits (Host.Outcome.next.inj (h.symm.trans (execEncode_of_not_fits he hfits)))

theorem execEncode_of_badDigit {s : State} (he : s.status.err = 0#4) (hm : s.mem.wf = true) (hfits : s.Fits)
    (hbad : s.MeetsBadDigit) : ∃ t, exec .encode s = .next t ∧ t.status.err = errInvalidDigit := by
  obtain ⟨u, hu⟩ := State.exists_selects he hfits
  have hcause : Raises .compose u errInvalidDigit := .invalidDigit hu.selV hu.fit (hu.meetsBadDigit_iff.2 hbad)
  refine ⟨u.withError errInvalidDigit, ?_, rfl⟩
  rw [hu.execEncode_eq he]
  exact execAll_of_failed (by decide) (by decide) (hcause.exec_eq (hu.err he) (hu.mem.symm ▸ hm))

namespace EncodeEnd

variable {s t : State}

theorem err_eq (h : EncodeEnd s t) : t.status.err = 0#4 ∨ t.status.err = 4#4 ∨ t.status.err = 5#4 := by
  cases h with
  | done h => exact .inl h
  | tooLong _ h => exact .inr (.inl (h ▸ rfl))
  | badDigit _ _ _ h => exact .inr (.inr (h ▸ rfl))

theorem not_fits_of_err (h : EncodeEnd s t) (ht : t.status.err = 4#4) : ¬ s.Fits := by
  cases h with
  | done h => exact absurd (ht.symm.trans h) (by decide)
  | tooLong hfits => exact hfits
  | badDigit _ _ _ h =>
    subst h
    exact absurd ht (show errInvalidDigit ≠ 4#4 by decide)

theorem badDigit_of_err (h : EncodeEnd s t) (hm : s.mem.wf = true) (ht : t.status.err = 5#4) :
    s.Fits ∧ s.MeetsBadDigit := by
  cases h with
  | done h => exact absurd (ht.symm.trans h) (by decide)
  | tooLong _ h =>
    subst h
    exact absurd ht (show errCapacityExceeded ≠ 5#4 by decide)
  | badDigit hfits hu hfail =>
    cases hfail.raises (hu.mem.symm ▸ hm) with
    | invalidDigit _ _ hbad => exact ⟨hfits, hu.meetsBadDigit_iff.1 hbad⟩

end EncodeEnd

/-- Settles O43: each command fails for the causes of the table; `ENCODE` fails as its `SELECT` or its `COMPOSE`
does. -/
theorem commandsRaiseTheirCodes : Obligations.CommandsRaiseTheirCodes := by
  refine ⟨fun i s c hi he hm => exec_eq_withError_iff hi he hm, fun s t he h => (execEncode_next he h).err_eq,
    fun s he hm => ⟨⟨?_, fun hfits => ⟨_, execEncode_of_not_fits he hfits, rfl⟩⟩,
      ⟨?_, fun ⟨hfits, hbad⟩ => execEncode_of_badDigit he hm hfits hbad⟩⟩⟩
  · rintro ⟨t, h, ht⟩
    exact (execEncode_next he h).not_fits_of_err ht
  · rintro ⟨t, h, ht⟩
    exact (execEncode_next he h).badDigit_of_err hm ht

/-- Settles O44: a failed command word left `s` but for `ERR`, and `ENCODE` ends in one of its two failing ways. -/
theorem failedCommandsChangeOnlyErr : Obligations.FailedCommandsChangeOnlyErr := by
  refine ⟨fun s t w rest hs hw he h ht => ?_, fun s t he h ht => ?_⟩
  · rw [step_cmd hs] at h
    exact runWord_failed (s := State.accept { s with inbox := rest } w) hw he h ht
  · cases execEncode_next he h with
    | done h => exact absurd h ht
    | tooLong _ h => exact .inl h
    | badDigit _ hu _ h => exact .inr ⟨_, hu.runs, hu.err he, h⟩

/-! ### The fault log (R1209) -/

/-- What one step may do to the fault log: nothing, or append the code by which `ERR` leaves 0. -/
def State.LogsTo (s t : State) : Prop :=
  t.faultLog = s.faultLog ∨
    ∃ c, c ≠ 0#4 ∧ s.status.err = 0#4 ∧ t.status.err = c ∧ t.faultLog = s.faultLog ++ [.error c]

theorem State.logsTo_withError {s : State} {c : BitVec 4} (he : s.status.err = 0#4) (hc : c ≠ 0#4) :
    s.LogsTo (s.withError c) :=
  .inr ⟨c, hc, he, rfl, rfl⟩

/-- While `ERR` stays 0 the commands of `ENCODE` leave the request's digits, `LEN` and the fault log alone. -/
structure State.RequestKept (s u : State) : Prop where
  len    : u.len = s.len
  digits : u.mem.window .digits = s.mem.window .digits
  log    : u.status.err = 0#4 → u.faultLog = s.faultLog

theorem State.RequestKept.refl (s : State) : s.RequestKept s := ⟨rfl, rfl, fun _ => rfl⟩

theorem State.RequestKept.step {s u t : State} (h : s.RequestKept u) {i : Instr} (hi : i ∈ encodeParts)
    (ht : exec i u = .next t) : s.RequestKept t := by
  have hf := exec_frame ht
  have hdigits : ∀ j ∈ encodeParts, Window.digits ∉ windowsWritten j := by decide
  obtain ⟨hclear, hencode⟩ := ne_of_mem_encodeParts hi
  refine ⟨hf.len.trans h.len, (hf.window .digits (hdigits i hi)).trans h.digits, fun hte => ?_⟩
  have hue := err_eq_zero_of_exec hclear ht hte
  obtain hdone | ⟨c, hfail, rfl⟩ := (exec_answer hue hencode).next_cases ht
  · exact hdone.log.trans (h.log hue)
  · exact absurd hte hfail.code_ne_zero

theorem execEncode_requestKept {s t : State} (h : exec .encode s = .next t) : s.RequestKept t :=
  execEncode_induct (P := s.RequestKept) (fun _ hi _ _ hu ht => hu.step hi ht) (.refl s) h

theorem exec_logsTo {i : Instr} {s t : State} (h : exec i s = .next t) : s.LogsTo t := by
  by_cases he : s.status.err = 0#4
  · by_cases hi : i = .encode
    · subst hi
      cases execEncode_next he h with
      | done ht => exact .inl ((execEncode_requestKept h).log ht)
      | tooLong _ ht => exact ht ▸ State.logsTo_withError he (by decide)
      | badDigit _ hu _ ht =>
        have hlog := ((State.RequestKept.refl s).step (by decide) hu.runs).log (hu.err he)
        subst ht
        exact .inr ⟨errInvalidDigit, by decide, he, rfl, by rw [State.withError_faultLog, hlog]⟩
    · obtain hdone | ⟨c, hfail, rfl⟩ := (exec_answer he hi).next_cases h
      · exact .inl hdone.log
      · exact State.logsTo_withError he hfail.code_ne_zero
  · by_cases hi : i = .clear
    · subst hi
      cases h
      exact .inl rfl
    · rw [exec_ignored hi he] at h
      cases h
      exact .inl rfl

theorem MoveEffect.logsTo {s t : State} (h : MoveEffect s t) : s.LogsTo t := by
  cases h with
  | bus | cfg | len | element | reset => exact .inl rfl
  | command w i h => exact exec_logsTo (s := s.accept w) h
  | illegal w h =>
    obtain rfl | ⟨he, rfl⟩ := illegalWord_next h
    · exact .inl rfl
    · exact State.logsTo_withError (s := s.accept w) he (by decide)

theorem step_logsTo {s t : State} (h : step s = .next t) : s.LogsTo t := by
  unfold step nextMove at h
  split at h
  · cases h
    exact .inl rfl
  · exact (hostMove_effect h).logsTo

/-! ### Where a command stops -/

theorem fault_ne_next (f : Fault) (t : State) : (.fault f : Result) ≠ .next t := nofun

theorem refused_ne_next (x : Refusal) (t : State) : (.refused x : Result) ≠ .next t := nofun

/-- A list of commands of `ENCODE` that ends in no state got to one of them that ends so, past commands that keep
`P`. -/
theorem execAll_ends {P : State → Prop} (hpart : ∀ i ∈ encodeParts, ∀ s t, P s → exec i s = .next t → P t)
    {is : List Instr} (his : ∀ i ∈ is, i ∈ encodeParts) {s : State} {r : Result} (hs : P s) (h : execAll is s = r)
    (hr : ∀ t, r ≠ .next t) : ∃ i ∈ is, ∃ u, P u ∧ exec i u = r := by
  induction is generalizing s with
  | nil => exact absurd h.symm (hr s)
  | cons i is ih =>
    obtain ⟨hi, his⟩ := List.forall_mem_cons.1 his
    rw [execAll] at h
    cases hfirst : exec i s with
    | next u =>
      rw [hfirst] at h
      obtain ⟨j, hj, x, hx, hend⟩ := ih his (hpart i hi s u hs hfirst) h
      exact ⟨j, List.mem_cons_of_mem i hj, x, hx, hend⟩
    | fault f =>
      rw [hfirst] at h
      exact ⟨i, List.mem_cons_self, s, hs, hfirst.trans h⟩
    | refused x =>
      rw [hfirst] at h
      exact ⟨i, List.mem_cons_self, s, hs, hfirst.trans h⟩

/-- A command that ends in no state ran with `ERR` 0 (60_exceptions R1203). -/
theorem err_eq_zero_of_exec_ends {i : Instr} {s : State} {r : Result} (h : exec i s = r) (hr : ∀ t, r ≠ .next t) :
    s.status.err = 0#4 := by
  by_contra he
  by_cases hi : i = .clear
  · subst hi
    exact hr _ h.symm
  · exact hr s (h.symm.trans (exec_ignored hi he))

/-- An `ENCODE` that ends in no state got to one of its commands that ends so, with the request kept. -/
theorem execEncode_ends {s : State} {r : Result} (h : exec .encode s = r) (hr : ∀ t, r ≠ .next t) :
    ∃ i ∈ encodeParts, ∃ u, (s.RequestKept u ∧ (s.Inv → u.Inv)) ∧ exec i u = r := by
  have he := err_eq_zero_of_exec_ends h hr
  rw [exec, execEncode_eq, unlessError_ok he] at h
  exact execAll_ends (P := fun u => s.RequestKept u ∧ (s.Inv → u.Inv))
    (fun i hi u t hu ht => ⟨hu.1.step hi ht, fun hs => exec_inv (hu.2 hs) ht⟩) (fun _ hi => hi)
    ⟨.refl s, id⟩ h hr

theorem exec_fault {i : Instr} (hi : i ≠ .encode) {s : State} {f : Fault} (h : exec i s = .fault f) :
    ∃ u, Stops s i u ∧ f = .unwritten u (s.faultLog ++ [.unwritten u]) :=
  (exec_answer (err_eq_zero_of_exec_ends h (fault_ne_next _)) hi).fault_cases h

/-- The fault of a command carries the old log with the fault appended. -/
theorem exec_fault_log {i : Instr} {s : State} {f : Fault} (h : exec i s = .fault f) :
    ∃ u, f = .unwritten u (s.faultLog ++ [.unwritten u]) := by
  by_cases hi : i = .encode
  · subst hi
    obtain ⟨j, hj, x, ⟨hkept, -⟩, hfault⟩ := execEncode_ends h (fault_ne_next _)
    obtain ⟨u, -, rfl⟩ := exec_fault (ne_of_mem_encodeParts hj).2 hfault
    exact ⟨u, by rw [hkept.log (err_eq_zero_of_exec_ends hfault (fault_ne_next _))]⟩
  · obtain ⟨u, -, hf⟩ := exec_fault hi h
    exact ⟨u, hf⟩

theorem exec_ne_refused (i : Instr) (s : State) (x : Refusal) : exec i s ≠ .refused x := by
  intro h
  by_cases hi : i = .encode
  · subst hi
    obtain ⟨j, hj, u, -, hend⟩ := execEncode_ends h (refused_ne_next _)
    have hu := err_eq_zero_of_exec_ends hend (refused_ne_next _)
    exact (exec_answer hu (ne_of_mem_encodeParts hj).2).ne_refused x hend
  · exact (exec_answer (err_eq_zero_of_exec_ends h (refused_ne_next _)) hi).ne_refused x h

theorem runWord_fault_log {w : Word} {s : State} {f : Fault} (h : runWord w s = .fault f) :
    ∃ u, f = .unwritten u (s.faultLog ++ [.unwritten u]) := by
  unfold runWord at h
  split at h
  · exact exec_fault_log h
  · cases (unlessError_fault h).2

/-- Only a write of a command word can stop. -/
theorem busWrite_fault {a : Addr} {width : Nat} {d : Word} {s : State} {f : Fault}
    (h : busWrite a width d s = .fault f) : runWord d (s.accept d) = .fault f := by
  unfold busWrite at h
  split at h
  · split at h
    · exact h
    all_goals cases h
  · cases h

theorem step_fault_log {s : State} {f : Fault} (h : step s = .fault f) :
    ∃ u, f = .unwritten u (s.faultLog ++ [.unwritten u]) := by
  unfold step nextMove at h
  split at h
  · cases h
  · next m rest hs =>
    cases m with
    | read | reset => cases h
    | write a width d => exact runWord_fault_log (s := State.accept { s with inbox := rest } d) (busWrite_fault h)

/-- Settles O46: what one command, one illegal word and one move do to the log, and what the fault of a command
carries. -/
theorem faultLogOnlyGrows : Obligations.FaultLogOnlyGrows :=
  ⟨fun _ _ => step_logsTo, fun _ _ => step_fault_log⟩

end Sys2Proof.Machine
end

section
/-! SUPPORT. Which commands can stop in a state that meets the invariant (20_memory R213, 60_exceptions R1209): the
flags vouch for the windows, so only `COMPOSE`'s digits and `RS_ENCODE`'s bytes can be unwritten. -/

-- One theorem at a time: each proof in flight holds a thread's whole stack.
set_option Elab.async false

namespace Sys2Proof.Machine

/-! ### Appending bits that fit answers -/

namespace Stream.CursorOk

variable {st : Stream} (h : st.CursorOk)
include h

theorem exists_appendBits {bs : List Bool} (hcap : st.cur + bs.length ≤ 8 * Config.bsCap) :
    ∃ st', Machine.appendBits bs st = .ok st' := by
  obtain ⟨st', hst, -⟩ := appendBits_spec bs hcap h.isOpen
  exact ⟨st', hst⟩

theorem exists_appendField {w : Nat} (x : Nat) (hcap : st.cur + w ≤ 8 * Config.bsCap) :
    ∃ st', Machine.appendField w x st = .ok st' :=
  h.exists_appendBits (by rwa [bitsOf_length])

theorem exists_terminate {n : Nat} (hn : n ≤ Config.bsCap) : ∃ st', Machine.terminate (8 * n) st = .ok st' := by
  have hle := h.1
  have hcap : st.cur + min 4 (8 * n - st.cur) + (8 - (st.cur + min 4 (8 * n - st.cur)) % 8) % 8 ≤ 8 * Config.bsCap := by
    omega
  rw [terminate_eq rfl hcap h.isOpen]
  exact h.exists_appendBits (by rw [List.length_replicate, ← Nat.add_assoc]; exact hcap)

theorem exists_padStream {n : Nat} (hn : n ≤ Config.bsCap) : ∃ st', Machine.padStream (8 * n) st = .ok st' := by
  have hle := h.1
  rw [padStream_eq]
  exact h.exists_appendBits (by rw [padBits_length]; omega)

end Stream.CursorOk

theorem exists_composeStream {e : Entry} {ds : List Nat} {n : Nat} (m : Memory) (he : e.dataCw.toNat ≤ 2956)
    (hn : ds.length = n) (hfit : 4 + e.cci.toNat + contentBits n ≤ e.capBits) :
    ∃ st, composeStream e n ds m = .ok st := by
  subst hn
  rw [← headBits_length] at hfit
  have hzero : (Stream.zeroed m).cur = 0 := rfl
  rw [composeStream_eq m he hfit]
  refine (zeroed_cursorOk m).exists_appendBits ?_
  rw [hzero, composedBits_length hfit, Nat.zero_add]
  exact Entry.capBits_le he

/-! ### What the flags vouch for -/

namespace State.Inv

variable {s : State} (h : s.Inv)
include h

theorem selV_of_matV (hmat : s.status.matV = true) : s.status.selV = true := by
  obtain ⟨-, -, -, hsel, -⟩ := h.chained
  exact hsel hmat

/-- The stream `BS_V` vouches for is written. -/
theorem written_bs (hbs : s.status.bsV = true) : s.mem.Written .bs s.entry.dataCw.toNat := by
  have hcap : 8 * s.entry.dataCw.toNat ≤ s.cur.toNat := h.bs hbs
  exact fun i hi => h.cursor.2 i (by omega)

variable (he : s.status.err = 0#4)
include he

theorem rsAll_completes (hsel : s.status.selV = true) (hbs : s.status.bsV = true) : ∃ t, exec .rsAll s = .next t := by
  obtain ⟨t, ht, -⟩ := rsAllEncodesEveryBlock s he hsel hbs h.canonical (h.selected hsel) (h.written_bs hbs)
  exact ⟨t, ht⟩

theorem interleave_completes (hsel : s.status.selV = true) (hbs : s.status.bsV = true) (hec : s.status.ecV = true) :
    ∃ t, exec .interleave s = .next t := by
  obtain ⟨t, ht, -⟩ := interleaveIsTheClosedForm s he hsel hbs hec (h.selected hsel) (h.written_bs hbs) (h.ecb hec)
  exact ⟨t, ht⟩

theorem place_completes (hmat : s.status.matV = true) (hilv : s.status.ilvV = true) (m : BitVec 3) :
    ∃ t, exec (.place m) s = .next t := by
  have hentry := h.selected (h.selV_of_matV hmat)
  obtain ⟨hv, hmax⟩ := hentry.ver_range
  obtain ⟨t, ht, -⟩ := placeBuildsTheCandidate.2 s m he hmat hilv h.canonical hv hmax hentry.sound.totalCw_le
    (h.mat hmat) (h.ilv hilv)
  exact ⟨t, ht⟩

theorem score_completes (hwm : s.status.wmV = true) : ∃ t, exec .score s = .next t := by
  have hentry := h.selected (h.chained.selV_of_wmV hwm)
  obtain ⟨cells, hread⟩ := (h.wm hwm).readList h.canonical le_rfl
  obtain ⟨-, ht⟩ := scoreScoresTheSymbol.2 s cells he hwm h.canonical hentry.ver_range.2 hread
  exact ⟨_, ht⟩

theorem maskSelect_completes (hmat : s.status.matV = true) (hilv : s.status.ilvV = true) :
    ∃ t, exec .maskSelect s = .next t := by
  have hentry := h.selected (h.selV_of_matV hmat)
  obtain ⟨t, -, ht, -⟩ := maskSelectPicksTheLowest s he hmat hilv h.canonical hentry.ver_range.2
    hentry.sound.totalCw_le (h.mat hmat) (h.ilv hilv)
  exact ⟨t, ht⟩

end State.Inv

/-! ### The reads that can stop -/

/-- The reads that can stop a command other than `ENCODE` in a reachable state. -/
inductive State.InputMissing (s : State) : Instr → Unwritten → Prop
  | digit {k} (hk : k < s.len.toNat) (hread : s.mem.read? .digits k = none) : InputMissing s .compose ⟨.digits, k⟩
  | byte {o l k} (hlo : o.toNat ≤ k) (hhi : k < o.toNat + l.toNat) (hread : s.mem.read? .bs k = none) :
      InputMissing s (.rsEncode o l) ⟨.bs, k⟩

/-- With the invariant every other read finds its elements written. -/
theorem Stops.inputMissing {s : State} {i : Instr} {u : Unwritten} (h : Stops s i u) (hs : s.Inv) {f : Fault}
    (hfault : exec i s = .fault f) : s.InputMissing i u := by
  have he := err_eq_zero_of_exec_ends hfault (fault_ne_next _)
  have hruns {t : State} (ht : exec i s = .next t) : s.InputMissing i u :=
    absurd (hfault.symm.trans ht) (fault_ne_next f t)
  cases h with
  | digit hscan =>
    obtain ⟨hk, hread⟩ := State.unwritten_of_scanDigits_stopped hs.canonical hscan
    exact .digit hk hread
  | byte hds =>
    obtain ⟨k, hlo, hhi, rfl, hread⟩ := Memory.readList_eq_error hs.canonical hds
    exact .byte hlo hhi hread
  | composed hsel hfit hscan hst =>
    obtain ⟨st, hok⟩ := exists_composeStream s.mem (hs.dataCw_le hsel) (length_of_scanDigits hscan) hfit
    exact absurd (hok.symm.trans hst) nofun
  | appended hsel hfit hst =>
    obtain ⟨st, hok⟩ := Stream.CursorOk.exists_appendField (st := s.stream) hs.cursor _
      (hfit.trans (Entry.capBits_le (hs.dataCw_le hsel)))
    exact absurd (hok.symm.trans hst) nofun
  | terminated hsel hst =>
    obtain ⟨st, hok⟩ := Stream.CursorOk.exists_terminate (st := s.stream) hs.cursor (hs.dataCw_le hsel)
    exact absurd (hok.symm.trans hst) nofun
  | padded hsel hst =>
    obtain ⟨st, hok⟩ := Stream.CursorOk.exists_padStream (st := s.stream) hs.cursor (hs.dataCw_le hsel)
    exact absurd (hok.symm.trans hst) nofun
  | coefficient hgen hg =>
    obtain ⟨-, hle, hwritten⟩ := hs.gen hgen
    obtain ⟨g, hok⟩ := hwritten.readList hs.canonical (Nat.succ_le_succ hle)
    exact absurd (hok.symm.trans hg) nofun
  | block hsel hbs =>
    obtain ⟨t, ht⟩ := hs.rsAll_completes he hsel hbs
    exact hruns ht
  | codeword hsel hbs hec =>
    obtain ⟨t, ht⟩ := hs.interleave_completes he hsel hbs hec
    exact hruns ht
  | placed hmat hilv =>
    obtain ⟨t, ht⟩ := hs.place_completes he hmat hilv _
    exact hruns ht
  | scored hwm =>
    obtain ⟨t, ht⟩ := hs.score_completes he hwm
    exact hruns ht
  | selected hmat hilv =>
    obtain ⟨t, ht⟩ := hs.maskSelect_completes he hmat hilv
    exact hruns ht

/-- In a state that meets the invariant a command other than `ENCODE` stops at an input never written only. -/
theorem exec_fault_of_inv {i : Instr} (hi : i ≠ .encode) {s : State} (hs : s.Inv) {f : Fault}
    (h : exec i s = .fault f) : ∃ u, s.InputMissing i u ∧ f = .unwritten u (s.faultLog ++ [.unwritten u]) := by
  obtain ⟨u, hstop, hf⟩ := exec_fault hi h
  exact ⟨u, hstop.inputMissing hs h, hf⟩

/-- `ENCODE` stops as its `COMPOSE` does, and the digit is one of the request. -/
theorem execEncode_fault_of_inv {s : State} (hs : s.Inv) {f : Fault} (h : exec .encode s = .fault f) :
    ∃ k, f = .unwritten ⟨.digits, k⟩ (s.faultLog ++ [.unwritten ⟨.digits, k⟩]) ∧ k < s.len.toNat ∧
      s.mem.read? .digits k = none := by
  obtain ⟨j, hj, x, ⟨hkept, hinv⟩, hfault⟩ := execEncode_ends h (fault_ne_next _)
  obtain ⟨u, hmissing, rfl⟩ := exec_fault_of_inv (ne_of_mem_encodeParts hj).2 (hinv hs) hfault
  cases hmissing with
  | digit hk hread =>
    rw [hkept.len] at hk
    rw [Memory.read?_congr hkept.digits] at hread
    rw [hkept.log (err_eq_zero_of_exec_ends hfault (fault_ne_next _))]
    exact ⟨_, rfl, hk, hread⟩
  | byte => exact absurd hj (by simp [encodeParts])

/-- Settles O48: every read but those of `COMPOSE`'s digits and `RS_ENCODE`'s bytes is vouched for by a flag. -/
theorem onlyThreeCommandsCanStop : Obligations.OnlyThreeCommandsCanStop := by
  refine ⟨fun s i f hs h => ?_, fun s i => exec_ne_refused i s⟩
  by_cases hi : i = .encode
  · subst hi
    obtain ⟨k, hf, hk, hread⟩ := execEncode_fault_of_inv hs h
    exact .inl ⟨k, hf, hk, hread, .inr rfl⟩
  · obtain ⟨u, hmissing, rfl⟩ := exec_fault_of_inv hi hs h
    cases hmissing with
    | digit hk hread => exact .inl ⟨_, rfl, hk, hread, .inl rfl⟩
    | byte hlo hhi hread => exact .inr ⟨_, _, _, rfl, rfl, hlo, hhi, hread⟩

end Sys2Proof.Machine
end

section
/-! SUPPORT. The status stays legal whatever the rest of the state holds (60_exceptions R1201, 10_state R134, R138): one
rule per effect of a command, then per move of the host. -/

-- One theorem at a time: each proof in flight holds a thread's whole stack.
set_option Elab.async false

namespace Sys2Proof.Machine

/-- `ERR` holds a code of R1201's table or 0, and every flag comes with those it implies. -/
def Status.Legal (t : Status) : Prop := t.err.toNat ≤ 7 ∧ t.Chained

theorem Status.Chained.selected {t : Status} (h : t.Chained) (hmat : t.matV = true) (hilv : t.ilvV = true) :
    t.selected.Chained := by
  obtain ⟨hbs, hec, hec', hsel, hzz, hdone, -⟩ := h
  exact ⟨hbs, hec, hec', hsel, hzz, hdone, fun _ => ⟨hmat, hilv⟩, fun _ => rfl, fun _ => rfl, fun _ => rfl⟩

theorem CommandEffect.legal {i : Instr} {s t : State} (hs : s.status.Legal) (h : CommandEffect s i t) :
    t.status.Legal := by
  obtain ⟨hcode, hchain⟩ := hs
  cases h with
  | ignored | nop | gfInit | gfMul | verCalc | fmtCalc | rsEncode | zzNext => exact ⟨hcode, hchain⟩
  | failed c _ hc => exact ⟨hc.2, hchain⟩
  | clear => exact ⟨Nat.zero_le 7, .zero⟩
  | capLookup | select => exact ⟨hcode, (Status.Chained.invSel _).setSel⟩
  | compose hsel => exact ⟨hcode, hchain.invBs.setBs hsel⟩
  | bsReset | bsAppend | bsTerminate => exact ⟨hcode, hchain.invBs⟩
  | bsPad hsel => exact ⟨hcode, hchain.invBs.setBs hsel⟩
  | genPoly => exact ⟨hcode, hchain.setGen⟩
  | rsAll _ hbs => exact ⟨hcode, hchain.invEc.setGen.setEc hbs⟩
  | interleave _ _ hec => exact ⟨hcode, hchain.invIlv.setIlv hec⟩
  | build hsel => exact ⟨hcode, hchain.invMat.setMat hsel⟩
  | zzReset hmat => exact ⟨hcode, hchain.setZz hmat⟩
  | zzDone hzz => exact ⟨hcode, hchain.setZzDone hzz⟩
  | place hmat hilv ht =>
    rw [placeMask_status ht]
    exact ⟨hcode, hchain.setPlaced hmat hilv⟩
  | score hwm ht =>
    rw [scoreMask_status ht]
    exact ⟨hcode, hchain.setScored hwm _⟩
  | maskSelect hmat hilv ht =>
    rw [selectMask_status ht]
    exact ⟨hcode, hchain.selected hmat hilv⟩

theorem MoveEffect.legal {s t : State} (hs : s.status.Legal) (h : MoveEffect s t) : t.status.Legal := by
  have ⟨hcode, hchain⟩ := hs
  cases h with
  | bus => exact hs
  | command w i h =>
    exact exec_induct (P := fun s => s.status.Legal) (fun _ _ _ hs he => he.legal hs) (s := s.accept w) hs h
  | illegal w h =>
    obtain rfl | ⟨-, rfl⟩ := illegalWord_next h
    · exact hs
    · exact ⟨show errIllegalCmd.toNat ≤ 7 by decide, hchain⟩
  | cfg | len => exact ⟨hcode, .invSel _⟩
  | element => exact ⟨hcode, hchain.invBs⟩
  | reset => exact ⟨Nat.zero_le 7, .zero⟩

/-- Settles O56: every effect of a command and every move of the host keeps the status legal. -/
theorem statusStaysLegal : Obligations.StatusStaysLegal := fun _ _ hcode hchain h =>
  step_induct (P := fun s => s.status.Legal) (fun _ _ hs => hs) (fun _ _ hs hm => hm.legal hs) ⟨hcode, hchain⟩ h

end Sys2Proof.Machine
end
